-- ==== Sys2Proof/Word.lean ====
section
/-! DEFINITION. The words and the numbers of the part (00_scope.md "Numbering": ports A to D, permits, terms, channels,
lines, groups, tick sources and watch slots are numbered from 0). -/

namespace Sys2Proof

/-- A byte on a port's serial lines (R163). -/
abbrev Byte := BitVec 8
/-- Sixteen bits: a set of lines or permits, an epoch, a 2-byte number (R171). -/
abbrev Word16 := BitVec 16
/-- The pass count, 0 to 4294967295, wrapping (R39). -/
abbrev PassCount := BitVec 32

/-- A port, 0 to 3 for A to D (R171). -/
abbrev Port := Fin 4
/-- A permit, 0 to 15. -/
abbrev PermitId := Fin 16
/-- A term, 0 to 23. -/
abbrev TermId := Fin 24
/-- A channel, 0 to 11; an AIN pin has the same range (R2). -/
abbrev ChannelId := Fin 12
/-- A discrete line, 0 to 15. -/
abbrev LineId := Fin 16
/-- An exclusion group, 0 to 3. -/
abbrev GroupId := Fin 4
/-- A tick source, 0 to 3. -/
abbrev SourceId := Fin 4
/-- A watch slot, 0 or 1. -/
abbrev SlotId := Fin 2

end Sys2Proof
end

