-- ==== Sys2Proof/Config.lean ====
section
/-! DEFINITION. The fixed numbers of the part and its one free value. -/

namespace Sys2Proof.Config

/-- The fixed division of REFCLK that gives one base tick (R93). -/
def baseDivision : Nat := 800
/-- A notice queue holds up to this many notices (R178). -/
def queueDepth : Nat := 8
/-- The greatest payload length a frame may name (R166). -/
def maxPayload : Nat := 32
/-- The default dividers of the TICK table (R94). -/
def defaultDividers : Vector Nat 4 := #v[10, 100, 1000, 10000]

/-- FREE VALUE (log entry 14). The bytes 6 to 9 of the notice record that READ_NOTICE sends when the queue is empty: the manual
gives a pass count to every notice that was made (R174) and says nothing of NONE, which nobody made. The model applies
it to a counter in State, so each such byte is fresh. -/
opaque freeByte : Nat → Byte

end Sys2Proof.Config
end

