-- ==== Sys2Proof/Syntax.lean ====
section
/-! DEFINITION. The commands of the part: one constructor for each row of spec/opcode_table.json (R-numbers as the table gives them). A
request's operands are the bytes of its payload as R172, R174 and R175 lay them out, so every value a controller can put on the
wire, out-of-range ones included, is an operand. The commands that are arrivals between two blocks take what the sending
block left in flight (State.flight); see log entry 1. -/

namespace Sys2Proof

/-- The two blocks that take a change of engine state (R126). -/
inductive EngineConsumer where
  | permitTable | scanUnit
deriving DecidableEq, Repr

/-- The three blocks that make notices (R177). -/
inductive NoticeMaker where
  | permitTable | tripUnit | engineController
deriving DecidableEq, Repr

/-- A trigger event's tick, as the scan unit takes it (R10, R11). -/
inductive TriggerTick where
  | base
  | source (src : SourceId)
deriving DecidableEq, Repr

/-- What a command of a port's transactions carries: a whole transaction, from the chip select becoming active to its becoming
inactive, with the bytes shifted in after the kind byte; or one part of it, so that other commands may come between (R163, R168 to
R170; log 19). -/
inductive TransactionPart where
  /-- The whole transaction. -/
  | whole (bytesIn : List Byte)
  /-- The chip select becomes active. -/
  | opening
  /-- The kind byte has been received. -/
  | kindByte
  /-- Bytes after the kind byte. -/
  | bytes (bytesIn : List Byte)
  /-- The chip select becomes inactive. -/
  | closing
deriving DecidableEq, Repr

/-- One source of a TERM entry on the wire: its kind byte and three argument bytes (R175). -/
structure RawSource where
  kind : Byte
  arg1 : Byte
  arg2 : Byte
  arg3 : Byte
deriving DecidableEq, Repr

/-- The commands: pin events, clock and converter events, the arrivals inside the part, the transactions of a port, and the
requests. -/
inductive Instr where
  /-- R144. -/
  | powerOn
  /-- R143: RESET_N is recognised active. -/
  | resetNActive
  /-- R144: RESET_N becomes inactive. -/
  | resetEnd
  /-- R111. -/
  | tripInActive
  /-- R111. -/
  | tripInInactive
  /-- R93. -/
  | baseTick
  /-- R94, R95: one tick that the source has produced arrives at the scan unit. -/
  | sourceTick (src : SourceId)
  /-- R96. -/
  | tickAtPermitTable (src : SourceId)
  /-- R56: the tick at which the group's settling ends. -/
  | settleEnd (group : GroupId)
  /-- R98: the tick at which the port's holding of the permit becomes LATE. -/
  | late (permit : PermitId) (port : Port)
  /-- R101: the tick that ends the port's LATE holding alone. -/
  | leaseExpiryRelease (permit : PermitId) (port : Port)
  /-- R102: the tick at which the port's LATE holding locks the permit. -/
  | leaseExpiryLock (permit : PermitId) (port : Port)
  /-- R103: the tick at which the port's LATE holding hands the cause LEASE to the trip unit. -/
  | leaseExpiryTrip (permit : PermitId) (port : Port)
  /-- R81: the tick at which the port's claim on the permit ends. -/
  | waitExpired (permit : PermitId) (port : Port)
  /-- R113. -/
  | tickAtTripUnit
  /-- R113: the tick of source 0 at which the deadline counter reaches 0. -/
  | passDeadline
  /-- R10, R11: the scan unit takes a tick of its trigger. -/
  | runScanStart (tick : TriggerTick)
  /-- R1, R4: a conversion completes; `ain` are the potentials of the pins AIN0 to AIN11 above AGND, in steps of an unsigned sample
  (log 7). -/
  | conversion (ain : Vector Int 12)
  /-- R33: the scan completes; `din` and `pfb` are the levels of the DIN and PFB pins at that instant, bit n for pin n. -/
  | pass (din pfb : Word16)
  /-- R50. -/
  | passResult
  /-- R112. -/
  | faultReport
  /-- R113. -/
  | deadlineRestart
  /-- R38. -/
  | passEndReport
  /-- R58, R126. -/
  | engineStateChange (consumer : EngineConsumer)
  /-- R110. -/
  | tripCauseArrival
  /-- R60. -/
  | permitTripEntry
  /-- R61. -/
  | permitTripClearing
  /-- R178: the oldest notice of the maker for the port reaches the port's queue. -/
  | noticeArrival (maker : NoticeMaker) (port : Port)
  /-- R163, R164: a transaction with the given kind byte. -/
  | status (port : Port) (kind : Byte) (part : TransactionPart)
  /-- R168: a FETCH, in which as many bytes are shifted out after the status byte as are shifted in. -/
  | fetch (port : Port) (part : TransactionPart)
  /-- R166: a REQUEST transaction. -/
  | frameError (port : Port) (part : TransactionPart)
  /-- R167: a REQUEST transaction. -/
  | frameDiscarded (port : Port) (part : TransactionPart)
  /-- R182. -/
  | readStatus (port : Port)
  /-- R180. -/
  | readNotice (port : Port)
  /-- R156. -/
  | readEntry (port : Port) (table index : Byte)
  /-- R20. -/
  | readChannel (port : Port) (channel : Byte)
  /-- R21. -/
  | readLines (port : Port)
  /-- R41. -/
  | readTerms (port : Port)
  /-- R64. -/
  | readPermit (port : Port) (permit : Byte)
  /-- R121. -/
  | readTrip (port : Port)
  /-- R138. -/
  | readHaltRecord (port : Port)
  /-- R68. -/
  | claim (port : Port) (permit priority wait : Byte) (epoch : Word16)
  /-- R82. -/
  | release (port : Port) (permit : Byte)
  /-- R99. -/
  | refresh (port : Port) (permit : Byte)
  /-- R100. -/
  | refreshAll (port : Port)
  /-- R63. -/
  | revoke (port : Port) (permit : Byte)
  /-- R62. -/
  | unlock (port : Port) (permit : Byte)
  /-- R118. -/
  | trip (port : Port)
  /-- R119. -/
  | clearTrip (port : Port)
  /-- R127. -/
  | halt (port : Port)
  /-- R129. -/
  | resume (port : Port)
  /-- R132. -/
  | step (port : Port)
  /-- R139: the reading is the 2-byte signed number of the payload. -/
  | injectChannel (port : Port) (channel : Byte) (reading : Word16)
  /-- R140. -/
  | injectLine (port : Port) (line level : Byte)
  /-- R140. -/
  | clearInject (port : Port) (selection number : Byte)
  /-- R138. -/
  | clearHaltRecord (port : Port)
  /-- R141. -/
  | softReset (port : Port)
  /-- R143. -/
  | hardReset (port : Port)
  /-- R3: the CHANNEL entry of R175. -/
  | writeChannelEntry (port : Port) (index flags positive negative count : Byte) (lower upper : Word16) (hysteresis : Byte)
  /-- R15. -/
  | writeLineEntry (port : Port) (index flags filter : Byte)
  /-- R23. -/
  | writeTermEntry (port : Port) (index flags stage q truth : Byte) (srcA srcB srcC : RawSource)
  /-- R43. -/
  | writePermitEntry (port : Port) (index flags term mode limit group source expiry loss : Byte)
  /-- R44. -/
  | writeGroupEntry (port : Port) (index settle source : Byte)
  /-- R147. -/
  | writeProfileEntry (port : Port) (index rights : Byte) (mask : Word16) (ceiling : Byte)
  /-- R94. -/
  | writeTickEntry (port : Port) (index : Byte) (divider : Word16)
  /-- R148. -/
  | writeEngineEntry (port : Port) (index trigger deadline supervision : Byte)
  /-- R134. -/
  | writeWatchEntry (port : Port) (index flags kind term edge : Byte)
deriving DecidableEq, Repr

end Sys2Proof
end

