-- ==== Sys2Proof/Decode.lean ====
section
/-! DEFINITION. The frames of a port, from their bytes (R165, R166, R171, R172), and the table's words. No row of
spec/opcode_table.json carries bits (its "fields" are empty and it gives no fixed bits), so `decodeTableWord` spells no command. -/

namespace Sys2Proof

/-- One shift of the CRC-8 register, generator x^8 + x^2 + x + 1, most significant bit first (R171). -/
def crcShift (r : Byte) : Byte :=
  if r.msb then (r <<< 1) ^^^ 0x07#8 else r <<< 1

/-- The CRC-8 register after one byte (R171). -/
def crcByte (r b : Byte) : Byte :=
  crcShift (crcShift (crcShift (crcShift (crcShift (crcShift (crcShift (crcShift (r ^^^ b))))))))

/-- The check value of a string of bytes: initial value 00H, no reflection, no final inversion (R171). -/
def checkByte (bytes : List Byte) : Byte :=
  bytes.foldl crcByte 0#8

/-- The reasons of a FRAME_ERROR (R166, R173). -/
inductive FrameFault where
  | check | length | unknownCode | truncated
deriving DecidableEq, Repr

/-- R173: the payload byte of FRAME_ERROR. -/
def FrameFault.code : FrameFault → Byte
  | .check => 0x01#8
  | .length => 0x02#8
  | .unknownCode => 0x03#8
  | .truncated => 0x04#8

/-- R172: the payload length of each request code; for WRITE_ENTRY `none`, as its length depends on the table. -/
def fixedLength (code : Byte) : Option (Option Nat) :=
  match code.toNat with
  | 0x01 => some (some 0)
  | 0x02 => some (some 0)
  | 0x03 => some (some 2)
  | 0x04 => some (some 1)
  | 0x05 => some (some 0)
  | 0x06 => some (some 0)
  | 0x07 => some (some 1)
  | 0x08 => some (some 0)
  | 0x09 => some (some 0)
  | 0x10 => some (some 5)
  | 0x11 => some (some 1)
  | 0x12 => some (some 1)
  | 0x13 => some (some 0)
  | 0x14 => some (some 1)
  | 0x15 => some (some 1)
  | 0x20 => some (some 0)
  | 0x21 => some (some 0)
  | 0x30 => some (some 0)
  | 0x31 => some (some 0)
  | 0x32 => some (some 0)
  | 0x33 => some (some 3)
  | 0x34 => some (some 2)
  | 0x35 => some (some 2)
  | 0x36 => some (some 0)
  | 0x37 => some (some 0)
  | 0x38 => some (some 0)
  | 0x40 => some none
  | _ => none

/-- R172: the entry length of each table code. -/
def entryLength (table : Byte) : Option Nat :=
  match table.toNat with
  | 0 => some 9
  | 1 => some 2
  | 2 => some 16
  | 3 => some 8
  | 4 => some 2
  | 5 => some 4
  | 6 => some 2
  | 7 => some 3
  | 8 => some 4
  | _ => none

/-- R166 check 5: the payload has the length that section 9.7 gives for its code. -/
def lengthFits (fixed : Option Nat) (payload : List Byte) : Bool :=
  match fixed with
  | some n => payload.length == n
  | none =>
    match payload with
    | [] => false
    | t :: _ =>
      match entryLength t with
      | some n => payload.length == 2 + n
      | none => decide (2 ≤ payload.length)

/-- What a port unit makes of the bytes of a REQUEST transaction (R166): a frame error with the code to echo, or a
well-formed frame's code and payload. -/
inductive FrameVerdict where
  | failed (reason : FrameFault) (echo : Byte)
  | wellFormed (code : Byte) (payload : List Byte)
deriving DecidableEq, Repr

/-- R166: the five checks in their order. -/
def judgeFrame (bytes : List Byte) : FrameVerdict :=
  match bytes with
  | [] => .failed .truncated 0#8
  | [code] => .failed .truncated code
  | code :: len :: rest =>
    if Config.maxPayload < len.toNat then .failed .length code
    else
      let payload := rest.take len.toNat
      match rest.drop len.toNat with
      | [] => .failed .truncated code
      | check :: _ =>
        if check ≠ checkByte (code :: len :: payload) then .failed .check code
        else
          match fixedLength code with
          | none => .failed .unknownCode code
          | some fixed => if lengthFits fixed payload then .wellFormed code payload else .failed .length code

/-- A TERM source's four bytes. -/
def rawSource (k a b c : Byte) : RawSource := ⟨k, a, b, c⟩

/-- R172, R175: the WRITE_ENTRY request of a table code, an index and the entry's bytes; none where the code names no
table. -/
def decodeWrite (port : Port) (table index : Byte) (entry : List Byte) : Option Instr :=
  match table.toNat, entry with
  | 0, [f, p, n, a, l1, l0, u1, u0, h] => some (.writeChannelEntry port index f p n a (l1 ++ l0) (u1 ++ u0) h)
  | 1, [f, q] => some (.writeLineEntry port index f q)
  | 2, [f, st, q, tt, a0, a1, a2, a3, b0, b1, b2, b3, c0, c1, c2, c3] =>
    some (.writeTermEntry port index f st q tt (rawSource a0 a1 a2 a3) (rawSource b0 b1 b2 b3) (rawSource c0 c1 c2 c3))
  | 3, [f, t, m, l, g, ts, e, ls] => some (.writePermitEntry port index f t m l g ts e ls)
  | 4, [v, ts] => some (.writeGroupEntry port index v ts)
  | 5, [r, m1, m0, c] => some (.writeProfileEntry port index r (m1 ++ m0) c)
  | 6, [d1, d0] => some (.writeTickEntry port index (d1 ++ d0))
  | 7, [t, d, o] => some (.writeEngineEntry port index t d o)
  | 8, [f, k, t, e] => some (.writeWatchEntry port index f k t e)
  | _, _ => none

/-- R172: the request that a well-formed frame carries; none for a WRITE_ENTRY whose table code names no table. -/
def decodeRequest (port : Port) (code : Byte) (payload : List Byte) : Option Instr :=
  match code.toNat, payload with
  | 0x01, [] => some (.readStatus port)
  | 0x02, [] => some (.readNotice port)
  | 0x03, [t, i] => some (.readEntry port t i)
  | 0x04, [c] => some (.readChannel port c)
  | 0x05, [] => some (.readLines port)
  | 0x06, [] => some (.readTerms port)
  | 0x07, [p] => some (.readPermit port p)
  | 0x08, [] => some (.readTrip port)
  | 0x09, [] => some (.readHaltRecord port)
  | 0x10, [p, q, w, e1, e0] => some (.claim port p q w (e1 ++ e0))
  | 0x11, [p] => some (.release port p)
  | 0x12, [p] => some (.refresh port p)
  | 0x13, [] => some (.refreshAll port)
  | 0x14, [p] => some (.revoke port p)
  | 0x15, [p] => some (.unlock port p)
  | 0x20, [] => some (.trip port)
  | 0x21, [] => some (.clearTrip port)
  | 0x30, [] => some (.halt port)
  | 0x31, [] => some (.resume port)
  | 0x32, [] => some (.step port)
  | 0x33, [c, r1, r0] => some (.injectChannel port c (r1 ++ r0))
  | 0x34, [n, l] => some (.injectLine port n l)
  | 0x35, [k, n] => some (.clearInject port k n)
  | 0x36, [] => some (.clearHaltRecord port)
  | 0x37, [] => some (.softReset port)
  | 0x38, [] => some (.hardReset port)
  | 0x40, t :: i :: entry => decodeWrite port t i entry
  | _, _ => none

/-- The command that a word of spec/opcode_table.json spells: none, since no row of the table carries bits. -/
def decodeTableWord (_nbits _w : Nat) : Option Instr := none

end Sys2Proof
end

