-- ==== Sys2Proof/Machine/State.lean ====
section
/-! DEFINITION. The state of the part, block by block (00_scope.md "Functional overview"), as plain data, and the state after
reset (R144). Values that the manual makes a function of others at every moment (permit states and blocking reasons R48,
commanded levels R57, attention lines R179, TRIP_OUT_N R117) are computed in Flags.lean and stored nowhere. -/

namespace Sys2Proof.Machine

/-! Configuration entries (chapter 8). -/

/-- R2. `negative` is none for GROUND. -/
structure ChannelEntry where
  enabled : Bool
  positive : ChannelId
  negative : Option ChannelId
  count : Nat
  lower : Int
  upper : Int
  hysteresis : Nat
  railCheck : Bool
  tripOnFault : Bool
deriving DecidableEq, Repr

/-- R15: the filter of a line. -/
inductive LineFilter where
  | none
  | qualify (q : Nat)
deriving DecidableEq, Repr

/-- R15. -/
structure LineEntry where
  enabled : Bool
  filter : LineFilter
deriving DecidableEq, Repr

/-- R22: a source of a term. -/
inductive Source where
  | zero
  | term (k : TermId)
  | line (n : LineId)
  | lineSet (mask : Word16) (allHigh : Bool)
  | channel (c : ChannelId) (below inside above : Bool)
  | held (p : PermitId)
deriving DecidableEq, Repr

/-- R22: the output stage of a term. -/
inductive OutputStage where
  | direct
  | qualify (q : Nat)
  | rise
  | fall
deriving DecidableEq, Repr

/-- R22. Bit n of `truth` is entry n of the truth table. -/
structure TermEntry where
  enabled : Bool
  sourceA : Source
  sourceB : Source
  sourceC : Source
  truth : Byte
  stage : OutputStage
  initial : Bool
deriving DecidableEq, Repr

/-- R42. -/
inductive PermitMode where
  | exclusive | shared
deriving DecidableEq, Repr

/-- R42, section 5.5. -/
inductive ExpiryAction where
  | release | lock | trip
deriving DecidableEq, Repr

/-- R42, R51, R52. -/
inductive LossAction where
  | drop | lock
deriving DecidableEq, Repr

/-- R42. -/
structure PermitEntry where
  enabled : Bool
  term : TermId
  mode : PermitMode
  limit : Nat
  group : Option GroupId
  source : SourceId
  lease : Bool
  expiry : ExpiryAction
  loss : LossAction
  readback : Bool
deriving DecidableEq, Repr

/-- R44. -/
structure GroupEntry where
  settle : Nat
  source : SourceId
deriving DecidableEq, Repr

/-- R147. Bit p of `mask` is permit p. -/
structure Profile where
  configure : Bool
  maintain : Bool
  clear : Bool
  mask : Word16
  ceiling : Fin 4
deriving DecidableEq, Repr

/-- R148: the scan trigger. -/
inductive ScanTrigger where
  | free
  | tick (src : SourceId)
deriving DecidableEq, Repr

/-- R104, R148. -/
inductive Supervision where
  | freeze | run
deriving DecidableEq, Repr

/-- R148. -/
structure EngineEntry where
  trigger : ScanTrigger
  deadline : Nat
  supervision : Supervision
deriving DecidableEq, Repr

/-- R134. -/
inductive WatchEdge where
  | rise | fall | either
deriving DecidableEq, Repr

/-- R134. -/
inductive WatchKind where
  | termEdge (term : TermId) (edge : WatchEdge)
  | anyFault
deriving DecidableEq, Repr

/-- R134. -/
structure WatchEntry where
  enabled : Bool
  kind : WatchKind
deriving DecidableEq, Repr

/-- The configuration store (R146). The TICK table holds the dividers as written; the tick generator holds those in use. -/
structure ConfigStore where
  channels : Vector ChannelEntry 12
  lines : Vector LineEntry 16
  terms : Vector TermEntry 24
  permits : Vector PermitEntry 16
  groups : Vector GroupEntry 4
  profiles : Vector Profile 4
  ticks : Vector Nat 4
  engine : EngineEntry
  watches : Vector WatchEntry 2
  profilesInUse : Vector Profile 4
  modified : Bool
  epoch : Word16
deriving DecidableEq, Repr

/-! Engine and trip states. -/

/-- R126. -/
inductive EngineState where
  | running | halting | halted | stepping
deriving DecidableEq, Repr

/-- R109. -/
inductive TripState where
  | normal | tripped
deriving DecidableEq, Repr

/-! The measurement path (chapters 1 and 2). -/

/-- R6. -/
inductive Verdict where
  | unknown | below | inside | above | fault
deriving DecidableEq, Repr

/-- A reading with its rail mark (R5). -/
structure Reading where
  value : Int
  rail : Bool
deriving DecidableEq, Repr

/-- R9. -/
inductive ScanKind where
  | run | step
deriving DecidableEq, Repr

/-- A scan in progress (R9): the head of `todo` is the channel being converted. R9 lists the samples taken so far with the accumulator and
the rail mark; the model holds them as their number `taken` and their sum `acc`, its own choice of form (DESIGN CHOICE: log 28). -/
structure Scan where
  kind : ScanKind
  todo : List ChannelId
  taken : Nat
  acc : Int
  rail : Bool
  formed : Vector (Option Reading) 12
deriving DecidableEq, Repr

/-- R9: the scan state. -/
inductive ScanState where
  | idle
  | inProgress (scan : Scan)
deriving DecidableEq, Repr

/-- R7: a channel's last reading and verdict. -/
structure ChannelState where
  reading : Int
  verdict : Verdict
deriving DecidableEq, Repr

/-- The converter and scan unit. `engine` is the engine state last delivered to it (R126). `watchStopped` says that a watch has
discarded a pass and no RUN scan begins before a RESUME (R34, R136; log 11). -/
structure ScanUnit where
  state : ScanState
  channels : Vector ChannelState 12
  engine : EngineState
  watchStopped : Bool
deriving DecidableEq, Repr

/-- R15. HIGH is true. -/
structure LineState where
  raw : Bool
  filtered : Bool
  seeded : Bool
  counter : Nat
deriving DecidableEq, Repr

/-- The line input unit (R15, R18). Bit p of `readback` is the level of PFBp. -/
structure LineUnit where
  lines : Vector LineState 16
  readback : Word16
deriving DecidableEq, Repr

/-- R28. -/
structure TermHistory where
  held : Bool
  prevRaw : Bool
  counter : Nat
  seeded : Bool
deriving DecidableEq, Repr

/-- The term evaluator (R28, R39). -/
structure Evaluator where
  history : Vector TermHistory 24
  passCount : PassCount
deriving DecidableEq, Repr

/-! The permit table (chapters 3 to 5). -/

/-- R46: TRUE is `met`, FALSE is `notMet`. -/
inductive Condition where
  | unknown | notMet | met
deriving DecidableEq, Repr

/-- R97. -/
inductive LeaseStage where
  | fresh | armed | late
deriving DecidableEq, Repr

/-- R45: a holder record. -/
structure Holder where
  port : Port
  stage : LeaseStage
deriving DecidableEq, Repr

/-- R45, R74: a claim record; `wait` is none for INDEFINITE. -/
structure Claim where
  port : Port
  priority : Fin 4
  wait : Option Nat
deriving DecidableEq, Repr

/-- R45: the stored parts of a permit record. -/
structure PermitRecord where
  lock : Bool
  condition : Condition
  holders : List Holder
  queue : List Claim
  mismatch : Nat
deriving DecidableEq, Repr

/-- The permit table: the records, the group records' settle counters (R44, R55), and the engine and trip states last delivered to
it (R104, R115). -/
structure PermitTable where
  records : Vector PermitRecord 16
  settle : Vector Nat 4
  engine : EngineState
  trip : TripState
deriving DecidableEq, Repr

/-- The tick generator (R93, R94). -/
structure TickGen where
  baseDivider : Nat
  dividers : Vector Nat 4
  counters : Vector Nat 4
deriving DecidableEq, Repr

/-! The trip unit (chapter 6). -/

/-- R109: the fifty causes. -/
inductive TripCause where
  | tripIn
  | channelFault (c : ChannelId)
  | request (port : Port)
  | lease (p : PermitId)
  | passDeadline
  | lineFeedback (p : PermitId)
deriving DecidableEq, Repr

/-- A set of causes (R109), one bit for each member. -/
structure CauseSet where
  tripIn : Bool
  channelFault : BitVec 12
  request : BitVec 4
  passDeadline : Bool
  lease : Word16
  lineFeedback : Word16
deriving DecidableEq, Repr

/-- R116. -/
structure TripRecord where
  first : Option TripCause
  count : PassCount
  causes : CauseSet
deriving DecidableEq, Repr

/-- The trip unit (R109, R113, R116). -/
structure TripUnit where
  state : TripState
  present : CauseSet
  record : TripRecord
  deadline : Nat
deriving DecidableEq, Repr

/-! The engine controller (chapter 7). -/

/-- R137: the cause of a halt; `noCause` is NONE. -/
inductive HaltCause where
  | noCause
  | reset
  | softReset
  | command (port : Port)
  | watch (slot : SlotId)
deriving DecidableEq, Repr

/-- R137. `captured` is present only with cause WATCH. -/
structure HaltRecord where
  cause : HaltCause
  also : Option Port
  hit0 : Bool
  hit1 : Bool
  count : PassCount
  captured : Option (Vector Bool 24)
deriving DecidableEq, Repr

/-- The engine controller (R126, R127, R133, R137, R139). `haltPort` is the port of the HALT that entered HALTED (R38; log 17);
`stepPort` the port whose STEP is in progress. -/
structure EngineController where
  state : EngineState
  requester : Option Port
  haltPort : Option Port
  stepPort : Option Port
  record : HaltRecord
  injectedReading : Vector (Option Int) 12
  injectedLevel : Vector (Option Bool) 16
deriving DecidableEq, Repr

/-! Port units (chapter 9). -/

/-- R173. NO_RESPONSE is formed at the fetch and stands in no slot (R168). -/
inductive ResponseCode where
  | ok | granted | queued | refused | frameError
deriving DecidableEq, Repr

/-- R165: an answer in the slot. -/
structure Answer where
  code : ResponseCode
  echo : Byte
  lost : Bool
  payload : List Byte
deriving DecidableEq, Repr

/-- R165: the context with its slot. In EXECUTING, `lost` says that an unfetched answer was discarded when the request was
taken. -/
inductive PortContext where
  | idle
  | executing (lost : Bool)
  | answered (answer : Answer)
deriving DecidableEq, Repr

/-- A request that the port unit has taken and its owning block has not yet (R170); `live` is cleared by a soft reset, after which its
answer is discarded (R165). -/
structure InHand where
  request : Instr
  live : Bool
deriving DecidableEq, Repr

/-- The transaction in progress at a port (R163, R168, R170). -/
inductive Transfer where
  /-- The chip select is inactive. -/
  | none
  /-- The first byte: the status byte is being shifted out (R164). -/
  | first (status : Byte)
  /-- A request frame, with the bytes received so far (R166). -/
  | request (received : List Byte)
  /-- A FETCH, with the bytes of the frame still to be sent and whether it is the slot's answer (R168). -/
  | fetch (rest : List Byte) (answer : Bool)
  /-- 00H is shifted out and bytes in are ignored to the end (R163, R166, R170). -/
  | ignored
  /-- Begun before or during a hard reset: ignored to its end (R143, R170). That nothing is shifted out in it once the reset has ended is
  the model's choice (DESIGN CHOICE: log 32). -/
  | cut
deriving DecidableEq, Repr

/-- A port unit. `serialOut` is what it has shifted out in its latest transaction (R163, R164, R168). -/
structure PortUnit where
  context : PortContext
  inHand : List InHand
  serialOut : List Byte
  transfer : Transfer
deriving DecidableEq, Repr

/-! Notices (chapter 10). -/

/-- R177: the causes a REVOKED or WAIT_ENDED notice carries. -/
inductive EndCause where
  | condition | command | lease | lock | rightWithdrawn | expired
deriving DecidableEq, Repr

/-- R177: the kind of a notice with the fields present in it. -/
inductive NoticeBody where
  | granted (p : PermitId)
  | revoked (p : PermitId) (cause : EndCause)
  | late (p : PermitId)
  | waitEnded (p : PermitId) (cause : EndCause)
  | tripped (cause : TripCause)
  | tripCleared
  | halted (cause : HaltCause)
  | resumed (epoch : Word16)
deriving DecidableEq, Repr

/-- R177. -/
structure Notice where
  body : NoticeBody
  count : PassCount
deriving DecidableEq, Repr

/-- R178: one port's queue, oldest first, and its overflow flag. -/
structure NoticeQueue where
  queue : List Notice
  overflow : Bool
deriving DecidableEq, Repr

/-! What one block has handed to another and the other has not yet taken (log 1). -/

/-- R36: a delivered pass result. -/
structure PassResult where
  conditions : Vector (Option Bool) 16
  sampled : Word16
  commanded : Word16
  count : PassCount
deriving DecidableEq, Repr

/-- What the evaluator and the engine controller hand to the permit table (R36, R58), in one list, so that what was handed
first is known (R65). -/
inductive PermitArrival where
  | passResult (r : PassResult)
  | engineChange (e : EngineState)
deriving DecidableEq, Repr

/-- R115. -/
inductive TripDelivery where
  | entry | clearing
deriving DecidableEq, Repr

/-- R112: bit c of `faulted` says that channel c is reported faulted. -/
structure FaultReport where
  faulted : BitVec 12
  count : PassCount
deriving DecidableEq, Repr

/-- R38: how a pass ended. -/
inductive PassEnding where
  | delivered (count : PassCount)
  | discarded (hit0 hit1 : Bool) (captured : Vector Bool 24)
deriving DecidableEq, Repr

/-- R38: a report of the end of a pass. `old` marks a pass that had ended before the HALT that made the engine HALTING (log 12). -/
structure PassReport where
  kind : ScanKind
  old : Bool
  ending : PassEnding
deriving DecidableEq, Repr

/-- A notice on its way from its maker to a port's queue (R178). -/
structure FlyingNotice where
  maker : NoticeMaker
  notice : Notice
deriving DecidableEq, Repr

/-- The arrivals in flight. A tick that a source has produced goes its own way to each consumer (R95): `sourceTicks` to the scan unit,
`permitTicks` to the permit table and `tripTicks`, of source 0, to the trip unit (log 4). `scanBaseTicks` and `scanTicks` are the ticks
that have reached the scan unit while it was idle in RUNNING and whose scan start has not been taken (R10, R11; log 30). -/
structure InFlight where
  sourceTicks : Vector Nat 4
  scanBaseTicks : Nat
  scanTicks : Vector Nat 4
  permitTicks : Vector Nat 4
  tripTicks : Nat
  toPermit : List PermitArrival
  toScan : List EngineState
  tripDeliveries : List TripDelivery
  tripCauses : List TripCause
  faultReports : List FaultReport
  deadlineRestarts : Nat
  passReports : List PassReport
  notices : Vector (List FlyingNotice) 4
deriving DecidableEq, Repr

/-- The machine. `tripInActive` is the recognised level of TRIP_IN_N (R111) and `resetActive` that of RESET_N (R143). `freeCount`
feeds Config.freeByte (log 14). `pending` is the queue of waiting commands, first in, first out. -/
structure State where
  config : ConfigStore
  scan : ScanUnit
  lines : LineUnit
  eval : Evaluator
  table : PermitTable
  ticks : TickGen
  trip : TripUnit
  engine : EngineController
  ports : Vector PortUnit 4
  notices : Vector NoticeQueue 4
  flight : InFlight
  tripInActive : Bool
  resetActive : Bool
  freeCount : Nat
  pending : List Instr
deriving DecidableEq, Repr

/-- The manual stops the part nowhere (log 22): there is no fault. -/
inductive Fault where
deriving DecidableEq, Repr

/-- Why a command has no meaning. -/
inductive Refusal where
  /-- Raised only by an arm of exec that gives its command no meaning yet; safe. No arm of this model does. -/
  | notModelled (mnemonic : String)
deriving DecidableEq, Repr

/-! Defaults (R2, R15, R22, R42, R44, R147, R94, R148, R134). -/

def ChannelEntry.default : ChannelEntry := ⟨false, 0, none, 1, 0, 4095, 0, false, false⟩
def LineEntry.default : LineEntry := ⟨false, .none⟩
def TermEntry.default : TermEntry := ⟨false, .zero, .zero, .zero, 0#8, .direct, false⟩
def PermitEntry.default : PermitEntry := ⟨false, 0, .exclusive, 1, none, 1, false, .release, .drop, false⟩
def GroupEntry.default : GroupEntry := ⟨0, 1⟩
/-- Port A's default profile (R147). -/
def Profile.full : Profile := ⟨true, true, true, 0xFFFF#16, 3⟩
/-- The default profile of ports B to D (R147). -/
def Profile.bare : Profile := ⟨false, false, false, 0#16, 0⟩
def Profile.defaults : Vector Profile 4 := #v[.full, .bare, .bare, .bare]
def EngineEntry.default : EngineEntry := ⟨.free, 0, .freeze⟩
def WatchEntry.default : WatchEntry := ⟨false, .anyFault⟩
def CauseSet.empty : CauseSet := ⟨false, 0#12, 0#4, false, 0#16, 0#16⟩

/-- R146: the tables at power-on and hard reset. -/
def ConfigStore.initial : ConfigStore where
  channels := Vector.replicate 12 .default
  lines := Vector.replicate 16 .default
  terms := Vector.replicate 24 .default
  permits := Vector.replicate 16 .default
  groups := Vector.replicate 4 .default
  profiles := Profile.defaults
  ticks := Config.defaultDividers
  engine := .default
  watches := Vector.replicate 2 .default
  profilesInUse := Profile.defaults
  modified := false
  epoch := 0#16

/-- R8, R9. -/
def ChannelState.initial : ChannelState := ⟨0, .unknown⟩
/-- R8, R9, R126. -/
def ScanUnit.initial : ScanUnit := ⟨.idle, Vector.replicate 12 .initial, .halted, false⟩
/-- R19. -/
def LineState.initial : LineState := ⟨false, false, false, 0⟩
/-- R19. -/
def LineUnit.initial : LineUnit := ⟨Vector.replicate 16 .initial, 0#16⟩
/-- R31. -/
def TermHistory.initial : TermHistory := ⟨false, false, 0, false⟩
/-- R31, R39. -/
def Evaluator.initial : Evaluator := ⟨Vector.replicate 24 .initial, 0#32⟩
/-- R67. -/
def PermitRecord.initial : PermitRecord := ⟨false, .unknown, [], [], 0⟩
/-- R67, R115, R126. -/
def PermitTable.initial : PermitTable := ⟨Vector.replicate 16 .initial, Vector.replicate 4 0, .halted, .normal⟩
/-- R108. -/
def TickGen.initial : TickGen := ⟨0, Config.defaultDividers, Vector.replicate 4 0⟩
/-- R123. -/
def TripUnit.initial : TripUnit := ⟨.normal, .empty, ⟨none, 0#32, .empty⟩, 0⟩
/-- R137, R139, R144. -/
def EngineController.initial : EngineController where
  state := .halted
  requester := none
  haltPort := none
  stepPort := none
  record := ⟨.reset, none, false, false, 0#32, none⟩
  injectedReading := Vector.replicate 12 none
  injectedLevel := Vector.replicate 16 none
/-- R170. -/
def PortUnit.initial : PortUnit := ⟨.idle, [], [], .none⟩
/-- R183. -/
def NoticeQueue.initial : NoticeQueue := ⟨[], false⟩
/-- Nothing in flight. -/
def InFlight.initial : InFlight where
  sourceTicks := Vector.replicate 4 0
  scanBaseTicks := 0
  scanTicks := Vector.replicate 4 0
  permitTicks := Vector.replicate 4 0
  tripTicks := 0
  toPermit := []
  toScan := []
  tripDeliveries := []
  tripCauses := []
  faultReports := []
  deadlineRestarts := 0
  passReports := []
  notices := Vector.replicate 4 []

/-- R143, R144: every block at its initial values, before HALTED(RESET) is pushed. -/
def State.initial : State where
  config := .initial
  scan := .initial
  lines := .initial
  eval := .initial
  table := .initial
  ticks := .initial
  trip := .initial
  engine := .initial
  ports := Vector.replicate 4 .initial
  notices := Vector.replicate 4 .initial
  flight := .initial
  tripInActive := false
  resetActive := false
  freeCount := 0
  pending := []

/-- The part right after reset: the initial values, and HALTED(RESET) stamped 0 in every notice queue (R144, R183), with TRIP_IN_N
and RESET_N inactive (DESIGN CHOICE: log 8). -/
def State.reset : State :=
  { State.initial with notices := Vector.replicate 4 ⟨[⟨.halted .reset, 0#32⟩], false⟩ }

end Sys2Proof.Machine
end

