-- ==== Sys2Proof/Machine/Flags.lean ====
section
/-! DEFINITION. What the manual makes a function of the state at every moment: eligibility, permit states, blocking reasons and
commanded levels (R47, R48, R57), the attention line, the status byte and TRIP_OUT_N (R117, R164, R179); and the classification
functions of the measurement path (R5, R6, R16). -/

namespace Sys2Proof.Machine

/-- The permits in ascending number. -/
def allPermits : List PermitId := [0, 1, 2, 3, 4, 5, 6, 7, 8, 9, 10, 11, 12, 13, 14, 15]
/-- The groups in ascending number. -/
def allGroups : List GroupId := [0, 1, 2, 3]
/-- The ports in order. -/
def allPorts : List Port := [0, 1, 2, 3]
/-- The tick sources in ascending number. -/
def allSources : List SourceId := [0, 1, 2, 3]
/-- The channels in ascending number. -/
def allChannels : List ChannelId := [0, 1, 2, 3, 4, 5, 6, 7, 8, 9, 10, 11]
/-- The lines in ascending number. -/
def allLines : List LineId := [0, 1, 2, 3, 4, 5, 6, 7, 8, 9, 10, 11, 12, 13, 14, 15]

/-! Permits. -/

/-- R42: p's entry names g (members count whether enabled or not). -/
def isMember (c : ConfigStore) (g : GroupId) (p : PermitId) : Bool :=
  decide (c.permits[p].group = some g)

/-- R47(5), R48(4): another member of the group than p has a holder. -/
def otherMemberHeld (c : ConfigStore) (t : PermitTable) (g : GroupId) (p : PermitId) : Bool :=
  allPermits.any fun q => decide (q ≠ p) && isMember c g q && !t.records[q].holders.isEmpty

/-- R47(5). -/
def groupAdmits (c : ConfigStore) (t : PermitTable) (p : PermitId) : Bool :=
  match c.permits[p].group with
  | none => true
  | some g => !otherMemberHeld c t g p && decide (t.settle[g] = 0)

/-- R47. -/
def eligible (c : ConfigStore) (t : PermitTable) (p : PermitId) : Bool :=
  c.permits[p].enabled && !t.records[p].lock && decide (t.engine = .running) && decide (t.trip = .normal) &&
    decide (t.records[p].condition = .met) && groupAdmits c t p

/-- R48: the reasons of BLOCKED. -/
inductive BlockReason where
  | tripped | engine | condition | groupHeld | groupSettling
deriving DecidableEq, Repr

/-- R48: a permit's state, BLOCKED with its reason. -/
inductive PermitState where
  | disabled
  | blocked (reason : BlockReason)
  | ready
  | held
  | locked
deriving DecidableEq, Repr

/-- R48: the first reason that holds. -/
def blockReason (c : ConfigStore) (t : PermitTable) (p : PermitId) : BlockReason :=
  if t.trip = .tripped then .tripped
  else if t.engine ≠ .running then .engine
  else if t.records[p].condition ≠ .met then .condition
  else
    match c.permits[p].group with
    | none => .condition
    | some g => if otherMemberHeld c t g p then .groupHeld else .groupSettling

/-- R48: the first line of the table that applies. -/
def permitState (c : ConfigStore) (t : PermitTable) (p : PermitId) : PermitState :=
  if !c.permits[p].enabled then .disabled
  else if t.records[p].lock then .locked
  else if !t.records[p].holders.isEmpty then .held
  else if eligible c t p then .ready
  else .blocked (blockReason c t p)

/-- R57: the level the permit table drives on PERMp, active or not. -/
def commanded (c : ConfigStore) (t : PermitTable) (p : PermitId) : Bool :=
  decide (t.engine = .running) && decide (t.trip = .normal) && decide (permitState c t p = .held) &&
    decide (t.records[p].condition = .met)

/-- R42, R152: at least one holder or at least one waiting claim. -/
def inUse (t : PermitTable) (p : PermitId) : Bool :=
  !t.records[p].holders.isEmpty || !t.records[p].queue.isEmpty

/-- R117. -/
def tripOutActive (s : State) : Bool := decide (s.trip.state = .tripped)

/-! Ports. -/

/-- R179. -/
def attention (s : State) (port : Port) : Bool :=
  !s.notices[port].queue.isEmpty || s.notices[port].overflow

/-- R164, R171: the status byte, formed from the state the blocks hold. -/
def statusByte (s : State) (port : Port) : Byte :=
  let ready := match s.ports[port].context with | .answered _ => true | _ => false
  let executing := match s.ports[port].context with | .executing _ => true | _ => false
  BitVec.ofBool ready ++ BitVec.ofBool executing ++ BitVec.ofBool (attention s port) ++
    BitVec.ofBool (decide (s.trip.state = .tripped)) ++ BitVec.ofBool (decide (s.engine.state ≠ .running)) ++ 0b010#3

/-! Measurement. -/

/-- R1, R2: the rails of a channel's range. -/
def ChannelEntry.low (e : ChannelEntry) : Int := if e.negative.isNone then 0 else -2048
def ChannelEntry.high (e : ChannelEntry) : Int := if e.negative.isNone then 4095 else 2047

/-- R1, R14: a value beyond an end of the range gives the value at that end. -/
def ChannelEntry.clamp (e : ChannelEntry) (v : Int) : Int :=
  if v < e.low then e.low else if e.high < v then e.high else v

/-- R1, R2: the input selector: the positive pin against AGND, or less the negative pin (log 7). -/
def ChannelEntry.select (e : ChannelEntry) (ain : Vector Int 12) : Int :=
  match e.negative with
  | none => ain[e.positive]
  | some n => ain[e.positive] - ain[n]

/-- R1, R5: a sample at a rail. -/
def ChannelEntry.atRail (e : ChannelEntry) (v : Int) : Bool :=
  decide (v = e.low) || decide (v = e.high)

/-- R4: the sum divided by the count, rounded toward minus infinity. -/
def ChannelEntry.average (e : ChannelEntry) (sum : Int) : Int := Int.fdiv sum e.count

/-- R6: the verdict table. -/
def ChannelEntry.classify (e : ChannelEntry) (before : Verdict) (r : Reading) : Verdict :=
  if r.rail then .fault
  else
    match before with
    | .unknown | .fault => if r.value < e.lower then .below else if e.upper < r.value then .above else .inside
    | .inside => if e.upper < r.value then .above else if r.value < e.lower then .below else .inside
    | .above =>
      if r.value < e.lower then .below else if r.value ≤ e.upper - e.hysteresis then .inside else .above
    | .below =>
      if e.upper < r.value then .above else if e.lower + e.hysteresis ≤ r.value then .inside else .below

/-- R15, R16: the pending state of a line from its raw level. -/
def LineEntry.next (e : LineEntry) (before : LineState) (raw : Bool) : LineState :=
  if !e.enabled then ⟨raw, false, false, 0⟩
  else if !before.seeded then ⟨raw, raw, true, 0⟩
  else
    match e.filter with
    | .none => ⟨raw, raw, true, 0⟩
    | .qualify q =>
      if raw = before.filtered then ⟨raw, before.filtered, true, 0⟩
      else if q ≤ before.counter + 1 then ⟨raw, raw, true, 0⟩
      else ⟨raw, before.filtered, true, before.counter + 1⟩

end Sys2Proof.Machine
end

