-- ==== Sys2Proof/Machine/Operands.lean ====
section
/-! DEFINITION. The operand forms of the requests and the byte layouts of section 9.7: a request's numbers, the entries of the nine
tables read from their bytes with the field checks of R3, R15, R23, R43, R44, R94, R147, R148 and R151, the same entries as READ_ENTRY
sends them (R156, R175), and the codes of answers, notices and causes (R171, R173 to R176, R182). -/

namespace Sys2Proof.Machine

/-! Numbers on the wire (R171). -/

/-- A byte that lies in 0 to n-1. -/
def byteFin (n : Nat) (b : Byte) : Option (Fin n) :=
  if h : b.toNat < n then some ⟨b.toNat, h⟩ else none

/-- A number in n bytes, most significant first. -/
def bytesOf : Nat → Nat → List Byte
  | 0, _ => []
  | n + 1, v => BitVec.ofNat 8 (v >>> (8 * n)) :: bytesOf n v

/-- A signed number in two bytes. -/
def signedBytes (v : Int) : List Byte := bytesOf 2 (BitVec.ofInt 16 v).toNat

/-- The number whose bit n is the n-th Boolean of the list. -/
def packBits : List Bool → Nat
  | [] => 0
  | b :: bs => b.toNat + 2 * packBits bs

/-- One byte of flags, bit 0 first. -/
def flagByte (bits : List Bool) : Byte := BitVec.ofNat 8 (packBits bits)

/-- A flag as a byte, clear 0 and set 1 (R182). -/
def boolByte (b : Bool) : Byte := if b then 1#8 else 0#8

/-- A number below 256 as a byte. -/
def numByte (n : Nat) : Byte := BitVec.ofNat 8 n

/-- R171: a field that a record holds as absent. -/
def absent : Byte := 0xFF#8

/-- An optional number, FFH when absent. -/
def optByte (o : Option Nat) : Byte :=
  match o with
  | none => absent
  | some n => numByte n

/-- The number of the field that fails a write's check 1, counted from 0 in the entry's field table (R150, R173). -/
abbrev FieldNo := Byte

/-! CHANNEL (R2, R3, R175). -/

/-- R2: the accumulation counts. -/
def isCount (n : Nat) : Bool := [1, 2, 4, 8, 16, 32, 64].contains n

/-- R175: 12 is GROUND. -/
def readNegative (b : Byte) : Option (Option ChannelId) :=
  if b = 12#8 then some none
  else match byteFin 12 b with
    | some c => some (some c)
    | none => none

/-- R3: the field checks in the order of the fields. -/
def readChannel (flags positive negative count : Byte) (lower upper : Word16) (hysteresis : Byte) :
    Except FieldNo ChannelEntry :=
  match byteFin 12 positive with
  | none => .error 1#8
  | some pos =>
    match readNegative negative with
    | none => .error 2#8
    | some neg =>
      let e : ChannelEntry := ⟨flags.getLsbD 0, pos, neg, count.toNat, lower.toInt, upper.toInt, hysteresis.toNat,
        flags.getLsbD 1, flags.getLsbD 2⟩
      if neg = some pos then .error 2#8
      else if !isCount e.count then .error 3#8
      else if e.lower < e.low ∨ e.high < e.lower then .error 4#8
      else if e.upper < e.low ∨ e.high < e.upper ∨ e.upper < e.lower then .error 5#8
      else .ok e

def ChannelEntry.bytes (e : ChannelEntry) : List Byte :=
  [flagByte [e.enabled, e.railCheck, e.tripOnFault], numByte e.positive,
    (match e.negative with | none => 12#8 | some c => numByte c), numByte e.count] ++
    signedBytes e.lower ++ signedBytes e.upper ++ [numByte e.hysteresis]

/-! LINE (R15, R175). -/

/-- R15: q lies in 2 to 8. -/
def isQualify (q : Byte) : Bool := decide (2 ≤ q.toNat) && decide (q.toNat ≤ 8)

def readLine (flags filter : Byte) : Except FieldNo LineEntry :=
  if filter = 0#8 then .ok ⟨flags.getLsbD 0, .none⟩
  else if isQualify filter then .ok ⟨flags.getLsbD 0, .qualify filter.toNat⟩
  else .error 1#8

def LineEntry.bytes (e : LineEntry) : List Byte :=
  [flagByte [e.enabled], match e.filter with | .none => 0#8 | .qualify q => numByte q]

/-! TERM (R22, R23, R175). -/

/-- R23: a source read from its four bytes; ignored arguments are not stored. -/
def readSource (r : RawSource) : Option Source :=
  match r.kind.toNat with
  | 0 => some .zero
  | 1 => (byteFin 24 r.arg1).map .term
  | 2 => (byteFin 16 r.arg1).map .line
  | 3 =>
    let mask : Word16 := r.arg1 ++ r.arg2
    if mask = 0#16 then none
    else if r.arg3 = 0#8 then some (.lineSet mask false)
    else if r.arg3 = 1#8 then some (.lineSet mask true)
    else none
  | 4 =>
    match byteFin 12 r.arg1 with
    | none => none
    | some c =>
      if r.arg2 = 0#8 ∨ 8 ≤ r.arg2.toNat then none
      else some (.channel c (r.arg2.getLsbD 0) (r.arg2.getLsbD 1) (r.arg2.getLsbD 2))
  | 5 => (byteFin 16 r.arg1).map .held
  | _ => none

def Source.bytes : Source → List Byte
  | .zero => [0#8, 0#8, 0#8, 0#8]
  | .term k => [1#8, numByte k, 0#8, 0#8]
  | .line n => [2#8, numByte n, 0#8, 0#8]
  | .lineSet mask allHigh => [3#8] ++ bytesOf 2 mask.toNat ++ [boolByte allHigh]
  | .channel c below inside above => [4#8, numByte c, flagByte [below, inside, above], 0#8]
  | .held p => [5#8, numByte p, 0#8, 0#8]

/-- R175: q is checked for QUALIFY and ignored otherwise. -/
def readStage (stage q : Byte) : Option OutputStage :=
  match stage.toNat with
  | 0 => some .direct
  | 1 => if isQualify q then some (.qualify q.toNat) else none
  | 2 => some .rise
  | 3 => some .fall
  | _ => none

def OutputStage.bytes : OutputStage → List Byte
  | .direct => [0#8, 0#8]
  | .qualify q => [1#8, numByte q]
  | .rise => [2#8, 0#8]
  | .fall => [3#8, 0#8]

/-- R23, fields in the order of R22's table. -/
def readTerm (flags stage q truth : Byte) (srcA srcB srcC : RawSource) : Except FieldNo TermEntry :=
  match readSource srcA, readSource srcB, readSource srcC, readStage stage q with
  | none, _, _, _ => .error 1#8
  | some _, none, _, _ => .error 2#8
  | some _, some _, none, _ => .error 3#8
  | some _, some _, some _, none => .error 5#8
  | some a, some b, some c, some st => .ok ⟨flags.getLsbD 0, a, b, c, truth, st, flags.getLsbD 1⟩

def TermEntry.bytes (e : TermEntry) : List Byte :=
  [flagByte [e.enabled, e.initial]] ++ e.stage.bytes ++ [e.truth] ++ e.sourceA.bytes ++ e.sourceB.bytes ++
    e.sourceC.bytes

/-! PERMIT (R42, R43, R175). -/

def readGroup (b : Byte) : Option (Option GroupId) :=
  if b = absent then some none
  else match byteFin 4 b with
    | some g => some (some g)
    | none => none

def readMode (b : Byte) : Option PermitMode :=
  match b.toNat with
  | 0 => some .exclusive
  | 1 => some .shared
  | _ => none

def readExpiry (b : Byte) : Option ExpiryAction :=
  match b.toNat with
  | 0 => some .release
  | 1 => some .lock
  | 2 => some .trip
  | _ => none

def readLoss (b : Byte) : Option LossAction :=
  match b.toNat with
  | 0 => some .drop
  | 1 => some .lock
  | _ => none

/-- R42: 1 for EXCLUSIVE, 2 to 4 for SHARED. -/
def limitFits (m : PermitMode) (n : Nat) : Bool :=
  match m with
  | .exclusive => decide (n = 1)
  | .shared => decide (2 ≤ n) && decide (n ≤ 4)

/-- R43: the field checks in the order of the fields. -/
def readPermit (flags term mode limit group source expiry loss : Byte) : Except FieldNo PermitEntry :=
  match byteFin 24 term with
  | none => .error 1#8
  | some t =>
    match readMode mode with
    | none => .error 2#8
    | some m =>
      if !limitFits m limit.toNat then .error 3#8
      else match readGroup group with
        | none => .error 4#8
        | some g =>
          match byteFin 4 source with
          | none => .error 5#8
          | some src =>
            match readExpiry expiry with
            | none => .error 7#8
            | some x =>
              match readLoss loss with
              | none => .error 8#8
              | some l => .ok ⟨flags.getLsbD 0, t, m, limit.toNat, g, src, flags.getLsbD 1, x, l, flags.getLsbD 2⟩

def PermitMode.code : PermitMode → Byte
  | .exclusive => 0#8
  | .shared => 1#8
def ExpiryAction.code : ExpiryAction → Byte
  | .release => 0#8
  | .lock => 1#8
  | .trip => 2#8
def LossAction.code : LossAction → Byte
  | .drop => 0#8
  | .lock => 1#8
/-- 0 to 3, FFH for NONE. -/
def groupByte (g : Option GroupId) : Byte := optByte (g.map Fin.val)

def PermitEntry.bytes (e : PermitEntry) : List Byte :=
  [flagByte [e.enabled, e.lease, e.readback], numByte e.term, e.mode.code, numByte e.limit, groupByte e.group,
    numByte e.source, e.expiry.code, e.loss.code]

/-! GROUP, PROFILE, TICK, ENGINE, WATCH (R44, R147, R94, R148, R151, R175). -/

def readGroupEntry (settle source : Byte) : Except FieldNo GroupEntry :=
  match byteFin 4 source with
  | none => .error 1#8
  | some src => .ok ⟨settle.toNat, src⟩

def GroupEntry.bytes (e : GroupEntry) : List Byte := [numByte e.settle, numByte e.source]

def readProfile (rights : Byte) (mask : Word16) (ceiling : Byte) : Except FieldNo Profile :=
  if 8 ≤ rights.toNat then .error 0#8
  else match byteFin 4 ceiling with
    | none => .error 2#8
    | some c => .ok ⟨rights.getLsbD 0, rights.getLsbD 1, rights.getLsbD 2, mask, c⟩

/-- R182: the rights byte. -/
def Profile.rights (p : Profile) : Byte := flagByte [p.configure, p.maintain, p.clear]

def Profile.bytes (p : Profile) : List Byte := [p.rights] ++ bytesOf 2 p.mask.toNat ++ [numByte p.ceiling]

def readTick (divider : Word16) : Except FieldNo Nat :=
  if divider = 0#16 then .error 0#8 else .ok divider.toNat

def readTrigger (b : Byte) : Option ScanTrigger :=
  if b = absent then some .free else (byteFin 4 b).map .tick

def readEngineEntry (trigger deadline supervision : Byte) : Except FieldNo EngineEntry :=
  match readTrigger trigger with
  | none => .error 0#8
  | some t =>
    if supervision = 0#8 then .ok ⟨t, deadline.toNat, .freeze⟩
    else if supervision = 1#8 then .ok ⟨t, deadline.toNat, .run⟩
    else .error 2#8

def EngineEntry.bytes (e : EngineEntry) : List Byte :=
  [(match e.trigger with | .free => absent | .tick s => numByte s), numByte e.deadline,
    (match e.supervision with | .freeze => 0#8 | .run => 1#8)]

def readEdge (b : Byte) : Option WatchEdge :=
  match b.toNat with
  | 0 => some .rise
  | 1 => some .fall
  | 2 => some .either
  | _ => none

def WatchEdge.code : WatchEdge → Byte
  | .rise => 0#8
  | .fall => 1#8
  | .either => 2#8

/-- R151: term and edge of an ANY_FAULT entry are ignored. -/
def readWatch (flags kind term edge : Byte) : Except FieldNo WatchEntry :=
  match kind.toNat with
  | 0 =>
    match byteFin 24 term with
    | none => .error 2#8
    | some t =>
      match readEdge edge with
      | none => .error 3#8
      | some e => .ok ⟨flags.getLsbD 0, .termEdge t e⟩
  | 1 => .ok ⟨flags.getLsbD 0, .anyFault⟩
  | _ => .error 1#8

def WatchEntry.bytes (e : WatchEntry) : List Byte :=
  [flagByte [e.enabled]] ++
    match e.kind with
    | .termEdge t x => [0#8, numByte t, x.code]
    | .anyFault => [1#8, absent, absent]

/-! Codes of states, stages, reasons and causes (R173 to R176, R182). -/

def EngineState.code : EngineState → Byte
  | .running => 0#8
  | .halting => 1#8
  | .halted => 2#8
  | .stepping => 3#8

def TripState.code : TripState → Byte
  | .normal => 0#8
  | .tripped => 1#8

def Verdict.code : Verdict → Byte
  | .unknown => 0#8
  | .below => 1#8
  | .inside => 2#8
  | .above => 3#8
  | .fault => 4#8

def LeaseStage.code : LeaseStage → Byte
  | .fresh => 0#8
  | .armed => 1#8
  | .late => 2#8

def Condition.code : Condition → Byte
  | .unknown => 0#8
  | .notMet => 1#8
  | .met => 2#8

def BlockReason.code : BlockReason → Byte
  | .tripped => 1#8
  | .engine => 2#8
  | .condition => 3#8
  | .groupHeld => 4#8
  | .groupSettling => 5#8

/-- R175: a permit state and its blocking reason, 0 when absent. -/
def PermitState.bytes : PermitState → List Byte
  | .disabled => [0#8, 0#8]
  | .blocked r => [1#8, r.code]
  | .ready => [2#8, 0#8]
  | .held => [3#8, 0#8]
  | .locked => [4#8, 0#8]

/-- R174: a cause code with its argument. -/
def TripCause.bytes : TripCause → List Byte
  | .tripIn => [0x10#8, absent]
  | .channelFault c => [0x11#8, numByte c]
  | .request p => [0x12#8, numByte p]
  | .lease p => [0x03#8, numByte p]
  | .passDeadline => [0x14#8, absent]
  | .lineFeedback p => [0x15#8, numByte p]

def firstCauseBytes (o : Option TripCause) : List Byte :=
  match o with
  | none => [0#8, absent]
  | some c => c.bytes

def HaltCause.bytes : HaltCause → List Byte
  | .noCause => [0#8, absent]
  | .reset => [0x20#8, absent]
  | .softReset => [0x21#8, absent]
  | .command p => [0x02#8, numByte p]
  | .watch s => [0x22#8, numByte s]

def EndCause.code : EndCause → Byte
  | .condition => 0x01#8
  | .command => 0x02#8
  | .lease => 0x03#8
  | .lock => 0x04#8
  | .rightWithdrawn => 0x05#8
  | .expired => 0x06#8

/-- R174: bytes 0 to 5 of a notice. -/
def NoticeBody.bytes : NoticeBody → List Byte
  | .granted p => [0x01#8, numByte p, 0#8, absent, 0#8, 0#8]
  | .revoked p c => [0x02#8, numByte p, c.code, absent, 0#8, 0#8]
  | .late p => [0x03#8, numByte p, 0#8, absent, 0#8, 0#8]
  | .waitEnded p c => [0x04#8, numByte p, c.code, absent, 0#8, 0#8]
  | .tripped c => [0x05#8, absent] ++ c.bytes ++ [0#8, 0#8]
  | .tripCleared => [0x06#8, absent, 0#8, absent, 0#8, 0#8]
  | .halted c => [0x07#8, absent] ++ c.bytes ++ [0#8, 0#8]
  | .resumed e => [0x08#8, absent, 0#8, absent] ++ bytesOf 2 e.toNat

/-- R174. -/
def Notice.bytes (n : Notice) : List Byte := n.body.bytes ++ bytesOf 4 n.count.toNat

/-- R176: a cause set as one number of 7 bytes. -/
def CauseSet.number (s : CauseSet) : Nat :=
  s.channelFault.toNat + s.tripIn.toNat <<< 12 + s.request.toNat <<< 13 + s.passDeadline.toNat <<< 17 +
    s.lease.toNat <<< 18 + s.lineFeedback.toNat <<< 34

/-- R173: the present level causes as a 2-byte set. -/
def CauseSet.levelNumber (s : CauseSet) : Nat := s.channelFault.toNat + s.tripIn.toNat <<< 12

def TripRecord.bytes (r : TripRecord) : List Byte :=
  firstCauseBytes r.first ++ bytesOf 4 r.count.toNat ++ bytesOf 7 r.causes.number

/-- The outputs of the terms as three bytes, bit n for term n (R176). -/
def termBytes (v : Vector Bool 24) : List Byte := bytesOf 3 (packBits v.toList)

def HaltRecord.bytes (r : HaltRecord) : List Byte :=
  r.cause.bytes ++ [optByte (r.also.map Fin.val), flagByte [r.hit0, r.hit1]] ++ bytesOf 4 r.count.toNat ++
    match r.captured with
    | none => [absent, absent, absent]
    | some v => termBytes v

/-- R175: h holders, two bytes each. -/
def Holder.bytes (h : Holder) : List Byte := [numByte h.port, h.stage.code]

/-- R175: w claims, three bytes each; FFH for INDEFINITE. -/
def Claim.bytes (c : Claim) : List Byte := [numByte c.port, numByte c.priority, optByte c.wait]

/-- R173: the reasons of a refusal. -/
inductive Reason where
  | badArgument | noRight | staleEpoch | notEnabled | locked | tripped | engineHalted | alreadyHolder
  | alreadyWaiting | notReady | notHolder | permitInUse | engineRunning | engineBusy | configInvalid | causePresent
deriving DecidableEq, Repr

def Reason.code : Reason → Byte
  | .badArgument => 0x01#8
  | .noRight => 0x02#8
  | .staleEpoch => 0x03#8
  | .notEnabled => 0x04#8
  | .locked => 0x05#8
  | .tripped => 0x06#8
  | .engineHalted => 0x07#8
  | .alreadyHolder => 0x08#8
  | .alreadyWaiting => 0x09#8
  | .notReady => 0x0A#8
  | .notHolder => 0x0B#8
  | .permitInUse => 0x0C#8
  | .engineRunning => 0x0D#8
  | .engineBusy => 0x0E#8
  | .configInvalid => 0x0F#8
  | .causePresent => 0x10#8

def ResponseCode.byte : ResponseCode → Byte
  | .ok => 0x00#8
  | .granted => 0x01#8
  | .queued => 0x02#8
  | .refused => 0x10#8
  | .frameError => 0x20#8

/-- R173: a response frame with its check byte. -/
def responseFrame (code echo flags : Byte) (payload : List Byte) : List Byte :=
  let body := [code, echo, flags, numByte payload.length] ++ payload
  body ++ [checkByte body]

/-- R168, R173: the frame of an answer. -/
def Answer.frame (a : Answer) : List Byte := responseFrame a.code.byte a.echo (boolByte a.lost) a.payload

/-- R168: the frame of a fetch that finds no answer. -/
def noResponseFrame : List Byte := responseFrame 0x30#8 0#8 0#8 []

end Sys2Proof.Machine
end

