-- ==== Sys2Proof/Machine/Ops.lean ====
section
/-! DEFINITION. The operations that several meanings share: the updates of State, notices on their way and in their queues (R178), the
taking of a request at a port unit and the placing of its answer (R165, R167), and the rights (R149). The block has no memory and no
exception entry; the trip entry is in Trip.lean and the resets in Reset.lean. -/

namespace Sys2Proof.Machine

/-! Updates of State, one for each block. -/

def State.onConfig (f : ConfigStore → ConfigStore) (s : State) : State := { s with config := f s.config }
def State.onScan (f : ScanUnit → ScanUnit) (s : State) : State := { s with scan := f s.scan }
def State.onLines (f : LineUnit → LineUnit) (s : State) : State := { s with lines := f s.lines }
def State.onEval (f : Evaluator → Evaluator) (s : State) : State := { s with eval := f s.eval }
def State.onTable (f : PermitTable → PermitTable) (s : State) : State := { s with table := f s.table }
def State.onTicks (f : TickGen → TickGen) (s : State) : State := { s with ticks := f s.ticks }
def State.onTrip (f : TripUnit → TripUnit) (s : State) : State := { s with trip := f s.trip }
def State.onEngine (f : EngineController → EngineController) (s : State) : State := { s with engine := f s.engine }
def State.onFlight (f : InFlight → InFlight) (s : State) : State := { s with flight := f s.flight }
def State.onPort (port : Port) (f : PortUnit → PortUnit) (s : State) : State :=
  { s with ports := s.ports.set port (f s.ports[port]) }
def State.onNotices (port : Port) (f : NoticeQueue → NoticeQueue) (s : State) : State :=
  { s with notices := s.notices.set port (f s.notices[port]) }

/-- R143: while RESET_N is active the part takes no arrival. -/
def State.unlessReset (f : State → State) (s : State) : State := if s.resetActive then s else f s

/-! Notices (R177, R178). -/

/-- A notice as its maker makes it, with the port it is for. -/
abbrev Made := Port × NoticeBody

/-- A notice for each of the four ports. -/
def toEveryPort (b : NoticeBody) : List Made := allPorts.map fun p => (p, b)

/-- The notices of one event set out for their queues in the order they were made. -/
def flyAll (maker : NoticeMaker) (count : PassCount) (made : List Made) (v : Vector (List FlyingNotice) 4) :
    Vector (List FlyingNotice) 4 :=
  made.foldl (fun v m => v.set m.1 (v[m.1] ++ [⟨maker, ⟨m.2, count⟩⟩])) v

/-- R178: notices handed to the notice unit, stamped with a pass count. -/
def pushNotices (maker : NoticeMaker) (count : PassCount) (made : List Made) (s : State) : State :=
  s.onFlight fun f => { f with notices := flyAll maker count made f.notices }

/-- R178: one notice arrives at a queue. -/
def NoticeQueue.arrive (n : Notice) (q : NoticeQueue) : NoticeQueue :=
  if q.queue.length < Config.queueDepth then { q with queue := q.queue ++ [n] } else { q with overflow := true }

/-- R131: a RESUMED notice stands behind the rights withdrawal notices of the same RESUME, whoever made them. -/
def mustFollow (earlier later : FlyingNotice) : Bool :=
  match later.notice.body, earlier.notice.body with
  | .resumed _, .revoked _ .rightWithdrawn => true
  | .resumed _, .waitEnded _ .rightWithdrawn => true
  | _, _ => decide (earlier.maker = later.maker)

/-- The oldest notice of the maker in a port's notices on their way, with the rest; none when there is none or when a notice it
must stand behind is still on its way. -/
def firstOf (maker : NoticeMaker) : List FlyingNotice → Option (Notice × List FlyingNotice)
  | [] => none
  | n :: rest =>
    if n.maker = maker then some (n.notice, rest)
    else
      match firstOf maker rest with
      | none => none
      | some (m, rest') => if mustFollow n ⟨maker, m⟩ then none else some (m, n :: rest')

/-! Answers and requests (R165, R167). -/

/-- What an owning block answers. -/
structure Reply where
  code : ResponseCode
  payload : List Byte
deriving DecidableEq, Repr

/-- An owning block's taking of a request: the state after it, and the answer unless it answers later or never. -/
abbrev Body := State → State × Option Reply

def okReply (payload : List Byte) : Option Reply := some ⟨.ok, payload⟩
def refuse (r : Reason) (more : List Byte) : Option Reply := some ⟨.refused, r.code :: more⟩

/-- A request refused leaves every state as it stood. -/
def refused (s : State) (r : Reason) : State × Option Reply := (s, refuse r [])

/-- R165: the answer goes to the slot of a port in EXECUTING; placed while the context is IDLE, it is discarded. -/
def placeAnswer (port : Port) (echo : Byte) (r : Reply) (s : State) : State :=
  match s.ports[port].context with
  | .executing lost => s.onPort port fun u => { u with context := .answered ⟨r.code, echo, lost, r.payload⟩ }
  | _ => s

/-- The answer of a request, which has no place when a soft reset has emptied the port since the request was taken (R165, R170). -/
def answerIn (port : Port) (echo : Byte) (live : Bool) (r : Reply) (s : State) : State :=
  if live then placeAnswer port echo r s else s

/-- The owning block takes the request and answers, later or never where its reply is none. -/
def perform (port : Port) (echo : Byte) (live : Bool) (body : Body) (s : State) : State :=
  match body s with
  | (t, none) => t
  | (t, some r) => answerIn port echo live r t

/-- R163, R164: what the port shifts out in a transaction: the status byte of its start, then the given bytes. -/
def shiftOut (port : Port) (bytes : List Byte) (s : State) : State :=
  s.onPort port fun u => { u with serialOut := statusByte s port :: bytes }

/-- R163: 00H shifted out n times. -/
def zeros (n : Nat) : List Byte := List.replicate n 0#8

/-- R167: the context when a request is taken in IDLE or ANSWERED. -/
def PortContext.take : PortContext → PortContext
  | .idle => .executing false
  | .executing lost => .executing lost
  | .answered _ => .executing true

def PortContext.isExecuting : PortContext → Bool
  | .executing _ => true
  | _ => false

/-- R163: no transaction is in progress at the port. -/
def PortUnit.atRest (u : PortUnit) : Bool := decide (u.transfer = .none)

/-- The part as the owning block of a request meets it, with the mark whether the answer has a place; none when the request is not
taken. When the port unit holds no request in hand, the command is the whole transaction, which no other may overlap: in EXECUTING the
frame is discarded, otherwise the request is taken (R167). When the request stands first in the port unit's hand (its frame came in a transaction of its
own), the command is the owning block's taking of it (R165, R170; log 2). `length` is the request's payload length. -/
def takeRequest (port : Port) (request : Instr) (length : Nat) (s : State) : Option (State × Bool) :=
  if s.resetActive then none
  else
    match s.ports[port].inHand with
    | [] =>
      if s.ports[port].context.isExecuting || !s.ports[port].atRest then none
      else
        some ((shiftOut port (zeros (length + 3)) s).onPort port fun u => { u with context := u.context.take }, true)
    | h :: rest =>
      if h.request = request then some (s.onPort port fun u => { u with inHand := rest }, h.live) else none

/-- A request that is not taken: its frame is discarded in EXECUTING (R167); while RESET_N is active, while another request of the port is
in hand, or while a transaction is in progress at the port, there is no transaction (log 2, log 19). -/
def notTaken (port : Port) (length : Nat) (s : State) : State :=
  if s.resetActive || !s.ports[port].inHand.isEmpty || !s.ports[port].atRest then s else shiftOut port (zeros (length + 3)) s

/-- A request of a port: taken and performed, or not taken. The owning block is told whether a later answer has a place. -/
def serveWith (port : Port) (request : Instr) (echo : Byte) (length : Nat) (body : Bool → Body) (s : State) : State :=
  match takeRequest port request length s with
  | some (t, live) => perform port echo live (body live) t
  | none => notTaken port length s

/-- A request that is answered when it is taken, or never. -/
def serve (port : Port) (request : Instr) (echo : Byte) (length : Nat) (body : Body) (s : State) : State :=
  serveWith port request echo length (fun _ => body) s

/-! Rights (R149): judged against the profile in use. -/

def profileInUse (s : State) (port : Port) : Profile := s.config.profilesInUse[port]

/-- A request that needs a right is refused with NO_RIGHT without it. -/
def needRight (right : Profile → Bool) (port : Port) (body : Body) : Body := fun s =>
  if right (profileInUse s port) then body s else refused s .noRight

/-- A request that carries a number below n is refused with BAD_ARGUMENT outside it. -/
def needNumber (n : Nat) (b : Byte) (body : Fin n → Body) : Body := fun s =>
  match byteFin n b with
  | none => refused s .badArgument
  | some i => body i s

/-- R139, R140, R138: HALTED alone admits the request. -/
def needHalted (body : Body) : Body := fun s =>
  match s.engine.state with
  | .running | .halting => refused s .engineRunning
  | .stepping => refused s .engineBusy
  | .halted => body s

end Sys2Proof.Machine
end

