-- ==== Sys2Proof/Machine/Table.lean ====
section
/-! DEFINITION. The permit table's operations (chapters 3 to 5): grants and the group arbiter (R76 to R78), departures and settling
(R51, R52, R55, R63, R85, R101, R102), and the handling of a pass result, a tick, an engine change, trip entry, trip clearing, a
RESUME and a soft reset (R50, R58 to R61, R66, R96). Each takes the configuration and a table at work and gives the table, the notices made so far and
the causes handed to the trip unit, in their order. -/

namespace Sys2Proof.Machine

/-- The permit table while it takes one event. -/
structure TableWork where
  table : PermitTable
  made : List Made
  causes : List TripCause
deriving DecidableEq, Repr

/-- The work at the start of an event. -/
def TableWork.start (t : PermitTable) : TableWork := ⟨t, [], []⟩

def PermitTable.setRecord (p : PermitId) (r : PermitRecord) (t : PermitTable) : PermitTable :=
  { t with records := t.records.set p r }

def PermitTable.setSettle (g : GroupId) (n : Nat) (t : PermitTable) : PermitTable :=
  { t with settle := t.settle.set g n }

/-! Grants. -/

/-- R77: the claims granted of a record below its limit are as many heads of its queue as there is room for; a grant of p changes
none of p's eligibility inputs (R47), so they are granted together. -/
def PermitRecord.grantHeads (limit : Nat) (r : PermitRecord) : PermitRecord :=
  let room := limit - r.holders.length
  { r with
    holders := r.holders ++ (r.queue.take room).map (fun c => ⟨c.port, .fresh⟩)
    queue := r.queue.drop room }

/-- R77: the notices of those grants. -/
def grantNotices (limit : Nat) (p : PermitId) (r : PermitRecord) : List Made :=
  (r.queue.take (limit - r.holders.length)).map fun c => (c.port, .granted p)

/-- R77: grants to one permit, when it is eligible. -/
def grantPermit (c : ConfigStore) (w : TableWork) (p : PermitId) : TableWork :=
  if eligible c w.table p then
    let r := w.table.records[p]
    let limit := c.permits[p].limit
    { w with table := w.table.setRecord p (r.grantHeads limit), made := w.made ++ grantNotices limit p r }
  else w

/-- R77: a permit with group NONE. -/
def grantUngrouped (c : ConfigStore) (w : TableWork) (p : PermitId) : TableWork :=
  if c.permits[p].group = none then grantPermit c w p else w

/-- R78: an eligible member with a non-empty wait queue. -/
def candidate (c : ConfigStore) (t : PermitTable) (g : GroupId) (p : PermitId) : Bool :=
  isMember c g p && eligible c t p && !t.records[p].queue.isEmpty

/-- The priority of a permit's head claim. -/
def headPriority (t : PermitTable) (p : PermitId) : Nat :=
  match t.records[p].queue with
  | [] => 0
  | x :: _ => x.priority

/-- R78: of the best so far and the next candidate in ascending number, the one with the higher head priority, the earlier at a
tie. -/
def betterOf (t : PermitTable) (best : Option PermitId) (p : PermitId) : Option PermitId :=
  match best with
  | none => some p
  | some b => if headPriority t b < headPriority t p then some p else some b

/-- R78: the group arbiter. -/
def arbiter (c : ConfigStore) (t : PermitTable) (g : GroupId) : Option PermitId :=
  (allPermits.filter (candidate c t g)).foldl (betterOf t) none

/-- R78. -/
def grantGroup (c : ConfigStore) (w : TableWork) (g : GroupId) : TableWork :=
  match arbiter c w.table g with
  | none => w
  | some p => grantPermit c w p

/-- R76: grant examination over the whole table. -/
def grantExamination (c : ConfigStore) (w : TableWork) : TableWork :=
  allGroups.foldl (grantGroup c) (allPermits.foldl (grantUngrouped c) w)

/-! Departures. -/

/-- R55: p's group, if any, begins settling (or restarts) at its full settle value. -/
def startSettling (c : ConfigStore) (p : PermitId) (t : PermitTable) : PermitTable :=
  match c.permits[p].group with
  | none => t
  | some g => t.setSettle g c.groups[g].settle

/-- A new record for p, with settling when p thereby lost its last holder (R55). -/
def changeRecord (c : ConfigStore) (p : PermitId) (r : PermitRecord) (t : PermitTable) : PermitTable :=
  if !t.records[p].holders.isEmpty && r.holders.isEmpty then startSettling c p (t.setRecord p r) else t.setRecord p r

/-- Every holder with the same notice. -/
def revokeNotices (p : PermitId) (cause : EndCause) (hs : List Holder) : List Made :=
  hs.map fun h => (h.port, .revoked p cause)

/-- Every claim with the same notice. -/
def waitEndNotices (p : PermitId) (cause : EndCause) (q : List Claim) : List Made :=
  q.map fun x => (x.port, .waitEnded p cause)

/-! The pass result (R50). -/

/-- R46, R50 step 1. The pass result carries a value for each permit that was enabled at the pass; a permit that an accepted write has
disabled since takes its value too (DESIGN CHOICE: log 29). -/
def recordConditions (r : PassResult) (t : PermitTable) : PermitTable :=
  { t with
    records := t.records.mapFinIdx fun i rec h =>
      match r.conditions[i] with
      | none => rec
      | some true => { rec with condition := .met }
      | some false => { rec with condition := .notMet } }

/-- R53: the mismatch count after a comparison. -/
def nextMismatch (agree : Bool) (n : Nat) : Nat := if agree then 0 else if n < 2 then n + 1 else n

/-- R53: the pair of p agrees. -/
def pairAgrees (r : PassResult) (p : PermitId) : Bool := r.sampled.getLsbD p == r.commanded.getLsbD p

/-- R50 step 2, R53. -/
def compareReadback (c : ConfigStore) (r : PassResult) (w : TableWork) (p : PermitId) : TableWork :=
  if c.permits[p].enabled && c.permits[p].readback then
    let rec0 := w.table.records[p]
    let n := nextMismatch (pairAgrees r p) rec0.mismatch
    { w with
      table := w.table.setRecord p { rec0 with mismatch := n }
      causes := if !pairAgrees r p && decide (n = 2) then w.causes ++ [.lineFeedback p] else w.causes }
  else w

/-- R51, R52: what a condition loss leaves of a record. -/
def PermitRecord.afterLoss (loss : LossAction) (r : PermitRecord) : PermitRecord :=
  match loss with
  | .drop => { r with holders := [] }
  | .lock => { r with holders := [], queue := [], lock := true }

/-- R51, R52: its notices, the holders' first. -/
def lossNotices (loss : LossAction) (p : PermitId) (r : PermitRecord) : List Made :=
  revokeNotices p .condition r.holders ++
    match loss with
    | .drop => []
    | .lock => waitEndNotices p .lock r.queue

/-- R50 steps 3 and 4, R51, R52. -/
def revokeOnLoss (c : ConfigStore) (w : TableWork) (p : PermitId) : TableWork :=
  let r := w.table.records[p]
  if permitState c w.table p = .held ∧ r.condition = .notMet then
    let loss := c.permits[p].loss
    { w with table := changeRecord c p (r.afterLoss loss) w.table, made := w.made ++ lossNotices loss p r }
  else w

/-- R50. -/
def tablePassResult (c : ConfigStore) (r : PassResult) (t : PermitTable) : TableWork :=
  let w1 := TableWork.start (recordConditions r t)
  let w2 := allPermits.foldl (compareReadback c r) w1
  let w3 := allPermits.foldl (revokeOnLoss c) w2
  grantExamination c w3

/-! A tick (R96). -/

/-- R104: whether a tick carries out steps 1 to 3. -/
def counting (c : ConfigStore) (t : PermitTable) : Bool :=
  decide (t.engine = .running) || decide (c.engine.supervision = .run)

/-- R56: a settle counter on the ticking source. -/
def settleTick (c : ConfigStore) (src : SourceId) (t : PermitTable) (g : GroupId) : PermitTable :=
  if c.groups[g].source = src then t.setSettle g (t.settle[g] - 1) else t

/-- R96 step 1: the group's settling ends at this tick. -/
def settleEnds (c : ConfigStore) (src : SourceId) (t : PermitTable) (g : GroupId) : Bool :=
  decide (c.groups[g].source = src) && decide (t.settle[g] = 1)

/-- R97: the stage after a tick; a LATE holder that stays is LATE (R103). -/
def LeaseStage.age : LeaseStage → LeaseStage
  | .fresh => .armed
  | .armed => .late
  | .late => .late

def Holder.age (h : Holder) : Holder := { h with stage := h.stage.age }

/-- R98: the LATE notices of holders that were ARMED. -/
def lateNotices (p : PermitId) (hs : List Holder) : List Made :=
  (hs.filter fun h => decide (h.stage = .armed)).map fun h => (h.port, .late p)

/-- R97, R98, R101: one holder's notice under expiry action RELEASE. -/
def releaseNotice (p : PermitId) (h : Holder) : List Made :=
  match h.stage with
  | .fresh => []
  | .armed => [(h.port, .late p)]
  | .late => [(h.port, .revoked p .lease)]

/-- R102: the removal notices of a lock, REVOKED(LEASE) for the first LATE holder and REVOKED(LOCK) for every other. -/
def lockNotices (p : PermitId) : List Holder → List Made
  | [] => []
  | h :: hs =>
    if h.stage = .late then (h.port, .revoked p .lease) :: revokeNotices p .lock hs
    else (h.port, .revoked p .lock) :: lockNotices p hs

/-- The holders that step 2 meets before the first LATE one. -/
def beforeLate (hs : List Holder) : List Holder := hs.takeWhile fun h => decide (h.stage ≠ .late)

def anyLate (hs : List Holder) : Bool := hs.any fun h => decide (h.stage = .late)

/-- R97, R101 to R103: what a tick leaves of the record of a permit with lease on. -/
def PermitRecord.afterTick (x : ExpiryAction) (r : PermitRecord) : PermitRecord :=
  match x with
  | .release => { r with holders := (r.holders.filter fun h => decide (h.stage ≠ .late)).map Holder.age }
  | .lock =>
    if anyLate r.holders then { r with holders := [], queue := [], lock := true }
    else { r with holders := r.holders.map Holder.age }
  | .trip => { r with holders := r.holders.map Holder.age }

/-- The notices of that tick for the permit, in the order step 2 makes them. -/
def leaseNotices (x : ExpiryAction) (p : PermitId) (r : PermitRecord) : List Made :=
  match x with
  | .release => r.holders.flatMap (releaseNotice p)
  | .lock =>
    if anyLate r.holders then
      lateNotices p (beforeLate r.holders) ++ lockNotices p r.holders ++ waitEndNotices p .lock r.queue
    else lateNotices p r.holders
  | .trip => lateNotices p r.holders

/-- R103: the causes handed to the trip unit, one for each LATE holder. -/
def leaseCauses (x : ExpiryAction) (p : PermitId) (r : PermitRecord) : List TripCause :=
  match x with
  | .trip => (r.holders.filter fun h => decide (h.stage = .late)).map fun _ => .lease p
  | _ => []

/-- R96 step 2: the permit's holders are advanced by a tick of this source. -/
def leased (c : ConfigStore) (src : SourceId) (p : PermitId) : Bool :=
  c.permits[p].lease && decide (c.permits[p].source = src)

/-- R96 step 2. -/
def leaseTick (c : ConfigStore) (src : SourceId) (w : TableWork) (p : PermitId) : TableWork :=
  if leased c src p then
    let r := w.table.records[p]
    let x := c.permits[p].expiry
    { table := changeRecord c p (r.afterTick x) w.table
      made := w.made ++ leaseNotices x p r
      causes := w.causes ++ leaseCauses x p r }
  else w

/-- R96 step 5: step 2 removes a holder of p. -/
def leaseRemoves (c : ConfigStore) (src : SourceId) (t : PermitTable) (p : PermitId) : Bool :=
  leased c src p && decide ((t.records[p].afterTick c.permits[p].expiry).holders.length < t.records[p].holders.length)

/-- R80, R81: a claim after a tick of its source; none when its wait ends. -/
def Claim.afterTick (x : Claim) : Option Claim :=
  match x.wait with
  | none => some x
  | some n => if n ≤ 1 then none else some { x with wait := some (n - 1) }

/-- R81. -/
def expires (x : Claim) : Bool := x.afterTick.isNone

/-- R96 step 3, R80, R81. -/
def waitTick (c : ConfigStore) (src : SourceId) (w : TableWork) (p : PermitId) : TableWork :=
  if c.permits[p].source = src then
    let r := w.table.records[p]
    { w with
      table := w.table.setRecord p { r with queue := r.queue.filterMap Claim.afterTick }
      made := w.made ++ waitEndNotices p .expired (r.queue.filter expires) }
  else w

/-- R96: one tick of the source, as one event. -/
def tableTick (c : ConfigStore) (src : SourceId) (t : PermitTable) : TableWork :=
  if counting c t then
    let t1 := allGroups.foldl (settleTick c src) t
    let w2 := allPermits.foldl (leaseTick c src) (TableWork.start t1)
    let w3 := allPermits.foldl (waitTick c src) w2
    if allGroups.any (settleEnds c src t) || allPermits.any (leaseRemoves c src t) then grantExamination c w3 else w3
  else TableWork.start t

/-! Engine changes, trips, commits and soft reset at the permit table. -/

/-- R58, R76: a change of engine state; grant examination follows a change to RUNNING. -/
def tableEngineChange (c : ConfigStore) (e : EngineState) (t : PermitTable) : TableWork :=
  let w := TableWork.start { t with engine := e }
  if e = .running then grantExamination c w else w

/-- R60, R66: a record with no holders and no claims. -/
def PermitRecord.emptied (r : PermitRecord) : PermitRecord := { r with holders := [], queue := [] }

/-- R60: one permit of trip entry, with settling (R55). -/
def emptyPermit (c : ConfigStore) (t : PermitTable) (p : PermitId) : PermitTable :=
  changeRecord c p t.records[p].emptied t

/-- R60: trip entry. -/
def tableTripEntry (c : ConfigStore) (t : PermitTable) : PermitTable :=
  allPermits.foldl (emptyPermit c) { t with trip := .tripped }

/-- R61: trip clearing. -/
def tableTripClearing (t : PermitTable) : PermitTable := { t with trip := .normal }

/-- R85: the port's new claim mask includes p. -/
def maskAdmits (c : ConfigStore) (port : Port) (p : PermitId) : Bool :=
  (c.profilesInUse[port].mask).getLsbD p

/-- R85: rights withdrawal of one permit. -/
def withdrawRights (c : ConfigStore) (w : TableWork) (p : PermitId) : TableWork :=
  let r := w.table.records[p]
  let r' := { r with
    holders := r.holders.filter fun h => maskAdmits c h.port p
    queue := r.queue.filter fun x => maskAdmits c x.port p }
  { w with
    table := changeRecord c p r' w.table
    made := w.made ++ revokeNotices p .rightWithdrawn (r.holders.filter fun h => !maskAdmits c h.port p) ++
      waitEndNotices p .rightWithdrawn (r.queue.filter fun x => !maskAdmits c x.port p) }

/-- R59 step 2. -/
def PermitTable.forgetConditions (t : PermitTable) : PermitTable :=
  { t with records := t.records.map fun r => { r with condition := .unknown, mismatch := 0 } }

/-- R59: an accepted RESUME from HALTED, with the configuration after the commit. -/
def tableResume (c : ConfigStore) (commits : Bool) (t : PermitTable) : TableWork :=
  let w1 := if commits then allPermits.foldl (withdrawRights c) (TableWork.start t) else TableWork.start t
  grantExamination c { w1 with table := { w1.table.forgetConditions with engine := .running } }

/-- R66: soft reset. -/
def tableSoftReset (t : PermitTable) : PermitTable :=
  { t with
    records := t.records.map fun r => { r.emptied with condition := .unknown, mismatch := 0 }
    settle := Vector.replicate 4 0
    engine := .halted }

/-! The work given back to the part. -/

/-- The table's notices, stamped with the count, and its causes set out for the trip unit (R103, R110). -/
def commitWork (count : PassCount) (w : TableWork) (s : State) : State :=
  pushNotices .permitTable count w.made
    { s with table := w.table, flight := { s.flight with tripCauses := s.flight.tripCauses ++ w.causes } }

/-! Arrivals handed to the permit table, in the order they were handed (log 1, log 9). -/

/-- R50: the permit table takes a pass result; its notices carry the count of that pass. -/
def takePassResult (r : PassResult) (s : State) : State := commitWork r.count (tablePassResult s.config r s.table) s

/-- R58: the permit table takes an engine change. -/
def takeEngineChange (e : EngineState) (s : State) : State :=
  commitWork s.eval.passCount (tableEngineChange s.config e s.table) s

def takeArrival (s : State) (a : PermitArrival) : State :=
  match a with
  | .passResult r => takePassResult r s
  | .engineChange e => takeEngineChange e s

/-- Every pass result and engine change handed so far is taken, oldest first. -/
def drainPermit (s : State) : State :=
  s.flight.toPermit.foldl takeArrival (s.onFlight fun f => { f with toPermit := [] })

/-- The first arrival that is an engine change, with the rest; it may come before a pass result handed earlier (R65: either may be taken
first). -/
def firstEngineChange : List PermitArrival → Option (EngineState × List PermitArrival)
  | [] => none
  | .engineChange e :: rest => some (e, rest)
  | .passResult r :: rest => (firstEngineChange rest).map fun x => (x.1, .passResult r :: x.2)

/-- The engine changes among the arrivals, oldest first. -/
def engineChanges : List PermitArrival → List EngineState
  | [] => []
  | .engineChange e :: rest => e :: engineChanges rest
  | .passResult _ :: rest => engineChanges rest

/-- The pass results among the arrivals, oldest first. -/
def passResults : List PermitArrival → List PermitArrival
  | [] => []
  | .engineChange _ :: rest => passResults rest
  | .passResult r :: rest => .passResult r :: passResults rest

/-- Every engine change handed so far is taken, oldest first; the pass results stay on their way (R65: either may be taken first). -/
def takeEngineChanges (s : State) : State :=
  (engineChanges s.flight.toPermit).foldl (fun t e => takeEngineChange e t)
    (s.onFlight fun f => { f with toPermit := passResults f.toPermit })

end Sys2Proof.Machine
end

