-- ==== Sys2Proof/Machine/Claims.lean ====
section
/-! DEFINITION. The requests at the permit table: CLAIM (R68 to R74), RELEASE (R82 to R84), REFRESH and REFRESH ALL (R99, R100), REVOKE
(R63) and UNLOCK (R62); and the ticks at the permit table with the outcomes that the table of commands names (R56, R81, R96 to
R103). -/

namespace Sys2Proof.Machine

/-- R69(8). -/
def isHolder (r : PermitRecord) (port : Port) : Bool := r.holders.any fun h => decide (h.port = port)
/-- R69(9). -/
def isWaiter (r : PermitRecord) (port : Port) : Bool := r.queue.any fun x => decide (x.port = port)

/-- R69: checks 2 to 9 in their order; the first that fails gives the reason. -/
def claimRefusal (port : Port) (p : PermitId) (epoch : Word16) (s : State) : Option Reason :=
  let r := s.table.records[p]
  if !(profileInUse s port).mask.getLsbD p then some .noRight
  else if epoch ≠ s.config.epoch then some .staleEpoch
  else if !s.config.permits[p].enabled then some .notEnabled
  else if r.lock then some .locked
  else if s.table.trip = .tripped then some .tripped
  else if s.table.engine ≠ .running then some .engineHalted
  else if isHolder r port then some .alreadyHolder
  else if isWaiter r port then some .alreadyWaiting
  else none

/-- R70: the priority, lowered to the ceiling of the profile in use. -/
def effectivePriority (s : State) (port : Port) (q : Fin 4) : Fin 4 :=
  if (profileInUse s port).ceiling < q then (profileInUse s port).ceiling else q

/-- R72: the three conditions of an immediate grant. -/
def grantsAtOnce (s : State) (p : PermitId) : Bool :=
  eligible s.config s.table p && decide (s.table.records[p].holders.length < s.config.permits[p].limit) &&
    s.table.records[p].queue.isEmpty

/-- R74: the records with priority equal to or higher than q, which stand ahead of a new claim of priority q. -/
def aheadOf (q : Fin 4) (queue : List Claim) : List Claim := queue.takeWhile fun x => decide (q ≤ x.priority)

/-- R74: the queue with the new claim. -/
def insertClaim (x : Claim) (queue : List Claim) : List Claim :=
  aheadOf x.priority queue ++ x :: queue.drop (aheadOf x.priority queue).length

/-- R68: 255 waits without limit. -/
def waitOf (w : Byte) : Option Nat := if w = 255#8 then none else some w.toNat

/-- R72: the port appended to the holder list in FRESH. -/
def PermitRecord.addHolder (port : Port) (r : PermitRecord) : PermitRecord :=
  { r with holders := r.holders ++ [⟨port, .fresh⟩] }

/-- R72, R73, R74: a claim that has passed the checks. -/
def admitClaim (port : Port) (p : PermitId) (q : Fin 4) (w : Byte) (s : State) : State × Option Reply :=
  let r := s.table.records[p]
  let eff := effectivePriority s port q
  if grantsAtOnce s p then
    (s.onTable fun t => t.setRecord p (r.addHolder port),
      some ⟨.granted, [numByte p, numByte eff, numByte (r.holders.length + 1)]⟩)
  else if w = 0#8 then
    (s, refuse .notReady ((permitState s.config s.table p).bytes ++ [numByte eff]))
  else
    let x : Claim := ⟨port, eff, waitOf w⟩
    let t := s.table.setRecord p { r with queue := insertClaim x r.queue }
    (commitWork s.eval.passCount (grantExamination s.config (.start t)) s,
      some ⟨.queued, [numByte p, numByte eff, numByte ((aheadOf eff r.queue).length + 1)]⟩)

/-- R69 check 1, then checks 2 to 9, then R70 to R74. -/
def claimBody (port : Port) (permit priority wait : Byte) (epoch : Word16) : Body := fun s =>
  match byteFin 16 permit, byteFin 4 priority with
  | some p, some q =>
    match claimRefusal port p epoch s with
    | some reason => refused s reason
    | none => admitClaim port p q wait s
  | _, _ => refused s .badArgument

/-- CLAIM (R68). -/
def execClaim (port : Port) (permit priority wait : Byte) (epoch : Word16) (s : State) :
    Host.Outcome State Fault Refusal :=
  .next (serve port (.claim port permit priority wait epoch) 0x10#8 5 (claimBody port permit priority wait epoch) s)

/-- The record without the port's holding. -/
def PermitRecord.dropHolder (port : Port) (r : PermitRecord) : PermitRecord :=
  { r with holders := r.holders.filter fun h => decide (h.port ≠ port) }

/-- The record without the port's claim. -/
def PermitRecord.dropClaim (port : Port) (r : PermitRecord) : PermitRecord :=
  { r with queue := r.queue.filter fun x => decide (x.port ≠ port) }

/-- R84: the position of the port's claim, from 1. -/
def positionOf (port : Port) (queue : List Claim) : Nat :=
  (queue.takeWhile fun x => decide (x.port ≠ port)).length + 1

/-- R82: a holding ends (R83), a claim is withdrawn (R84), or NOT_HOLDER. -/
def releaseBody (port : Port) (p : PermitId) : Body := fun s =>
  let r := s.table.records[p]
  if isHolder r port then
    let r' := r.dropHolder port
    (commitWork s.eval.passCount (grantExamination s.config (.start (changeRecord s.config p r' s.table))) s,
      okReply [0#8, numByte r'.holders.length])
  else if isWaiter r port then
    (s.onTable fun t => t.setRecord p (r.dropClaim port), okReply [1#8, numByte (positionOf port r.queue)])
  else refused s .notHolder

/-- RELEASE (R82). -/
def execRelease (port : Port) (permit : Byte) (s : State) : Host.Outcome State Fault Refusal :=
  .next (serve port (.release port permit) 0x11#8 1 (needNumber 16 permit (releaseBody port)) s)

/-- R99, R100: the port's stage becomes FRESH. -/
def PermitRecord.refresh (port : Port) (r : PermitRecord) : PermitRecord :=
  { r with holders := r.holders.map fun h => if h.port = port then { h with stage := .fresh } else h }

/-- R99. -/
def refreshBody (port : Port) (p : PermitId) : Body := fun s =>
  let r := s.table.records[p]
  match r.holders.find? fun h => decide (h.port = port) with
  | none => refused s .notHolder
  | some h => (s.onTable fun t => t.setRecord p (r.refresh port), okReply [h.stage.code])

/-- REFRESH (R99). -/
def execRefresh (port : Port) (permit : Byte) (s : State) : Host.Outcome State Fault Refusal :=
  .next (serve port (.refresh port permit) 0x12#8 1 (needNumber 16 permit (refreshBody port)) s)

/-- R100: the port's holdings. -/
def holdingsOf (t : PermitTable) (port : Port) : Nat := (allPermits.filter fun p => isHolder t.records[p] port).length

/-- R100: every holding of the port takes the stage FRESH in one event. -/
def refreshAllBody (port : Port) : Body := fun s =>
  (s.onTable fun t => { t with records := t.records.map (PermitRecord.refresh port) },
    okReply [numByte (holdingsOf s.table port)])

/-- REFRESH_ALL (R100). -/
def execRefreshAll (port : Port) (s : State) : Host.Outcome State Fault Refusal :=
  .next (serve port (.refreshAll port) 0x13#8 0 (refreshAllBody port) s)

/-- R63. -/
def revokeBody (p : PermitId) : Body := fun s =>
  let r := s.table.records[p]
  let w : TableWork :=
    ⟨changeRecord s.config p r.emptied s.table,
      revokeNotices p .command r.holders ++ waitEndNotices p .command r.queue, []⟩
  (commitWork s.eval.passCount (grantExamination s.config w) s,
    okReply [numByte r.holders.length, numByte r.queue.length])

/-- REVOKE (R63): the number is checked first, then the right. -/
def execRevoke (port : Port) (permit : Byte) (s : State) : Host.Outcome State Fault Refusal :=
  .next (serve port (.revoke port permit) 0x14#8 1
    (needNumber 16 permit fun p => needRight Profile.clear port (revokeBody p)) s)

/-- R62: a LOCKED permit's mark is cleared; the answer carries the state after the request. -/
def unlockBody (p : PermitId) : Body := fun s =>
  let t :=
    if permitState s.config s.table p = .locked then
      commitWork s.eval.passCount
        (grantExamination s.config (.start (s.table.setRecord p { s.table.records[p] with lock := false }))) s
    else s
  (t, okReply (permitState t.config t.table p).bytes)

/-- UNLOCK (R62). -/
def execUnlock (port : Port) (permit : Byte) (s : State) : Host.Outcome State Fault Refusal :=
  .next (serve port (.unlock port permit) 0x15#8 1
    (needNumber 16 permit fun p => needRight Profile.clear port (unlockBody p)) s)

/-! Ticks at the permit table. -/

/-- R96: the work of a tick of the source at the permit table as it stands. -/
def tickWork (src : SourceId) (s : State) : TableWork := tableTick s.config src s.table

/-- R96: the permit table takes a tick of the source; its notices carry the count of the last delivered pass. -/
def applyPermitTick (src : SourceId) (s : State) : State := commitWork s.eval.passCount (tickWork src s) s

/-- A tick of the source in flight to the permit table is taken, when there is one and the condition holds. -/
def takePermitTickIf (happens : Bool) (src : SourceId) (s : State) : State :=
  if 0 < s.flight.permitTicks[src] ∧ happens = true then
    applyPermitTick src
      (s.onFlight fun f => { f with permitTicks := f.permitTicks.set src (f.permitTicks[src] - 1) })
  else s

/-- TICK_AT_PERMIT_TABLE (R96). -/
def execTickAtPermitTable (src : SourceId) (s : State) : Host.Outcome State Fault Refusal :=
  .next (s.unlessReset (takePermitTickIf true src))

/-- The tick makes this notice. -/
def tickMakes (src : SourceId) (m : Made) (s : State) : Bool := (tickWork src s).made.contains m

/-- R56: the group's settling ends at the next tick of its source. -/
def settlingEnds (g : GroupId) (s : State) : Bool :=
  counting s.config s.table && settleEnds s.config s.config.groups[g].source s.table g

/-- SETTLE_END (R56): the tick at which the group's settling ends (log 3). -/
def execSettleEnd (g : GroupId) (s : State) : Host.Outcome State Fault Refusal :=
  .next (s.unlessReset fun t => takePermitTickIf (settlingEnds g t) t.config.groups[g].source t)

/-- LATE (R98): the tick at which the holding becomes LATE (log 3). -/
def execLate (p : PermitId) (port : Port) (s : State) : Host.Outcome State Fault Refusal :=
  .next (s.unlessReset fun t =>
    takePermitTickIf (tickMakes t.config.permits[p].source (port, .late p) t) t.config.permits[p].source t)

/-- LEASE_EXPIRY_RELEASE (R101): the tick that ends the LATE holding alone (log 3). -/
def execLeaseExpiryRelease (p : PermitId) (port : Port) (s : State) : Host.Outcome State Fault Refusal :=
  .next (s.unlessReset fun t =>
    takePermitTickIf (decide (t.config.permits[p].expiry = .release) &&
      tickMakes t.config.permits[p].source (port, .revoked p .lease) t) t.config.permits[p].source t)

/-- LEASE_EXPIRY_LOCK (R102): the tick at which the LATE holding locks the permit (log 3). -/
def execLeaseExpiryLock (p : PermitId) (port : Port) (s : State) : Host.Outcome State Fault Refusal :=
  .next (s.unlessReset fun t =>
    takePermitTickIf (decide (t.config.permits[p].expiry = .lock) &&
      tickMakes t.config.permits[p].source (port, .revoked p .lease) t) t.config.permits[p].source t)

/-- LEASE_EXPIRY_TRIP (R103): the tick at which the LATE holding hands LEASE to the trip unit (log 3). -/
def execLeaseExpiryTrip (p : PermitId) (port : Port) (s : State) : Host.Outcome State Fault Refusal :=
  .next (s.unlessReset fun t =>
    takePermitTickIf ((tickWork t.config.permits[p].source t).causes.contains (.lease p) &&
      t.table.records[p].holders.contains ⟨port, .late⟩) t.config.permits[p].source t)

/-- WAIT_EXPIRED (R81): the tick at which the port's claim ends (log 3). -/
def execWaitExpired (p : PermitId) (port : Port) (s : State) : Host.Outcome State Fault Refusal :=
  .next (s.unlessReset fun t =>
    takePermitTickIf (tickMakes t.config.permits[p].source (port, .waitEnded p .expired) t)
      t.config.permits[p].source t)

end Sys2Proof.Machine
end

