-- ==== Sys2Proof/Machine/Clock.lean ====
section
/-! DEFINITION. The tick generator (R93, R94, R95): the reference period, the base tick, the source ticks and the restart. -/

namespace Sys2Proof.Machine

/-- R94: the source's counter reaches its divider in use at the next base tick. -/
def TickGen.reaches (g : TickGen) (src : SourceId) : Bool := decide (g.dividers[src] ≤ g.counters[src] + 1)

/-- R94: every source counter after a base tick. -/
def TickGen.advance (g : TickGen) : TickGen :=
  { g with
    baseDivider := 0
    counters := Vector.ofFn fun src : Fin 4 => if g.reaches src then 0 else g.counters[src] + 1 }

/-- R10, R11: a tick that reaches the scan unit while it is idle in RUNNING may begin a scan; any other is dropped (log 30). -/
def ScanUnit.hearsTicks (u : ScanUnit) : Bool := decide (u.engine = .running) && decide (u.state = .idle)

/-- R94: one tick more of each source whose counter reaches its divider at the base tick. -/
def TickGen.produce (g : TickGen) (waiting : Vector Nat 4) : Vector Nat 4 :=
  Vector.ofFn fun src : Fin 4 => if g.reaches src then waiting[src] + 1 else waiting[src]

/-- R93, R94, R95: a base tick advances the source counters, reaches the scan unit, and lets each source whose counter reached its
divider produce one tick, which goes its own way to each consumer: to the scan unit, to the permit table and, of source 0, to the trip
unit (log 4). -/
def baseTick (s : State) : State :=
  { s with
    ticks := s.ticks.advance
    flight := { s.flight with
      scanBaseTicks := if s.scan.hearsTicks then s.flight.scanBaseTicks + 1 else s.flight.scanBaseTicks
      sourceTicks := s.ticks.produce s.flight.sourceTicks
      permitTicks := s.ticks.produce s.flight.permitTicks
      tripTicks := if s.ticks.reaches 0 then s.flight.tripTicks + 1 else s.flight.tripTicks } }

/-- BASE_TICK (R93): the base divider completes its reference periods. -/
def execBaseTick (s : State) : Host.Outcome State Fault Refusal := .next (s.unlessReset baseTick)

/-- R95: a tick of the source arrives at the scan unit; `heard` says whether the scan unit keeps it (R11). The arrivals of the same tick at
the permit table and the trip unit are before it or after it. -/
def InFlight.deliverTick (heard : Bool) (src : SourceId) (f : InFlight) : InFlight :=
  { f with
    sourceTicks := f.sourceTicks.set src (f.sourceTicks[src] - 1)
    scanTicks := if heard then f.scanTicks.set src (f.scanTicks[src] + 1) else f.scanTicks }

/-- R94, R95: a tick that the source has produced arrives at the scan unit. -/
def takeSourceTick (src : SourceId) (s : State) : State :=
  if 0 < s.flight.sourceTicks[src] then s.onFlight (InFlight.deliverTick s.scan.hearsTicks src) else s

/-- SOURCE_TICK (R94, R95; log 4). -/
def execSourceTick (src : SourceId) (s : State) : Host.Outcome State Fault Refusal :=
  .next (s.unlessReset (takeSourceTick src))

/-- R93: one reference period passes (the step on an empty queue: log 5). -/
def referencePeriod (s : State) : State :=
  if s.ticks.baseDivider + 1 < Config.baseDivision then
    s.onTicks fun g => { g with baseDivider := g.baseDivider + 1 }
  else baseTick s

/-- R93, R94: the restart of the base divider and the source counters. -/
def TickGen.restart (dividers : Vector Nat 4) : TickGen := ⟨0, dividers, Vector.replicate 4 0⟩

/-- R10, R11: no tick that reached the scan unit before begins a scan from here on (log 30). -/
def InFlight.dropTriggers (f : InFlight) : InFlight := { f with scanBaseTicks := 0, scanTicks := Vector.replicate 4 0 }

/-- R94: after a restart the first tick of a source comes a full divider later, so no tick made before it is left in flight (log 10). -/
def InFlight.dropTicks (f : InFlight) : InFlight :=
  { f.dropTriggers with
    sourceTicks := Vector.replicate 4 0
    permitTicks := Vector.replicate 4 0
    tripTicks := 0 }

end Sys2Proof.Machine
end

