-- ==== Sys2Proof/Machine/Measure.lean ====
section
/-! DEFINITION. The measurement path (chapters 1 and 2): scans and conversions (R1, R4, R5, R9 to R14), the pass with its verdicts, line
values and terms (R6, R15 to R18, R24 to R37), the watch check (R135) and the delivery or discarding of the pass (R34 to R37). -/

namespace Sys2Proof.Machine

/-! Scans. -/

/-- R9, R14: the channels a scan converts, ascending: the enabled ones, in a STEP scan without those that hold an injected
reading. -/
def scanChannels (kind : ScanKind) (s : State) : List ChannelId :=
  allChannels.filter fun c =>
    s.config.channels[c].enabled && !(decide (kind = .step) && s.engine.injectedReading[c].isSome)

/-- R9, R12: a scan begins; a tick that the scan unit has not acted on by now meets the scan in progress and is dropped (R10, R11). -/
def beginScan (kind : ScanKind) (s : State) : State :=
  (s.onScan fun u => { u with state := .inProgress ⟨kind, scanChannels kind s, 0, 0, false, Vector.replicate 12 none⟩ }).onFlight
    InFlight.dropTriggers

/-- R10, R11: the tick is a trigger event under the ENGINE entry's trigger. -/
def isTrigger (trigger : ScanTrigger) (tick : TriggerTick) : Bool :=
  match trigger, tick with
  | .free, .base => true
  | .tick src, .source src' => decide (src = src')
  | _, _ => false

/-- R10, R11: a RUN scan begins at the tick. -/
def startsRunScan (tick : TriggerTick) (s : State) : Bool :=
  isTrigger s.config.engine.trigger tick && decide (s.scan.engine = .running) && decide (s.scan.state = .idle) &&
    !s.scan.watchStopped

/-- The ticks of this kind that have reached the scan unit. -/
def InFlight.triggerTicks (f : InFlight) : TriggerTick → Nat
  | .base => f.scanBaseTicks
  | .source src => f.scanTicks[src]

def InFlight.dropTriggerTick (f : InFlight) : TriggerTick → InFlight
  | .base => { f with scanBaseTicks := f.scanBaseTicks - 1 }
  | .source src => { f with scanTicks := f.scanTicks.set src (f.scanTicks[src] - 1) }

/-- The scan unit acts on a tick that has reached it: a RUN scan begins, or the tick is dropped (R10, R11). -/
def takeTrigger (tick : TriggerTick) (s : State) : State :=
  if s.flight.triggerTicks tick = 0 then s
  else
    let s1 := s.onFlight fun f => f.dropTriggerTick tick
    if startsRunScan tick s then beginScan .run s1 else s1

/-- RUN_SCAN_START (R10, R11). -/
def execRunScanStart (tick : TriggerTick) (s : State) : Host.Outcome State Fault Refusal :=
  .next (s.unlessReset (takeTrigger tick))

/-- R1, R4, R5: one conversion of the channel being converted, of the pins that its entry selects. -/
def Scan.convert (e : ChannelEntry) (c : ChannelId) (rest : List ChannelId) (ain : Vector Int 12) (sc : Scan) : Scan :=
  let sample := e.clamp (e.select ain)
  let acc := sc.acc + sample
  let rail := sc.rail || (e.railCheck && e.atRail sample)
  if e.count ≤ sc.taken + 1 then
    { sc with todo := rest, taken := 0, acc := 0, rail := false,
              formed := sc.formed.set c (some ⟨e.average acc, rail⟩) }
  else { sc with taken := sc.taken + 1, acc := acc, rail := rail }

/-- The conversion under way completes; with no channel being converted there is none. -/
def takeConversion (ain : Vector Int 12) (s : State) : State :=
  match s.scan.state with
  | .idle => s
  | .inProgress sc =>
    match sc.todo with
    | [] => s
    | c :: rest =>
      s.onScan fun u => { u with state := .inProgress (sc.convert s.config.channels[c] c rest ain) }

/-- CONVERSION (R4). -/
def execConversion (ain : Vector Int 12) (s : State) : Host.Outcome State Fault Refusal :=
  .next (s.unlessReset (takeConversion ain))

/-! The pass: pending values. -/

/-- R4, R14: the reading of an enabled channel in this scan. In a STEP scan an injected reading stands in, at the nearer end of the
present range, with no rail mark. Every other enabled channel has a reading once nothing is left to convert; the value 0 of one that
has none belongs to no run (log 25). -/
def pendingReading (sc : Scan) (s : State) (c : ChannelId) : Reading :=
  match sc.kind, s.engine.injectedReading[c] with
  | .step, some v => ⟨s.config.channels[c].clamp v, false⟩
  | _, _ => sc.formed[c].getD ⟨0, false⟩

/-- R6: an enabled channel's pending verdict; a disabled channel has none. -/
def pendingVerdict (sc : Scan) (s : State) (c : ChannelId) : Option Verdict :=
  let e := s.config.channels[c]
  if e.enabled then some (e.classify s.scan.channels[c].verdict (pendingReading sc s c)) else none

/-- R7: a channel after delivery. -/
def nextChannel (sc : Scan) (s : State) (c : ChannelId) : ChannelState :=
  match pendingVerdict sc s c with
  | none => ⟨0, .unknown⟩
  | some v => ⟨(pendingReading sc s c).value, v⟩

/-- R15, R17: a line's pending raw level. -/
def pendingRaw (sc : Scan) (din : Word16) (s : State) (n : LineId) : Bool :=
  match sc.kind, s.engine.injectedLevel[n] with
  | .step, some level => level
  | _, _ => din.getLsbD n

/-- R15, R16: a line's pending values. -/
def pendingLine (sc : Scan) (din : Word16) (s : State) (n : LineId) : LineState :=
  s.config.lines[n].next s.lines.lines[n] (pendingRaw sc din s n)

/-- R18: the commanded levels at the sampling instant, bit p for PERMp. -/
def commandedLevels (s : State) : Word16 :=
  BitVec.ofNat 16 (packBits (allPermits.map fun p => commanded s.config s.table p))

/-! The terms. -/

/-- What the sources of one pass read (R24, R26): pending verdicts, pending filtered levels and the HELD snapshot. -/
structure PassView where
  verdicts : Vector (Option Verdict) 12
  filtered : Vector Bool 16
  held : Vector Bool 16
deriving DecidableEq, Repr

/-- The values of a pass: the pending ones and one snapshot of the permit table. -/
def passView (sc : Scan) (din : Word16) (s : State) : PassView where
  verdicts := Vector.ofFn fun c : Fin 12 => pendingVerdict sc s c
  filtered := Vector.ofFn fun n : Fin 16 => (pendingLine sc din s n).filtered
  held := Vector.ofFn fun p : Fin 16 => decide (permitState s.config s.table p = .held)

/-- A term's pending values of this pass (R27, R29, R30). -/
structure TermPending where
  output : Bool
  raw : Bool
  counter : Nat
deriving DecidableEq, Repr

/-- R28: a term's previous output. -/
def previousOutput (e : TermEntry) (h : TermHistory) : Bool := if h.seeded then h.held else e.initial
/-- R28: a term's previous raw value. -/
def previousRaw (e : TermEntry) (h : TermHistory) : Bool := if h.seeded then h.prevRaw else e.initial

/-- R24: the accept set holds the verdict. -/
def accepts (below inside above : Bool) (v : Option Verdict) : Bool :=
  match v with
  | some .below => below
  | some .inside => inside
  | some .above => above
  | _ => false

/-- R24: every line of the mask has the level. -/
def maskAll (mask : Word16) (level : Bool) (filtered : Vector Bool 16) : Bool :=
  allLines.all fun n => !mask.getLsbD n || filtered[n] == level

/-- R24 to R26: the value of a source in the entry of term i; `pend` holds the pending values of the terms already evaluated. -/
def sourceValue (s : State) (view : PassView) (pend : Vector TermPending 24) (i : TermId) : Source → Bool
  | .zero => false
  | .term k => if i < k then pend[k].output else previousOutput s.config.terms[k] s.eval.history[k]
  | .line n => view.filtered[n]
  | .lineSet mask allHigh => maskAll mask allHigh view.filtered
  | .channel c below inside above => accepts below inside above view.verdicts[c]
  | .held p => view.held[p]

/-- R27: the number of the truth table entry. -/
def truthIndex (a b c : Bool) : Nat := 4 * a.toNat + 2 * b.toNat + c.toNat

/-- R29, R30: the output stage. -/
def OutputStage.apply (st : OutputStage) (e : TermEntry) (h : TermHistory) (raw : Bool) : TermPending :=
  match st with
  | .direct => ⟨raw, raw, 0⟩
  | .qualify q =>
    let prev := previousOutput e h
    let n := (if h.seeded then h.counter else 0) + 1
    if raw = prev then ⟨prev, raw, 0⟩ else if q ≤ n then ⟨raw, raw, 0⟩ else ⟨prev, raw, n⟩
  | .rise => ⟨!previousRaw e h && raw, raw, 0⟩
  | .fall => ⟨previousRaw e h && !raw, raw, 0⟩

/-- R27: one term. -/
def evalTerm (s : State) (view : PassView) (pend : Vector TermPending 24) (i : TermId) : TermPending :=
  let e := s.config.terms[i]
  if e.enabled then
    let a := sourceValue s view pend i e.sourceA
    let b := sourceValue s view pend i e.sourceB
    let c := sourceValue s view pend i e.sourceC
    e.stage.apply e s.eval.history[i] (e.truth.getLsbD (truthIndex a b c))
  else ⟨false, false, 0⟩

/-- R32: the evaluation order, term 23 down to term 0. -/
def evaluationOrder : List TermId :=
  [23, 22, 21, 20, 19, 18, 17, 16, 15, 14, 13, 12, 11, 10, 9, 8, 7, 6, 5, 4, 3, 2, 1, 0]

/-- R32: the pending values of all terms. -/
def evalTerms (s : State) (view : PassView) : Vector TermPending 24 :=
  evaluationOrder.foldl (fun pend (i : TermId) => pend.set i (evalTerm s view pend i)) (Vector.replicate 24 ⟨false, false, 0⟩)

/-- R35: a term's history after delivery. -/
def nextHistory (e : TermEntry) (v : TermPending) : TermHistory :=
  if e.enabled then ⟨v.output, v.raw, v.counter, true⟩ else ⟨false, false, 0, false⟩

/-! The watch check (R135). -/

/-- R135: a term's change of output hits the edge. -/
def WatchEdge.hits (x : WatchEdge) (before after : Bool) : Bool :=
  match x with
  | .rise => !before && after
  | .fall => before && !after
  | .either => before != after

/-- R135: some enabled channel has newly become FAULT. -/
def newFault (s : State) (view : PassView) : Bool :=
  allChannels.any fun c => decide (view.verdicts[c] = some .fault) && decide (s.scan.channels[c].verdict ≠ .fault)

/-- R135: the slot hits. -/
def slotHits (s : State) (view : PassView) (pend : Vector TermPending 24) (slot : SlotId) : Bool :=
  let w := s.config.watches[slot]
  w.enabled &&
    match w.kind with
    | .termEdge k x => x.hits (previousOutput s.config.terms[k] s.eval.history[k]) pend[k].output
    | .anyFault => newFault s view

/-! Delivery and discarding. -/

/-- R7, R112: the channels reported faulted. -/
def faultBits (sc : Scan) (s : State) : BitVec 12 :=
  BitVec.ofNat 12 (packBits (allChannels.map fun c =>
    s.config.channels[c].tripOnFault && decide (pendingVerdict sc s c = some .fault)))

/-- R36: the pass result. -/
def makePassResult (pfb : Word16) (pend : Vector TermPending 24) (count : PassCount) (s : State) : PassResult where
  conditions := Vector.ofFn fun p : Fin 16 =>
    if s.config.permits[p].enabled then some pend[s.config.permits[p].term].output else none
  sampled := pfb
  commanded := commandedLevels s
  count := count

/-- R35 to R38: what a delivered pass sets out for the other blocks. -/
def InFlight.deliverPass (r : PassResult) (faulted : BitVec 12) (kind : ScanKind) (f : InFlight) : InFlight :=
  { f with
    toPermit := f.toPermit ++ [.passResult r]
    faultReports := f.faultReports ++ [⟨faulted, r.count⟩]
    deadlineRestarts := f.deadlineRestarts + 1
    passReports := f.passReports ++ [⟨kind, false, .delivered r.count⟩] }

/-- R35: delivery: the blocks of the measurement path commit, the pass count is increased, and the results go out. -/
def deliverPass (sc : Scan) (din pfb : Word16) (pend : Vector TermPending 24) (s : State) : State :=
  let count := s.eval.passCount + 1
  { s with
    scan := { s.scan with state := .idle, channels := Vector.ofFn fun c : Fin 12 => nextChannel sc s c }
    lines := ⟨Vector.ofFn fun n : Fin 16 => pendingLine sc din s n, pfb⟩
    eval := ⟨Vector.ofFn fun i : Fin 24 => nextHistory s.config.terms[i] pend[i], count⟩
    flight := s.flight.deliverPass (makePassResult pfb pend count s) (faultBits sc s) sc.kind }

/-- R34: a discarded pass leaves its report and the end of the scan; no RUN scan begins before a RESUME (log 11). -/
def discardPass (kind : ScanKind) (hit0 hit1 : Bool) (pend : Vector TermPending 24) (s : State) : State :=
  { s with
    scan := { s.scan with state := .idle, watchStopped := true }
    flight := { s.flight with
      passReports := s.flight.passReports ++ [⟨kind, false, .discarded hit0 hit1 (pend.map TermPending.output)⟩] } }

/-- R27, R32: the pending values of the terms at the pass of the scan. -/
def passPending (sc : Scan) (din : Word16) (s : State) : Vector TermPending 24 := evalTerms s (passView sc din s)

/-- R34, R135: the slot hits at the pass of the scan; no watch is tested at a STEP pass. -/
def watchHit (sc : Scan) (din : Word16) (s : State) (slot : SlotId) : Bool :=
  decide (sc.kind = .run) && slotHits s (passView sc din s) (passPending sc din s) slot

/-- R33, R34: the pass of the scan, delivered unless a watch hits. -/
def runPass (sc : Scan) (din pfb : Word16) (s : State) : State :=
  let pend := passPending sc din s
  if watchHit sc din s 0 || watchHit sc din s 1 then
    discardPass sc.kind (watchHit sc din s 0) (watchHit sc din s 1) pend s
  else deliverPass sc din pfb pend s

/-- The scan that has nothing left to convert completes; no other scan has a pass. -/
def takePass (din pfb : Word16) (s : State) : State :=
  match s.scan.state with
  | .idle => s
  | .inProgress sc => if sc.todo.isEmpty then runPass sc din pfb s else s

/-- PASS (R33). -/
def execPass (din pfb : Word16) (s : State) : Host.Outcome State Fault Refusal :=
  .next (s.unlessReset (takePass din pfb))

end Sys2Proof.Machine
end

