-- ==== Sys2Proof/Machine/Trip.lean ====
section
/-! DEFINITION. The trip unit (chapter 6): causes, trip entry, the pass deadline, the requests TRIP and CLEAR_TRIP, and the trip
deliveries at the permit table (R60, R61, R115). READ_TRIP is in Reads.lean. -/

namespace Sys2Proof.Machine

/-- The set of one cause (R109). -/
def CauseSet.single : TripCause → CauseSet
  | .tripIn => { CauseSet.empty with tripIn := true }
  | .channelFault c => { CauseSet.empty with channelFault := BitVec.twoPow 12 c }
  | .request p => { CauseSet.empty with request := BitVec.twoPow 4 p }
  | .lease p => { CauseSet.empty with lease := BitVec.twoPow 16 p }
  | .passDeadline => { CauseSet.empty with passDeadline := true }
  | .lineFeedback p => { CauseSet.empty with lineFeedback := BitVec.twoPow 16 p }

def CauseSet.union (a b : CauseSet) : CauseSet :=
  ⟨a.tripIn || b.tripIn, a.channelFault ||| b.channelFault, a.request ||| b.request, a.passDeadline || b.passDeadline,
    a.lease ||| b.lease, a.lineFeedback ||| b.lineFeedback⟩

/-- R109, R119: the set holds a level cause. -/
def CauseSet.hasLevel (a : CauseSet) : Bool := a.tripIn || decide (a.channelFault ≠ 0#12)

/-- R114 steps 1 and 2: the trip unit in TRIPPED with a new record. -/
def TripUnit.enter (causes : CauseSet) (first : TripCause) (count : PassCount) (u : TripUnit) : TripUnit :=
  { u with state := .tripped, present := u.present.union causes, record := ⟨some first, count, causes⟩ }

/-- R114: trip entry. TRIP_OUT_N follows the trip state (R117). -/
def enterTrip (causes : CauseSet) (first : TripCause) (count : PassCount) (s : State) : State :=
  pushNotices .tripUnit count (toEveryPort (.tripped first))
    ((s.onTrip (TripUnit.enter causes first count)).onFlight fun f =>
      { f with tripDeliveries := f.tripDeliveries ++ [.entry] })

/-- R110, R116: causes that arrive in TRIPPED. -/
def TripUnit.add (causes : CauseSet) (u : TripUnit) : TripUnit :=
  { u with present := u.present.union causes, record := { u.record with causes := u.record.causes.union causes } }

/-- R110: one cause arrives at the trip unit; a trip it enters records the pass count the evaluator holds (R114). -/
def causeArrives (cause : TripCause) (s : State) : State :=
  match s.trip.state with
  | .normal => enterTrip (.single cause) cause s.eval.passCount s
  | .tripped => s.onTrip (TripUnit.add (.single cause))

/-! Pin events (R111). -/

/-- TRIP_IN_ACTIVE (R111). The pin's level is the circuit's; during a reset it is not read (R143). -/
def execTripInActive (s : State) : Host.Outcome State Fault Refusal :=
  .next (({ s with tripInActive := true } : State).unlessReset (causeArrives .tripIn))

/-- TRIP_IN_INACTIVE (R111). -/
def execTripInInactive (s : State) : Host.Outcome State Fault Refusal :=
  .next (({ s with tripInActive := false } : State).unlessReset fun t =>
    t.onTrip fun u => { u with present := { u.present with tripIn := false } })

/-! Arrivals at the trip unit. -/

/-- The oldest cause handed on by the permit table arrives. -/
def takeTripCause (s : State) : State :=
  match s.flight.tripCauses with
  | [] => s
  | cause :: rest => causeArrives cause (s.onFlight fun f => { f with tripCauses := rest })

/-- TRIP_CAUSE_ARRIVAL (R110). -/
def execTripCauseArrival (s : State) : Host.Outcome State Fault Refusal := .next (s.unlessReset takeTripCause)

/-- R110: the channel with the lowest number among those reported faulted. -/
def firstFaulted (faulted : BitVec 12) : Option ChannelId := allChannels.find? fun c => faulted.getLsbD c

/-- R112: the causes of a fault report. -/
def faultCauses (faulted : BitVec 12) : CauseSet := { CauseSet.empty with channelFault := faulted }

/-- R112 steps 1 and 2. -/
def TripUnit.setFaults (faulted : BitVec 12) (u : TripUnit) : TripUnit :=
  { u with present := { u.present with channelFault := faulted } }

/-- R112: the trip unit takes a fault report. -/
def applyFaultReport (r : FaultReport) (s : State) : State :=
  let s1 := s.onTrip (TripUnit.setFaults r.faulted)
  match s.trip.state with
  | .tripped => s1.onTrip (TripUnit.add (faultCauses r.faulted))
  | .normal =>
    if r.faulted &&& ~~~s.trip.present.channelFault = 0#12 then s1
    else match firstFaulted r.faulted with
      | none => s1
      | some c => enterTrip (faultCauses r.faulted) (.channelFault c) r.count s1

/-- The oldest fault report in flight is taken. -/
def takeFaultReport (s : State) : State :=
  match s.flight.faultReports with
  | [] => s
  | r :: rest => applyFaultReport r (s.onFlight fun f => { f with faultReports := rest })

/-- FAULT_REPORT (R112). -/
def execFaultReport (s : State) : Host.Outcome State Fault Refusal := .next (s.unlessReset takeFaultReport)

/-- Every fault report in flight is taken, oldest first (log 9). -/
def drainFaultReports (s : State) : State :=
  s.flight.faultReports.foldl (fun s r => applyFaultReport r s) (s.onFlight fun f => { f with faultReports := [] })

/-- R113: the deadline counter set to the ENGINE entry's deadline value as it stands. -/
def setDeadline (s : State) : State := s.onTrip fun u => { u with deadline := s.config.engine.deadline }

/-- A deadline restart in flight is taken (R37, R113). -/
def takeDeadlineRestart (s : State) : State :=
  match s.flight.deadlineRestarts with
  | 0 => s
  | n + 1 => setDeadline (s.onFlight fun f => { f with deadlineRestarts := n })

/-- DEADLINE_RESTART (R113). -/
def execDeadlineRestart (s : State) : Host.Outcome State Fault Refusal := .next (s.unlessReset takeDeadlineRestart)

/-- R113: the counter counts at a tick of source 0. -/
def deadlineCounts (s : State) : Bool := decide (s.engine.state = .running) && decide (0 < s.trip.deadline)

/-- R113: a tick of source 0 at the trip unit; at 0 PASS_DEADLINE arrives as a latched cause. -/
def applyTripTick (s : State) : State :=
  if deadlineCounts s then
    let s1 := s.onTrip fun u => { u with deadline := u.deadline - 1 }
    if s.trip.deadline = 1 then causeArrives .passDeadline s1 else s1
  else s

/-- A tick of source 0 in flight to the trip unit is taken. -/
def takeTripTick (s : State) : State :=
  match s.flight.tripTicks with
  | 0 => s
  | n + 1 => applyTripTick (s.onFlight fun f => { f with tripTicks := n })

/-- TICK_AT_TRIP_UNIT (R113). -/
def execTickAtTripUnit (s : State) : Host.Outcome State Fault Refusal := .next (s.unlessReset takeTripTick)

/-- PASS_DEADLINE (R113): the tick at which the counter reaches 0 (log 3). -/
def execPassDeadline (s : State) : Host.Outcome State Fault Refusal :=
  .next (s.unlessReset fun t => if deadlineCounts t && decide (t.trip.deadline = 1) then takeTripTick t else t)

/-! Trip deliveries at the permit table (R115): taken in the order the trip unit made them. -/

/-- PERMIT_TRIP_ENTRY (R60). -/
def takeTripEntry (s : State) : State :=
  match s.flight.tripDeliveries with
  | .entry :: rest =>
    (s.onTable (tableTripEntry s.config)).onFlight fun f => { f with tripDeliveries := rest }
  | _ => s

def execPermitTripEntry (s : State) : Host.Outcome State Fault Refusal := .next (s.unlessReset takeTripEntry)

/-- PERMIT_TRIP_CLEARING (R61). -/
def takeTripClearing (s : State) : State :=
  match s.flight.tripDeliveries with
  | .clearing :: rest => (s.onTable tableTripClearing).onFlight fun f => { f with tripDeliveries := rest }
  | _ => s

def execPermitTripClearing (s : State) : Host.Outcome State Fault Refusal := .next (s.unlessReset takeTripClearing)

/-! Requests (R118, R119). -/

/-- R118: the cause REQUEST of the port arrives; the answer tells whether it entered the trip, and the record's first cause. -/
def tripBody (port : Port) : Body := fun s =>
  let t := causeArrives (.request port) s
  (t, okReply ([t.trip.state.code, boolByte (decide (s.trip.state = .normal))] ++ firstCauseBytes t.trip.record.first))

/-- TRIP (R118). -/
def execTrip (port : Port) (s : State) : Host.Outcome State Fault Refusal :=
  .next (serve port (.trip port) 0x20#8 0 (tripBody port) s)

/-- R119: the accepted clearing. -/
def clearTripState (s : State) : State :=
  pushNotices .tripUnit s.eval.passCount (toEveryPort .tripCleared)
    ((s.onTrip fun u => { u with state := .normal, present := .empty }).onFlight fun f =>
      { f with tripDeliveries := f.tripDeliveries ++ [.clearing] })

/-- R119: its checks in their order. -/
def clearTripBody : Body := fun s =>
  match s.trip.state with
  | .normal => (s, okReply [0#8])
  | .tripped =>
    if s.trip.present.hasLevel then (s, refuse .causePresent (bytesOf 2 s.trip.present.levelNumber))
    else (clearTripState s, okReply [1#8])

/-- CLEAR_TRIP (R119). -/
def execClearTrip (port : Port) (s : State) : Host.Outcome State Fault Refusal :=
  .next (serve port (.clearTrip port) 0x21#8 0 (needRight Profile.clear port clearTripBody) s)

end Sys2Proof.Machine
end

