-- ==== Sys2Proof/Machine/Reset.lean ====
section
/-! DEFINITION. The resets: power-on and hard reset (R143, R144, R123, R124, R170, R183) and soft reset (R141, R142, R66, R122). -/

namespace Sys2Proof.Machine

/-- R143, R170: a transaction in progress when the reset begins is ignored to its end. -/
def Transfer.hardReset : Transfer → Transfer
  | .none => .none
  | _ => .cut

/-- R143, R144: every block takes its initial values. The pins (the chip selects among them), the queue of commands and the model's counter of free values are not
blocks of the part. -/
def initialValues (s : State) : State :=
  { State.initial with
    ports := s.ports.map fun u => { PortUnit.initial with transfer := u.transfer.hardReset }
    tripInActive := s.tripInActive
    resetActive := s.resetActive
    freeCount := s.freeCount
    pending := s.pending }

/-- A notice that an event puts into every queue itself (R141, R144). -/
def arriveEverywhere (b : NoticeBody) (count : PassCount) (s : State) : State :=
  { s with notices := s.notices.map (NoticeQueue.arrive ⟨b, count⟩) }

/-- R124, R115: a reset that enters trip; the permit table's trip state is then TRIPPED, and every permit is DISABLED. -/
def resetEntersTrip (s : State) : State :=
  arriveEverywhere (.tripped .tripIn) 0#32
    ((s.onTrip (TripUnit.enter (.single .tripIn) .tripIn 0#32)).onTable fun t => { t with trip := .tripped })

/-- R144, R183: the end of power-on or hard reset: HALTED(RESET) first, then the trip input pin is read. -/
def endReset (s : State) : State :=
  let s1 := arriveEverywhere (.halted .reset) 0#32 s
  if s.tripInActive then resetEntersTrip s1 else s1

/-- POWER_ON (R144). While RESET_N stands active the reset goes on to RESET_END (R143; log 20). -/
def execPowerOn (s : State) : Host.Outcome State Fault Refusal :=
  .next (if s.resetActive then initialValues s else endReset (initialValues s))

/-- RESET_N_ACTIVE (R143). -/
def execResetNActive (s : State) : Host.Outcome State Fault Refusal := .next { initialValues s with resetActive := true }

/-- RESET_END (R143, R144): RESET_N becomes inactive. -/
def execResetEnd (s : State) : Host.Outcome State Fault Refusal :=
  .next (if s.resetActive then endReset { s with resetActive := false } else s)

/-- R143: an accepted HARD_RESET is never answered, and ends at once. -/
def hardResetBody : Body := fun s => (endReset (initialValues s), none)

/-- HARD_RESET (R143). -/
def execHardReset (port : Port) (s : State) : Host.Outcome State Fault Refusal :=
  .next (serve port (.hardReset port) 0x38#8 0 (needRight Profile.maintain port hardResetBody) s)

/-! Soft reset. -/

/-- R170: a request frame being received and a FETCH being sent are given up, and 00H is shifted out to the end of the transaction. A
transaction still in its first byte goes on, as a STATUS does (DESIGN CHOICE: log 31). -/
def Transfer.softReset : Transfer → Transfer
  | .request _ | .fetch _ _ => .ignored
  | x => x

/-- R141 step 7, R170: another port's context becomes IDLE; a request that its owning block has not yet taken loses its answer. -/
def PortUnit.softReset (u : PortUnit) : PortUnit :=
  { u with
    context := .idle
    inHand := u.inHand.map fun h => { h with live := false }
    transfer := u.transfer.softReset }

/-- R137: the record of a soft reset. -/
def HaltRecord.softReset : HaltRecord := ⟨.softReset, none, false, false, 0#32, none⟩

/-- R142, R40: a pass that was taken first is delivered in full: what it set out for the permit table and the trip unit is taken
before the reset (log 9). -/
def finishPasses (s : State) : State := drainFaultReports (drainPermit s)

/-- What stays in flight through a soft reset: trip deliveries and latched causes (R122; log 26). -/
def InFlight.softReset (f : InFlight) : InFlight :=
  { f.dropTicks with
    toPermit := []
    toScan := []
    faultReports := []
    deadlineRestarts := 0
    passReports := []
    notices := Vector.replicate 4 [] }

/-- R141 steps 1 to 7, block by block. -/
def softResetState (port : Port) (s : State) : State :=
  { s with
    scan := ScanUnit.initial
    lines := LineUnit.initial
    eval := Evaluator.initial
    table := tableSoftReset s.table
    ticks := TickGen.restart s.ticks.dividers
    trip := { s.trip with present := { s.trip.present with channelFault := 0#12 }, deadline := 0 }
    engine := { EngineController.initial with record := .softReset }
    ports := Vector.ofFn fun q : Fin 4 => if q = port then s.ports[q] else s.ports[q].softReset
    notices := Vector.replicate 4 NoticeQueue.initial
    flight := s.flight.softReset }

/-- R141: steps 1 to 8. -/
def softResetBody (port : Port) : Body := fun s =>
  (arriveEverywhere (.halted .softReset) 0#32 (softResetState port (finishPasses s)), okReply [])

/-- SOFT_RESET (R141). -/
def execSoftReset (port : Port) (s : State) : Host.Outcome State Fault Refusal :=
  .next (serve port (.softReset port) 0x37#8 0 (needRight Profile.maintain port (softResetBody port)) s)

end Sys2Proof.Machine
end

