-- ==== Sys2Proof/Machine/Validate.lean ====
section
/-! DEFINITION. Validation of the tables as a whole (R160 to R162). -/

namespace Sys2Proof.Machine

/-- R160: the table, the index of the failing entry and the number of the check. -/
structure ValidationFailure where
  table : Byte
  index : Byte
  check : Byte
deriving DecidableEq, Repr

/-- R161: the source refers to something enabled. -/
def sourceInUse (c : ConfigStore) : Source → Bool
  | .zero => true
  | .term k => c.terms[k].enabled
  | .line n => c.lines[n].enabled
  | .lineSet mask _ => allLines.all fun n => !mask.getLsbD n || c.lines[n].enabled
  | .channel ch _ _ _ => c.channels[ch].enabled
  | .held p => c.permits[p].enabled

/-- R161: the term fails check 1. -/
def termFails (c : ConfigStore) (i : TermId) : Bool :=
  let e := c.terms[i]
  e.enabled && !(sourceInUse c e.sourceA && sourceInUse c e.sourceB && sourceInUse c e.sourceC)

/-- R162 check 2: an enabled permit whose condition term is not enabled. -/
def permitFails (c : ConfigStore) (p : PermitId) : Bool :=
  c.permits[p].enabled && !c.terms[c.permits[p].term].enabled

/-- R162 check 4: two members with different modes. -/
def groupFails (c : ConfigStore) (g : GroupId) : Bool :=
  (allPermits.any fun p => isMember c g p && decide (c.permits[p].mode = .exclusive)) &&
    (allPermits.any fun p => isMember c g p && decide (c.permits[p].mode = .shared))

/-- The terms in ascending number. -/
def allTerms : List TermId :=
  [0, 1, 2, 3, 4, 5, 6, 7, 8, 9, 10, 11, 12, 13, 14, 15, 16, 17, 18, 19, 20, 21, 22, 23]

/-- R160: the checks in the order of their numbers, the entries of each in ascending index; the first failure. -/
def validate (c : ConfigStore) : Option ValidationFailure :=
  match allTerms.find? (termFails c) with
  | some i => some ⟨2#8, numByte i, 1#8⟩
  | none =>
    match allPermits.find? (permitFails c) with
    | some p => some ⟨3#8, numByte p, 2#8⟩
    | none =>
      match allGroups.find? (groupFails c) with
      | some g => some ⟨4#8, numByte g, 4#8⟩
      | none => none

end Sys2Proof.Machine
end

