-- ==== Sys2Proof/Machine/Engine.lean ====
section
/-! DEFINITION. The engine controller (chapter 7): engine states and their delivery (R58, R126), HALT, RESUME, STEP (R127 to R133), the
report of a pass (R38, R136), the halt record (R137, R138) and injections (R139, R140). -/

namespace Sys2Proof.Machine

/-- R126: a change of engine state handed to the permit table. -/
def InFlight.tellTable (e : EngineState) (f : InFlight) : InFlight :=
  { f with toPermit := f.toPermit ++ [.engineChange e] }

/-- R126: a change of engine state handed to the permit table and the scan unit. -/
def InFlight.tellBoth (e : EngineState) (f : InFlight) : InFlight :=
  { f.tellTable e with toScan := f.toScan ++ [e] }

/-- R127: a change of engine state that the scan unit takes in the event itself; changes on their way to it are taken before. -/
def scanTakes (e : EngineState) (s : State) : State :=
  (s.onScan fun u => { u with engine := e }).onFlight fun f => { f with toScan := [] }

/-- R38: at the HALT that makes the engine HALTING, the reports in flight are of earlier passes (log 12). -/
def PassReport.markOld (r : PassReport) : PassReport := { r with old := true }

/-- R128: steps 1, 2 and 4 of the entry into HALTED, and the change handed on. -/
def enterHalted (record : HaltRecord) (haltPort : Option Port) (s : State) : State :=
  pushNotices .engineController s.eval.passCount (toEveryPort (.halted record.cause))
    ((s.onEngine fun u => { u with state := .halted, requester := none, haltPort := haltPort, record := record }).onFlight
      (InFlight.tellBoth .halted))

/-- R137: the record of a HALT. -/
def HaltRecord.ofHalt (port : Option Port) (count : PassCount) : HaltRecord :=
  ⟨(match port with | some p => .command p | none => .noCause), none, false, false, count, none⟩

/-- R136: the lowest-numbered slot that hit. -/
def lowestHit (hit0 : Bool) : SlotId := if hit0 then 0 else 1

/-- R136, R137: the record of a watch hit. -/
def HaltRecord.ofWatch (hit0 hit1 : Bool) (captured : Vector Bool 24) (also : Option Port) (count : PassCount) :
    HaltRecord :=
  ⟨.watch (lowestHit hit0), also, hit0, hit1, count, some captured⟩

/-! HALT. -/

/-- R127: RUNNING, with a scan in progress. -/
def beginHalting (port : Port) (s : State) : State :=
  scanTakes .halting
    ((s.onEngine fun u => { u with state := .halting, requester := some port }).onFlight fun f =>
      { f.tellTable .halting with passReports := f.passReports.map PassReport.markOld })

/-- R127, R128: RUNNING, with no scan in progress. -/
def haltAtOnce (port : Port) (s : State) : State :=
  scanTakes .halted (enterHalted (.ofHalt (some port) s.eval.passCount) (some port) s)

/-- R127. -/
def haltBody (port : Port) : Body := fun s =>
  match s.engine.state with
  | .running =>
    if s.scan.state = .idle then (haltAtOnce port s, okReply [EngineState.halted.code])
    else (beginHalting port s, okReply [EngineState.halting.code])
  | e => (s, okReply [e.code])

/-- HALT (R127). -/
def execHalt (port : Port) (s : State) : Host.Outcome State Fault Refusal :=
  .next (serve port (.halt port) 0x30#8 0 (needRight Profile.maintain port (haltBody port)) s)

/-! The report of a pass (R38). -/

/-- R133 step 4: the step ends, and its port is answered with the pass count. -/
def endStep (count : PassCount) (s : State) : State :=
  let t := (s.onEngine fun u => { u with state := .halted, stepPort := none }).onFlight (InFlight.tellBoth .halted)
  match s.engine.stepPort with
  | none => t
  | some port => placeAnswer port 0x32#8 ⟨.ok, bytesOf 4 count.toNat⟩ t

/-- R38: a delivered pass. -/
def deliveredReport (kind : ScanKind) (old : Bool) (count : PassCount) (s : State) : State :=
  match s.engine.state with
  | .running | .halted => s
  | .halting =>
    if old then s else enterHalted (.ofHalt s.engine.requester s.eval.passCount) s.engine.requester s
  | .stepping => if kind = .step then endStep count s else s

/-- R38: a watch hit reported after a HALT has already entered HALTED: the record is rewritten and the ports are told. -/
def rewriteRecord (record : HaltRecord) (s : State) : State :=
  pushNotices .engineController s.eval.passCount (toEveryPort (.halted record.cause))
    (s.onEngine fun u => { u with record := record })

/-- R38, R136: a discarded pass. -/
def discardedReport (hit0 hit1 : Bool) (captured : Vector Bool 24) (s : State) : State :=
  let record := fun also => HaltRecord.ofWatch hit0 hit1 captured also s.eval.passCount
  match s.engine.state with
  | .running => enterHalted (record none) none s
  | .halting => enterHalted (record s.engine.requester) none s
  | .halted | .stepping => rewriteRecord (record s.engine.haltPort) s

/-- R38: the engine controller takes a report according to its state. -/
def applyReport (r : PassReport) (s : State) : State :=
  match r.ending with
  | .delivered count => deliveredReport r.kind r.old count s
  | .discarded hit0 hit1 captured => discardedReport hit0 hit1 captured s

/-- The oldest report in flight is taken. -/
def takeReport (s : State) : State :=
  match s.flight.passReports with
  | [] => s
  | r :: rest => applyReport r (s.onFlight fun f => { f with passReports := rest })

/-- PASS_END_REPORT (R38). -/
def execPassEndReport (s : State) : Host.Outcome State Fault Refusal := .next (s.unlessReset takeReport)

/-- Every report in flight is taken, oldest first (log 12). -/
def drainReports (s : State) : State :=
  s.flight.passReports.foldl (fun s r => applyReport r s) (s.onFlight fun f => { f with passReports := [] })

/-! Engine changes at their consumers (R58, R126). -/

/-- R58: the oldest change on its way to the permit table is taken. -/
def takeTableChange (s : State) : State :=
  match firstEngineChange s.flight.toPermit with
  | none => s
  | some (e, rest) => takeEngineChange e (s.onFlight fun f => { f with toPermit := rest })

/-- R126: the oldest change on its way to the scan unit is taken. -/
def takeScanChange (s : State) : State :=
  match s.flight.toScan with
  | [] => s
  | e :: rest => (s.onScan fun u => { u with engine := e }).onFlight fun f => { f with toScan := rest }

/-- ENGINE_STATE_CHANGE (R58, R126). -/
def execEngineStateChange (consumer : EngineConsumer) (s : State) : Host.Outcome State Fault Refusal :=
  .next (s.unlessReset fun t =>
    match consumer with
    | .permitTable => takeTableChange t
    | .scanUnit => takeScanChange t)

/-- A pass result that stands first on its way to the permit table is taken. It passes no change of engine state handed before it, so
that the result of a STEP pass meets the permit table outside RUNNING (R65, R92, R133; log 9). -/
def takeOldestResult (s : State) : State :=
  match s.flight.toPermit with
  | .passResult r :: rest => takePassResult r (s.onFlight fun f => { f with toPermit := rest })
  | _ => s

/-- PASS_RESULT (R50). -/
def execPassResult (s : State) : Host.Outcome State Fault Refusal := .next (s.unlessReset takeOldestResult)

/-! RESUME (R129 to R131). -/

/-- R129 step 3: the halt is withdrawn. -/
def withdrawHalt (s : State) : State :=
  (s.onEngine fun u => { u with state := .running, requester := none }).onFlight (InFlight.tellBoth .running)

/-- R159, R131 step 1: the configuration after a commit. -/
def ConfigStore.commit (c : ConfigStore) : ConfigStore :=
  { c with epoch := c.epoch + 1, modified := false, profilesInUse := c.profiles }

/-- R94, R131 step 1: the tick generator at a commit. -/
def commitTicks (s : State) : State :=
  (s.onTicks fun _ => .restart s.config.ticks).onFlight InFlight.dropTicks

/-- R8: the scan unit at an accepted RESUME; RUN scans may begin again. -/
def ScanUnit.resume (u : ScanUnit) : ScanUnit :=
  { u with
    channels := u.channels.map fun c => { c with verdict := .unknown }
    engine := .running
    watchStopped := false }

/-- R19: the line unit at an accepted RESUME. -/
def LineUnit.resume (u : LineUnit) : LineUnit :=
  { u with lines := u.lines.map fun l => { l with seeded := false, counter := 0 } }

/-- R31: the history reset. -/
def Evaluator.forget (e : Evaluator) : Evaluator := { e with history := Vector.replicate 24 .initial }

/-- R131 steps 2 and 5: the engine controller at an accepted RESUME. -/
def EngineController.resume (u : EngineController) : EngineController :=
  { u with
    state := .running
    haltPort := none
    injectedReading := Vector.replicate 12 none
    injectedLevel := Vector.replicate 16 none }

/-- R131: an accepted RESUME from HALTED. What had been handed to the permit table and to the engine controller is taken first (log 9,
log 12), and no tick that reached the scan unit before begins a scan after it (R10, R11). What had been handed to the trip unit, a fault
report or a deadline restart among it, is neither taken nor dropped, and may be taken after the deadline is set here (R113; DESIGN CHOICE:
log 35). -/
def resumeState (commits : Bool) (s : State) : State :=
  let s1 := drainPermit (drainReports s)
  let s2 := if commits then (commitTicks s1).onConfig ConfigStore.commit else s1
  let s3 := { s2 with
    scan := s2.scan.resume
    lines := s2.lines.resume
    eval := s2.eval.forget
    engine := s2.engine.resume
    flight := { s2.flight.dropTriggers with toScan := [] } }
  let s4 := setDeadline (commitWork s3.eval.passCount (tableResume s3.config commits s3.table) s3)
  pushNotices .engineController s4.eval.passCount (toEveryPort (.resumed s4.config.epoch)) s4

/-- R129: the answer. -/
def resumeReply (epoch : Word16) (committed : Bool) : Option Reply :=
  okReply ([EngineState.running.code] ++ bytesOf 2 epoch.toNat ++ [boolByte committed])

/-- R130, R132: validation has found this failure. -/
def configInvalid (f : ValidationFailure) : Option Reply := refuse .configInvalid [f.table, f.index, f.check]

/-- R129, R130. In HALTING the halt is withdrawn also after the end of the pass whose report has not been taken yet; the report then meets
RUNNING (R38, R145; DESIGN CHOICE: log 36). -/
def resumeBody : Body := fun s =>
  match s.engine.state with
  | .running => (s, resumeReply s.config.epoch false)
  | .halting => (withdrawHalt s, resumeReply s.config.epoch false)
  | .stepping => refused s .engineBusy
  | .halted =>
    if s.config.modified then
      match validate s.config with
      | some f => (s, configInvalid f)
      | none => (resumeState true s, resumeReply (s.config.epoch + 1) true)
    else (resumeState false s, resumeReply s.config.epoch false)

/-- RESUME (R129). -/
def execResume (port : Port) (s : State) : Host.Outcome State Fault Refusal :=
  .next (serve port (.resume port) 0x31#8 0 (needRight Profile.maintain port resumeBody) s)

/-! STEP (R132, R133). -/

/-- R133 steps 1 and 2: `answers` is the port to be answered at the end of the step, none when its request has lost its place (R170). The
permit table takes the change in the event itself, behind those on their way to it, so that its lines are inactive at the pass of the step
(R18, R133; log 34). -/
def beginStep (answers : Option Port) (s : State) : State :=
  beginScan .step (scanTakes .stepping (takeEngineChanges
    ((s.onEngine fun u => { u with state := .stepping, stepPort := answers }).onFlight (InFlight.tellTable .stepping))))

/-- R132: an accepted STEP is answered at the end of its pass. -/
def stepBody (port : Port) (live : Bool) : Body := fun s =>
  match s.engine.state with
  | .running | .halting => refused s .engineRunning
  | .stepping => refused s .engineBusy
  | .halted =>
    match validate s.config with
    | some f => (s, configInvalid f)
    | none => (beginStep (if live then some port else none) s, none)

/-- STEP (R132). -/
def execStep (port : Port) (s : State) : Host.Outcome State Fault Refusal :=
  .next (serveWith port (.step port) 0x32#8 0 (fun live => needRight Profile.maintain port (stepBody port live)) s)

/-! Injections and the halt record. -/

/-- R176: a previous injected reading. -/
def injectionBytes (o : Option Int) : List Byte :=
  match o with
  | none => [0#8, absent, absent]
  | some v => 1#8 :: signedBytes v

/-- R139 check 4 and the acceptance. -/
def injectChannelBody (c : ChannelId) (v : Int) : Body := fun s =>
  let e := s.config.channels[c]
  if v < e.low ∨ e.high < v then refused s .badArgument
  else
    (s.onEngine fun u => { u with injectedReading := u.injectedReading.set c (some v) },
      okReply (injectionBytes s.engine.injectedReading[c]))

/-- R139 check 1. -/
def injectable (v : Int) : Bool := decide (-2048 ≤ v) && decide (v ≤ 4095)

/-- INJECT_CHANNEL (R139). -/
def execInjectChannel (port : Port) (channel : Byte) (reading : Word16) (s : State) :
    Host.Outcome State Fault Refusal :=
  .next (serve port (.injectChannel port channel reading) 0x33#8 3
    (needNumber 12 channel fun c s =>
      if injectable reading.toInt then
        needRight Profile.maintain port (needHalted (injectChannelBody c reading.toInt)) s
      else refused s .badArgument) s)

/-- R176: a previous injected level. -/
def levelByte (o : Option Bool) : Byte :=
  match o with
  | none => absent
  | some b => boolByte b

/-- R140. -/
def injectLineBody (n : LineId) (level : Bool) : Body := fun s =>
  (s.onEngine fun u => { u with injectedLevel := u.injectedLevel.set n (some level) },
    okReply [levelByte s.engine.injectedLevel[n]])

/-- INJECT_LINE (R140): 0 is LOW and 1 is HIGH. -/
def execInjectLine (port : Port) (line level : Byte) (s : State) : Host.Outcome State Fault Refusal :=
  .next (serve port (.injectLine port line level) 0x34#8 2
    (needNumber 16 line fun n s =>
      if level = 0#8 ∨ level = 1#8 then
        needRight Profile.maintain port (needHalted (injectLineBody n (decide (level = 1#8)))) s
      else refused s .badArgument) s)

/-- R140: the number of injections held. -/
def injections (u : EngineController) : Nat :=
  (allChannels.filter fun c => u.injectedReading[c].isSome).length +
    (allLines.filter fun n => u.injectedLevel[n].isSome).length

/-- R140: selection ALL. -/
def clearAllBody : Body := fun s =>
  (s.onEngine fun u =>
      { u with injectedReading := Vector.replicate 12 none, injectedLevel := Vector.replicate 16 none },
    okReply [numByte (injections s.engine)])

/-- R140: selection CHANNEL. -/
def clearChannelBody (c : ChannelId) : Body := fun s =>
  (s.onEngine fun u => { u with injectedReading := u.injectedReading.set c none },
    okReply [boolByte s.engine.injectedReading[c].isSome])

/-- R140: selection LINE. -/
def clearLineBody (n : LineId) : Body := fun s =>
  (s.onEngine fun u => { u with injectedLevel := u.injectedLevel.set n none },
    okReply [boolByte s.engine.injectedLevel[n].isSome])

/-- R140, R172: the selection is 0 ALL (its number is ignored), 1 CHANNEL or 2 LINE; another selection is refused (log 18). -/
def clearInjectBody (port : Port) (selection number : Byte) : Body :=
  match selection.toNat with
  | 0 => needRight Profile.maintain port (needHalted clearAllBody)
  | 1 => needNumber 12 number fun c => needRight Profile.maintain port (needHalted (clearChannelBody c))
  | 2 => needNumber 16 number fun n => needRight Profile.maintain port (needHalted (clearLineBody n))
  | _ => fun s => refused s .badArgument

/-- CLEAR_INJECT (R140). -/
def execClearInject (port : Port) (selection number : Byte) (s : State) : Host.Outcome State Fault Refusal :=
  .next (serve port (.clearInject port selection number) 0x35#8 2 (clearInjectBody port selection number) s)

/-- R138: the pass count part is kept. -/
def HaltRecord.clear (r : HaltRecord) : HaltRecord := ⟨.noCause, none, false, false, r.count, none⟩

/-- R138. -/
def clearHaltRecordBody : Body := fun s =>
  (s.onEngine fun u => { u with record := u.record.clear }, okReply [])

/-- CLEAR_HALT_RECORD (R138). -/
def execClearHaltRecord (port : Port) (s : State) : Host.Outcome State Fault Refusal :=
  .next (serve port (.clearHaltRecord port) 0x36#8 0
    (needRight Profile.maintain port (needHalted clearHaltRecordBody)) s)

end Sys2Proof.Machine
end

