-- ==== Sys2Proof/Machine/Ports.lean ====
section
/-! DEFINITION. The transactions of a port unit, whole and in parts (R163 to R170), and the arrival of notices (R178). -/

namespace Sys2Proof.Machine

/-- R165: an unfetched answer stands in the slot. -/
def PortContext.isAnswered : PortContext → Bool
  | .answered _ => true
  | _ => false

/-- R166, R167: an answer that the port unit or the configuration store places without a request being in hand; it discards an unfetched
answer and then carries the previous-response-lost flag. -/
def PortUnit.answerNow (code : ResponseCode) (echo : Byte) (payload : List Byte) (u : PortUnit) : PortUnit :=
  { u with context := .answered ⟨code, echo, u.context.isAnswered, payload⟩ }

/-- R167: the request of a well-formed frame is taken and handed to its owning block, which takes it in a step of its own
(R165, R170; log 2). A WRITE_ENTRY whose table code names no table is refused by the configuration store with BAD_ARGUMENT and
FFH (R150, R166), in the step of its check byte (DESIGN CHOICE: log 33). -/
def PortUnit.takeFrame (port : Port) (code : Byte) (payload : List Byte) (u : PortUnit) : PortUnit :=
  match decodeRequest port code payload with
  | none => u.answerNow .refused code [Reason.badArgument.code, absent]
  | some i => { u with context := u.context.take, inHand := u.inHand ++ [⟨i, true⟩] }

/-- R166, R167: what a port unit makes of the bytes of a REQUEST transaction. -/
def PortUnit.receive (port : Port) (bytes : List Byte) (u : PortUnit) : PortUnit :=
  if u.context.isExecuting then u
  else
    match judgeFrame bytes with
    | .failed reason echo => u.answerNow .frameError echo [reason.code]
    | .wellFormed code payload => u.takeFrame port code payload

/-- R163: a REQUEST transaction; the port unit shifts out 00H after the status byte. -/
def requestTransaction (port : Port) (bytesIn : List Byte) (s : State) : State :=
  (shiftOut port (zeros bytesIn.length) s).onPort port (PortUnit.receive port bytesIn)

/-- R168: the response frame that a FETCH sends. -/
def fetchFrame (x : PortContext) : List Byte :=
  match x with
  | .answered a => a.frame
  | _ => noResponseFrame

/-- R168: the slot is emptied when the answer's check byte has been shifted out. -/
def PortUnit.fetched (clocked : Nat) (u : PortUnit) : PortUnit :=
  match u.context with
  | .answered a => if a.frame.length ≤ clocked then { u with context := .idle } else u
  | _ => u

/-- R168: a FETCH in which the given number of bytes is clocked out after the status byte, 00H after the frame. -/
def fetchTransaction (port : Port) (clocked : Nat) (s : State) : State :=
  let frame := fetchFrame s.ports[port].context
  (shiftOut port (frame.take clocked ++ zeros (clocked - frame.length)) s).onPort port (PortUnit.fetched clocked)

/-- R163: what a kind byte selects; any byte but REQUEST and FETCH acts as STATUS. -/
def transaction (port : Port) (kind : Byte) (bytesIn : List Byte) (s : State) : State :=
  if kind = 0x02#8 then requestTransaction port bytesIn s
  else if kind = 0x03#8 then fetchTransaction port bytesIn.length s
  else shiftOut port (zeros bytesIn.length) s

/-! A transaction in parts (log 19). -/

/-- R163: one more byte is shifted out. -/
def PortUnit.shift (b : Byte) (u : PortUnit) : PortUnit := { u with serialOut := u.serialOut ++ [b] }

/-- R164: the chip select becomes active, and the status byte is formed. -/
def PortUnit.beginTransaction (status : Byte) (u : PortUnit) : PortUnit :=
  match u.transfer with
  | .none => { u with transfer := .first status, serialOut := [] }
  | _ => u

/-- R163, R168: what the kind byte selects; a FETCH chooses its frame by the context at this moment. -/
def Transfer.ofKind (kind : Byte) (x : PortContext) : Transfer :=
  if kind = 0x02#8 then .request []
  else if kind = 0x03#8 then .fetch (fetchFrame x) x.isAnswered
  else .ignored

/-- R163: the kind byte has been received, and the status byte shifted out. -/
def PortUnit.takeKind (kind : Byte) (u : PortUnit) : PortUnit :=
  match u.transfer with
  | .first status => { u with transfer := .ofKind kind u.context, serialOut := [status] }
  | _ => u

/-- R166: the frame's verdict falls with its last byte: the length byte when it names more than 32, otherwise the check byte. -/
def frameEnds (received : List Byte) : Bool :=
  match received with
  | _ :: len :: rest => decide (Config.maxPayload < len.toNat) || decide (len.toNat < rest.length)
  | _ => false

/-- R168: the slot is emptied, and the context becomes IDLE, when the answer's last byte has left. -/
def PortContext.sent (answer : Bool) (rest : List Byte) (x : PortContext) : PortContext :=
  if answer && rest.isEmpty then .idle else x

/-- R163, R166, R168: one byte after the kind byte is shifted in, and one out; in a transaction cut by a hard reset none (R170; log 32). -/
def PortUnit.takeByte (port : Port) (u : PortUnit) (b : Byte) : PortUnit :=
  match u.transfer with
  | .none | .first _ | .cut => u
  | .ignored | .fetch [] _ => u.shift 0#8
  | .fetch (x :: rest) answer =>
    { u.shift x with transfer := .fetch rest answer, context := u.context.sent answer rest }
  | .request received =>
    if frameEnds (received ++ [b]) then { (u.receive port (received ++ [b])).shift 0#8 with transfer := .ignored }
    else { u.shift 0#8 with transfer := .request (received ++ [b]) }

/-- R163, R166, R168: the chip select becomes inactive: a frame without its check byte is truncated, and a FETCH is cut short. -/
def PortUnit.endTransaction (port : Port) (u : PortUnit) : PortUnit :=
  match u.transfer with
  | .request received => { u.receive port received with transfer := .none }
  | _ => { u with transfer := .none }

/-- R143, R170: while RESET_N is active the port unit ignores its transactions to their end, and follows its chip select alone. -/
def PortUnit.selectInReset (part : TransactionPart) (u : PortUnit) : PortUnit :=
  match part with
  | .opening => { u with transfer := .cut }
  | .closing => { u with transfer := .none }
  | _ => u

/-- A command of a port's transactions. A whole transaction finds the chip select inactive; a part acts on the transaction in progress,
whichever command began it. -/
def takePart (port : Port) (kind : Byte) (part : TransactionPart) (s : State) : State :=
  if s.resetActive then s.onPort port (PortUnit.selectInReset part)
  else
    match part with
    | .whole bytesIn => if s.ports[port].atRest then transaction port kind bytesIn s else s
    | .opening => s.onPort port (PortUnit.beginTransaction (statusByte s port))
    | .kindByte => s.onPort port (PortUnit.takeKind kind)
    | .bytes bytesIn => s.onPort port fun u => bytesIn.foldl (PortUnit.takeByte port) u
    | .closing => s.onPort port (PortUnit.endTransaction port)

/-- STATUS (R164). -/
def execStatus (port : Port) (kind : Byte) (part : TransactionPart) (s : State) : Host.Outcome State Fault Refusal :=
  .next (takePart port kind part s)

/-- FETCH (R168). -/
def execFetch (port : Port) (part : TransactionPart) (s : State) : Host.Outcome State Fault Refusal :=
  .next (takePart port 0x03#8 part s)

/-- FRAME_ERROR (R166): the bytes are judged as any frame's. -/
def execFrameError (port : Port) (part : TransactionPart) (s : State) : Host.Outcome State Fault Refusal :=
  .next (takePart port 0x02#8 part s)

/-- FRAME_DISCARDED (R167): in EXECUTING the frame is discarded without record, well-formed or not. -/
def execFrameDiscarded (port : Port) (part : TransactionPart) (s : State) : Host.Outcome State Fault Refusal :=
  .next (takePart port 0x02#8 part s)

/-- R178: the oldest notice of the maker on its way to the port arrives. -/
def takeNotice (maker : NoticeMaker) (port : Port) (s : State) : State :=
  match firstOf maker s.flight.notices[port] with
  | none => s
  | some (n, rest) =>
    (s.onFlight fun f => { f with notices := f.notices.set port rest }).onNotices port (NoticeQueue.arrive n)

/-- NOTICE_ARRIVAL (R178). -/
def execNoticeArrival (maker : NoticeMaker) (port : Port) (s : State) : Host.Outcome State Fault Refusal :=
  .next (s.unlessReset (takeNotice maker port))

end Sys2Proof.Machine
end

