-- ==== Sys2Proof/Machine/Reads.lean ====
section
/-! DEFINITION. The read requests: READ_STATUS (R182), READ_NOTICE (R180), READ_ENTRY (R156), READ_CHANNEL (R20), READ_LINES (R21),
READ_TERMS (R41), READ_PERMIT (R64), READ_TRIP (R121) and READ_HALT_RECORD (R138), with the payloads of R174 to R176. -/

namespace Sys2Proof.Machine

/-- R182. -/
def statusPayload (s : State) (port : Port) : List Byte :=
  [s.engine.state.code, s.trip.state.code] ++ bytesOf 2 s.config.epoch.toNat ++ [boolByte s.config.modified] ++
    bytesOf 4 s.eval.passCount.toNat ++
    [(profileInUse s port).rights, numByte s.notices[port].queue.length, boolByte s.notices[port].overflow]

/-- READ_STATUS (R182). -/
def execReadStatus (port : Port) (s : State) : Host.Outcome State Fault Refusal :=
  .next (serve port (.readStatus port) 0x01#8 0 (fun t => (t, okReply (statusPayload t port))) s)

/-- R174, R180: the record NONE; its pass count is a free value (log 14), its other fields are absent (log 24). -/
def noneNotice (n : Nat) : List Byte :=
  [0x00#8, absent, 0x00#8, absent, 0#8, 0#8, Config.freeByte n, Config.freeByte (n + 1), Config.freeByte (n + 2),
    Config.freeByte (n + 3)]

/-- R180 steps 1 to 3. -/
def readNoticeBody (port : Port) : Body := fun s =>
  let q := s.notices[port]
  match q.queue with
  | [] =>
    ({ s with notices := s.notices.set port ⟨[], false⟩, freeCount := s.freeCount + 4 },
      okReply (noneNotice s.freeCount ++ [boolByte q.overflow, 0#8]))
  | n :: rest =>
    ({ s with notices := s.notices.set port ⟨rest, false⟩ },
      okReply (n.bytes ++ [boolByte q.overflow, numByte rest.length]))

/-- READ_NOTICE (R180). -/
def execReadNotice (port : Port) (s : State) : Host.Outcome State Fault Refusal :=
  .next (serve port (.readNotice port) 0x02#8 0 (readNoticeBody port) s)

/-- R156: an entry as written, with the entry in use for PROFILE and TICK; none where the table or the index does not exist. -/
def entryPayload (table index : Byte) (s : State) : Option (List Byte) :=
  match table.toNat with
  | 0 => (byteFin 12 index).map fun i => s.config.channels[i].bytes
  | 1 => (byteFin 16 index).map fun i => s.config.lines[i].bytes
  | 2 => (byteFin 24 index).map fun i => s.config.terms[i].bytes
  | 3 => (byteFin 16 index).map fun i => s.config.permits[i].bytes
  | 4 => (byteFin 4 index).map fun i => s.config.groups[i].bytes
  | 5 => (byteFin 4 index).map fun i => s.config.profiles[i].bytes ++ s.config.profilesInUse[i].bytes
  | 6 => (byteFin 4 index).map fun i => bytesOf 2 s.config.ticks[i] ++ bytesOf 2 s.ticks.dividers[i]
  | 7 => (byteFin 1 index).map fun _ => s.config.engine.bytes
  | 8 => (byteFin 2 index).map fun i => s.config.watches[i].bytes
  | _ => none

/-- R156. -/
def readEntryBody (table index : Byte) : Body := fun s =>
  match entryPayload table index s with
  | none => refused s .badArgument
  | some bytes => (s, okReply ([table, index] ++ bytes))

/-- READ_ENTRY (R156). -/
def execReadEntry (port : Port) (table index : Byte) (s : State) : Host.Outcome State Fault Refusal :=
  .next (serve port (.readEntry port table index) 0x03#8 2 (readEntryBody table index) s)

/-- R20, R176. -/
def channelPayload (c : ChannelId) (s : State) : List Byte :=
  let e := s.config.channels[c]
  let inj := s.engine.injectedReading[c]
  [numByte c, flagByte [e.enabled, e.negative.isSome, inj.isSome]] ++ signedBytes s.scan.channels[c].reading ++
    [s.scan.channels[c].verdict.code] ++
    match inj with
    | none => [absent, absent]
    | some v => signedBytes v

/-- READ_CHANNEL (R20). -/
def execReadChannel (port : Port) (channel : Byte) (s : State) : Host.Outcome State Fault Refusal :=
  .next (serve port (.readChannel port channel) 0x04#8 1
    (needNumber 12 channel fun c t => (t, okReply (channelPayload c t))) s)

/-- A set of lines as two bytes. -/
def lineSetBytes (f : LineId → Bool) : List Byte := bytesOf 2 (packBits (allLines.map f))

/-- R21, R176. -/
def linesPayload (s : State) : List Byte :=
  lineSetBytes (fun n => s.lines.lines[n].raw) ++ lineSetBytes (fun n => s.lines.lines[n].filtered) ++
    lineSetBytes (fun n => s.lines.lines[n].seeded) ++ lineSetBytes (fun n => s.engine.injectedLevel[n].isSome) ++
    bytesOf 2 s.lines.readback.toNat

/-- READ_LINES (R21). -/
def execReadLines (port : Port) (s : State) : Host.Outcome State Fault Refusal :=
  .next (serve port (.readLines port) 0x05#8 0 (fun t => (t, okReply (linesPayload t))) s)

/-- R41, R176. -/
def termsPayload (s : State) : List Byte :=
  termBytes (s.eval.history.map TermHistory.held) ++ bytesOf 4 s.eval.passCount.toNat

/-- READ_TERMS (R41). -/
def execReadTerms (port : Port) (s : State) : Host.Outcome State Fault Refusal :=
  .next (serve port (.readTerms port) 0x06#8 0 (fun t => (t, okReply (termsPayload t))) s)

/-- R64: the settle counter of the permit's group, 0 without one. -/
def settleRemaining (s : State) (p : PermitId) : Nat :=
  match s.config.permits[p].group with
  | none => 0
  | some g => s.table.settle[g]

/-- R64, R175. -/
def permitPayload (p : PermitId) (s : State) : List Byte :=
  let r := s.table.records[p]
  [numByte p] ++ (permitState s.config s.table p).bytes ++
    [r.condition.code, boolByte (commanded s.config s.table p), numByte r.mismatch,
      groupByte s.config.permits[p].group, numByte (settleRemaining s p), numByte r.holders.length,
      numByte r.queue.length] ++
    r.holders.flatMap Holder.bytes ++ r.queue.flatMap Claim.bytes

/-- READ_PERMIT (R64). -/
def execReadPermit (port : Port) (permit : Byte) (s : State) : Host.Outcome State Fault Refusal :=
  .next (serve port (.readPermit port permit) 0x07#8 1
    (needNumber 16 permit fun p t => (t, okReply (permitPayload p t))) s)

/-- R121, R176. -/
def tripPayload (s : State) : List Byte :=
  [s.trip.state.code] ++ s.trip.record.bytes ++ bytesOf 7 s.trip.present.number ++ [numByte s.trip.deadline]

/-- READ_TRIP (R121). -/
def execReadTrip (port : Port) (s : State) : Host.Outcome State Fault Refusal :=
  .next (serve port (.readTrip port) 0x08#8 0 (fun t => (t, okReply (tripPayload t))) s)

/-- READ_HALT_RECORD (R138). -/
def execReadHaltRecord (port : Port) (s : State) : Host.Outcome State Fault Refusal :=
  .next (serve port (.readHaltRecord port) 0x09#8 0
    (fun t => (t, okReply ([t.engine.state.code] ++ t.engine.record.bytes))) s)

end Sys2Proof.Machine
end

