-- ==== Sys2Proof/Machine/Writes.lean ====
section
/-! DEFINITION. WRITE_ENTRY to each of the nine tables (R150 to R154). -/

namespace Sys2Proof.Machine

/-- R150: BAD_ARGUMENT of check 1 or 6 names the failing field. -/
def badField (f : FieldNo) : Option Reply := refuse .badArgument [f]

/-- R154: the answer to an accepted write. -/
def writeReply (table index : Byte) (s : State) : Option Reply := okReply [table, index, boolByte s.config.modified]

/-- R150 check 1: the index lies within the table (a failure is named by FFH) and the fields lie in their ranges. -/
def checkFields {α : Type} (n : Nat) (index : Byte) (entry : Except FieldNo α) (body : Fin n → α → Body) : Body := fun s =>
  match byteFin n index, entry with
  | none, _ => (s, badField absent)
  | some _, .error f => (s, badField f)
  | some i, .ok e => body i e s

/-- R150 checks 3 and 4, for every table but WATCH. -/
def needConfigure (port : Port) (body : Body) : Body := needRight Profile.configure port (needHalted body)

/-- R154: an accepted write to a table other than WATCH sets the modified flag and answers. -/
def acceptWrite (table index : Byte) (change : State → State) : Body := fun s =>
  let t := (change s).onConfig fun c => { c with modified := true }
  (t, writeReply table index t)

/-- WRITE_CHANNEL_ENTRY (R3, R150). -/
def execWriteChannelEntry (port : Port) (index flags positive negative count : Byte) (lower upper : Word16)
    (hysteresis : Byte) (s : State) : Host.Outcome State Fault Refusal :=
  .next (serve port (.writeChannelEntry port index flags positive negative count lower upper hysteresis) 0x40#8 11
    (checkFields 12 index (readChannel flags positive negative count lower upper hysteresis) fun i e =>
      needConfigure port
        (acceptWrite 0#8 index fun t => t.onConfig fun c => { c with channels := c.channels.set i e })) s)

/-- WRITE_LINE_ENTRY (R15, R150). -/
def execWriteLineEntry (port : Port) (index flags filter : Byte) (s : State) : Host.Outcome State Fault Refusal :=
  .next (serve port (.writeLineEntry port index flags filter) 0x40#8 4
    (checkFields 16 index (readLine flags filter) fun i e =>
      needConfigure port
        (acceptWrite 1#8 index fun t => t.onConfig fun c => { c with lines := c.lines.set i e })) s)

/-- WRITE_TERM_ENTRY (R23, R31, R150): the term's history is kept. -/
def execWriteTermEntry (port : Port) (index flags stage q truth : Byte) (srcA srcB srcC : RawSource) (s : State) :
    Host.Outcome State Fault Refusal :=
  .next (serve port (.writeTermEntry port index flags stage q truth srcA srcB srcC) 0x40#8 18
    (checkFields 24 index (readTerm flags stage q truth srcA srcB srcC) fun i e =>
      needConfigure port
        (acceptWrite 2#8 index fun t => t.onConfig fun c => { c with terms := c.terms.set i e })) s)

/-- R43: the record after an accepted write to its entry. -/
def PermitRecord.rewritten (e : PermitEntry) (r : PermitRecord) : PermitRecord :=
  { r with condition := .unknown, mismatch := 0, lock := r.lock && e.enabled }

/-- R43: the entry and the record. -/
def setPermitEntry (p : PermitId) (e : PermitEntry) (s : State) : State :=
  { s with
    config := { s.config with permits := s.config.permits.set p e }
    table := { s.table with records := s.table.records.set p (s.table.records[p].rewritten e) } }

/-- R152: check 5 for a permit. -/
def writePermitBody (index : Byte) (p : PermitId) (e : PermitEntry) : Body := fun s =>
  if inUse s.table p then refused s .permitInUse else acceptWrite 3#8 index (setPermitEntry p e) s

/-- WRITE_PERMIT_ENTRY (R43, R150, R152). -/
def execWritePermitEntry (port : Port) (index flags term mode limit group source expiry loss : Byte) (s : State) :
    Host.Outcome State Fault Refusal :=
  .next (serve port (.writePermitEntry port index flags term mode limit group source expiry loss) 0x40#8 10
    (checkFields 16 index (readPermit flags term mode limit group source expiry loss) fun p e =>
      needConfigure port (writePermitBody index p e)) s)

/-- R152: some member of the group is in use. -/
def groupInUse (c : ConfigStore) (t : PermitTable) (g : GroupId) : Bool :=
  allPermits.any fun p => isMember c g p && inUse t p

/-- R44: the entry, and the settle counter at 0. -/
def setGroupEntry (g : GroupId) (e : GroupEntry) (s : State) : State :=
  { s with
    config := { s.config with groups := s.config.groups.set g e }
    table := { s.table with settle := s.table.settle.set g 0 } }

/-- R152: check 5 for a group. -/
def writeGroupBody (index : Byte) (g : GroupId) (e : GroupEntry) : Body := fun s =>
  if groupInUse s.config s.table g then refused s .permitInUse else acceptWrite 4#8 index (setGroupEntry g e) s

/-- WRITE_GROUP_ENTRY (R44, R150, R152). -/
def execWriteGroupEntry (port : Port) (index settle source : Byte) (s : State) : Host.Outcome State Fault Refusal :=
  .next (serve port (.writeGroupEntry port index settle source) 0x40#8 4
    (checkFields 4 index (readGroupEntry settle source) fun g e =>
      needConfigure port (writeGroupBody index g e)) s)

/-- R153: some profile of the table carries CONFIGURE. -/
def someConfigure (v : Vector Profile 4) : Bool := allPorts.any fun p => v[p].configure

/-- R153: check 6; its refusal names the rights field. -/
def writeProfileBody (index : Byte) (i : Port) (e : Profile) : Body := fun s =>
  if someConfigure (s.config.profiles.set i e) then
    acceptWrite 5#8 index (fun t => t.onConfig fun c => { c with profiles := c.profiles.set i e }) s
  else (s, badField 0#8)

/-- WRITE_PROFILE_ENTRY (R147, R150, R153): it takes effect at the commit (R159). -/
def execWriteProfileEntry (port : Port) (index rights : Byte) (mask : Word16) (ceiling : Byte) (s : State) :
    Host.Outcome State Fault Refusal :=
  .next (serve port (.writeProfileEntry port index rights mask ceiling) 0x40#8 6
    (checkFields 4 index (readProfile rights mask ceiling) fun i e =>
      needConfigure port (writeProfileBody index i e)) s)

/-- WRITE_TICK_ENTRY (R94, R150): it takes effect at the commit. -/
def execWriteTickEntry (port : Port) (index : Byte) (divider : Word16) (s : State) :
    Host.Outcome State Fault Refusal :=
  .next (serve port (.writeTickEntry port index divider) 0x40#8 4
    (checkFields 4 index (readTick divider) fun i d =>
      needConfigure port
        (acceptWrite 6#8 index fun t => t.onConfig fun c => { c with ticks := c.ticks.set i d })) s)

/-- WRITE_ENGINE_ENTRY (R148, R150). -/
def execWriteEngineEntry (port : Port) (index trigger deadline supervision : Byte) (s : State) :
    Host.Outcome State Fault Refusal :=
  .next (serve port (.writeEngineEntry port index trigger deadline supervision) 0x40#8 5
    (checkFields 1 index (readEngineEntry trigger deadline supervision) fun _ e =>
      needConfigure port (acceptWrite 7#8 index fun t => t.onConfig fun c => { c with engine := e })) s)

/-- R134, R154: a watch write leaves the modified flag as it stood. -/
def writeWatchBody (index : Byte) (i : SlotId) (e : WatchEntry) : Body := fun s =>
  let t := s.onConfig fun c => { c with watches := c.watches.set i e }
  (t, writeReply 8#8 index t)

/-- WRITE_WATCH_ENTRY (R134, R150): MAINTAIN, in every engine state. -/
def execWriteWatchEntry (port : Port) (index flags kind term edge : Byte) (s : State) :
    Host.Outcome State Fault Refusal :=
  .next (serve port (.writeWatchEntry port index flags kind term edge) 0x40#8 6
    (checkFields 2 index (readWatch flags kind term edge) fun i e =>
      needRight Profile.maintain port (writeWatchBody index i e)) s)

end Sys2Proof.Machine
end

