-- ==== Sys2Proof/Machine/Dispatch.lean ====
section
/-! DEFINITION. One arm for each command of spec/opcode_table.json: a direct call of its meaning. -/

namespace Sys2Proof.Machine

def exec (i : Instr) (s : State) : Host.Outcome State Fault Refusal :=
  match i with
  | .powerOn => Sys2Proof.Machine.execPowerOn s
  | .resetNActive => Sys2Proof.Machine.execResetNActive s
  | .resetEnd => Sys2Proof.Machine.execResetEnd s
  | .tripInActive => Sys2Proof.Machine.execTripInActive s
  | .tripInInactive => Sys2Proof.Machine.execTripInInactive s
  | .baseTick => Sys2Proof.Machine.execBaseTick s
  | .sourceTick src => Sys2Proof.Machine.execSourceTick src s
  | .tickAtPermitTable src => Sys2Proof.Machine.execTickAtPermitTable src s
  | .settleEnd group => Sys2Proof.Machine.execSettleEnd group s
  | .late permit port => Sys2Proof.Machine.execLate permit port s
  | .leaseExpiryRelease permit port => Sys2Proof.Machine.execLeaseExpiryRelease permit port s
  | .leaseExpiryLock permit port => Sys2Proof.Machine.execLeaseExpiryLock permit port s
  | .leaseExpiryTrip permit port => Sys2Proof.Machine.execLeaseExpiryTrip permit port s
  | .waitExpired permit port => Sys2Proof.Machine.execWaitExpired permit port s
  | .tickAtTripUnit => Sys2Proof.Machine.execTickAtTripUnit s
  | .passDeadline => Sys2Proof.Machine.execPassDeadline s
  | .runScanStart tick => Sys2Proof.Machine.execRunScanStart tick s
  | .conversion ain => Sys2Proof.Machine.execConversion ain s
  | .pass din pfb => Sys2Proof.Machine.execPass din pfb s
  | .passResult => Sys2Proof.Machine.execPassResult s
  | .faultReport => Sys2Proof.Machine.execFaultReport s
  | .deadlineRestart => Sys2Proof.Machine.execDeadlineRestart s
  | .passEndReport => Sys2Proof.Machine.execPassEndReport s
  | .engineStateChange consumer => Sys2Proof.Machine.execEngineStateChange consumer s
  | .tripCauseArrival => Sys2Proof.Machine.execTripCauseArrival s
  | .permitTripEntry => Sys2Proof.Machine.execPermitTripEntry s
  | .permitTripClearing => Sys2Proof.Machine.execPermitTripClearing s
  | .noticeArrival maker port => Sys2Proof.Machine.execNoticeArrival maker port s
  | .status port kind part => Sys2Proof.Machine.execStatus port kind part s
  | .fetch port part => Sys2Proof.Machine.execFetch port part s
  | .frameError port part => Sys2Proof.Machine.execFrameError port part s
  | .frameDiscarded port part => Sys2Proof.Machine.execFrameDiscarded port part s
  | .readStatus port => Sys2Proof.Machine.execReadStatus port s
  | .readNotice port => Sys2Proof.Machine.execReadNotice port s
  | .readEntry port table index => Sys2Proof.Machine.execReadEntry port table index s
  | .readChannel port channel => Sys2Proof.Machine.execReadChannel port channel s
  | .readLines port => Sys2Proof.Machine.execReadLines port s
  | .readTerms port => Sys2Proof.Machine.execReadTerms port s
  | .readPermit port permit => Sys2Proof.Machine.execReadPermit port permit s
  | .readTrip port => Sys2Proof.Machine.execReadTrip port s
  | .readHaltRecord port => Sys2Proof.Machine.execReadHaltRecord port s
  | .claim port permit priority wait epoch => Sys2Proof.Machine.execClaim port permit priority wait epoch s
  | .release port permit => Sys2Proof.Machine.execRelease port permit s
  | .refresh port permit => Sys2Proof.Machine.execRefresh port permit s
  | .refreshAll port => Sys2Proof.Machine.execRefreshAll port s
  | .revoke port permit => Sys2Proof.Machine.execRevoke port permit s
  | .unlock port permit => Sys2Proof.Machine.execUnlock port permit s
  | .trip port => Sys2Proof.Machine.execTrip port s
  | .clearTrip port => Sys2Proof.Machine.execClearTrip port s
  | .halt port => Sys2Proof.Machine.execHalt port s
  | .resume port => Sys2Proof.Machine.execResume port s
  | .step port => Sys2Proof.Machine.execStep port s
  | .injectChannel port channel reading => Sys2Proof.Machine.execInjectChannel port channel reading s
  | .injectLine port line level => Sys2Proof.Machine.execInjectLine port line level s
  | .clearInject port selection number => Sys2Proof.Machine.execClearInject port selection number s
  | .clearHaltRecord port => Sys2Proof.Machine.execClearHaltRecord port s
  | .softReset port => Sys2Proof.Machine.execSoftReset port s
  | .hardReset port => Sys2Proof.Machine.execHardReset port s
  | .writeChannelEntry port index flags positive negative count lower upper hysteresis => Sys2Proof.Machine.execWriteChannelEntry port index flags positive negative count lower upper hysteresis s
  | .writeLineEntry port index flags filter => Sys2Proof.Machine.execWriteLineEntry port index flags filter s
  | .writeTermEntry port index flags stage q truth srcA srcB srcC => Sys2Proof.Machine.execWriteTermEntry port index flags stage q truth srcA srcB srcC s
  | .writePermitEntry port index flags term mode limit group source expiry loss => Sys2Proof.Machine.execWritePermitEntry port index flags term mode limit group source expiry loss s
  | .writeGroupEntry port index settle source => Sys2Proof.Machine.execWriteGroupEntry port index settle source s
  | .writeProfileEntry port index rights mask ceiling => Sys2Proof.Machine.execWriteProfileEntry port index rights mask ceiling s
  | .writeTickEntry port index divider => Sys2Proof.Machine.execWriteTickEntry port index divider s
  | .writeEngineEntry port index trigger deadline supervision => Sys2Proof.Machine.execWriteEngineEntry port index trigger deadline supervision s
  | .writeWatchEntry port index flags kind term edge => Sys2Proof.Machine.execWriteWatchEntry port index flags kind term edge s

end Sys2Proof.Machine
end

