-- ==== Sys2Proof/Machine/Step.lean ====
section
/-! DEFINITION. One step of the part: the command at the front of the queue, or, on an empty queue, one reference period (R93; log 5). -/

namespace Sys2Proof.Machine

/-- The command at the front of the queue is taken; with none waiting, the clock goes on by one reference period unless RESET_N is
active (R143). -/
def step (s : State) : Host.Outcome State Fault Refusal :=
  match s.pending with
  | [] => .next (s.unlessReset referencePeriod)
  | c :: rest => exec c { s with pending := rest }

/-- The command that a word of the table spells is put at the front of the queue; no row of the table carries bits (log 21). -/
def State.withFetchWord (s : State) (nbits w : Nat) : State :=
  match decodeTableWord nbits w with
  | some i => { s with pending := i :: s.pending }
  | none => s

end Sys2Proof.Machine
end

