-- ==== Sys2Proof/Safety.lean ====
section
/-! DEFINITION. What the part must keep: the properties of a state that every step keeps, and the words the statements use of requests
and writes. -/

namespace Sys2Proof.Machine

/-! Properties that every step keeps. -/

/-- R54: no two permits of one exclusion group have holders at the same time. -/
def groupsExclude (c : ConfigStore) (t : PermitTable) : Prop :=
  ∀ (g : GroupId) (p q : PermitId), c.permits[p].group = some g → c.permits[q].group = some g →
    t.records[p].holders ≠ [] → t.records[q].holders ≠ [] → p = q

/-- R45: the ports of a permit's holders and waiting claims, in order. -/
def portsOf (r : PermitRecord) : List Port := r.holders.map Holder.port ++ r.queue.map Claim.port

/-- R45, R48: the holder limit, one record a port, the order of the wait queue, and a DISABLED or LOCKED permit without holders and
claims. -/
structure RecordSound (e : PermitEntry) (r : PermitRecord) : Prop where
  holdersFit : r.holders.length ≤ e.limit
  onePerPort : (portsOf r).Nodup
  queueOrdered : r.queue.Pairwise fun x y => y.priority ≤ x.priority
  closedEmpty : e.enabled = false ∨ r.lock = true → r.holders = [] ∧ r.queue = []

/-- Every permit's record is sound. -/
def recordsSound (c : ConfigStore) (t : PermitTable) : Prop := ∀ p : PermitId, RecordSound c.permits[p] t.records[p]

/-- R60: while the permit table holds TRIPPED, no permit has a holder and every wait queue is empty. -/
def trippedEmpties (t : PermitTable) : Prop :=
  t.trip = .tripped → ∀ p : PermitId, t.records[p].holders = [] ∧ t.records[p].queue = []

/-- R143: while RESET_N is active no permit has a holder or a claim. -/
def resetEmpties (s : State) : Prop :=
  s.resetActive = true → ∀ p : PermitId, s.table.records[p].holders = [] ∧ s.table.records[p].queue = []

/-- R109: the present set is empty in NORMAL. -/
def normalHasNoCause (u : TripUnit) : Prop := u.state = .normal → u.present = .empty

/-- R178: a queue holds up to 8 notices. -/
def queuesFit (s : State) : Prop := ∀ p : Port, s.notices[p].queue.length ≤ 8

/-- R153: some profile carries CONFIGURE, in the table and in use. -/
def configureHeld (c : ConfigStore) : Prop :=
  (∃ p : Port, c.profiles[p].configure = true) ∧ ∃ p : Port, c.profilesInUse[p].configure = true

/-- R93, R94: the base divider below 800, each source counter below its divider in use, and no divider 0, in use or as written. -/
def countersFit (s : State) : Prop :=
  s.ticks.baseDivider < 800 ∧ (∀ src : SourceId, s.ticks.counters[src] < s.ticks.dividers[src]) ∧
    ∀ src : SourceId, 0 < s.config.ticks[src]

/-- R10, R11: while a scan is in progress no tick waits at the scan unit, so that none begins a later scan (log 30). -/
def noTickInScan (s : State) : Prop :=
  s.scan.state ≠ .idle → s.flight.scanBaseTicks = 0 ∧ ∀ src : SourceId, s.flight.scanTicks[src] = 0

/-- The steps whose pass is still to come or still to be reported. -/
def stepsUnderWay (s : State) : Nat :=
  (match s.scan.state with
    | .idle => 0
    | .inProgress sc => if sc.kind = .step then 1 else 0) +
    s.flight.passReports.countP fun r => decide (r.kind = .step)

/-- R18, R133: a step is under way only in STEPPING, and only one; in STEPPING the permit table does not hold the engine RUNNING, and no
change to RUNNING is on its way to it, so that every permit line is inactive at the pass of a step (log 34). -/
def stepDrivesNothing (s : State) : Prop :=
  (s.engine.state ≠ .stepping → stepsUnderWay s = 0) ∧
  (s.engine.state = .stepping →
    stepsUnderWay s ≤ 1 ∧ s.table.engine ≠ .running ∧ PermitArrival.engineChange .running ∉ s.flight.toPermit)

/-- The properties of this file together. -/
structure Sound (s : State) : Prop where
  groups : groupsExclude s.config s.table
  records : recordsSound s.config s.table
  tripped : trippedEmpties s.table
  inReset : resetEmpties s
  present : normalHasNoCause s.trip
  notices : queuesFit s
  rights : configureHeld s.config
  counters : countersFit s
  scanTicks : noTickInScan s
  steps : stepDrivesNothing s

/-! Requests and writes. -/

/-- The part with one port unit replaced: nothing else changes. -/
def State.withPort (s : State) (port : Port) (u : PortUnit) : State := { s with ports := s.ports.set port u }

/-- The port that sends a request and the length of its payload; none for a command that is no request. -/
def requestOf : Instr → Option (Port × Nat)
  | .readStatus p | .readNotice p | .readLines p | .readTerms p | .readTrip p | .readHaltRecord p => some (p, 0)
  | .readEntry p _ _ => some (p, 2)
  | .readChannel p _ | .readPermit p _ => some (p, 1)
  | .claim p _ _ _ _ => some (p, 5)
  | .release p _ | .refresh p _ | .revoke p _ | .unlock p _ => some (p, 1)
  | .refreshAll p | .trip p | .clearTrip p | .halt p | .resume p | .step p => some (p, 0)
  | .clearHaltRecord p | .softReset p | .hardReset p => some (p, 0)
  | .injectChannel p _ _ => some (p, 3)
  | .injectLine p _ _ | .clearInject p _ _ => some (p, 2)
  | .writeChannelEntry p _ _ _ _ _ _ _ _ => some (p, 11)
  | .writeLineEntry p _ _ _ => some (p, 4)
  | .writeTermEntry p _ _ _ _ _ _ _ _ => some (p, 18)
  | .writePermitEntry p _ _ _ _ _ _ _ _ _ => some (p, 10)
  | .writeGroupEntry p _ _ _ => some (p, 4)
  | .writeProfileEntry p _ _ _ _ => some (p, 6)
  | .writeTickEntry p _ _ => some (p, 4)
  | .writeEngineEntry p _ _ _ _ => some (p, 5)
  | .writeWatchEntry p _ _ _ _ _ => some (p, 6)
  | _ => none

/-- The port and the part of a command of a port's transactions; none for any other command. -/
def partOf : Instr → Option (Port × TransactionPart)
  | .status p _ x | .fetch p x | .frameError p x | .frameDiscarded p x => some (p, x)
  | _ => none

/-- What R150's checks 1 to 4 look at in a WRITE_ENTRY: the port, the payload length, the table code, the index, the number of entries
of the table, and the field check 1 names, if one fails. -/
structure WriteShape where
  port : Port
  length : Nat
  table : Nat
  index : Byte
  entries : Nat
  failing : Option FieldNo

/-- The failing field of an entry's own checks. -/
def failingField {α : Type} : Except FieldNo α → Option FieldNo
  | .error f => some f
  | .ok _ => none

/-- The shape of a WRITE_ENTRY; none for any other command. -/
def writeShape : Instr → Option WriteShape
  | .writeChannelEntry p i f pos neg n l u h => some ⟨p, 11, 0, i, 12, failingField (readChannel f pos neg n l u h)⟩
  | .writeLineEntry p i f q => some ⟨p, 4, 1, i, 16, failingField (readLine f q)⟩
  | .writeTermEntry p i f st q tt a b c => some ⟨p, 18, 2, i, 24, failingField (readTerm f st q tt a b c)⟩
  | .writePermitEntry p i f t m l g src e ls => some ⟨p, 10, 3, i, 16, failingField (readPermit f t m l g src e ls)⟩
  | .writeGroupEntry p i v src => some ⟨p, 4, 4, i, 4, failingField (readGroupEntry v src)⟩
  | .writeProfileEntry p i r m c => some ⟨p, 6, 5, i, 4, failingField (readProfile r m c)⟩
  | .writeTickEntry p i d => some ⟨p, 4, 6, i, 4, failingField (readTick d)⟩
  | .writeEngineEntry p i t d o => some ⟨p, 5, 7, i, 1, failingField (readEngineEntry t d o)⟩
  | .writeWatchEntry p i f k t e => some ⟨p, 6, 8, i, 2, failingField (readWatch f k t e)⟩
  | _ => none

/-- The entries of the eight tables that only a write in HALTED or a hard reset changes (R154). -/
def entriesOf (c : ConfigStore) :=
  (c.channels, c.lines, c.terms, c.permits, c.groups, c.profiles, c.ticks, c.engine)

end Sys2Proof.Machine
end

