-- ==== Sys2Proof/WellFormed.lean ====
section
/-! DEFINITION. When a command is an instance of its row by its operands alone. Every operand of the other rows is typed so that any
value of it is one the part can meet (an out-of-range byte of a payload is a request the part refuses). -/

namespace Sys2Proof

/-- R166: the bytes fail one of the checks of a request frame. -/
def frameFails (bytes : List Byte) : Bool :=
  match judgeFrame bytes with
  | .failed _ _ => true
  | .wellFormed _ _ => false

/-- A STATUS transaction's kind byte is neither REQUEST nor FETCH (R163); the bytes of a whole frame error fail R166. -/
def WellFormed : Instr → Bool
  | .powerOn => true
  | .resetNActive => true
  | .resetEnd => true
  | .tripInActive => true
  | .tripInInactive => true
  | .baseTick => true
  | .sourceTick _ => true
  | .tickAtPermitTable _ => true
  | .settleEnd _ => true
  | .late _ _ => true
  | .leaseExpiryRelease _ _ => true
  | .leaseExpiryLock _ _ => true
  | .leaseExpiryTrip _ _ => true
  | .waitExpired _ _ => true
  | .tickAtTripUnit => true
  | .passDeadline => true
  | .runScanStart _ => true
  | .conversion _ => true
  | .pass _ _ => true
  | .passResult => true
  | .faultReport => true
  | .deadlineRestart => true
  | .passEndReport => true
  | .engineStateChange _ => true
  | .tripCauseArrival => true
  | .permitTripEntry => true
  | .permitTripClearing => true
  | .noticeArrival _ _ => true
  | .status _ kind _ => kind != 0x02#8 && kind != 0x03#8
  | .fetch _ _ => true
  | .frameError _ (.whole bytes) => frameFails bytes
  | .frameError _ _ => true
  | .frameDiscarded _ _ => true
  | .readStatus _ => true
  | .readNotice _ => true
  | .readEntry _ _ _ => true
  | .readChannel _ _ => true
  | .readLines _ => true
  | .readTerms _ => true
  | .readPermit _ _ => true
  | .readTrip _ => true
  | .readHaltRecord _ => true
  | .claim _ _ _ _ _ => true
  | .release _ _ => true
  | .refresh _ _ => true
  | .refreshAll _ => true
  | .revoke _ _ => true
  | .unlock _ _ => true
  | .trip _ => true
  | .clearTrip _ => true
  | .halt _ => true
  | .resume _ => true
  | .step _ => true
  | .injectChannel _ _ _ => true
  | .injectLine _ _ _ => true
  | .clearInject _ _ _ => true
  | .clearHaltRecord _ => true
  | .softReset _ => true
  | .hardReset _ => true
  | .writeChannelEntry _ _ _ _ _ _ _ _ _ => true
  | .writeLineEntry _ _ _ _ => true
  | .writeTermEntry _ _ _ _ _ _ _ _ _ => true
  | .writePermitEntry _ _ _ _ _ _ _ _ _ _ => true
  | .writeGroupEntry _ _ _ _ => true
  | .writeProfileEntry _ _ _ _ _ => true
  | .writeTickEntry _ _ _ => true
  | .writeEngineEntry _ _ _ _ _ => true
  | .writeWatchEntry _ _ _ _ _ _ => true

end Sys2Proof
end

