-- ==== Sys2Proof/Certificates/Slice0/Obligations.lean ====
section
/-! DEFINITION. The statements for the provers. A request is spoken of through `takeRequest port c n s = some (u, live)`: the owning block
meets the part as u, whether the port unit takes the frame in this command or took it before; `answerIn port echo live r t` is t with
the answer r in the port's slot, where it has a place. What the two do is stated first. -/

open Sys2Proof Sys2Proof.Machine

/-! Steps and requests. -/

/-- A step takes the command at the front of the queue, on the part with the queue's rest. -/
def Obligations.StepTakesTheFrontCommand : Prop :=
  ∀ (c : Instr) (rest : List Instr) (s : State), s.pending = c :: rest →
    step s = exec c { s with pending := rest }

/-- On an empty queue a reference period passes (log 5): the base divider counts it, and at the 800th a base tick begins. While
RESET_N is active nothing passes. -/
def Obligations.EmptyQueueLetsAReferencePeriodPass : Prop :=
  ∀ s : State, s.pending = [] →
    (s.resetActive = true → step s = .next s) ∧
    (s.resetActive = false → s.ticks.baseDivider + 1 < 800 →
      step s = .next { s with ticks := { s.ticks with baseDivider := s.ticks.baseDivider + 1 } }) ∧
    (s.resetActive = false → 800 ≤ s.ticks.baseDivider + 1 → step s = exec .baseTick s)

/-- R165, R167: taking a request. With no request in hand and no transaction in progress, IDLE and ANSWERED take it and become EXECUTING
(with the mark that an unfetched answer was discarded), and EXECUTING does not; a request in hand is taken when it stands first. RESET_N
active takes none. That the command is the whole transaction and the owning block's taking at once, and that it is neither while another
request stands first in hand or a transaction is in progress, is the model's choice (log 2, log 19). -/
def Obligations.RequestsAreTakenInIdleOrAnswered : Prop :=
  ∀ (port : Port) (c : Instr) (n : Nat) (s : State),
    (s.resetActive = true → takeRequest port c n s = none) ∧
    (s.resetActive = false → s.ports[port].inHand = [] →
      (s.ports[port].transfer = .none →
        (s.ports[port].context = .idle →
          takeRequest port c n s = some (s.withPort port
            ⟨.executing false, [], statusByte s port :: List.replicate (n + 3) 0#8, .none⟩, true)) ∧
        (∀ a, s.ports[port].context = .answered a →
          takeRequest port c n s = some (s.withPort port
            ⟨.executing true, [], statusByte s port :: List.replicate (n + 3) 0#8, .none⟩, true)) ∧
        (∀ lost, s.ports[port].context = .executing lost → takeRequest port c n s = none)) ∧
      (s.ports[port].transfer ≠ .none → takeRequest port c n s = none)) ∧
    (∀ h rest, s.resetActive = false → s.ports[port].inHand = h :: rest →
      takeRequest port c n s = if h.request = c then
        some (s.withPort port { s.ports[port] with inHand := rest }, h.live) else none)

/-- R165: an answer goes to the slot of a port in EXECUTING and makes it ANSWERED, with the previous-response-lost flag of the taking;
with the context IDLE or ANSWERED, or its place lost, it is discarded. -/
def Obligations.AnswersAreHeldInTheSlot : Prop :=
  ∀ (port : Port) (echo : Byte) (code : ResponseCode) (payload : List Byte) (u : State),
    (∀ lost, u.ports[port].context = .executing lost →
      answerIn port echo true ⟨code, payload⟩ u = u.withPort port
        { u.ports[port] with context := .answered ⟨code, echo, lost, payload⟩ }) ∧
    (u.ports[port].context.isExecuting = false → answerIn port echo true ⟨code, payload⟩ u = u) ∧
    answerIn port echo false ⟨code, payload⟩ u = u

/-- R167: a request that is not taken reaches no block. In EXECUTING its frame is discarded without record: the port unit shifts out
the status byte and 00H, and everything else stands. While RESET_N is active (R143) there is no transaction. With another request of the
port in hand, or with a transaction in progress at the port, there is none either, and the command changes nothing: that is the model's
choice (log 2, log 19). -/
def Obligations.UntakenRequestsReachNoBlock : Prop :=
  ∀ (c : Instr) (port : Port) (n : Nat) (s : State), requestOf c = some (port, n) → takeRequest port c n s = none →
    (s.resetActive = false → s.ports[port].inHand = [] → s.ports[port].transfer = .none →
      exec c s = .next (s.withPort port
        { s.ports[port] with serialOut := statusByte s port :: List.replicate (n + 3) 0#8 })) ∧
    (s.resetActive = true ∨ s.ports[port].inHand ≠ [] ∨ s.ports[port].transfer ≠ .none → exec c s = .next s)

/-! The ports. -/

/-- R164, R163: a STATUS transaction shifts out the status byte, then 00H, and changes nothing else. The status byte is formed when the
chip select becomes active, and changes during the transaction do not show in it. In parts (log 19): the chip select becomes active, the
kind byte is received and the status byte has left, further bytes give 00H, and the chip select becomes inactive; the parts in a row
are the whole transaction. -/
def Obligations.StatusTransactionsShowTheStatusByte : Prop :=
  ∀ (port : Port) (kind : Byte) (bytes : List Byte) (s : State),
    WellFormed (.status port kind (.whole bytes)) = true → s.resetActive = false →
    let u := s.ports[port]
    let part := fun (x : TransactionPart) => exec (.status port kind x)
    (∃ b : Byte,
      (u.transfer = .none →
        part (.whole bytes) s = .next (s.withPort port { u with serialOut := b :: List.replicate bytes.length 0#8 }) ∧
        part .opening s = .next (s.withPort port { u with transfer := .first b, serialOut := [] })) ∧
      (b.getLsbD 7 = true ↔ ∃ a, u.context = .answered a) ∧
      (b.getLsbD 6 = true ↔ ∃ lost, u.context = .executing lost) ∧
      (b.getLsbD 5 = true ↔ s.notices[port].queue ≠ [] ∨ s.notices[port].overflow = true) ∧
      (b.getLsbD 4 = true ↔ s.trip.state = .tripped) ∧
      (b.getLsbD 3 = true ↔ s.engine.state ≠ .running) ∧
      b.extractLsb' 0 3 = 0b010#3) ∧
    (∀ b, u.transfer = .first b →
      part .kindByte s = .next (s.withPort port { u with transfer := .ignored, serialOut := [b] }) ∧
      part .closing s = .next (s.withPort port { u with transfer := .none })) ∧
    (u.transfer = .ignored →
      part (.bytes bytes) s =
        .next (s.withPort port { u with serialOut := u.serialOut ++ List.replicate bytes.length 0#8 }) ∧
      part .closing s = .next (s.withPort port { u with transfer := .none })) ∧
    (u.transfer = .none → ∃ t1 t2 t3, part .opening s = .next t1 ∧ part .kindByte t1 = .next t2 ∧
      part (.bytes bytes) t2 = .next t3 ∧ part .closing t3 = part (.whole bytes) s)

/-- R168, R173, R171: a FETCH sends the answer's frame (the code's byte, echo, flags with the previous-response-lost flag in bit 0, length,
payload, and the CRC that FramesAreJudgedInTheOrderOfTheChecks describes), or NO_RESPONSE, cut off where the transaction ends and followed
by 00H; the slot is emptied when the check byte has left. In parts (log 19): the frame is chosen when the kind byte has been received, by
the context at that moment, whatever the status byte showed; its bytes leave one by one, the slot is emptied with the last, and a
transaction that ends before leaves the answer in the slot. The parts in a row are the whole transaction. -/
def Obligations.FetchesSendTheAnswerOrNoResponse : Prop :=
  ∀ (port : Port) (bytes : List Byte) (s : State), s.resetActive = false →
    let u := s.ports[port]
    let n := bytes.length
    let part := fun (x : TransactionPart) => exec (.fetch port x)
    let code : ResponseCode → Byte := fun c => match c with
      | .ok => 0x00#8 | .granted => 0x01#8 | .queued => 0x02#8 | .refused => 0x10#8 | .frameError => 0x20#8
    let body := fun (a : Answer) =>
      [code a.code, a.echo, if a.lost then 0x01#8 else 0x00#8, BitVec.ofNat 8 a.payload.length] ++ a.payload
    let noResponse : List Byte := [0x30#8, 0#8, 0#8, 0#8, checkByte [0x30#8, 0#8, 0#8, 0#8]]
    let sends := fun (frame : List Byte) (x : PortContext) => s.withPort port
      { u with
        context := x
        serialOut := statusByte s port :: (frame.take n ++ List.replicate (n - frame.length) 0#8) }
    (u.transfer = .none →
      (∀ a, u.context = .answered a →
        part (.whole bytes) s = .next (sends (body a ++ [checkByte (body a)])
          (if (body a).length + 1 ≤ n then .idle else .answered a))) ∧
      ((∀ a, u.context ≠ .answered a) → part (.whole bytes) s = .next (sends noResponse u.context)) ∧
      ∃ t1 t2 t3, part .opening s = .next t1 ∧ part .kindByte t1 = .next t2 ∧ part (.bytes bytes) t2 = .next t3 ∧
        part .closing t3 = part (.whole bytes) s) ∧
    (∀ b, u.transfer = .first b →
      (∀ a, u.context = .answered a → part .kindByte s = .next (s.withPort port
        { u with transfer := .fetch (body a ++ [checkByte (body a)]) true, serialOut := [b] })) ∧
      ((∀ a, u.context ≠ .answered a) → part .kindByte s = .next (s.withPort port
        { u with transfer := .fetch noResponse false, serialOut := [b] }))) ∧
    (∀ rest answer, u.transfer = .fetch rest answer →
      part (.bytes bytes) s = .next (s.withPort port
        { u with
          context := if answer = true ∧ rest ≠ [] ∧ rest.length ≤ n then .idle else u.context
          serialOut := u.serialOut ++ (rest.take n ++ List.replicate (n - rest.length) 0#8)
          transfer := .fetch (rest.drop n) answer }) ∧
      part .closing s = .next (s.withPort port { u with transfer := .none }))

/-- R166, R171, R172: the checks of a request frame in their order, with the payload length of each code and the entry length of each
table. The check byte is the CRC-8 with initial value 00H, generator 07H, most significant bit first and no final inversion: each byte
is added to the register, which is then shifted eight times, and a bit that leaves it adds the generator. Taken over bytes with their
check byte behind, it gives 00H. -/
def Obligations.FramesAreJudgedInTheOrderOfTheChecks : Prop :=
  let lengths : List (Byte × Nat) := [(0x01#8, 0), (0x02#8, 0), (0x03#8, 2), (0x04#8, 1), (0x05#8, 0), (0x06#8, 0), (0x07#8, 1),
    (0x08#8, 0), (0x09#8, 0), (0x10#8, 5), (0x11#8, 1), (0x12#8, 1), (0x13#8, 0), (0x14#8, 1), (0x15#8, 1), (0x20#8, 0),
    (0x21#8, 0), (0x30#8, 0), (0x31#8, 0), (0x32#8, 0), (0x33#8, 3), (0x34#8, 2), (0x35#8, 2), (0x36#8, 0), (0x37#8, 0),
    (0x38#8, 0)]
  let entries : List (Byte × Nat) :=
    [(0#8, 9), (1#8, 2), (2#8, 16), (3#8, 8), (4#8, 2), (5#8, 4), (6#8, 2), (7#8, 3), (8#8, 4)]
  let shift := fun (r : Byte) => if r.getLsbD 7 then (r <<< 1) ^^^ 0x07#8 else r <<< 1
  checkByte [] = 0x00#8 ∧
  (∀ (bytes : List Byte) (b : Byte),
    checkByte (bytes ++ [b]) = shift (shift (shift (shift (shift (shift (shift (shift (checkByte bytes ^^^ b))))))))) ∧
  (∀ bytes : List Byte, checkByte (bytes ++ [checkByte bytes]) = 0x00#8) ∧
  judgeFrame [] = .failed .truncated 0#8 ∧
  (∀ code, judgeFrame [code] = .failed .truncated code) ∧
  (∀ (code len : Byte) (rest : List Byte), 32 < len.toNat → judgeFrame (code :: len :: rest) = .failed .length code) ∧
  (∀ (code len : Byte) (rest : List Byte), len.toNat ≤ 32 → rest.length ≤ len.toNat →
    judgeFrame (code :: len :: rest) = .failed .truncated code) ∧
  (∀ (code len check : Byte) (payload more : List Byte), len.toNat ≤ 32 → payload.length = len.toNat →
    let v := judgeFrame (code :: len :: (payload ++ check :: more))
    let fits := fun (ok : Prop) => (ok → v = .wellFormed code payload) ∧ (¬ ok → v = .failed .length code)
    (check ≠ checkByte (code :: len :: payload) → v = .failed .check code) ∧
    (check = checkByte (code :: len :: payload) →
      ((∀ n, (code, n) ∉ lengths) → code ≠ 0x40#8 → v = .failed .unknownCode code) ∧
      (∀ n, (code, n) ∈ lengths → fits (payload.length = n)) ∧
      (code = 0x40#8 →
        (payload = [] → v = .failed .length code) ∧
        ∀ table rest, payload = table :: rest →
          (∀ n, (table, n) ∈ entries → fits (payload.length = 2 + n)) ∧
          ((∀ n, (table, n) ∉ entries) → fits (2 ≤ payload.length)))))

/-- R166, R173: a frame that fails is answered FRAME_ERROR with its reason (01H CHECK, 02H LENGTH, 03H UNKNOWN_CODE, 04H TRUNCATED), in IDLE
and ANSWERED; no block receives anything. In parts (log 19):
the kind byte begins a frame with no byte yet; a byte that does not end the frame is kept; the length byte above 32, or else the check
byte, ends the frame, and its failure is answered at that moment, with the rest of the transaction ignored; the chip select becoming
inactive before gives TRUNCATED. -/
def Obligations.FailingFramesAreAnsweredFrameError : Prop :=
  ∀ (port : Port) (s : State), s.resetActive = false →
    let u := s.ports[port]
    let part := fun (x : TransactionPart) => exec (.frameError port x)
    let answered := fun (reason : FrameFault) (echo : Byte) (lost : Bool) =>
      PortContext.answered ⟨.frameError, echo, lost,
        [match reason with | .check => 0x01#8 | .length => 0x02#8 | .unknownCode => 0x03#8 | .truncated => 0x04#8]⟩
    (u.context.isExecuting = false → ∃ lost : Bool, (lost = true ↔ ∃ a, u.context = .answered a) ∧
      (∀ bytes reason echo, u.transfer = .none → judgeFrame bytes = .failed reason echo →
        part (.whole bytes) s = .next (s.withPort port
          { u with
            context := answered reason echo lost
            serialOut := statusByte s port :: List.replicate bytes.length 0#8 })) ∧
      ∀ received, u.transfer = .request received →
        (∀ b reason echo, frameEnds (received ++ [b]) = true → judgeFrame (received ++ [b]) = .failed reason echo →
          part (.bytes [b]) s = .next (s.withPort port
            { u with context := answered reason echo lost, transfer := .ignored, serialOut := u.serialOut ++ [0#8] })) ∧
        (frameEnds received = false →
          part .closing s = .next (s.withPort port
            { u with context := answered .truncated (received.headD 0#8) lost, transfer := .none }))) ∧
    (∀ b, u.transfer = .first b →
      part .kindByte s = .next (s.withPort port { u with transfer := .request [], serialOut := [b] })) ∧
    (∀ received b, u.transfer = .request received → frameEnds (received ++ [b]) = false →
      part (.bytes [b]) s = .next (s.withPort port
        { u with transfer := .request (received ++ [b]), serialOut := u.serialOut ++ [0#8] })) ∧
    ∀ bytes : List Byte, frameEnds bytes = true ↔ ∃ (code len : Byte) (rest : List Byte), bytes = code :: len :: rest ∧
      (32 < len.toNat ∨ len.toNat < rest.length)

/-- R167: in EXECUTING a frame is discarded without record, well-formed or not; in IDLE or ANSWERED a well-formed frame's request is taken,
and stands in hand for its owning block (log 2). R166, R150: a WRITE_ENTRY that names no table is refused with BAD_ARGUMENT and FFH, at
once: no other event comes between the check byte and that answer (log 33). In parts (log 19) this happens at the check byte, by the context
at that moment; bytes received in several parts are the bytes of one, and the parts in a row are the whole transaction. -/
def Obligations.FramesInExecutingAreDiscarded : Prop :=
  ∀ (port : Port) (s : State), s.resetActive = false →
    let u := s.ports[port]
    let part := fun (x : TransactionPart) => exec (.frameDiscarded port x)
    let lost := decide (u.context ≠ .idle)
    let takes := fun (v : FrameVerdict) (out : List Byte) (x : Transfer) (t : Host.Outcome State Fault Refusal) =>
      (u.context.isExecuting = true → t = .next (s.withPort port { u with serialOut := out, transfer := x })) ∧
      (∀ code payload i, u.context.isExecuting = false → v = .wellFormed code payload →
        decodeRequest port code payload = some i →
        t = .next (s.withPort port ⟨.executing lost, u.inHand ++ [⟨i, true⟩], out, x⟩)) ∧
      (∀ code payload, u.context.isExecuting = false → v = .wellFormed code payload →
        decodeRequest port code payload = none →
        t = .next (s.withPort port
          { u with context := .answered ⟨.refused, code, lost, [0x01#8, 0xFF#8]⟩, serialOut := out, transfer := x }))
    (∀ bytes, u.transfer = .none →
      takes (judgeFrame bytes) (statusByte s port :: List.replicate bytes.length 0#8) .none (part (.whole bytes) s) ∧
      ∃ t1 t2 t3, part .opening s = .next t1 ∧ part .kindByte t1 = .next t2 ∧ part (.bytes bytes) t2 = .next t3 ∧
        part .closing t3 = part (.whole bytes) s) ∧
    (∀ received b, u.transfer = .request received → frameEnds (received ++ [b]) = true →
      takes (judgeFrame (received ++ [b])) (u.serialOut ++ [0#8]) .ignored (part (.bytes [b]) s)) ∧
    (∀ received, u.transfer = .request received → u.context.isExecuting = true →
      part .closing s = .next (s.withPort port { u with transfer := .none })) ∧
    ∀ before after, ∃ t, part (.bytes before) s = .next t ∧ part (.bytes after) t = part (.bytes (before ++ after)) s

/-- R172, R174, R175: the payload of every request, byte by byte, gives the request with its operands; WRITE_ENTRY for each of the nine
tables, and no request for a table code above 8. -/
def Obligations.PayloadsCarryTheirRequests : Prop :=
  ∀ (port : Port) (a b c d e f g h i j k : Byte) (x y z : RawSource) (rest : List Byte),
    decodeRequest port 0x01#8 [] = some (.readStatus port) ∧
    decodeRequest port 0x02#8 [] = some (.readNotice port) ∧
    decodeRequest port 0x03#8 [a, b] = some (.readEntry port a b) ∧
    decodeRequest port 0x04#8 [a] = some (.readChannel port a) ∧
    decodeRequest port 0x05#8 [] = some (.readLines port) ∧
    decodeRequest port 0x06#8 [] = some (.readTerms port) ∧
    decodeRequest port 0x07#8 [a] = some (.readPermit port a) ∧
    decodeRequest port 0x08#8 [] = some (.readTrip port) ∧
    decodeRequest port 0x09#8 [] = some (.readHaltRecord port) ∧
    decodeRequest port 0x10#8 [a, b, c, d, e] = some (.claim port a b c (d ++ e)) ∧
    decodeRequest port 0x11#8 [a] = some (.release port a) ∧
    decodeRequest port 0x12#8 [a] = some (.refresh port a) ∧
    decodeRequest port 0x13#8 [] = some (.refreshAll port) ∧
    decodeRequest port 0x14#8 [a] = some (.revoke port a) ∧
    decodeRequest port 0x15#8 [a] = some (.unlock port a) ∧
    decodeRequest port 0x20#8 [] = some (.trip port) ∧
    decodeRequest port 0x21#8 [] = some (.clearTrip port) ∧
    decodeRequest port 0x30#8 [] = some (.halt port) ∧
    decodeRequest port 0x31#8 [] = some (.resume port) ∧
    decodeRequest port 0x32#8 [] = some (.step port) ∧
    decodeRequest port 0x33#8 [a, b, c] = some (.injectChannel port a (b ++ c)) ∧
    decodeRequest port 0x34#8 [a, b] = some (.injectLine port a b) ∧
    decodeRequest port 0x35#8 [a, b] = some (.clearInject port a b) ∧
    decodeRequest port 0x36#8 [] = some (.clearHaltRecord port) ∧
    decodeRequest port 0x37#8 [] = some (.softReset port) ∧
    decodeRequest port 0x38#8 [] = some (.hardReset port) ∧
    decodeRequest port 0x40#8 [0#8, a, b, c, d, e, f, g, h, i, j] =
      some (.writeChannelEntry port a b c d e (f ++ g) (h ++ i) j) ∧
    decodeRequest port 0x40#8 [1#8, a, b, c] = some (.writeLineEntry port a b c) ∧
    decodeRequest port 0x40#8 [2#8, a, b, c, d, e, x.kind, x.arg1, x.arg2, x.arg3, y.kind, y.arg1, y.arg2, y.arg3,
      z.kind, z.arg1, z.arg2, z.arg3] = some (.writeTermEntry port a b c d e x y z) ∧
    decodeRequest port 0x40#8 [3#8, a, b, c, d, e, f, g, h, i] = some (.writePermitEntry port a b c d e f g h i) ∧
    decodeRequest port 0x40#8 [4#8, a, b, c] = some (.writeGroupEntry port a b c) ∧
    decodeRequest port 0x40#8 [5#8, a, b, c, d, e] = some (.writeProfileEntry port a b (c ++ d) e) ∧
    decodeRequest port 0x40#8 [6#8, a, b, c] = some (.writeTickEntry port a (b ++ c)) ∧
    decodeRequest port 0x40#8 [7#8, a, b, c, d] = some (.writeEngineEntry port a b c d) ∧
    decodeRequest port 0x40#8 [8#8, a, b, c, d, e] = some (.writeWatchEntry port a b c d e) ∧
    (9 ≤ k.toNat → decodeRequest port 0x40#8 (k :: a :: rest) = none)

/-! Notices and reports. -/

/-- R178: a notice that arrives is appended while the queue holds fewer than 8, and otherwise discarded with the overflow flag set. It is
the oldest of its maker on its way to the port; it may pass other makers' notices, but RESUMED passes no rights withdrawal notice (R131:
the order among makers is log 13). With no such notice on its way nothing arrives (log 1). -/
def Obligations.NoticesArriveAtTheirQueue : Prop :=
  (∀ (maker : NoticeMaker) (flying : List FlyingNotice) (n : Notice) (rest : List FlyingNotice),
    firstOf maker flying = some (n, rest) ↔ ∃ before after,
      flying = before ++ ⟨maker, n⟩ :: after ∧ rest = before ++ after ∧ (∀ m ∈ before, m.maker ≠ maker) ∧
      ∀ epoch, n.body = .resumed epoch → ∀ m ∈ before, ∀ p : PermitId,
        m.notice.body ≠ .revoked p .rightWithdrawn ∧ m.notice.body ≠ .waitEnded p .rightWithdrawn) ∧
  ∀ (maker : NoticeMaker) (port : Port) (s : State), s.resetActive = false →
    (∀ n rest, firstOf maker s.flight.notices[port] = some (n, rest) →
      exec (.noticeArrival maker port) s = .next { s with
        flight := { s.flight with notices := s.flight.notices.set port rest }
        notices := s.notices.set port
          (if s.notices[port].queue.length < 8 then ⟨s.notices[port].queue ++ [n], s.notices[port].overflow⟩
           else ⟨s.notices[port].queue, true⟩) }) ∧
    (firstOf maker s.flight.notices[port] = none → exec (.noticeArrival maker port) s = .next s)

/-- R180, R179, R174: READ_NOTICE removes the oldest notice and answers its ten bytes (kind, permit, cause code, cause argument, epoch, pass
count) with the overflow flag as it stood and the count remaining; on an empty queue it answers the kind NONE, whose bytes 1 to 5 (FFH 00H
FFH 00H 00H) are the model's deduction (log 24) and whose last four bytes are free (log 14). The flag is cleared. -/
def Obligations.ReadNoticeTakesTheOldestNotice : Prop :=
  ∀ (port : Port) (s u : State) (live : Bool), takeRequest port (.readNotice port) 0 s = some (u, live) →
    let number := fun (n : Nat) => (BitVec.ofNat 8 n : Byte)
    let cause : TripCause → List Byte := fun c => match c with
      | .tripIn => [0x10#8, 0xFF#8]
      | .channelFault ch => [0x11#8, number ch]
      | .request p => [0x12#8, number p]
      | .lease p => [0x03#8, number p]
      | .passDeadline => [0x14#8, 0xFF#8]
      | .lineFeedback p => [0x15#8, number p]
    let halt : HaltCause → List Byte := fun c => match c with
      | .noCause => [0x00#8, 0xFF#8]
      | .reset => [0x20#8, 0xFF#8]
      | .softReset => [0x21#8, 0xFF#8]
      | .command p => [0x02#8, number p]
      | .watch slot => [0x22#8, number slot]
    let ended : EndCause → Byte := fun c => match c with
      | .condition => 0x01#8 | .command => 0x02#8 | .lease => 0x03#8
      | .lock => 0x04#8 | .rightWithdrawn => 0x05#8 | .expired => 0x06#8
    let body : NoticeBody → List Byte := fun b => match b with
      | .granted p => [0x01#8, number p, 0x00#8, 0xFF#8, 0x00#8, 0x00#8]
      | .revoked p c => [0x02#8, number p, ended c, 0xFF#8, 0x00#8, 0x00#8]
      | .late p => [0x03#8, number p, 0x00#8, 0xFF#8, 0x00#8, 0x00#8]
      | .waitEnded p c => [0x04#8, number p, ended c, 0xFF#8, 0x00#8, 0x00#8]
      | .tripped c => [0x05#8, 0xFF#8] ++ cause c ++ [0x00#8, 0x00#8]
      | .tripCleared => [0x06#8, 0xFF#8, 0x00#8, 0xFF#8, 0x00#8, 0x00#8]
      | .halted c => [0x07#8, 0xFF#8] ++ halt c ++ [0x00#8, 0x00#8]
      | .resumed e => [0x08#8, 0xFF#8, 0x00#8, 0xFF#8, e.extractLsb' 8 8, e.extractLsb' 0 8]
    let bytes := fun (n : Notice) => body n.body ++
      [n.count.extractLsb' 24 8, n.count.extractLsb' 16 8, n.count.extractLsb' 8 8, n.count.extractLsb' 0 8]
    let overflow : Byte := if u.notices[port].overflow then 1#8 else 0#8
    (∀ n rest, u.notices[port].queue = n :: rest →
      ∃ t, exec (.readNotice port) s = .next (answerIn port 0x02#8 live
        ⟨.ok, bytes n ++ [overflow, BitVec.ofNat 8 rest.length]⟩ t) ∧
        t = { u with notices := u.notices.set port ⟨rest, false⟩ } ∧ (attention t port = true ↔ rest ≠ [])) ∧
    (u.notices[port].queue = [] →
      ∃ (t : State) (b0 b1 b2 b3 : Byte), exec (.readNotice port) s = .next (answerIn port 0x02#8 live
        ⟨.ok, [0#8, 0xFF#8, 0#8, 0xFF#8, 0#8, 0#8, b0, b1, b2, b3, overflow, 0#8]⟩ t) ∧
        t = { u with notices := u.notices.set port ⟨[], false⟩, freeCount := t.freeCount } ∧ attention t port = false)

/-- R182: READ_STATUS answers its eight fields and changes nothing else. -/
def Obligations.ReadStatusReportsEightFields : Prop :=
  ∀ (port : Port) (s u : State) (live : Bool), takeRequest port (.readStatus port) 0 s = some (u, live) →
    let engine : Byte := match u.engine.state with | .running => 0#8 | .halting => 1#8 | .halted => 2#8 | .stepping => 3#8
    let trip : Byte := match u.trip.state with | .normal => 0#8 | .tripped => 1#8
    let p := u.config.profilesInUse[port]
    let rights : Byte := BitVec.ofNat 8 (p.configure.toNat + 2 * p.maintain.toNat + 4 * p.clear.toNat)
    exec (.readStatus port) s = .next (answerIn port 0x01#8 live ⟨.ok,
      [engine, trip, u.config.epoch.extractLsb' 8 8, u.config.epoch.extractLsb' 0 8,
        if u.config.modified then 1#8 else 0#8,
        u.eval.passCount.extractLsb' 24 8, u.eval.passCount.extractLsb' 16 8, u.eval.passCount.extractLsb' 8 8,
        u.eval.passCount.extractLsb' 0 8, rights, BitVec.ofNat 8 u.notices[port].queue.length,
        if u.notices[port].overflow then 1#8 else 0#8]⟩ u)

/-- R64, R175: READ_PERMIT answers the record, the permit's state with its reason, the commanded level and the settle counter of its
group; a number above 15 is refused. Nothing else changes. The five conditions of eligibility are those of R47, the five lines of the
state and the five blocking reasons those of R48, and the four conditions of the commanded level those of R57. -/
def Obligations.ReadPermitReportsTheRecord : Prop :=
  (∀ (c : ConfigStore) (t : PermitTable) (p : PermitId),
    let e := c.permits[p]
    let r := t.records[p]
    let groupHeld := ∃ (g : GroupId) (q : PermitId), e.group = some g ∧ q ≠ p ∧ c.permits[q].group = some g ∧
      t.records[q].holders ≠ []
    let groupSettling := ∃ g : GroupId, e.group = some g ∧ 0 < t.settle[g]
    let ready := (e.enabled = true ∧ r.lock = false) ∧ t.engine = .running ∧ t.trip = .normal ∧ r.condition = .met ∧
      ¬ groupHeld ∧ ¬ groupSettling
    let state := permitState c t p
    (eligible c t p = true ↔ ready) ∧
    (if e.enabled = false then state = .disabled
      else if r.lock = true then state = .locked
      else if r.holders ≠ [] then state = .held
      else if ready then state = .ready
      else if t.trip = .tripped then state = .blocked .tripped
      else if t.engine ≠ .running then state = .blocked .engine
      else if r.condition ≠ .met then state = .blocked .condition
      else if groupHeld then state = .blocked .groupHeld
      else groupSettling ∧ state = .blocked .groupSettling) ∧
    (commanded c t p = true ↔
      t.engine = .running ∧ t.trip = .normal ∧ state = .held ∧ r.condition = .met)) ∧
  ∀ (port : Port) (b : Byte) (s u : State) (live : Bool), takeRequest port (.readPermit port b) 1 s = some (u, live) →
    (16 ≤ b.toNat → exec (.readPermit port b) s = .next (answerIn port 0x07#8 live ⟨.refused, [0x01#8]⟩ u)) ∧
    (∀ p : PermitId, b.toNat = p.val →
      let r := u.table.records[p]
      let st : Byte × Byte := match permitState u.config u.table p with
        | .disabled => (0#8, 0#8)
        | .blocked .tripped => (1#8, 1#8)
        | .blocked .engine => (1#8, 2#8)
        | .blocked .condition => (1#8, 3#8)
        | .blocked .groupHeld => (1#8, 4#8)
        | .blocked .groupSettling => (1#8, 5#8)
        | .ready => (2#8, 0#8)
        | .held => (3#8, 0#8)
        | .locked => (4#8, 0#8)
      let condition : Byte := match r.condition with | .unknown => 0#8 | .notMet => 1#8 | .met => 2#8
      let group : Byte × Byte := match u.config.permits[p].group with
        | none => (0xFF#8, 0#8)
        | some g => (BitVec.ofNat 8 g.val, BitVec.ofNat 8 u.table.settle[g])
      let stage := fun (x : LeaseStage) => match x with | .fresh => 0#8 | .armed => 1#8 | .late => 2#8
      let wait := fun (x : Option Nat) => match x with | none => 0xFF#8 | some n => BitVec.ofNat 8 n
      exec (.readPermit port b) s = .next (answerIn port 0x07#8 live ⟨.ok,
        [b, st.1, st.2, condition, if commanded u.config u.table p then 1#8 else 0#8, BitVec.ofNat 8 r.mismatch,
          group.1, group.2, BitVec.ofNat 8 r.holders.length, BitVec.ofNat 8 r.queue.length] ++
        r.holders.flatMap (fun h => [BitVec.ofNat 8 h.port.val, stage h.stage]) ++
        r.queue.flatMap (fun x => [BitVec.ofNat 8 x.port.val, BitVec.ofNat 8 x.priority.val, wait x.wait])⟩ u))

/-- R20, R21, R41, R121, R138, R156, R175, R176: the other reads answer their fields and change nothing else; a number or an entry that does
not exist is refused with BAD_ARGUMENT. Sets of lines have bit n for line n, held outputs bit n for term n; a cause set is the number of 7
bytes whose bits from 0 up are CHANNEL_FAULT, TRIP_IN, REQUEST, PASS_DEADLINE, LEASE and LINE_FEEDBACK. READ_HALT_RECORD answers the engine
state, the record and its captured outputs; READ_ENTRY answers the table, the index and the entry as written, for PROFILE with the profile
in use and for TICK with the divider in use. -/
def Obligations.ReadsAnswerAndChangeNothing : Prop :=
  ∀ (port : Port) (b i : Byte) (s u : State) (live : Bool),
    let number := fun (n : Nat) => (BitVec.ofNat 8 n : Byte)
    let two := fun (w : Word16) => [w.extractLsb' 8 8, w.extractLsb' 0 8]
    let four := fun (n : PassCount) => [n.extractLsb' 24 8, n.extractLsb' 16 8, n.extractLsb' 8 8, n.extractLsb' 0 8]
    let flags := fun (l : List Bool) => number (l.foldr (fun x n => x.toNat + 2 * n) 0)
    let signed := fun (v : Int) => two (BitVec.ofInt 16 v)
    (takeRequest port (.readChannel port b) 1 s = some (u, live) →
      (12 ≤ b.toNat → exec (.readChannel port b) s = .next (answerIn port 0x04#8 live ⟨.refused, [0x01#8]⟩ u)) ∧
      (∀ c : ChannelId, b.toNat = c.val →
        let e := u.config.channels[c]
        let injected := u.engine.injectedReading[c]
        let verdict : Byte := match u.scan.channels[c].verdict with
          | .unknown => 0#8 | .below => 1#8 | .inside => 2#8 | .above => 3#8 | .fault => 4#8
        exec (.readChannel port b) s = .next (answerIn port 0x04#8 live ⟨.ok,
          [b, flags [e.enabled, e.negative.isSome, injected.isSome]] ++ signed u.scan.channels[c].reading ++ [verdict] ++
            injected.elim [0xFF#8, 0xFF#8] signed⟩ u))) ∧
    (takeRequest port (.readLines port) 0 s = some (u, live) →
      ∃ raw filtered seeded injected : Word16,
        (∀ n : LineId, raw.getLsbD n = u.lines.lines[n].raw ∧ filtered.getLsbD n = u.lines.lines[n].filtered ∧
          seeded.getLsbD n = u.lines.lines[n].seeded ∧ injected.getLsbD n = u.engine.injectedLevel[n].isSome) ∧
        exec (.readLines port) s = .next (answerIn port 0x05#8 live
          ⟨.ok, two raw ++ two filtered ++ two seeded ++ two injected ++ two u.lines.readback⟩ u)) ∧
    (takeRequest port (.readTerms port) 0 s = some (u, live) →
      ∃ held : BitVec 24, (∀ k : TermId, held.getLsbD k = u.eval.history[k].held) ∧
        exec (.readTerms port) s = .next (answerIn port 0x06#8 live ⟨.ok,
          [held.extractLsb' 16 8, held.extractLsb' 8 8, held.extractLsb' 0 8] ++ four u.eval.passCount⟩ u)) ∧
    (takeRequest port (.readTrip port) 0 s = some (u, live) →
      let set := fun (c : CauseSet) =>
        let w : BitVec 56 := 0#6 ++ c.lineFeedback ++ c.lease ++ BitVec.ofBool c.passDeadline ++ c.request ++
          BitVec.ofBool c.tripIn ++ c.channelFault
        [w.extractLsb' 48 8, w.extractLsb' 40 8, w.extractLsb' 32 8, w.extractLsb' 24 8, w.extractLsb' 16 8,
          w.extractLsb' 8 8, w.extractLsb' 0 8]
      let state : Byte := match u.trip.state with | .normal => 0#8 | .tripped => 1#8
      let first : List Byte := match u.trip.record.first with
        | none => [0x00#8, 0xFF#8]
        | some .tripIn => [0x10#8, 0xFF#8]
        | some (.channelFault c) => [0x11#8, number c]
        | some (.request p) => [0x12#8, number p]
        | some (.lease p) => [0x03#8, number p]
        | some .passDeadline => [0x14#8, 0xFF#8]
        | some (.lineFeedback p) => [0x15#8, number p]
      exec (.readTrip port) s = .next (answerIn port 0x08#8 live ⟨.ok,
        [state] ++ first ++ four u.trip.record.count ++ set u.trip.record.causes ++ set u.trip.present ++
          [number u.trip.deadline]⟩ u)) ∧
    (takeRequest port (.readHaltRecord port) 0 s = some (u, live) →
      let r := u.engine.record
      let cause : Byte × Byte := match r.cause with
        | .noCause => (0x00#8, 0xFF#8)
        | .reset => (0x20#8, 0xFF#8)
        | .softReset => (0x21#8, 0xFF#8)
        | .command p => (0x02#8, number p)
        | .watch slot => (0x22#8, number slot)
      let engine : Byte := match u.engine.state with | .running => 0#8 | .halting => 1#8 | .halted => 2#8 | .stepping => 3#8
      exec (.readHaltRecord port) s = .next (answerIn port 0x09#8 live ⟨.ok,
        [engine, cause.1, cause.2, r.also.elim 0xFF#8 fun p => number p, flags [r.hit0, r.hit1]] ++ four r.count ++
        r.captured.elim [0xFF#8, 0xFF#8, 0xFF#8] fun v => [flags (v.toList.drop 16), flags ((v.toList.drop 8).take 8),
          flags (v.toList.take 8)]⟩ u)) ∧
    (takeRequest port (.readEntry port b i) 2 s = some (u, live) →
      let source := fun (x : Source) => match x with
        | .zero => [0#8, 0#8, 0#8, 0#8]
        | .term k => [1#8, number k, 0#8, 0#8]
        | .line n => [2#8, number n, 0#8, 0#8]
        | .lineSet mask allHigh => 3#8 :: two mask ++ [if allHigh then 1#8 else 0#8]
        | .channel c below inside above => [4#8, number c, flags [below, inside, above], 0#8]
        | .held p => [5#8, number p, 0#8, 0#8]
      let profile := fun (x : Profile) =>
        flags [x.configure, x.maintain, x.clear] :: two x.mask ++ [number x.ceiling]
      let answers := fun (r : Reply) => exec (.readEntry port b i) s = .next (answerIn port 0x03#8 live r u)
      let entry := fun (bytes : List Byte) => answers ⟨.ok, [b, i] ++ bytes⟩
      let c := u.config
      (9 ≤ b.toNat → answers ⟨.refused, [0x01#8]⟩) ∧
      (∀ n, (b.toNat, n) ∈ [(0, 12), (1, 16), (2, 24), (3, 16), (4, 4), (5, 4), (6, 4), (7, 1), (8, 2)] → n ≤ i.toNat →
        answers ⟨.refused, [0x01#8]⟩) ∧
      (∀ k : ChannelId, b = 0#8 → i.toNat = k.val → let e := c.channels[k]
        entry ([flags [e.enabled, e.railCheck, e.tripOnFault], number e.positive, e.negative.elim 12#8 fun n => number n,
          number e.count] ++ two (BitVec.ofInt 16 e.lower) ++ two (BitVec.ofInt 16 e.upper) ++ [number e.hysteresis])) ∧
      (∀ k : LineId, b = 1#8 → i.toNat = k.val → let e := c.lines[k]
        entry [flags [e.enabled], match e.filter with | .none => 0#8 | .qualify q => number q]) ∧
      (∀ k : TermId, b = 2#8 → i.toNat = k.val → let e := c.terms[k]
        entry (flags [e.enabled, e.initial] ::
          (match e.stage with | .direct => [0#8, 0#8] | .qualify q => [1#8, number q] | .rise => [2#8, 0#8] | .fall => [3#8, 0#8]) ++
          [e.truth] ++ source e.sourceA ++ source e.sourceB ++ source e.sourceC)) ∧
      (∀ k : PermitId, b = 3#8 → i.toNat = k.val → let e := c.permits[k]
        entry [flags [e.enabled, e.lease, e.readback], number e.term,
          match e.mode with | .exclusive => 0#8 | .shared => 1#8, number e.limit, e.group.elim 0xFF#8 fun g => number g,
          number e.source, match e.expiry with | .release => 0#8 | .lock => 1#8 | .trip => 2#8,
          match e.loss with | .drop => 0#8 | .lock => 1#8]) ∧
      (∀ k : GroupId, b = 4#8 → i.toNat = k.val → entry [number c.groups[k].settle, number c.groups[k].source]) ∧
      (∀ k : Port, b = 5#8 → i.toNat = k.val → entry (profile c.profiles[k] ++ profile c.profilesInUse[k])) ∧
      (∀ k : SourceId, b = 6#8 → i.toNat = k.val →
        entry (two (BitVec.ofNat 16 c.ticks[k]) ++ two (BitVec.ofNat 16 u.ticks.dividers[k]))) ∧
      (b = 7#8 → i = 0#8 → let e := c.engine
        entry [match e.trigger with | .free => 0xFF#8 | .tick src => number src, number e.deadline,
          match e.supervision with | .freeze => 0#8 | .run => 1#8]) ∧
      (∀ k : SlotId, b = 8#8 → i.toNat = k.val → let e := c.watches[k]
        entry (flags [e.enabled] :: match e.kind with
          | .termEdge x edge => [0#8, number x, match edge with | .rise => 0#8 | .fall => 1#8 | .either => 2#8]
          | .anyFault => [1#8, 0xFF#8, 0xFF#8])))

/-! The clock. -/

/-- R93, R94, R95: a base tick restarts the base divider, advances every source counter, and wraps those that reach their divider, each
producing one tick of its source. Each such tick goes once to the scan unit (sourceTicks), once to the permit table and, of source 0, once
to the trip unit, each on its own (log 4). The base tick reaches the scan unit when that is idle in RUNNING, and is dropped there otherwise
(R10; log 30). -/
def Obligations.BaseTicksAdvanceTheSourceCounters : Prop :=
  ∀ s : State, s.resetActive = false →
    ∃ t, exec .baseTick s = .next t ∧
      t = { s with ticks := t.ticks, flight := { s.flight with
        scanBaseTicks := if s.scan.engine = .running ∧ s.scan.state = .idle then s.flight.scanBaseTicks + 1
          else s.flight.scanBaseTicks
        sourceTicks := t.flight.sourceTicks
        permitTicks := t.flight.permitTicks
        tripTicks := if s.ticks.dividers[0] ≤ s.ticks.counters[0] + 1 then s.flight.tripTicks + 1 else s.flight.tripTicks } } ∧
      t.ticks.baseDivider = 0 ∧ t.ticks.dividers = s.ticks.dividers ∧
      ∀ src : SourceId,
        (s.ticks.counters[src] + 1 < s.ticks.dividers[src] →
          t.ticks.counters[src] = s.ticks.counters[src] + 1 ∧ t.flight.sourceTicks[src] = s.flight.sourceTicks[src] ∧
            t.flight.permitTicks[src] = s.flight.permitTicks[src]) ∧
        (s.ticks.dividers[src] ≤ s.ticks.counters[src] + 1 →
          t.ticks.counters[src] = 0 ∧ t.flight.sourceTicks[src] = s.flight.sourceTicks[src] + 1 ∧
            t.flight.permitTicks[src] = s.flight.permitTicks[src] + 1)

/-- R95, R11: a tick of a source arrives at the scan unit, whether or not the permit table and the trip unit have taken it: their arrivals
of the same tick were handed on at the base tick (log 4) and stand as they stood. The scan unit keeps the tick only when it is idle in
RUNNING: a tick that arrives while a scan is in progress, or outside RUNNING, is dropped (log 30). -/
def Obligations.SourceTicksReachTheirConsumers : Prop :=
  ∀ (src : SourceId) (s : State), s.resetActive = false → 0 < s.flight.sourceTicks[src] →
    exec (.sourceTick src) s = .next { s with flight := { s.flight with
      sourceTicks := s.flight.sourceTicks.set src (s.flight.sourceTicks[src] - 1)
      scanTicks := if s.scan.engine = .running ∧ s.scan.state = .idle then
        s.flight.scanTicks.set src (s.flight.scanTicks[src] + 1) else s.flight.scanTicks } }

/-! Measurement. -/

/-- R9, R10, R11: a tick in flight to the scan unit begins a RUN scan of every enabled channel, ascending, when it is a trigger event and
the scan unit holds RUNNING and IDLE (and no watch has stopped it: log 11); otherwise it is dropped. The scan drops every other tick that
waits at the scan unit, so that none begins a later scan (log 30). -/
def Obligations.TriggerTicksBeginRunScans : Prop :=
  ∀ (tick : TriggerTick) (s : State), s.resetActive = false → s.flight.triggerTicks tick ≠ 0 →
    let triggers : Prop := (s.config.engine.trigger = .free ∧ tick = .base) ∨
      ∃ src, s.config.engine.trigger = .tick src ∧ tick = .source src
    (triggers ∧ s.scan.engine = .running ∧ s.scan.state = .idle ∧ s.scan.watchStopped = false →
      exec (.runScanStart tick) s = .next { s with
        scan := { s.scan with
          state := .inProgress ⟨.run, allChannels.filter fun c => s.config.channels[c].enabled, 0, 0, false,
            Vector.replicate 12 none⟩ }
        flight := { s.flight with scanBaseTicks := 0, scanTicks := Vector.replicate 4 0 } }) ∧
    (¬ (triggers ∧ s.scan.engine = .running ∧ s.scan.state = .idle ∧ s.scan.watchStopped = false) →
      exec (.runScanStart tick) s = .next { s with flight := s.flight.dropTriggerTick tick })

/-- R1, R2, R4, R5: a conversion selects the pins of the channel's entry as it stands: the positive pin against AGND with GROUND, and
otherwise the positive pin less the negative pin (`ain` holds the pins in steps of an unsigned sample; that a signed sample has the same
step is the model's choice, log 7). It adds the sample, held to the channel's range, to the accumulator; the last of the accumulation
count forms the reading, the sum divided by the count and rounded toward minus infinity, with a rail mark when rail check is on and one
of the samples sat at a rail. -/
def Obligations.ConversionsFormTheReading : Prop :=
  ∀ (ain : Vector Int 12) (sc : Scan) (c : ChannelId) (rest : List ChannelId) (s : State), s.resetActive = false →
    s.scan.state = .inProgress sc → sc.todo = c :: rest →
    let e := s.config.channels[c]
    let level : Int := e.negative.elim ain[e.positive] fun n => ain[e.positive] - ain[n]
    let low : Int := if e.negative = none then 0 else -2048
    let high : Int := if e.negative = none then 4095 else 2047
    let sample := max low (min high level)
    let rail := sc.rail || (e.railCheck && (decide (sample = low) || decide (sample = high)))
    (sc.taken + 1 < e.count →
      exec (.conversion ain) s = .next { s with scan := { s.scan with
        state := .inProgress { sc with taken := sc.taken + 1, acc := sc.acc + sample, rail := rail } } }) ∧
    (e.count ≤ sc.taken + 1 →
      exec (.conversion ain) s = .next { s with scan := { s.scan with
        state := .inProgress { sc with
          todo := rest, taken := 0, acc := 0, rail := false,
          formed := sc.formed.set c (some ⟨Int.fdiv (sc.acc + sample) e.count, rail⟩) } } })

/-- R6, R7, R14: at a delivered pass each enabled channel takes its reading and the verdict that the table gives from the verdict before
and the reading; a disabled channel takes 0 and UNKNOWN. In a STEP pass an injected reading, held to the present range, stands in. The
verdict of the table is what ChannelEntry.classify gives. -/
def Obligations.DeliveredPassesClassifyTheReadings : Prop :=
  ∀ (din pfb : Word16) (sc : Scan) (s : State), s.resetActive = false →
    s.scan.state = .inProgress sc → sc.todo = [] → watchHit sc din s 0 = false → watchHit sc din s 1 = false →
    ∃ t, exec (.pass din pfb) s = .next t ∧ ∀ c : ChannelId,
      let e := s.config.channels[c]
      let before := s.scan.channels[c].verdict
      let after := t.scan.channels[c]
      (e.enabled = false → after = ⟨0, .unknown⟩) ∧
      (e.enabled = true → ∀ r : Reading,
        (sc.kind = .run ∨ s.engine.injectedReading[c] = none → sc.formed[c] = some r) →
        (∀ v, sc.kind = .step → s.engine.injectedReading[c] = some v → r = ⟨max e.low (min e.high v), false⟩) →
        after.reading = r.value ∧ after.verdict = e.classify before r ∧
        (r.rail = true → after.verdict = .fault) ∧
        (r.rail = false → before = .unknown ∨ before = .fault →
          after.verdict = if r.value < e.lower then .below else if e.upper < r.value then .above else .inside) ∧
        (r.rail = false → before = .inside →
          after.verdict = if e.upper < r.value then .above else if r.value < e.lower then .below else .inside) ∧
        (r.rail = false → before = .above →
          after.verdict =
            if r.value < e.lower then .below else if r.value ≤ e.upper - e.hysteresis then .inside else .above) ∧
        (r.rail = false → before = .below →
          after.verdict =
            if e.upper < r.value then .above else if e.lower + e.hysteresis ≤ r.value then .inside else .below))

/-- R15, R16, R17, R18: at a delivered pass every line takes its pin level (in a STEP pass its injected level) as its raw level, an enabled
line is seeded from it or filtered, a disabled one is LOW and not seeded (what LineEntry.next gives), and the readback levels are the
pins'. -/
def Obligations.DeliveredPassesFilterTheLines : Prop :=
  ∀ (din pfb : Word16) (sc : Scan) (s : State), s.resetActive = false →
    s.scan.state = .inProgress sc → sc.todo = [] → watchHit sc din s 0 = false → watchHit sc din s 1 = false →
    ∃ t, exec (.pass din pfb) s = .next t ∧ t.lines.readback = pfb ∧ ∀ n : LineId,
      let e := s.config.lines[n]
      let before := s.lines.lines[n]
      let after := t.lines.lines[n]
      after = e.next before after.raw ∧
      (sc.kind = .run ∨ s.engine.injectedLevel[n] = none → after.raw = din.getLsbD n) ∧
      (∀ level, sc.kind = .step → s.engine.injectedLevel[n] = some level → after.raw = level) ∧
      (e.enabled = false → after = ⟨after.raw, false, false, 0⟩) ∧
      (e.enabled = true → before.seeded = false → after = ⟨after.raw, after.raw, true, 0⟩) ∧
      (e.enabled = true → before.seeded = true → e.filter = .none → after = ⟨after.raw, after.raw, true, 0⟩) ∧
      (∀ q, e.enabled = true → before.seeded = true → e.filter = .qualify q →
        (after.raw = before.filtered → after = ⟨after.raw, before.filtered, true, 0⟩) ∧
        (after.raw ≠ before.filtered → q ≤ before.counter + 1 → after = ⟨after.raw, after.raw, true, 0⟩) ∧
        (after.raw ≠ before.filtered → before.counter + 1 < q →
          after = ⟨after.raw, before.filtered, true, before.counter + 1⟩))

/-- R25, R27, R32, R29, R30, R35: at every pass the pending values of the terms are one consistent set. An enabled term's raw value is the
truth table entry of its three sources, each TERM source reading the pending output of a higher-numbered term or the previous output of
the rest; its stage gives the output and the counter. R24: CHANNEL sources read the verdicts that R6 gives the enabled channels at this
pass, and LINE and LINESET sources the filtered levels that R15 and R16 give the lines. A delivered pass stores these very verdicts and
levels, stores the terms' values and seeds the term, and clears a disabled one. -/
def Obligations.TermsAreEvaluatedFromHighToLow : Prop :=
  ∀ (din pfb : Word16) (sc : Scan) (s : State), s.resetActive = false →
    s.scan.state = .inProgress sc → sc.todo = [] →
    let pend := passPending sc din s
    let view := passView sc din s
    (∀ i : TermId,
      let e := s.config.terms[i]
      let h := s.eval.history[i]
      let value : Source → Bool := fun x => match x with
        | .zero => false
        | .term k =>
          if i < k then pend[k].output
          else if s.eval.history[k].seeded then s.eval.history[k].held else s.config.terms[k].initial
        | .line n => view.filtered[n]
        | .lineSet mask level => decide (∀ n : LineId, mask.getLsbD n = true → view.filtered[n] = level)
        | .channel c below inside above =>
          (below && decide (view.verdicts[c] = some .below)) || (inside && decide (view.verdicts[c] = some .inside)) ||
            (above && decide (view.verdicts[c] = some .above))
        | .held p => decide (permitState s.config s.table p = .held)
      let raw := e.truth.getLsbD
        (4 * (value e.sourceA).toNat + 2 * (value e.sourceB).toNat + (value e.sourceC).toNat)
      let prevOut := if h.seeded then h.held else e.initial
      let prevRaw := if h.seeded then h.prevRaw else e.initial
      let counter := (if h.seeded then h.counter else 0) + 1
      (e.enabled = false → pend[i] = ⟨false, false, 0⟩) ∧
      (e.enabled = true →
        (e.stage = .direct → pend[i] = ⟨raw, raw, 0⟩) ∧
        (e.stage = .rise → pend[i] = ⟨!prevRaw && raw, raw, 0⟩) ∧
        (e.stage = .fall → pend[i] = ⟨prevRaw && !raw, raw, 0⟩) ∧
        (∀ q, e.stage = .qualify q →
          (raw = prevOut → pend[i] = ⟨prevOut, raw, 0⟩) ∧
          (raw ≠ prevOut → q ≤ counter → pend[i] = ⟨raw, raw, 0⟩) ∧
          (raw ≠ prevOut → counter < q → pend[i] = ⟨prevOut, raw, counter⟩)))) ∧
    (∀ c : ChannelId,
      let e := s.config.channels[c]
      (e.enabled = false → view.verdicts[c] = none) ∧
      (e.enabled = true → ∀ r : Reading,
        (sc.kind = .run ∨ s.engine.injectedReading[c] = none → sc.formed[c] = some r) →
        (∀ v, sc.kind = .step → s.engine.injectedReading[c] = some v → r = ⟨max e.low (min e.high v), false⟩) →
        view.verdicts[c] = some (e.classify s.scan.channels[c].verdict r))) ∧
    (∀ n : LineId,
      (sc.kind = .run ∨ s.engine.injectedLevel[n] = none →
        view.filtered[n] = (s.config.lines[n].next s.lines.lines[n] (din.getLsbD n)).filtered) ∧
      (∀ level, sc.kind = .step → s.engine.injectedLevel[n] = some level →
        view.filtered[n] = (s.config.lines[n].next s.lines.lines[n] level).filtered)) ∧
    (watchHit sc din s 0 = false → watchHit sc din s 1 = false →
      ∃ t, exec (.pass din pfb) s = .next t ∧
        (∀ i : TermId,
          t.eval.history[i] = if s.config.terms[i].enabled = true then ⟨pend[i].output, pend[i].raw, pend[i].counter, true⟩
            else ⟨false, false, 0, false⟩) ∧
        (∀ n : LineId, t.lines.lines[n].filtered = view.filtered[n]) ∧
        ∀ c : ChannelId, s.config.channels[c].enabled = true → view.verdicts[c] = some t.scan.channels[c].verdict)

/-- R35, R36, R37, R38, R18, R112: a delivered pass ends the scan, counts, and hands on: to the permit table the condition of each enabled
permit and the readback pairs, to the trip unit the fault report and a deadline restart, to the engine controller its report. Nothing
else changes. R18, R133: at the pass of a step every commanded level is LOW, in every state with the property stepDrivesNothing, which every
step keeps (StepsKeepCausesQueuesRightsAndCounters; log 34). -/
def Obligations.DeliveredPassesHandOnTheirResults : Prop :=
  ∀ (din pfb : Word16) (sc : Scan) (s : State), s.resetActive = false →
    s.scan.state = .inProgress sc → sc.todo = [] → watchHit sc din s 0 = false → watchHit sc din s 1 = false →
    ∃ (t : State) (r : PassResult) (faulted : BitVec 12), exec (.pass din pfb) s = .next t ∧
      t = { s with
        scan := { s.scan with state := .idle, channels := t.scan.channels }
        lines := t.lines
        eval := ⟨t.eval.history, s.eval.passCount + 1⟩
        flight := { s.flight with
          toPermit := s.flight.toPermit ++ [.passResult r]
          faultReports := s.flight.faultReports ++ [⟨faulted, s.eval.passCount + 1⟩]
          deadlineRestarts := s.flight.deadlineRestarts + 1
          passReports := s.flight.passReports ++ [⟨sc.kind, false, .delivered (s.eval.passCount + 1)⟩] } } ∧
      r.count = s.eval.passCount + 1 ∧ r.sampled = pfb ∧
      (∀ p : PermitId, r.commanded.getLsbD p = commanded s.config s.table p) ∧
      (stepDrivesNothing s → sc.kind = .step → r.commanded = 0#16) ∧
      (∀ p : PermitId, s.config.permits[p].enabled = true →
        r.conditions[p] = some (passPending sc din s)[s.config.permits[p].term].output) ∧
      (∀ p : PermitId, s.config.permits[p].enabled = false → r.conditions[p] = none) ∧
      ∀ c : ChannelId, faulted.getLsbD c = true ↔
        s.config.channels[c].enabled = true ∧ s.config.channels[c].tripOnFault = true ∧
          t.scan.channels[c].verdict = .fault

/-- R34, R135: at a RUN pass a slot hits on the edge of its term's output or on an enabled channel whose reading of this scan carries a rail
mark (the verdict FAULT of R6) and whose verdict before was not FAULT; at a STEP pass none does. A hit discards the pass: the scan
ends, the captured outputs and hit flags go to the engine controller, and nothing else changes (no RUN scan begins before a RESUME: log
11). -/
def Obligations.WatchHitsDiscardThePass : Prop :=
  ∀ (din pfb : Word16) (sc : Scan) (s : State), s.resetActive = false →
    s.scan.state = .inProgress sc → sc.todo = [] →
    (∀ slot : SlotId, watchHit sc din s slot = true ↔ sc.kind = .run ∧ s.config.watches[slot].enabled = true ∧
      match s.config.watches[slot].kind with
      | .termEdge k edge =>
        let h := s.eval.history[k]
        let before := if h.seeded then h.held else s.config.terms[k].initial
        let after := (passPending sc din s)[k].output
        (match edge with
          | .rise => before = false ∧ after = true
          | .fall => before = true ∧ after = false
          | .either => before ≠ after)
      | .anyFault => ∃ (c : ChannelId) (r : Reading), s.config.channels[c].enabled = true ∧ sc.formed[c] = some r ∧
          r.rail = true ∧ s.scan.channels[c].verdict ≠ .fault) ∧
    (watchHit sc din s 0 = true ∨ watchHit sc din s 1 = true →
      exec (.pass din pfb) s = .next { s with
        scan := { s.scan with state := .idle, watchStopped := true }
        flight := { s.flight with passReports := s.flight.passReports ++
          [⟨sc.kind, false, .discarded (watchHit sc din s 0) (watchHit sc din s 1)
            ((passPending sc din s).map TermPending.output)⟩] } })

/-! The permit table. -/

/-- R178, R50, R96: the notices of one event stand, for each port, in the order they were made, behind those already on their way; and
what an event of the permit table leaves is its table, its causes behind those handed on before, and its notices. -/
def Obligations.EventsHandOnTheirNoticesInOrder : Prop :=
  (∀ (maker : NoticeMaker) (count : PassCount) (made : List Made) (v : Vector (List FlyingNotice) 4) (port : Port),
    (flyAll maker count made v)[port] =
      v[port] ++ (made.filter fun m => decide (m.1 = port)).map fun m => ⟨maker, ⟨m.2, count⟩⟩) ∧
  (∀ (count : PassCount) (w : TableWork) (s : State), commitWork count w s = { s with
    table := w.table
    flight := { s.flight with
      tripCauses := s.flight.tripCauses ++ w.causes
      notices := flyAll .permitTable count w.made s.flight.notices } })

/-- R46, R53: a pass result sets the condition value of every permit it carries one for (also of a permit that a write has disabled since the
pass: log 29), and the mismatch count of every enabled permit with readback check on; a disagreement that leaves the count at 2 hands
LINE_FEEDBACK to the trip unit. The result taken is one that stands first on its way (log 9). -/
def Obligations.PassResultsRecordConditionsAndReadback : Prop :=
  ∀ (r : PassResult) (rest : List PermitArrival) (s : State), s.resetActive = false →
    s.flight.toPermit = .passResult r :: rest →
    let compared := fun (p : PermitId) => s.config.permits[p].enabled && s.config.permits[p].readback
    let agrees := fun (p : PermitId) => decide (r.sampled.getLsbD p = r.commanded.getLsbD p)
    ∃ t, exec .passResult s = .next t ∧
      t = { s with table := t.table, flight := t.flight } ∧
      t.table = { s.table with records := t.table.records, settle := t.table.settle } ∧
      t.flight = { s.flight with
        toPermit := rest
        notices := t.flight.notices
        tripCauses := s.flight.tripCauses ++ (allPermits.filter fun p =>
          compared p && !agrees p && decide (t.table.records[p].mismatch = 2)).map TripCause.lineFeedback } ∧
      ∀ p : PermitId,
        (r.conditions[p] = none → t.table.records[p].condition = s.table.records[p].condition) ∧
        (∀ b, r.conditions[p] = some b → t.table.records[p].condition = if b then .met else .notMet) ∧
        (compared p = false → t.table.records[p].mismatch = s.table.records[p].mismatch) ∧
        (compared p = true → agrees p = true → t.table.records[p].mismatch = 0) ∧
        (compared p = true → agrees p = false → s.table.records[p].mismatch < 2 →
          t.table.records[p].mismatch = s.table.records[p].mismatch + 1) ∧
        (compared p = true → agrees p = false → s.table.records[p].mismatch = 2 → t.table.records[p].mismatch = 2)

/-- R50, R51, R52, R55: a pass result that leaves a HELD permit with condition FALSE ends its holdings with REVOKED(CONDITION); with loss
action LOCK it also ends its claims with WAIT_ENDED(LOCK) and sets the lock mark. Its group starts settling. Every other permit keeps
its holders, its queue and its lock mark. That is the work w of the losses; grant examination follows on it (step 6), and with the
permit table outside RUNNING it grants nothing, as at the result of a STEP pass (R92, R133). A permit that a write has disabled since
the pass takes its condition value too (log 29). -/
def Obligations.FalseConditionsEndHoldings : Prop :=
  ∀ (r : PassResult) (rest : List PermitArrival) (s : State), s.resetActive = false →
    s.flight.toPermit = .passResult r :: rest →
    let before := s.table.records
    let condition := fun (p : PermitId) =>
      r.conditions[p].elim before[p].condition fun b => if b then Condition.met else .notMet
    let lost := fun (p : PermitId) => s.config.permits[p].enabled && !before[p].lock && !before[p].holders.isEmpty &&
      decide (condition p = .notMet)
    let locks := fun (p : PermitId) => decide (s.config.permits[p].loss = .lock)
    ∃ w : TableWork,
      exec .passResult s = .next (commitWork r.count (grantExamination s.config w)
        { s with flight := { s.flight with toPermit := rest } }) ∧
      (s.table.engine ≠ .running → grantExamination s.config w = w) ∧
      w.table = { s.table with records := w.table.records, settle := w.table.settle } ∧
      w.made = (allPermits.filter lost).flatMap (fun p =>
        before[p].holders.map (fun h => (h.port, .revoked p .condition)) ++
          if locks p then before[p].queue.map (fun x => (x.port, .waitEnded p .lock)) else []) ∧
      (∀ p : PermitId, w.table.records[p] = { before[p] with
        condition := condition p
        mismatch := w.table.records[p].mismatch
        holders := if lost p then [] else before[p].holders
        queue := if lost p && locks p then [] else before[p].queue
        lock := before[p].lock || (lost p && locks p) }) ∧
      (∀ g : GroupId, (∃ p : PermitId, lost p = true ∧ s.config.permits[p].group = some g) →
        w.table.settle[g] = s.config.groups[g].settle) ∧
      (∀ g : GroupId, (∀ p : PermitId, lost p = true → s.config.permits[p].group ≠ some g) →
        w.table.settle[g] = s.table.settle[g])

/-- R76, R77, R78: grant examination. An eligible permit without a group is granted the heads of its queue up to its limit; of the
candidates of a group the one with the highest head priority, and of equals the lowest number, is granted in the same way; nothing
else changes. The GRANTED notices follow the permits without a group in ascending number, then the groups. -/
def Obligations.GrantExaminationGrantsHeads : Prop :=
  ∀ (c : ConfigStore) (w : TableWork),
    let records := w.table.records
    let candidate := fun (g : GroupId) (p : PermitId) =>
      c.permits[p].group = some g ∧ eligible c w.table p = true ∧ records[p].queue ≠ []
    let heads := fun (p : PermitId) => records[p].queue.take (c.permits[p].limit - records[p].holders.length)
    let notices := fun (p : PermitId) => (heads p).map fun x => ((x.port, .granted p) : Made)
    ∃ chosen : GroupId → Option PermitId,
      (∀ g, chosen g = none → ∀ p, ¬ candidate g p) ∧
      (∀ g b, chosen g = some b → candidate g b ∧ ∀ p, candidate g p →
        headPriority w.table p < headPriority w.table b ∨
          (headPriority w.table p = headPriority w.table b ∧ b ≤ p)) ∧
      let granted := fun (p : PermitId) => eligible c w.table p = true ∧
        (c.permits[p].group = none ∨ ∃ g, c.permits[p].group = some g ∧ chosen g = some p)
      let w' := grantExamination c w
      (∀ p : PermitId, granted p → w'.table.records[p] = { records[p] with
        holders := records[p].holders ++ (heads p).map (fun x => ⟨x.port, .fresh⟩)
        queue := records[p].queue.drop (c.permits[p].limit - records[p].holders.length) }) ∧
      (∀ p : PermitId, ¬ granted p → w'.table.records[p] = records[p]) ∧
      w'.table = { w.table with records := w'.table.records } ∧ w'.causes = w.causes ∧
      w'.made = w.made ++ (allPermits.filter fun p => decide (c.permits[p].group = none) && eligible c w.table p).flatMap notices ++
        allGroups.flatMap fun g => (chosen g).toList.flatMap notices

/-- R58, R126: a change of engine state is taken by each of its two consumers; at the permit table a change to RUNNING is followed by
grant examination, and every record is otherwise kept. The oldest change on its way is the first that is no pass result; it may be taken
before a pass result handed earlier (R65). A pass result is taken behind every change handed before it (log 9). -/
def Obligations.EngineChangesReachTheirConsumers : Prop :=
  (∀ (l : List PermitArrival) (e : EngineState) (rest : List PermitArrival),
    firstEngineChange l = some (e, rest) ↔ ∃ before after, l = before ++ .engineChange e :: after ∧ rest = before ++ after ∧
      ∀ a ∈ before, ∃ r, a = .passResult r) ∧
  ∀ s : State, s.resetActive = false →
    (∀ e rest, s.flight.toScan = e :: rest →
      exec (.engineStateChange .scanUnit) s = .next { s with
        scan := { s.scan with engine := e }, flight := { s.flight with toScan := rest } }) ∧
    (∀ e rest, firstEngineChange s.flight.toPermit = some (e, rest) →
      let u := { s with table := { s.table with engine := e }, flight := { s.flight with toPermit := rest } }
      (e ≠ .running → exec (.engineStateChange .permitTable) s = .next u) ∧
      (e = .running → exec (.engineStateChange .permitTable) s =
        .next (commitWork s.eval.passCount (grantExamination s.config ⟨u.table, [], []⟩) u))) ∧
    (∀ e rest, s.flight.toPermit = .engineChange e :: rest → exec .passResult s = .next s)

/-- R60, R61, R115: trip entry empties every holder list and wait queue without a notice, starts settling where a member lost its last
holder, and the permit table is TRIPPED; trip clearing makes it NORMAL and changes no record. -/
def Obligations.TripEntryEmptiesEveryPermit : Prop :=
  ∀ s : State, s.resetActive = false →
    (∀ rest, s.flight.tripDeliveries = .entry :: rest →
      ∃ t, exec .permitTripEntry s = .next t ∧
        t = { s with table := t.table, flight := { s.flight with tripDeliveries := rest } } ∧
        t.table = { s.table with trip := .tripped, records := t.table.records, settle := t.table.settle } ∧
        (∀ p : PermitId, t.table.records[p] = { s.table.records[p] with holders := [], queue := [] }) ∧
        ∀ g : GroupId,
          ((∃ p : PermitId, s.config.permits[p].group = some g ∧ s.table.records[p].holders ≠ []) →
            t.table.settle[g] = s.config.groups[g].settle) ∧
          ((∀ p : PermitId, s.config.permits[p].group = some g → s.table.records[p].holders = []) →
            t.table.settle[g] = s.table.settle[g])) ∧
    (∀ rest, s.flight.tripDeliveries = .clearing :: rest →
      exec .permitTripClearing s = .next { s with
        table := { s.table with trip := .normal }, flight := { s.flight with tripDeliveries := rest } })

/-! Ticks at the permit table. -/

/-- R96, R104, R56, R97, R98, R101 to R103, R80, R81: a tick of a source at the permit table. Outside RUNNING under FREEZE it does nothing.
Otherwise the groups' counters on the source go down by one, the holders of leased permits on the source age or expire, the finite
waits on the source go down by one or end, departures start settling, and grant examination follows when settling ended or a holder
was removed; the notices and the lease causes are made in that order. -/
def Obligations.TicksCountLeasesWaitsAndSettling : Prop :=
  ∀ (src : SourceId) (s : State), s.resetActive = false → 0 < s.flight.permitTicks[src] →
    let u := { s with flight := { s.flight with
      permitTicks := s.flight.permitTicks.set src (s.flight.permitTicks[src] - 1) } }
    let entry := fun (p : PermitId) => s.config.permits[p]
    let before := fun (p : PermitId) => s.table.records[p]
    let leased := fun (p : PermitId) => (entry p).lease && decide ((entry p).source = src)
    let isLate := fun (h : Holder) => decide (h.stage = .late)
    let locks := fun (p : PermitId) => leased p && decide ((entry p).expiry = .lock) && (before p).holders.any isLate
    let aged := fun (h : Holder) => { h with stage := if h.stage = .fresh then LeaseStage.armed else .late }
    let stay := fun (p : PermitId) =>
      if leased p = false then (before p).holders
      else if locks p then []
      else if (entry p).expiry = .release then ((before p).holders.filter fun h => !isLate h).map aged
      else (before p).holders.map aged
    let ends := fun (x : Claim) => x.wait.any fun n => decide (n ≤ 1)
    let waiting := fun (p : PermitId) => if locks p then [] else (before p).queue
    let late := fun (p : PermitId) (h : Holder) => if h.stage = .armed then [((h.port, .late p) : Made)] else []
    let leaseMade := fun (p : PermitId) =>
      if leased p = false then []
      else if locks p then
        ((before p).holders.takeWhile fun h => !isLate h).flatMap (late p) ++
          ((before p).holders.mapIdx fun i h =>
            (h.port, .revoked p (if i = (before p).holders.findIdx isLate then .lease else .lock))) ++
          (before p).queue.map fun x => (x.port, .waitEnded p .lock)
      else (before p).holders.flatMap fun h =>
        if isLate h && decide ((entry p).expiry = .release) then [(h.port, .revoked p .lease)] else late p h
    let waitMade := fun (p : PermitId) =>
      if (entry p).source = src then ((waiting p).filter ends).map fun x => ((x.port, .waitEnded p .expired) : Made) else []
    (s.table.engine ≠ .running → s.config.engine.supervision = .freeze →
      exec (.tickAtPermitTable src) s = .next u) ∧
    (s.table.engine = .running ∨ s.config.engine.supervision = .run →
      ∃ w : TableWork,
        w.table = { s.table with records := w.table.records, settle := w.table.settle } ∧
        (∀ p : PermitId, w.table.records[p] = { before p with
          lock := (before p).lock || locks p
          holders := stay p
          queue := if (entry p).source = src then
              ((waiting p).filter fun x => !ends x).map fun x => { x with wait := x.wait.map (· - 1) }
            else waiting p }) ∧
        (∀ g : GroupId,
          ((∃ p : PermitId, (entry p).group = some g ∧ (before p).holders ≠ [] ∧ stay p = []) →
            w.table.settle[g] = s.config.groups[g].settle) ∧
          ((∀ p : PermitId, (entry p).group = some g → (before p).holders ≠ [] → stay p ≠ []) →
            w.table.settle[g] = if s.config.groups[g].source = src then s.table.settle[g] - 1 else s.table.settle[g])) ∧
        w.made = allPermits.flatMap leaseMade ++ allPermits.flatMap waitMade ∧
        w.causes = allPermits.flatMap (fun p =>
          if leased p && decide ((entry p).expiry = .trip) then
            ((before p).holders.filter isLate).map fun _ => TripCause.lease p
          else []) ∧
        ((∃ g : GroupId, s.config.groups[g].source = src ∧ s.table.settle[g] = 1) ∨
            (∃ p : PermitId, (stay p).length < (before p).holders.length) →
          exec (.tickAtPermitTable src) s = .next (commitWork s.eval.passCount (grantExamination s.config w) u)) ∧
        ((∀ g : GroupId, s.config.groups[g].source = src → s.table.settle[g] ≠ 1) →
            (∀ p : PermitId, (stay p).length = (before p).holders.length) →
          exec (.tickAtPermitTable src) s = .next (commitWork s.eval.passCount w u)))

/-- R56, R81 (log 3): the tick that ends a group's settling and the tick that ends a claim's wait are ticks of the source at the permit
table. Settling ends with the counter at 0 unless a member loses its last holder at the same tick; the ended claim's port gets
WAIT_ENDED(EXPIRED) and leaves the queue. When the next tick does not end it (no tick has come, none counts in this engine state, the
counter is not 1, the port has no claim or one whose wait is 2 or more or INDEFINITE, or the permit locks at that tick), the command
does nothing. -/
def Obligations.SettlingAndWaitsEndAtTheirTick : Prop :=
  ∀ s : State, s.resetActive = false →
    let counts := s.table.engine = .running ∨ s.config.engine.supervision = .run
    let comes := fun (src : SourceId) => counts ∧ 0 < s.flight.permitTicks[src]
    (∀ g : GroupId,
      let ends := comes s.config.groups[g].source ∧ s.table.settle[g] = 1
      (ends → ∃ t, exec (.settleEnd g) s = .next t ∧
        exec (.tickAtPermitTable s.config.groups[g].source) s = .next t ∧
        ((∀ p : PermitId, s.config.permits[p].group = some g → s.table.records[p].holders = []) → t.table.settle[g] = 0)) ∧
      (¬ ends → exec (.settleEnd g) s = .next s)) ∧
    ∀ (p : PermitId) (port : Port),
      let e := s.config.permits[p]
      let r := s.table.records[p]
      let locks := e.lease = true ∧ e.expiry = .lock ∧ ∃ h ∈ r.holders, h.stage = .late
      let ends := comes e.source ∧ ¬ locks ∧ ∃ x ∈ r.queue, x.port = port ∧ ∃ n, x.wait = some n ∧ n ≤ 1
      (ends → ∃ (t : State) (more rest : List FlyingNotice), exec (.waitExpired p port) s = .next t ∧
        exec (.tickAtPermitTable e.source) s = .next t ∧
        t.flight.notices[port] = s.flight.notices[port] ++ more ++
          ⟨.permitTable, ⟨.waitEnded p .expired, s.eval.passCount⟩⟩ :: rest ∧
        ((portsOf r).Nodup → ∀ y ∈ t.table.records[p].queue, y.port ≠ port)) ∧
      (¬ ends → exec (.waitExpired p port) s = .next s)

/-- R98, R101, R102, R103 (log 3): the ticks at which a holding becomes LATE and at which a LATE holding expires are ticks of the source at
the permit table. ARMED becomes LATE with its notice; under RELEASE the LATE holding alone ends; under LOCK the first LATE holding
locks the permit and empties it; under TRIP the cause LEASE goes to the trip unit and the holding stays LATE. When the next tick does
not have the outcome (no tick has come, none counts in this engine state, the permit has no lease or another expiry action, or the
port's holding is not at that stage, or stands behind the one that locks the permit), the command does nothing. -/
def Obligations.SilentHoldersBecomeLateAndExpire : Prop :=
  (∀ (p : PermitId) (port : Port) (s : State), s.resetActive = false →
    let e := s.config.permits[p]
    let comes := (s.table.engine = .running ∨ s.config.engine.supervision = .run) ∧ 0 < s.flight.permitTicks[e.source] ∧
      e.lease = true
    let holds := fun (stage : LeaseStage) (ahead : List Holder → Prop) => ∃ before after,
      s.table.records[p].holders = before ++ ⟨port, stage⟩ :: after ∧ ahead before
    let noneLate := fun (l : List Holder) => ∀ h ∈ l, h.stage ≠ .late
    let nothing := fun (c : Instr) => exec c s = .next s
    (¬ (comes ∧ holds .armed fun l => e.expiry = .lock → noneLate l) → nothing (.late p port)) ∧
    (¬ (comes ∧ e.expiry = .release ∧ holds .late fun _ => True) → nothing (.leaseExpiryRelease p port)) ∧
    (¬ (comes ∧ e.expiry = .lock ∧ holds .late noneLate) → nothing (.leaseExpiryLock p port)) ∧
    (¬ (comes ∧ e.expiry = .trip ∧ holds .late fun _ => True) → nothing (.leaseExpiryTrip p port))) ∧
  ∀ (p : PermitId) (port : Port) (before after : List Holder) (stage : LeaseStage) (s : State), s.resetActive = false →
    (s.table.engine = .running ∨ s.config.engine.supervision = .run) →
    0 < s.flight.permitTicks[s.config.permits[p].source] →
    s.config.permits[p].lease = true → s.table.records[p].holders = before ++ ⟨port, stage⟩ :: after →
    let ticks := fun (c : Instr) (t : State) =>
      exec c s = .next t ∧ exec (.tickAtPermitTable s.config.permits[p].source) s = .next t
    let tells := fun (t : State) (b : NoticeBody) => ∃ more rest,
      t.flight.notices[port] = s.flight.notices[port] ++ more ++ ⟨.permitTable, ⟨b, s.eval.passCount⟩⟩ :: rest
    let locking := s.config.permits[p].expiry = .lock ∧ ∃ h ∈ s.table.records[p].holders, h.stage = .late
    (stage = .armed → (locking → ∀ h ∈ before, h.stage ≠ .late) →
      ∃ t, ticks (.late p port) t ∧ tells t (.late p) ∧ (¬ locking → ⟨port, .late⟩ ∈ t.table.records[p].holders)) ∧
    (stage = .late → s.config.permits[p].expiry = .release →
      ∃ t, ticks (.leaseExpiryRelease p port) t ∧ tells t (.revoked p .lease) ∧
        t.table.records[p].lock = s.table.records[p].lock ∧
        ((portsOf s.table.records[p]).Nodup → ∀ h ∈ t.table.records[p].holders, h.port ≠ port)) ∧
    (stage = .late → s.config.permits[p].expiry = .lock → (∀ h ∈ before, h.stage ≠ .late) →
      ∃ t, ticks (.leaseExpiryLock p port) t ∧ tells t (.revoked p .lease) ∧
        t.table.records[p] = { s.table.records[p] with lock := true, holders := [], queue := [] }) ∧
    (stage = .late → s.config.permits[p].expiry = .trip →
      ∃ t more rest, ticks (.leaseExpiryTrip p port) t ∧
        t.flight.tripCauses = s.flight.tripCauses ++ more ++ .lease p :: rest ∧
        ⟨port, .late⟩ ∈ t.table.records[p].holders)

/-! Requests at the permit table. -/

/-- R68, R69: the checks of CLAIM in their order; the first that fails gives the refusal, and nothing else changes. -/
def Obligations.ClaimsAreCheckedInOrder : Prop :=
  ∀ (port : Port) (permit priority wait : Byte) (epoch : Word16) (s u : State) (live : Bool),
    takeRequest port (.claim port permit priority wait epoch) 5 s = some (u, live) →
    let refuses := fun (reason : Byte) => exec (.claim port permit priority wait epoch) s =
      .next (answerIn port 0x10#8 live ⟨.refused, [reason]⟩ u)
    (16 ≤ permit.toNat ∨ 4 ≤ priority.toNat → refuses 0x01#8) ∧
    ∀ p : PermitId, permit.toNat = p.val → priority.toNat < 4 →
      let r := u.table.records[p]
      if u.config.profilesInUse[port].mask.getLsbD p = false then refuses 0x02#8
      else if epoch ≠ u.config.epoch then refuses 0x03#8
      else if u.config.permits[p].enabled = false then refuses 0x04#8
      else if r.lock = true then refuses 0x05#8
      else if u.table.trip = .tripped then refuses 0x06#8
      else if u.table.engine ≠ .running then refuses 0x07#8
      else if ∃ h ∈ r.holders, h.port = port then refuses 0x08#8
      else if ∃ x ∈ r.queue, x.port = port then refuses 0x09#8
      else claimRefusal port p epoch u = none

/-- R70, R72, R73, R74: a claim that passes the checks takes its priority lowered to the ceiling. It is granted at once when the permit is
eligible, below its limit and without waiters; refused with NOT_READY with wait 0; and otherwise queued behind the claims of equal or
higher priority, after which grant examination runs. -/
def Obligations.ClaimsAreGrantedRefusedOrQueued : Prop :=
  ∀ (port : Port) (permit wait : Byte) (p : PermitId) (q : Fin 4) (epoch : Word16) (s u : State) (live : Bool),
    let c := Instr.claim port permit (BitVec.ofNat 8 q.val) wait epoch
    takeRequest port c 5 s = some (u, live) → permit.toNat = p.val → claimRefusal port p epoch u = none →
    let r := u.table.records[p]
    let ceiling := u.config.profilesInUse[port].ceiling
    let eff := if ceiling < q then ceiling else q
    let effByte : Byte := BitVec.ofNat 8 eff.val
    let st : PermitState → List Byte := fun x => match x with
      | .disabled => [0#8, 0#8]
      | .blocked .tripped => [1#8, 1#8]
      | .blocked .engine => [1#8, 2#8]
      | .blocked .condition => [1#8, 3#8]
      | .blocked .groupHeld => [1#8, 4#8]
      | .blocked .groupSettling => [1#8, 5#8]
      | .ready => [2#8, 0#8]
      | .held => [3#8, 0#8]
      | .locked => [4#8, 0#8]
    let atOnce := eligible u.config u.table p = true ∧ r.holders.length < u.config.permits[p].limit ∧ r.queue = []
    (atOnce → exec c s = .next (answerIn port 0x10#8 live
      ⟨.granted, [permit, effByte, BitVec.ofNat 8 (r.holders.length + 1)]⟩
      { u with table := { u.table with
        records := u.table.records.set p { r with holders := r.holders ++ [⟨port, .fresh⟩] } } })) ∧
    (¬ atOnce → wait = 0#8 → exec c s = .next (answerIn port 0x10#8 live
      ⟨.refused, [0x0A#8] ++ st (permitState u.config u.table p) ++ [effByte]⟩ u)) ∧
    (¬ atOnce → wait ≠ 0#8 → ∃ ahead behind : List Claim, r.queue = ahead ++ behind ∧
      (∀ x ∈ ahead, eff ≤ x.priority) ∧ (∀ x ∈ behind.head?, x.priority < eff) ∧
      exec c s = .next (answerIn port 0x10#8 live
        ⟨.queued, [permit, effByte, BitVec.ofNat 8 (ahead.length + 1)]⟩
        (commitWork u.eval.passCount (grantExamination u.config
          ⟨{ u.table with records := u.table.records.set p { r with
            queue := ahead ++ ⟨port, eff, if wait = 255#8 then none else some wait.toNat⟩ :: behind } }, [], []⟩) u)))

/-- R82, R83, R84, R55: RELEASE ends the port's holding (its group settles when it was the last, and grant examination follows), or
withdraws its claim, or is refused with NOT_HOLDER. -/
def Obligations.ReleasesEndHoldingsOrWithdrawClaims : Prop :=
  ∀ (port : Port) (permit : Byte) (s u : State) (live : Bool),
    takeRequest port (.release port permit) 1 s = some (u, live) →
    let answers := fun (r : Reply) (t : State) => exec (.release port permit) s = .next (answerIn port 0x11#8 live r t)
    (16 ≤ permit.toNat → answers ⟨.refused, [0x01#8]⟩ u) ∧
    ∀ p : PermitId, permit.toNat = p.val →
      let r := u.table.records[p]
      let left := r.holders.filter fun h => decide (h.port ≠ port)
      ((∃ h ∈ r.holders, h.port = port) → ∃ t : PermitTable,
        answers ⟨.ok, [0#8, BitVec.ofNat 8 left.length]⟩
          (commitWork u.eval.passCount (grantExamination u.config ⟨t, [], []⟩) u) ∧
        t = { u.table with records := u.table.records.set p { r with holders := left }, settle := t.settle } ∧
        ∀ g : GroupId,
          (u.config.permits[p].group = some g ∧ left = [] → t.settle[g] = u.config.groups[g].settle) ∧
          (¬ (u.config.permits[p].group = some g ∧ left = []) → t.settle[g] = u.table.settle[g])) ∧
      ((∀ h ∈ r.holders, h.port ≠ port) → (∃ x ∈ r.queue, x.port = port) →
        answers ⟨.ok, [1#8, BitVec.ofNat 8 (r.queue.findIdx (fun x => decide (x.port = port)) + 1)]⟩
          { u with table := { u.table with records := u.table.records.set p { r with
            queue := r.queue.filter fun x => decide (x.port ≠ port) } } }) ∧
      ((∀ h ∈ r.holders, h.port ≠ port) → (∀ x ∈ r.queue, x.port ≠ port) → answers ⟨.refused, [0x0B#8]⟩ u)

/-- R99, R100: REFRESH makes the port's holding FRESH and answers the stage before; REFRESH ALL makes every holding of the port FRESH and
answers how many permits it holds. Nothing else changes. -/
def Obligations.RefreshesMakeHoldingsFresh : Prop :=
  ∀ (port : Port) (s u : State) (live : Bool),
    let fresh := fun (r : PermitRecord) => { r with
      holders := r.holders.map fun h => if h.port = port then { h with stage := .fresh } else h }
    (∀ permit : Byte, takeRequest port (.refresh port permit) 1 s = some (u, live) →
      let answers := fun (r : Reply) (t : State) => exec (.refresh port permit) s = .next (answerIn port 0x12#8 live r t)
      (16 ≤ permit.toNat → answers ⟨.refused, [0x01#8]⟩ u) ∧
      ∀ p : PermitId, permit.toNat = p.val →
        ((∀ h ∈ u.table.records[p].holders, h.port ≠ port) → answers ⟨.refused, [0x0B#8]⟩ u) ∧
        (∀ before h after, u.table.records[p].holders = before ++ h :: after → h.port = port →
          (∀ x ∈ before, x.port ≠ port) →
          answers ⟨.ok, [if h.stage = .fresh then 0#8 else if h.stage = .armed then 1#8 else 2#8]⟩
            { u with table := { u.table with records := u.table.records.set p (fresh u.table.records[p]) } })) ∧
    (takeRequest port (.refreshAll port) 0 s = some (u, live) →
      exec (.refreshAll port) s = .next (answerIn port 0x13#8 live
        ⟨.ok, [BitVec.ofNat 8
          (allPermits.filter fun p => u.table.records[p].holders.any fun h => decide (h.port = port)).length]⟩
        { u with table := { u.table with records := u.table.records.map fresh } }))

/-- R62, R63, R149, R55: REVOKE and UNLOCK check the number, then the right CLEAR. REVOKE ends every holding and claim of the permit with
COMMAND and answers their counts; UNLOCK clears the mark of a LOCKED permit and answers its state after; each is followed by grant
examination. UNLOCK of any other permit changes nothing. -/
def Obligations.RevokeEmptiesAndUnlockClears : Prop :=
  ∀ (port : Port) (permit : Byte) (s u : State) (live : Bool),
    (takeRequest port (.revoke port permit) 1 s = some (u, live) →
      let answers := fun (r : Reply) (t : State) => exec (.revoke port permit) s = .next (answerIn port 0x14#8 live r t)
      (16 ≤ permit.toNat → answers ⟨.refused, [0x01#8]⟩ u) ∧
      (permit.toNat < 16 → u.config.profilesInUse[port].clear = false → answers ⟨.refused, [0x02#8]⟩ u) ∧
      ∀ p : PermitId, permit.toNat = p.val → u.config.profilesInUse[port].clear = true →
        let r := u.table.records[p]
        ∃ t : PermitTable,
          answers ⟨.ok, [BitVec.ofNat 8 r.holders.length, BitVec.ofNat 8 r.queue.length]⟩
            (commitWork u.eval.passCount (grantExamination u.config
              ⟨t, r.holders.map (fun h => (h.port, .revoked p .command)) ++
                r.queue.map (fun x => (x.port, .waitEnded p .command)), []⟩) u) ∧
          t = { u.table with
            records := u.table.records.set p { r with holders := [], queue := [] }, settle := t.settle } ∧
          ∀ g : GroupId,
            (u.config.permits[p].group = some g ∧ r.holders ≠ [] → t.settle[g] = u.config.groups[g].settle) ∧
            (¬ (u.config.permits[p].group = some g ∧ r.holders ≠ []) → t.settle[g] = u.table.settle[g])) ∧
    (takeRequest port (.unlock port permit) 1 s = some (u, live) →
      let st : PermitState → List Byte := fun x => match x with
        | .disabled => [0#8, 0#8]
        | .blocked .tripped => [1#8, 1#8]
        | .blocked .engine => [1#8, 2#8]
        | .blocked .condition => [1#8, 3#8]
        | .blocked .groupHeld => [1#8, 4#8]
        | .blocked .groupSettling => [1#8, 5#8]
        | .ready => [2#8, 0#8]
        | .held => [3#8, 0#8]
        | .locked => [4#8, 0#8]
      let answers := fun (r : Reply) (t : State) => exec (.unlock port permit) s = .next (answerIn port 0x15#8 live r t)
      (16 ≤ permit.toNat → answers ⟨.refused, [0x01#8]⟩ u) ∧
      (permit.toNat < 16 → u.config.profilesInUse[port].clear = false → answers ⟨.refused, [0x02#8]⟩ u) ∧
      ∀ p : PermitId, permit.toNat = p.val → u.config.profilesInUse[port].clear = true →
        (permitState u.config u.table p ≠ .locked →
          answers ⟨.ok, st (permitState u.config u.table p)⟩ u) ∧
        (permitState u.config u.table p = .locked →
          let t := commitWork u.eval.passCount (grantExamination u.config
            ⟨{ u.table with records := u.table.records.set p { u.table.records[p] with lock := false } }, [], []⟩) u
          answers ⟨.ok, st (permitState t.config t.table p)⟩ t))

/-! The trip unit. -/

/-- R111, R114, R117: TRIP_IN becoming active in NORMAL enters TRIPPED with TRIP_IN as the first cause and the whole cause set, the count the
evaluator holds, a trip entry for the permit table, and TRIPPED(TRIP_IN) for every port; in TRIPPED it joins both sets. Becoming
inactive, it leaves the present set alone. The trip output is active exactly in TRIPPED. -/
def Obligations.TripInputRaisesAndEndsItsCause : Prop :=
  (∀ s : State, tripOutActive s = true ↔ s.trip.state = .tripped) ∧
  ∀ s : State, s.resetActive = false →
    let present := { s.trip.present with tripIn := true }
    (s.trip.state = .normal → exec .tripInActive s = .next { s with
      tripInActive := true
      trip := { s.trip with
        state := .tripped, present := present
        record := ⟨some .tripIn, s.eval.passCount, ⟨true, 0#12, 0#4, false, 0#16, 0#16⟩⟩ }
      flight := { s.flight with
        tripDeliveries := s.flight.tripDeliveries ++ [.entry]
        notices := flyAll .tripUnit s.eval.passCount (allPorts.map fun p => (p, .tripped .tripIn)) s.flight.notices } }) ∧
    (s.trip.state = .tripped → exec .tripInActive s = .next { s with
      tripInActive := true
      trip := { s.trip with
        present := present, record := { s.trip.record with causes := { s.trip.record.causes with tripIn := true } } } }) ∧
    exec .tripInInactive s = .next { s with
      tripInActive := false, trip := { s.trip with present := { s.trip.present with tripIn := false } } }

/-- R110, R114, R116: a cause handed on by the permit table arrives. In NORMAL it enters TRIPPED as the first cause, with a new record, a trip
entry for the permit table and TRIPPED for every port; in TRIPPED it joins the present set and the record's cause set, and makes no
notice. A cause joins a set as its own member (TRIP_IN, CHANNEL_FAULT of its channel, REQUEST of its port, PASS_DEADLINE, LEASE or
LINE_FEEDBACK of its permit), and every other member stands as it was. R118: TRIP is the arrival of REQUEST of its port, from any port,
and answers the trip state, whether it entered, and the record's first cause. -/
def Obligations.CausesEnterOrJoinTheTrip : Prop :=
  let joins := fun (cause : TripCause) (before after : CauseSet) =>
    after.tripIn = (before.tripIn || decide (cause = .tripIn)) ∧
    (∀ c : ChannelId, after.channelFault.getLsbD c = (before.channelFault.getLsbD c || decide (cause = .channelFault c))) ∧
    (∀ p : Port, after.request.getLsbD p = (before.request.getLsbD p || decide (cause = .request p))) ∧
    after.passDeadline = (before.passDeadline || decide (cause = .passDeadline)) ∧
    (∀ p : PermitId, after.lease.getLsbD p = (before.lease.getLsbD p || decide (cause = .lease p))) ∧
    ∀ p : PermitId, after.lineFeedback.getLsbD p = (before.lineFeedback.getLsbD p || decide (cause = .lineFeedback p))
  let arrives := fun (cause : TripCause) (s t : State) => ∃ present causes : CauseSet, joins cause s.trip.present present ∧
    (s.trip.state = .normal → joins cause ⟨false, 0#12, 0#4, false, 0#16, 0#16⟩ causes ∧ t = { s with
      trip := { s.trip with
        state := .tripped, present := present
        record := ⟨some cause, s.eval.passCount, causes⟩ }
      flight := { s.flight with
        tripDeliveries := s.flight.tripDeliveries ++ [.entry]
        notices := flyAll .tripUnit s.eval.passCount (allPorts.map fun p => (p, .tripped cause)) s.flight.notices } }) ∧
    (s.trip.state = .tripped → joins cause s.trip.record.causes causes ∧ t = { s with trip := { s.trip with
      present := present
      record := { s.trip.record with causes := causes } } })
  let number := fun (n : Nat) => (BitVec.ofNat 8 n : Byte)
  let code : Option TripCause → List Byte := fun c => match c with
    | none => [0x00#8, 0xFF#8]
    | some .tripIn => [0x10#8, 0xFF#8]
    | some (.channelFault c) => [0x11#8, number c]
    | some (.request p) => [0x12#8, number p]
    | some (.lease p) => [0x03#8, number p]
    | some .passDeadline => [0x14#8, 0xFF#8]
    | some (.lineFeedback p) => [0x15#8, number p]
  (∀ (cause : TripCause) (rest : List TripCause) (s : State), s.resetActive = false →
    s.flight.tripCauses = cause :: rest →
    ∃ t, exec .tripCauseArrival s = .next t ∧
      arrives cause { s with flight := { s.flight with tripCauses := rest } } t) ∧
  ∀ (port : Port) (s u : State) (live : Bool), takeRequest port (.trip port) 0 s = some (u, live) →
    ∃ t, arrives (.request port) u t ∧
      exec (.trip port) s = .next (answerIn port 0x20#8 live
        ⟨.ok, [1#8, if u.trip.state = .normal then 1#8 else 0#8] ++ code t.trip.record.first⟩ t)

/-- R112, R110, R114: a fault report sets the CHANNEL_FAULT causes present to the channels it reports; in TRIPPED they join the record; in
NORMAL a channel newly reported enters TRIPPED with the lowest channel reported as first cause and the count of the report's pass. -/
def Obligations.FaultReportsSetTheChannelFaults : Prop :=
  ∀ (r : FaultReport) (rest : List FaultReport) (s : State), s.resetActive = false →
    s.flight.faultReports = r :: rest →
    let present := { s.trip.present with channelFault := r.faulted }
    let newly := ∃ c : ChannelId, r.faulted.getLsbD c = true ∧ s.trip.present.channelFault.getLsbD c = false
    (s.trip.state = .tripped → exec .faultReport s = .next { s with
      trip := { s.trip with
        present := present
        record := { s.trip.record with causes := { s.trip.record.causes with
          channelFault := s.trip.record.causes.channelFault ||| r.faulted } } }
      flight := { s.flight with faultReports := rest } }) ∧
    (s.trip.state = .normal → ¬ newly → exec .faultReport s = .next { s with
      trip := { s.trip with present := present }, flight := { s.flight with faultReports := rest } }) ∧
    (s.trip.state = .normal → newly → ∃ c : ChannelId, r.faulted.getLsbD c = true ∧
      (∀ b : ChannelId, b < c → r.faulted.getLsbD b = false) ∧
      exec .faultReport s = .next { s with
        trip := { s.trip with
          state := .tripped, present := present
          record := ⟨some (.channelFault c), r.count, ⟨false, r.faulted, 0#4, false, 0#16, 0#16⟩⟩ }
        flight := { s.flight with
          faultReports := rest
          tripDeliveries := s.flight.tripDeliveries ++ [.entry]
          notices := flyAll .tripUnit r.count (allPorts.map fun p => (p, .tripped (.channelFault c)))
            s.flight.notices } })

/-- R113: a deadline restart sets the counter to the ENGINE entry's deadline. A tick of source 0 at the trip unit lowers a counter above 0
while the engine is RUNNING and otherwise does nothing; at 0 the latched cause PASS_DEADLINE arrives (log 3: that tick is also the
command PASS_DEADLINE, which does nothing when the next tick does not take the counter from 1 to 0 or no tick has come). -/
def Obligations.TheDeadlineCountsInRunning : Prop :=
  ∀ s : State, s.resetActive = false →
    (∀ n, s.flight.deadlineRestarts = n + 1 → exec .deadlineRestart s = .next { s with
      trip := { s.trip with deadline := s.config.engine.deadline }
      flight := { s.flight with deadlineRestarts := n } }) ∧
    (¬ (0 < s.flight.tripTicks ∧ s.engine.state = .running ∧ s.trip.deadline = 1) → exec .passDeadline s = .next s) ∧
    (∀ n, s.flight.tripTicks = n + 1 →
      let u := { s with flight := { s.flight with tripTicks := n } }
      let counts := s.engine.state = .running ∧ 0 < s.trip.deadline
      (¬ counts → exec .tickAtTripUnit s = .next u) ∧
      (counts → s.trip.deadline ≠ 1 → exec .tickAtTripUnit s =
        .next { u with trip := { s.trip with deadline := s.trip.deadline - 1 } }) ∧
      (counts → s.trip.deadline = 1 → ∃ t, exec .tickAtTripUnit s = .next t ∧ exec .passDeadline s = .next t ∧
        (s.trip.state = .normal → t = { u with
          trip := ⟨.tripped, { s.trip.present with passDeadline := true },
            ⟨some .passDeadline, s.eval.passCount, ⟨false, 0#12, 0#4, true, 0#16, 0#16⟩⟩, 0⟩
          flight := { u.flight with
            tripDeliveries := s.flight.tripDeliveries ++ [.entry]
            notices := flyAll .tripUnit s.eval.passCount (allPorts.map fun p => (p, .tripped .passDeadline))
              s.flight.notices } }) ∧
        (s.trip.state = .tripped → t = { u with trip := { s.trip with
          present := { s.trip.present with passDeadline := true }
          record := { s.trip.record with causes := { s.trip.record.causes with passDeadline := true } }
          deadline := 0 } })))

/-- R119: CLEAR_TRIP in its order: NO_RIGHT, NO_CHANGE in NORMAL, CAUSE_PRESENT with every level cause present, and the clearing, which erases
every cause, returns to NORMAL, hands trip clearing to the permit table, and tells every port; the record and the deadline are kept. -/
def Obligations.ClearTripIsJudgedInOrder : Prop :=
  ∀ (port : Port) (s u : State) (live : Bool), takeRequest port (.clearTrip port) 0 s = some (u, live) →
    let answers := fun (r : Reply) (t : State) => exec (.clearTrip port) s = .next (answerIn port 0x21#8 live r t)
    let level := u.trip.present.tripIn = true ∨ u.trip.present.channelFault ≠ 0#12
    (u.config.profilesInUse[port].clear = false → answers ⟨.refused, [0x02#8]⟩ u) ∧
    (u.config.profilesInUse[port].clear = true → u.trip.state = .normal → answers ⟨.ok, [0#8]⟩ u) ∧
    (u.config.profilesInUse[port].clear = true → u.trip.state = .tripped → level →
      ∃ w : Word16, answers ⟨.refused, [0x10#8, w.extractLsb' 8 8, w.extractLsb' 0 8]⟩ u ∧
        (∀ c : ChannelId, w.getLsbD c = u.trip.present.channelFault.getLsbD c) ∧
        w.getLsbD 12 = u.trip.present.tripIn ∧ w.extractLsb' 13 3 = 0#3) ∧
    (u.config.profilesInUse[port].clear = true → u.trip.state = .tripped → ¬ level →
      answers ⟨.ok, [1#8]⟩ { u with
        trip := { u.trip with state := .normal, present := .empty }
        flight := { u.flight with
          tripDeliveries := u.flight.tripDeliveries ++ [.clearing]
          notices := flyAll .tripUnit u.eval.passCount (allPorts.map fun p => (p, .tripCleared)) u.flight.notices } })

/-! The engine controller. -/

/-- R127, R128, R137: HALT needs MAINTAIN. In RUNNING with a scan in progress the engine becomes HALTING and remembers the port; with no scan
it enters HALTED at once, with the halt record COMMAND of the port and HALTED for every port. The scan unit and the permit table are
told. In every other state nothing changes. Reports of passes that ended before are marked so (log 12), and the port of the HALT that
entered HALTED is noted in haltPort (from R38: log 17). -/
def Obligations.HaltsStopTheEngine : Prop :=
  ∀ (port : Port) (s u : State) (live : Bool), takeRequest port (.halt port) 0 s = some (u, live) →
    let answers := fun (r : Reply) (t : State) => exec (.halt port) s = .next (answerIn port 0x30#8 live r t)
    (u.config.profilesInUse[port].maintain = false → answers ⟨.refused, [0x02#8]⟩ u) ∧
    (u.config.profilesInUse[port].maintain = true →
      (u.engine.state = .running → u.scan.state ≠ .idle → answers ⟨.ok, [1#8]⟩ { u with
        scan := { u.scan with engine := .halting }
        engine := { u.engine with state := .halting, requester := some port }
        flight := { u.flight with
          toPermit := u.flight.toPermit ++ [.engineChange .halting]
          toScan := []
          passReports := u.flight.passReports.map fun r => { r with old := true } } }) ∧
      (u.engine.state = .running → u.scan.state = .idle → answers ⟨.ok, [2#8]⟩ { u with
        scan := { u.scan with engine := .halted }
        engine := { u.engine with
          state := .halted, requester := none, haltPort := some port
          record := ⟨.command port, none, false, false, u.eval.passCount, none⟩ }
        flight := { u.flight with
          toPermit := u.flight.toPermit ++ [.engineChange .halted]
          toScan := []
          notices := flyAll .engineController u.eval.passCount (allPorts.map fun p => (p, .halted (.command port)))
            u.flight.notices } }) ∧
      (u.engine.state = .halting → answers ⟨.ok, [1#8]⟩ u) ∧
      (u.engine.state = .halted → answers ⟨.ok, [2#8]⟩ u) ∧
      (u.engine.state = .stepping → answers ⟨.ok, [3#8]⟩ u))

/-- R129, R130: RESUME needs MAINTAIN. In RUNNING it changes nothing; in HALTING it withdraws the halt and tells the scan unit and the permit
table; in STEPPING it is refused; in HALTED with the modified flag set it is refused when validation finds a failure. That it withdraws the
halt also when the pass has ended and its report has not been taken is the model's choice (log 36). -/
def Obligations.ResumeIsJudgedByTheEngineState : Prop :=
  ∀ (port : Port) (s u : State) (live : Bool), takeRequest port (.resume port) 0 s = some (u, live) →
    let answers := fun (r : Reply) (t : State) => exec (.resume port) s = .next (answerIn port 0x31#8 live r t)
    let running := Reply.mk .ok [0#8, u.config.epoch.extractLsb' 8 8, u.config.epoch.extractLsb' 0 8, 0#8]
    (u.config.profilesInUse[port].maintain = false → answers ⟨.refused, [0x02#8]⟩ u) ∧
    (u.config.profilesInUse[port].maintain = true →
      (u.engine.state = .running → answers running u) ∧
      (u.engine.state = .halting → answers running { u with
        engine := { u.engine with state := .running, requester := none }
        flight := { u.flight with
          toPermit := u.flight.toPermit ++ [.engineChange .running], toScan := u.flight.toScan ++ [.running] } }) ∧
      (u.engine.state = .stepping → answers ⟨.refused, [0x0E#8]⟩ u) ∧
      (∀ f, u.engine.state = .halted → u.config.modified = true → validate u.config = some f →
        answers ⟨.refused, [0x0F#8, f.table, f.index, f.check]⟩ u))

/-- R131, R59, R85, R94, R113, R158, R159: an accepted RESUME from HALTED. What was handed to the permit table and the engine controller
before is taken first (log 9, log 12): v is the part then, and taking it is taking each report with PASS_END_REPORT and then each arrival
with PASS_RESULT or ENGINE_STATE_CHANGE, oldest first. A modified configuration is committed: the epoch goes up, the flag clears, the
written profiles come into use, the ticks restart on the written dividers with those in flight dropped (log 10), and holdings and claims
that the new masks do not admit end with RIGHT_WITHDRAWN. In every case injections go, verdicts and conditions become UNKNOWN, lines and
terms are unseeded, the deadline is set, the ticks that wait at the scan unit are dropped (log 30), RUN scans may begin again after a
watch hit (watchStopped: log 11), the port of the HALT is forgotten (haltPort: log 17), the engine and its consumers are RUNNING, and
every port is told RESUMED with the epoch. What was handed to the trip unit before, a fault report or a deadline restart among it, stays on
its way: that is the model's choice (log 35). -/
def Obligations.ResumeFromHaltedRestartsTheEngine : Prop :=
  (∀ s : State, s.resetActive = false →
    (s.flight.passReports = [] → drainReports s = s) ∧
    (s.flight.passReports ≠ [] → ∃ t, exec .passEndReport s = .next t ∧ drainReports s = drainReports t) ∧
    (s.flight.toPermit = [] → drainPermit s = s) ∧
    (∀ a rest, s.flight.toPermit = a :: rest → ∃ t, drainPermit s = drainPermit t ∧
      (∀ r, a = .passResult r → exec .passResult s = .next t) ∧
      ∀ e, a = .engineChange e → exec (.engineStateChange .permitTable) s = .next t)) ∧
  ∀ (port : Port) (s u : State) (live : Bool), takeRequest port (.resume port) 0 s = some (u, live) →
    u.config.profilesInUse[port].maintain = true → u.engine.state = .halted →
    (u.config.modified = true → validate u.config = none) →
    let commits := u.config.modified
    let v := drainPermit (drainReports u)
    let admits := fun (q : Port) (p : PermitId) => !commits || u.config.profiles[q].mask.getLsbD p
    let epoch := if commits then u.config.epoch + 1 else u.config.epoch
    ∃ t, exec (.resume port) s = .next (answerIn port 0x31#8 live
        ⟨.ok, [0#8, epoch.extractLsb' 8 8, epoch.extractLsb' 0 8, if commits then 1#8 else 0#8]⟩ t) ∧
      t = { v with
        config := { u.config with
          epoch := epoch, modified := false
          profilesInUse := if commits then u.config.profiles else u.config.profilesInUse }
        ticks := if commits then ⟨0, u.config.ticks, Vector.replicate 4 0⟩ else v.ticks
        scan := { v.scan with
          channels := v.scan.channels.map fun c => { c with verdict := .unknown }, engine := .running, watchStopped := false }
        lines := { v.lines with lines := v.lines.lines.map fun l => { l with seeded := false, counter := 0 } }
        eval := { v.eval with history := Vector.replicate 24 ⟨false, false, 0, false⟩ }
        trip := { v.trip with deadline := u.config.engine.deadline }
        engine := { v.engine with
          state := .running, haltPort := none
          injectedReading := Vector.replicate 12 none, injectedLevel := Vector.replicate 16 none }
        table := { v.table with records := t.table.records, settle := t.table.settle, engine := .running }
        flight := { v.flight with
          toScan := [], notices := t.flight.notices
          scanBaseTicks := 0, scanTicks := Vector.replicate 4 0
          sourceTicks := if commits then Vector.replicate 4 0 else v.flight.sourceTicks
          permitTicks := if commits then Vector.replicate 4 0 else v.flight.permitTicks
          tripTicks := if commits then 0 else v.flight.tripTicks } } ∧
      (∀ p : PermitId, t.table.records[p] = { v.table.records[p] with
        condition := .unknown, mismatch := 0
        holders := v.table.records[p].holders.filter fun h => admits h.port p
        queue := v.table.records[p].queue.filter fun x => admits x.port p }) ∧
      (∀ g : GroupId,
        ((∃ p : PermitId, u.config.permits[p].group = some g ∧ v.table.records[p].holders ≠ [] ∧
            t.table.records[p].holders = []) → t.table.settle[g] = u.config.groups[g].settle) ∧
        ((∀ p : PermitId, u.config.permits[p].group = some g → v.table.records[p].holders ≠ [] →
            t.table.records[p].holders ≠ []) → t.table.settle[g] = v.table.settle[g])) ∧
      t.flight.notices = flyAll .engineController v.eval.passCount (allPorts.map fun p => (p, .resumed epoch))
        (flyAll .permitTable v.eval.passCount (allPermits.flatMap fun p =>
          ((v.table.records[p].holders.filter fun h => !admits h.port p).map
            fun h => (h.port, .revoked p .rightWithdrawn)) ++
          (v.table.records[p].queue.filter fun x => !admits x.port p).map
            fun x => (x.port, .waitEnded p .rightWithdrawn)) v.flight.notices)

/-- R160, R161, R162: validation names the first failure: check 1 over the enabled terms, whose sources must be enabled; then check 2 over the
enabled permits, whose condition term must be enabled; then check 4 over the groups, whose members must agree in mode; each in ascending
index. -/
def Obligations.ValidationFindsTheFirstFailure : Prop :=
  ∀ c : ConfigStore,
    let inUse := fun (x : Source) =>
      (∀ k, x = .term k → c.terms[k].enabled = true) ∧ (∀ n, x = .line n → c.lines[n].enabled = true) ∧
      (∀ mask level, x = .lineSet mask level → ∀ n : LineId, mask.getLsbD n = true → c.lines[n].enabled = true) ∧
      (∀ ch b i a, x = .channel ch b i a → c.channels[ch].enabled = true) ∧
      (∀ p, x = .held p → c.permits[p].enabled = true)
    let badTerm := fun (i : TermId) => c.terms[i].enabled = true ∧
      ¬ (inUse c.terms[i].sourceA ∧ inUse c.terms[i].sourceB ∧ inUse c.terms[i].sourceC)
    let badPermit := fun (p : PermitId) => c.permits[p].enabled = true ∧ c.terms[c.permits[p].term].enabled = false
    let badGroup := fun (g : GroupId) => ∃ p q : PermitId, c.permits[p].group = some g ∧ c.permits[q].group = some g ∧
      c.permits[p].mode = .exclusive ∧ c.permits[q].mode = .shared
    (validate c = none ↔ (∀ i, ¬ badTerm i) ∧ (∀ p, ¬ badPermit p) ∧ ∀ g, ¬ badGroup g) ∧
    (∀ i, badTerm i → (∀ j, j < i → ¬ badTerm j) → validate c = some ⟨2#8, BitVec.ofNat 8 i.val, 1#8⟩) ∧
    (∀ p, (∀ i, ¬ badTerm i) → badPermit p → (∀ q, q < p → ¬ badPermit q) →
      validate c = some ⟨3#8, BitVec.ofNat 8 p.val, 2#8⟩) ∧
    (∀ g, (∀ i, ¬ badTerm i) → (∀ p, ¬ badPermit p) → badGroup g → (∀ h, h < g → ¬ badGroup h) →
      validate c = some ⟨4#8, BitVec.ofNat 8 g.val, 4#8⟩)

/-- R132, R133, R12, R14, R18: STEP needs MAINTAIN and HALTED, and validates the tables as they stand. Accepted, it makes the engine
STEPPING, tells the scan unit and the permit table, begins a STEP scan of the enabled channels without an injected reading, and is answered
at the end of its pass. The permit table takes the changes of engine state on their way to it, then STEPPING, in the event itself, while
pass results stay on their way; its lines are then inactive (log 34). A tick that waits at the scan unit begins no scan after it (log 30). -/
def Obligations.StepsBeginAStepScan : Prop :=
  ∀ (port : Port) (s u : State) (live : Bool), takeRequest port (.step port) 0 s = some (u, live) →
    let refuses := fun (reason : List Byte) => exec (.step port) s = .next (answerIn port 0x32#8 live ⟨.refused, reason⟩ u)
    (u.config.profilesInUse[port].maintain = false → refuses [0x02#8]) ∧
    (u.config.profilesInUse[port].maintain = true →
      (u.engine.state = .running ∨ u.engine.state = .halting → refuses [0x0D#8]) ∧
      (u.engine.state = .stepping → refuses [0x0E#8]) ∧
      (∀ f, u.engine.state = .halted → validate u.config = some f → refuses [0x0F#8, f.table, f.index, f.check]) ∧
      (u.engine.state = .halted → validate u.config = none →
        let changes := u.flight.toPermit.filterMap fun a => match a with | .engineChange e => some e | .passResult _ => none
        let results := u.flight.toPermit.filter fun a => match a with | .engineChange _ => false | .passResult _ => true
        let takes := fun (w : State) (e : EngineState) =>
          let x := { w with table := { w.table with engine := e } }
          if e = .running then commitWork x.eval.passCount (grantExamination x.config ⟨x.table, [], []⟩) x else x
        let v := changes.foldl takes { u with flight := { u.flight with toPermit := results } }
        (∀ p : PermitId, commanded v.config { v.table with engine := .stepping } p = false) ∧
        exec (.step port) s = .next { v with
          table := { v.table with engine := .stepping }
          scan := { u.scan with
            engine := .stepping
            state := .inProgress ⟨.step, allChannels.filter fun c =>
                u.config.channels[c].enabled && u.engine.injectedReading[c].isNone,
              0, 0, false, Vector.replicate 12 none⟩ }
          engine := { u.engine with state := .stepping, stepPort := if live then some port else none }
          flight := { v.flight with toScan := [], scanBaseTicks := 0, scanTicks := Vector.replicate 4 0 } }))

/-- R38, R128, R133 step 4, R136, R137: the report of a pass at the engine controller. A delivered pass calls for nothing in RUNNING and
HALTED; in HALTING it completes the halt with COMMAND of the requester (unless the pass had ended before the HALT: log 12); in STEPPING a
STEP pass ends the step and answers it with the pass count. A discarded pass halts with WATCH and the lowest slot that hit, keeping the
flags, the captured outputs and the requester; in HALTED and STEPPING it rewrites the record alone. Every entry into HALTED and every
rewriting tells every port. That an entry into HALTED notes the port of its HALT in haltPort, or none for a watch, is log 17. -/
def Obligations.PassReportsMoveTheEngine : Prop :=
  ∀ (r : PassReport) (rest : List PassReport) (s : State), s.resetActive = false → s.flight.passReports = r :: rest →
    let u := { s with flight := { s.flight with passReports := rest } }
    let tells := fun (cause : HaltCause) (f : InFlight) => { f with
      notices := flyAll .engineController s.eval.passCount (allPorts.map fun p => (p, .halted cause)) f.notices }
    let toBoth := fun (f : InFlight) => { f with
      toPermit := f.toPermit ++ [.engineChange .halted], toScan := f.toScan ++ [.halted] }
    (∀ count, r.ending = .delivered count →
      (s.engine.state = .running ∨ s.engine.state = .halted → exec .passEndReport s = .next u) ∧
      (s.engine.state = .halting → r.old = true → exec .passEndReport s = .next u) ∧
      (∀ port, s.engine.state = .halting → r.old = false → s.engine.requester = some port →
        exec .passEndReport s = .next { u with
          engine := { s.engine with
            state := .halted, requester := none, haltPort := some port
            record := ⟨.command port, none, false, false, s.eval.passCount, none⟩ }
          flight := tells (.command port) (toBoth u.flight) }) ∧
      (s.engine.state = .stepping → r.kind = .run → exec .passEndReport s = .next u) ∧
      (s.engine.state = .stepping → r.kind = .step →
        let t := { u with engine := { s.engine with state := .halted, stepPort := none }, flight := toBoth u.flight }
        (s.engine.stepPort = none → exec .passEndReport s = .next t) ∧
        (∀ port, s.engine.stepPort = some port → exec .passEndReport s = .next (answerIn port 0x32#8 true
          ⟨.ok, [count.extractLsb' 24 8, count.extractLsb' 16 8, count.extractLsb' 8 8, count.extractLsb' 0 8]⟩ t)))) ∧
    (∀ hit0 hit1 captured, r.ending = .discarded hit0 hit1 captured →
      let slot : SlotId := if hit0 then 0 else 1
      let record := fun (also : Option Port) =>
        HaltRecord.mk (.watch slot) also hit0 hit1 s.eval.passCount (some captured)
      (s.engine.state = .running ∨ s.engine.state = .halting → exec .passEndReport s = .next { u with
        engine := { s.engine with
          state := .halted, requester := none, haltPort := none
          record := record (if s.engine.state = .halting then s.engine.requester else none) }
        flight := tells (.watch slot) (toBoth u.flight) }) ∧
      (s.engine.state = .halted ∨ s.engine.state = .stepping → exec .passEndReport s = .next { u with
        engine := { s.engine with record := record s.engine.haltPort }
        flight := tells (.watch slot) u.flight }))

/-- R139, R140, R138, R149: injections and CLEAR_HALT_RECORD check the operands, then MAINTAIN, then HALTED, then (INJECT_CHANNEL) the reading
against the channel's range. An accepted injection replaces the one before and answers it; CLEAR_INJECT removes one or all and answers
how many; CLEAR_HALT_RECORD clears all of the record but its pass count. -/
def Obligations.InjectionsAreHeldAndCleared : Prop :=
  ∀ (port : Port) (s u : State) (live : Bool),
    let answers := fun (c : Instr) (code : Byte) (r : Reply) (t : State) => exec c s = .next (answerIn port code live r t)
    let maintain := u.config.profilesInUse[port].maintain
    let judged := fun (c : Instr) (code : Byte) =>
      (maintain = false → answers c code ⟨.refused, [0x02#8]⟩ u) ∧
      (maintain = true → u.engine.state = .running ∨ u.engine.state = .halting → answers c code ⟨.refused, [0x0D#8]⟩ u) ∧
      (maintain = true → u.engine.state = .stepping → answers c code ⟨.refused, [0x0E#8]⟩ u)
    let admitted := maintain = true ∧ u.engine.state = .halted
    let readings := u.engine.injectedReading
    let levels := u.engine.injectedLevel
    (∀ (a : Byte) (w : Word16), let c := Instr.injectChannel port a w
      takeRequest port c 3 s = some (u, live) →
      (12 ≤ a.toNat ∨ w.toInt < -2048 ∨ 4095 < w.toInt → answers c 0x33#8 ⟨.refused, [0x01#8]⟩ u) ∧
      (∀ ch : ChannelId, a.toNat = ch.val → -2048 ≤ w.toInt → w.toInt ≤ 4095 →
        let e := u.config.channels[ch]
        let fits := if e.negative = none then 0 ≤ w.toInt else w.toInt ≤ 2047
        judged c 0x33#8 ∧ (admitted → ¬ fits → answers c 0x33#8 ⟨.refused, [0x01#8]⟩ u) ∧
        (admitted → fits → answers c 0x33#8 ⟨.ok, readings[ch].elim [0#8, 0xFF#8, 0xFF#8] fun v =>
            [1#8, (BitVec.ofInt 16 v).extractLsb' 8 8, (BitVec.ofInt 16 v).extractLsb' 0 8]⟩
          { u with engine := { u.engine with injectedReading := readings.set ch (some w.toInt) } }))) ∧
    (∀ a b : Byte, let c := Instr.injectLine port a b
      takeRequest port c 2 s = some (u, live) →
      (16 ≤ a.toNat ∨ 2 ≤ b.toNat → answers c 0x34#8 ⟨.refused, [0x01#8]⟩ u) ∧
      (∀ line : LineId, a.toNat = line.val → b.toNat < 2 → judged c 0x34#8 ∧
        (admitted → answers c 0x34#8 ⟨.ok, [levels[line].elim 0xFF#8 fun v => if v then 1#8 else 0#8]⟩
          { u with engine := { u.engine with injectedLevel := levels.set line (some (decide (b = 1#8))) } }))) ∧
    (∀ a b : Byte, let c := Instr.clearInject port a b
      takeRequest port c 2 s = some (u, live) →
      (3 ≤ a.toNat ∨ (a = 1#8 ∧ 12 ≤ b.toNat) ∨ (a = 2#8 ∧ 16 ≤ b.toNat) → answers c 0x35#8 ⟨.refused, [0x01#8]⟩ u) ∧
      (a = 0#8 → judged c 0x35#8 ∧ (admitted → answers c 0x35#8
        ⟨.ok, [BitVec.ofNat 8 ((allChannels.filter fun ch => readings[ch].isSome).length +
          (allLines.filter fun line => levels[line].isSome).length)]⟩
        { u with engine := { u.engine with
          injectedReading := Vector.replicate 12 none, injectedLevel := Vector.replicate 16 none } })) ∧
      (∀ ch : ChannelId, a = 1#8 → b.toNat = ch.val → judged c 0x35#8 ∧
        (admitted → answers c 0x35#8 ⟨.ok, [if readings[ch].isSome then 1#8 else 0#8]⟩
          { u with engine := { u.engine with injectedReading := readings.set ch none } })) ∧
      (∀ line : LineId, a = 2#8 → b.toNat = line.val → judged c 0x35#8 ∧
        (admitted → answers c 0x35#8 ⟨.ok, [if levels[line].isSome then 1#8 else 0#8]⟩
          { u with engine := { u.engine with injectedLevel := levels.set line none } }))) ∧
    (takeRequest port (.clearHaltRecord port) 0 s = some (u, live) → judged (.clearHaltRecord port) 0x36#8 ∧
      (admitted → answers (.clearHaltRecord port) 0x36#8 ⟨.ok, []⟩
        { u with engine := { u.engine with record := ⟨.noCause, none, false, false, u.engine.record.count, none⟩ } }))

/-! Resets. -/

/-- R141, R142, R66, R122, R170: SOFT_RESET needs MAINTAIN. What passes had set out for the permit table and the trip unit is taken first (log
9): v is the part then, and the fault reports are taken one by one as FAULT_REPORT takes them, behind the permit table's arrivals. The
scan, the histories, holders, claims, conditions, settling, injections, queues and other ports' answers go; the tables, lock marks,
dividers in use, trip state, latched causes and trip record stay; the engine is HALTED with the record SOFT_RESET, and each queue holds
HALTED(SOFT_RESET) stamped 0. At the other ports a frame being received and a FETCH being sent are given up for 00H to the end of the
transaction, a STATUS transaction goes on, and so does one that is still in its first byte (log 31). What stays in flight is log 26; that
the port of an earlier HALT is forgotten (haltPort) is log 17. -/
def Obligations.SoftResetKeepsTablesTripAndLocks : Prop :=
  (∀ s : State, s.resetActive = false →
    finishPasses s = drainFaultReports (drainPermit s) ∧
    (s.flight.faultReports = [] → drainFaultReports s = s) ∧
    (s.flight.faultReports ≠ [] → ∃ t, exec .faultReport s = .next t ∧ drainFaultReports s = drainFaultReports t)) ∧
  ∀ (port : Port) (s u : State) (live : Bool), takeRequest port (.softReset port) 0 s = some (u, live) →
    (u.config.profilesInUse[port].maintain = false →
      exec (.softReset port) s = .next (answerIn port 0x37#8 live ⟨.refused, [0x02#8]⟩ u)) ∧
    (u.config.profilesInUse[port].maintain = true →
      let v := finishPasses u
      exec (.softReset port) s = .next (answerIn port 0x37#8 live ⟨.ok, []⟩ { v with
        scan := ⟨.idle, Vector.replicate 12 ⟨0, .unknown⟩, .halted, false⟩
        lines := ⟨Vector.replicate 16 ⟨false, false, false, 0⟩, 0#16⟩
        eval := ⟨Vector.replicate 24 ⟨false, false, 0, false⟩, 0#32⟩
        table := { v.table with
          records := v.table.records.map fun r =>
            { r with holders := [], queue := [], condition := .unknown, mismatch := 0 }
          settle := Vector.replicate 4 0
          engine := .halted }
        ticks := ⟨0, v.ticks.dividers, Vector.replicate 4 0⟩
        trip := { v.trip with present := { v.trip.present with channelFault := 0#12 }, deadline := 0 }
        engine := ⟨.halted, none, none, none, ⟨.softReset, none, false, false, 0#32, none⟩,
          Vector.replicate 12 none, Vector.replicate 16 none⟩
        ports := Vector.ofFn fun q : Fin 4 => if q = port then v.ports[q] else { v.ports[q] with
          context := .idle
          inHand := v.ports[q].inHand.map fun h => { h with live := false }
          transfer := match v.ports[q].transfer with | .request _ | .fetch _ _ => .ignored | x => x }
        notices := Vector.replicate 4 ⟨[⟨.halted .softReset, 0#32⟩], false⟩
        flight := { InFlight.initial with
          tripDeliveries := v.flight.tripDeliveries, tripCauses := v.flight.tripCauses } }))

/-- R143, R144, R123, R124, R170, R183: power-on and an accepted HARD_RESET, and RESET_N becoming active and then inactive, leave every
block at its values after reset, HALTED(RESET) stamped 0 in every queue, and, with TRIP_IN_N active, the trip TRIP_IN with its notice behind
(haltPort none: log 17). A transaction in progress is ignored to its end, and so are the bytes of it that come after the reset; nothing
leaves on the serial output in the rest of it (log 32). While RESET_N is active the part takes no arrival: its ports follow their chip
selects alone (log 19). The pins, the waiting commands and the model's count of free values are no part of it. -/
def Obligations.HardResetsLeaveTheInitialState : Prop :=
  let kept := fun (s t : State) => { t with
    ports := s.ports.map fun u => ⟨.idle, [], [], if u.transfer = .none then .none else .cut⟩
    tripInActive := s.tripInActive, freeCount := s.freeCount, pending := s.pending }
  let tripped : State := { State.reset with
    trip := ⟨.tripped, ⟨true, 0#12, 0#4, false, 0#16, 0#16⟩,
      ⟨some .tripIn, 0#32, ⟨true, 0#12, 0#4, false, 0#16, 0#16⟩⟩, 0⟩
    table := { State.reset.table with trip := .tripped }
    notices := Vector.replicate 4 ⟨[⟨.halted .reset, 0#32⟩, ⟨.tripped .tripIn, 0#32⟩], false⟩ }
  let after := fun (s : State) => kept s (if s.tripInActive then tripped else State.reset)
  let during := fun (s : State) => { kept s State.reset with
    notices := Vector.replicate 4 ⟨[], false⟩, resetActive := true }
  (∀ s : State,
    (s.resetActive = false → exec .powerOn s = .next (after s)) ∧
    (s.resetActive = true → exec .powerOn s = .next (during s)) ∧
    exec .resetNActive s = .next (during s) ∧
    exec .resetEnd (during s) = .next (after s) ∧
    (s.resetActive = false → exec .resetEnd s = .next s)) ∧
  (∀ (port : Port) (s u : State) (live : Bool), takeRequest port (.hardReset port) 0 s = some (u, live) →
    (u.config.profilesInUse[port].maintain = false →
      exec (.hardReset port) s = .next (answerIn port 0x38#8 live ⟨.refused, [0x02#8]⟩ u)) ∧
    (u.config.profilesInUse[port].maintain = true → exec (.hardReset port) s = .next (after u))) ∧
  (∀ (c : Instr) (port : Port) (bytes : List Byte) (s : State), s.resetActive = false → s.ports[port].transfer = .cut →
    (partOf c = some (port, .closing) → exec c s = .next (s.withPort port { s.ports[port] with transfer := .none })) ∧
    (partOf c = some (port, .opening) ∨ partOf c = some (port, .kindByte) ∨ partOf c = some (port, .bytes bytes) ∨
      partOf c = some (port, .whole bytes) → exec c s = .next s)) ∧
  ∀ (c : Instr) (s : State), s.resetActive = true →
    exec .tripInActive s = .next { s with tripInActive := true } ∧
    exec .tripInInactive s = .next { s with tripInActive := false } ∧
    (∀ port part, partOf c = some (port, part) →
      (part = .opening → exec c s = .next (s.withPort port { s.ports[port] with transfer := .cut })) ∧
      (part = .closing → exec c s = .next (s.withPort port { s.ports[port] with transfer := .none })) ∧
      (part ≠ .opening → part ≠ .closing → exec c s = .next s)) ∧
    (partOf c = none → c ≠ .powerOn → c ≠ .resetNActive → c ≠ .resetEnd → c ≠ .tripInActive → c ≠ .tripInInactive →
      exec c s = .next s)

/-! Writing the tables. -/

/-- R3, R15, R22, R23, R43, R44, R94, R147, R148, R151, R175: the fields a write of an entry may carry, and the entry they make. R150, R173: a
write that fails names the first field, counted from 0 in the entry's field table, whose check fails (which field two disagreeing
fields name, and which the stage of a TERM entry, is log 23). -/
def Obligations.EntriesAreReadFromFieldsInRange : Prop :=
  let first := fun (checks : List (Byte × Bool)) => (checks.find? fun x => !x.2).map Prod.fst
  let qualifies := fun (q : Byte) => decide (2 ≤ q.toNat ∧ q.toNat ≤ 8)
  let makes := fun (x : RawSource) (y : Source) =>
    (x.kind = 0#8 ∧ y = .zero) ∨
    (x.kind = 1#8 ∧ ∃ k : TermId, x.arg1.toNat = k.val ∧ y = .term k) ∨
    (x.kind = 2#8 ∧ ∃ n : LineId, x.arg1.toNat = n.val ∧ y = .line n) ∨
    (x.kind = 3#8 ∧ x.arg1 ++ x.arg2 ≠ 0#16 ∧ (x.arg3 = 0#8 ∨ x.arg3 = 1#8) ∧
      y = .lineSet (x.arg1 ++ x.arg2) (decide (x.arg3 = 1#8))) ∨
    (x.kind = 4#8 ∧ ∃ c : ChannelId, x.arg1.toNat = c.val ∧ 0 < x.arg2.toNat ∧ x.arg2.toNat < 8 ∧
      y = .channel c (x.arg2.getLsbD 0) (x.arg2.getLsbD 1) (x.arg2.getLsbD 2)) ∨
    (x.kind = 5#8 ∧ ∃ p : PermitId, x.arg1.toNat = p.val ∧ y = .held p)
  let sourceFits := fun (x : RawSource) =>
    decide (x.kind = 0#8) || (decide (x.kind = 1#8) && decide (x.arg1.toNat < 24)) ||
      (decide (x.kind = 2#8) && decide (x.arg1.toNat < 16)) ||
      (decide (x.kind = 3#8) && decide (x.arg1 ++ x.arg2 ≠ 0#16) && decide (x.arg3.toNat < 2)) ||
      (decide (x.kind = 4#8) && decide (x.arg1.toNat < 12) && decide (0 < x.arg2.toNat ∧ x.arg2.toNat < 8)) ||
      (decide (x.kind = 5#8) && decide (x.arg1.toNat < 16))
  (∀ (f p n a h : Byte) (l u : Word16) (e : ChannelEntry), readChannel f p n a l u h = .ok e ↔
    p.toNat < 12 ∧ n.toNat ≤ 12 ∧ n ≠ p ∧ a.toNat ∈ [1, 2, 4, 8, 16, 32, 64] ∧
    (if n = 12#8 then 0 else -2048) ≤ l.toInt ∧ l.toInt ≤ u.toInt ∧ u.toInt ≤ (if n = 12#8 then 4095 else 2047) ∧
    e.enabled = f.getLsbD 0 ∧ e.positive.val = p.toNat ∧ (n = 12#8 → e.negative = none) ∧
    (n ≠ 12#8 → ∃ c : ChannelId, e.negative = some c ∧ c.val = n.toNat) ∧ e.count = a.toNat ∧ e.lower = l.toInt ∧
    e.upper = u.toInt ∧ e.hysteresis = h.toNat ∧ e.railCheck = f.getLsbD 1 ∧ e.tripOnFault = f.getLsbD 2) ∧
  (∀ (f p n a h : Byte) (l u : Word16),
    let low : Int := if n = 12#8 then 0 else -2048
    let high : Int := if n = 12#8 then 4095 else 2047
    failingField (readChannel f p n a l u h) = first [(1#8, decide (p.toNat < 12)),
      (2#8, decide (n.toNat ≤ 12 ∧ n ≠ p)), (3#8, decide (a.toNat ∈ [1, 2, 4, 8, 16, 32, 64])),
      (4#8, decide (low ≤ l.toInt ∧ l.toInt ≤ high)), (5#8, decide (low ≤ u.toInt ∧ u.toInt ≤ high ∧ l.toInt ≤ u.toInt))]) ∧
  (∀ (f q : Byte) (e : LineEntry), readLine f q = .ok e ↔ e.enabled = f.getLsbD 0 ∧
    ((q = 0#8 ∧ e.filter = .none) ∨ (2 ≤ q.toNat ∧ q.toNat ≤ 8 ∧ e.filter = .qualify q.toNat))) ∧
  (∀ f q : Byte, failingField (readLine f q) = first [(1#8, decide (q = 0#8) || qualifies q)]) ∧
  (∀ (x : RawSource) (y : Source), readSource x = some y ↔ makes x y) ∧
  (∀ (f st q tt : Byte) (a b c : RawSource) (e : TermEntry), readTerm f st q tt a b c = .ok e ↔
    makes a e.sourceA ∧ makes b e.sourceB ∧ makes c e.sourceC ∧
    ((st = 0#8 ∧ e.stage = .direct) ∨ (st = 1#8 ∧ qualifies q = true ∧ e.stage = .qualify q.toNat) ∨
      (st = 2#8 ∧ e.stage = .rise) ∨ (st = 3#8 ∧ e.stage = .fall)) ∧
    e.enabled = f.getLsbD 0 ∧ e.initial = f.getLsbD 1 ∧ e.truth = tt) ∧
  (∀ (f st q tt : Byte) (a b c : RawSource), failingField (readTerm f st q tt a b c) =
    first [(1#8, sourceFits a), (2#8, sourceFits b), (3#8, sourceFits c),
      (5#8, decide (st.toNat < 4) && (decide (st ≠ 1#8) || qualifies q))]) ∧
  (∀ (f t m l g src x y : Byte) (e : PermitEntry), readPermit f t m l g src x y = .ok e ↔
    t.toNat < 24 ∧ src.toNat < 4 ∧ (g = 0xFF#8 ∨ g.toNat < 4) ∧
    ((m = 0#8 ∧ l = 1#8 ∧ e.mode = .exclusive) ∨ (m = 1#8 ∧ 2 ≤ l.toNat ∧ l.toNat ≤ 4 ∧ e.mode = .shared)) ∧
    ((x = 0#8 ∧ e.expiry = .release) ∨ (x = 1#8 ∧ e.expiry = .lock) ∨ (x = 2#8 ∧ e.expiry = .trip)) ∧
    ((y = 0#8 ∧ e.loss = .drop) ∨ (y = 1#8 ∧ e.loss = .lock)) ∧
    e.enabled = f.getLsbD 0 ∧ e.lease = f.getLsbD 1 ∧ e.readback = f.getLsbD 2 ∧ e.term.val = t.toNat ∧
    e.limit = l.toNat ∧ e.source.val = src.toNat ∧ e.group.elim 0xFF#8 (fun k => BitVec.ofNat 8 k.val) = g) ∧
  (∀ f t m l g src x y : Byte, failingField (readPermit f t m l g src x y) =
    first [(1#8, decide (t.toNat < 24)), (2#8, decide (m.toNat < 2)),
      (3#8, if m = 0#8 then decide (l = 1#8) else decide (2 ≤ l.toNat ∧ l.toNat ≤ 4)),
      (4#8, decide (g = 0xFF#8 ∨ g.toNat < 4)), (5#8, decide (src.toNat < 4)), (7#8, decide (x.toNat < 3)),
      (8#8, decide (y.toNat < 2))]) ∧
  (∀ (v src : Byte) (e : GroupEntry), readGroupEntry v src = .ok e ↔
    src.toNat < 4 ∧ e.settle = v.toNat ∧ e.source.val = src.toNat) ∧
  (∀ v src : Byte, failingField (readGroupEntry v src) = first [(1#8, decide (src.toNat < 4))]) ∧
  (∀ (r c : Byte) (m : Word16) (e : Profile), readProfile r m c = .ok e ↔
    r.toNat < 8 ∧ c.toNat < 4 ∧ e.configure = r.getLsbD 0 ∧ e.maintain = r.getLsbD 1 ∧ e.clear = r.getLsbD 2 ∧
    e.mask = m ∧ e.ceiling.val = c.toNat) ∧
  (∀ (r c : Byte) (m : Word16), failingField (readProfile r m c) =
    first [(0#8, decide (r.toNat < 8)), (2#8, decide (c.toNat < 4))]) ∧
  (∀ (d : Word16) (n : Nat), readTick d = .ok n ↔ d ≠ 0#16 ∧ n = d.toNat) ∧
  (∀ d : Word16, failingField (readTick d) = first [(0#8, decide (d ≠ 0#16))]) ∧
  (∀ (t d o : Byte) (e : EngineEntry), readEngineEntry t d o = .ok e ↔
    ((t = 0xFF#8 ∧ e.trigger = .free) ∨ ∃ src : SourceId, t.toNat = src.val ∧ e.trigger = .tick src) ∧
    ((o = 0#8 ∧ e.supervision = .freeze) ∨ (o = 1#8 ∧ e.supervision = .run)) ∧ e.deadline = d.toNat) ∧
  (∀ t d o : Byte, failingField (readEngineEntry t d o) =
    first [(0#8, decide (t = 0xFF#8 ∨ t.toNat < 4)), (2#8, decide (o.toNat < 2))]) ∧
  (∀ (f k t x : Byte) (e : WatchEntry), readWatch f k t x = .ok e ↔ e.enabled = f.getLsbD 0 ∧
    ((k = 1#8 ∧ e.kind = .anyFault) ∨ (k = 0#8 ∧ ∃ i : TermId, t.toNat = i.val ∧
      ((x = 0#8 ∧ e.kind = .termEdge i .rise) ∨ (x = 1#8 ∧ e.kind = .termEdge i .fall) ∨
        (x = 2#8 ∧ e.kind = .termEdge i .either))))) ∧
  (∀ f k t x : Byte, failingField (readWatch f k t x) = first [(1#8, decide (k.toNat < 2)),
    (2#8, decide (k ≠ 0#8) || decide (t.toNat < 24)), (3#8, decide (k ≠ 0#8) || decide (x.toNat < 3))])

/-- R150, R152, R153: the checks of a write in their order: the index (named by FFH) and the fields, the right (MAINTAIN for WATCH, CONFIGURE
for every other table), the engine HALTED, the permit or the group's members free of holders and claims, and some profile left with
CONFIGURE. A refused write changes nothing else. -/
def Obligations.WritesAreCheckedInOrder : Prop :=
  ∀ (c : Instr) (w : WriteShape) (s u : State) (live : Bool), writeShape c = some w →
    takeRequest w.port c w.length s = some (u, live) →
    let refuses := fun (reason : List Byte) => exec c s = .next (answerIn w.port 0x40#8 live ⟨.refused, reason⟩ u)
    let profile := u.config.profilesInUse[w.port]
    (w.entries ≤ w.index.toNat → refuses [0x01#8, 0xFF#8]) ∧
    (∀ f, w.index.toNat < w.entries → w.failing = some f → refuses [0x01#8, f]) ∧
    (w.index.toNat < w.entries → w.failing = none →
      (w.table = 8 → profile.maintain = false → refuses [0x02#8]) ∧
      (w.table ≠ 8 → profile.configure = false → refuses [0x02#8]) ∧
      (w.table ≠ 8 → profile.configure = true →
        (u.engine.state = .running ∨ u.engine.state = .halting → refuses [0x0D#8]) ∧
        (u.engine.state = .stepping → refuses [0x0E#8]) ∧
        (u.engine.state = .halted →
          (∀ p : PermitId, w.table = 3 → w.index.toNat = p.val →
            u.table.records[p].holders ≠ [] ∨ u.table.records[p].queue ≠ [] → refuses [0x0C#8]) ∧
          (∀ (g : GroupId) (p : PermitId), w.table = 4 → w.index.toNat = g.val → u.config.permits[p].group = some g →
            u.table.records[p].holders ≠ [] ∨ u.table.records[p].queue ≠ [] → refuses [0x0C#8]) ∧
          (∀ (port : Port) (i r x : Byte) (m : Word16) (q : Port) (e : Profile),
            c = .writeProfileEntry port i r m x → i.toNat = q.val → readProfile r m x = .ok e →
            (∀ k : Port, (u.config.profiles.set q e)[k].configure = false) → refuses [0x01#8, 0#8]))))

/-- R154, R43, R44, R134: an accepted write replaces the whole entry and answers the table, the index and the modified flag. Every table but
WATCH sets the flag; a PERMIT write also makes the condition UNKNOWN and the mismatch count 0 and keeps the lock mark only of an
enabled entry; a GROUP write sets the settle counter to 0; a WATCH write is accepted in every engine state. -/
def Obligations.AcceptedWritesReplaceTheirEntry : Prop :=
  ∀ (c : Instr) (w : WriteShape) (s u : State) (live : Bool), writeShape c = some w →
    takeRequest w.port c w.length s = some (u, live) →
    let accepts := fun (t : State) => exec c s = .next (answerIn w.port 0x40#8 live
      ⟨.ok, [BitVec.ofNat 8 w.table, w.index, if t.config.modified then 1#8 else 0#8]⟩ t)
    let with' := fun (k : ConfigStore) => { u with config := { k with modified := true } }
    (∀ port i f k t x (slot : SlotId) e, c = .writeWatchEntry port i f k t x → i.toNat = slot.val →
      readWatch f k t x = .ok e → u.config.profilesInUse[w.port].maintain = true →
      accepts { u with config := { u.config with watches := u.config.watches.set slot e } }) ∧
    (u.config.profilesInUse[w.port].configure = true → u.engine.state = .halted →
      (∀ port i f p n a l h y (ch : ChannelId) e, c = .writeChannelEntry port i f p n a l h y → i.toNat = ch.val →
        readChannel f p n a l h y = .ok e → accepts (with' { u.config with channels := u.config.channels.set ch e })) ∧
      (∀ port i f q (line : LineId) e, c = .writeLineEntry port i f q → i.toNat = line.val → readLine f q = .ok e →
        accepts (with' { u.config with lines := u.config.lines.set line e })) ∧
      (∀ port i f st q tt x y z (k : TermId) e, c = .writeTermEntry port i f st q tt x y z → i.toNat = k.val →
        readTerm f st q tt x y z = .ok e → accepts (with' { u.config with terms := u.config.terms.set k e })) ∧
      (∀ port i f t m l g src x y (p : PermitId) e, c = .writePermitEntry port i f t m l g src x y → i.toNat = p.val →
        readPermit f t m l g src x y = .ok e → u.table.records[p].holders = [] → u.table.records[p].queue = [] →
        accepts { with' { u.config with permits := u.config.permits.set p e } with
          table := { u.table with records := u.table.records.set p { u.table.records[p] with
            condition := .unknown, mismatch := 0, lock := u.table.records[p].lock && e.enabled } } }) ∧
      (∀ port i v src (g : GroupId) e, c = .writeGroupEntry port i v src → i.toNat = g.val →
        readGroupEntry v src = .ok e →
        (∀ p : PermitId, u.config.permits[p].group = some g →
          u.table.records[p].holders = [] ∧ u.table.records[p].queue = []) →
        accepts { with' { u.config with groups := u.config.groups.set g e } with
          table := { u.table with settle := u.table.settle.set g 0 } }) ∧
      (∀ port i r m x (q : Port) e, c = .writeProfileEntry port i r m x → i.toNat = q.val → readProfile r m x = .ok e →
        (∃ k : Port, (u.config.profiles.set q e)[k].configure = true) →
        accepts (with' { u.config with profiles := u.config.profiles.set q e })) ∧
      (∀ port i d (src : SourceId) n, c = .writeTickEntry port i d → i.toNat = src.val → readTick d = .ok n →
        accepts (with' { u.config with ticks := u.config.ticks.set src n })) ∧
      (∀ port t d o e, c = .writeEngineEntry port 0#8 t d o → readEngineEntry t d o = .ok e →
        accepts (with' { u.config with engine := e })))

/-! What every step keeps. -/

/-- R144, R183, R2, R9, R15, R19, R22, R42, R44, R108, R134, R146 to R148, R170: the values after reset that the manual gives, and that the
state after reset is sound. TRIP_IN_N, RESET_N and the chip selects inactive are the model's choice (log 8). -/
def Obligations.TheStateAfterResetIsSound : Prop :=
  let s := State.reset
  Sound s ∧ s.config.epoch = 0#16 ∧ s.config.modified = false ∧
    s.config.profiles = #v[⟨true, true, true, 0xFFFF#16, 3⟩, ⟨false, false, false, 0#16, 0⟩, ⟨false, false, false, 0#16, 0⟩,
      ⟨false, false, false, 0#16, 0⟩] ∧ s.config.profilesInUse = s.config.profiles ∧
    (∀ c : ChannelId, s.config.channels[c] = ⟨false, 0, none, 1, 0, 4095, 0, false, false⟩) ∧
    (∀ n : LineId, s.config.lines[n] = ⟨false, .none⟩) ∧
    (∀ i : TermId, s.config.terms[i] = ⟨false, .zero, .zero, .zero, 0#8, .direct, false⟩) ∧
    (∀ p : PermitId, s.config.permits[p] = ⟨false, 0, .exclusive, 1, none, 1, false, .release, .drop, false⟩) ∧
    (∀ g : GroupId, s.config.groups[g] = ⟨0, 1⟩) ∧ s.config.engine = ⟨.free, 0, .freeze⟩ ∧
    (∀ p : PermitId, permitState s.config s.table p = .disabled ∧
      s.table.records[p] = ⟨false, .unknown, [], [], 0⟩ ∧ commanded s.config s.table p = false) ∧
    (∀ g : GroupId, s.table.settle[g] = 0) ∧ s.table.engine = .halted ∧ s.table.trip = .normal ∧
    s.scan.state = .idle ∧ s.scan.engine = .halted ∧
    (∀ c : ChannelId, s.scan.channels[c] = ⟨0, .unknown⟩) ∧ (∀ i : TermId, s.eval.history[i] = ⟨false, false, 0, false⟩) ∧
    (∀ n : LineId, s.lines.lines[n] = ⟨false, false, false, 0⟩) ∧ s.lines.readback = 0#16 ∧
    s.eval.passCount = 0#32 ∧ s.ticks = ⟨0, #v[10, 100, 1000, 10000], #v[0, 0, 0, 0]⟩ ∧ s.config.ticks = s.ticks.dividers ∧
    s.trip = ⟨.normal, .empty, ⟨none, 0#32, .empty⟩, 0⟩ ∧ tripOutActive s = false ∧
    s.engine.state = .halted ∧ s.engine.requester = none ∧ s.engine.record = ⟨.reset, none, false, false, 0#32, none⟩ ∧
    (∀ c : ChannelId, s.engine.injectedReading[c] = none) ∧ (∀ n : LineId, s.engine.injectedLevel[n] = none) ∧
    (∀ slot : SlotId, s.config.watches[slot] = ⟨false, .anyFault⟩) ∧
    ∀ p : Port, s.notices[p] = ⟨[⟨.halted .reset, 0#32⟩], false⟩ ∧ attention s p = true ∧ s.ports[p] = ⟨.idle, [], [], .none⟩

/-- R45, R48, R54, R60: the permit table stays sound at every step: no two permits of a group have holders, holders fit the limit, a port
stands once in a record, the wait queues are in order of priority, a DISABLED or LOCKED permit is empty, TRIPPED empties every permit,
and RESET_N active (R143) leaves every permit empty. -/
def Obligations.StepsKeepThePermitTableSound : Prop :=
  ∀ s t : State, groupsExclude s.config s.table → recordsSound s.config s.table → trippedEmpties s.table → resetEmpties s →
    step s = .next t →
    groupsExclude t.config t.table ∧ recordsSound t.config t.table ∧ trippedEmpties t.table ∧ resetEmpties t

/-- R93, R94, R109, R153, R178, R10, R11, R18: at every step the present set is empty in NORMAL, a queue holds at most 8 notices, some
profile carries CONFIGURE, in the table and in use, the counters of the tick generator stay below their dividers, no tick waits at the scan
unit while a scan is in progress (log 30), and the permit table drives nothing while a step is under way (log 34). -/
def Obligations.StepsKeepCausesQueuesRightsAndCounters : Prop :=
  ∀ s t : State, step s = .next t →
    (normalHasNoCause s.trip → normalHasNoCause t.trip) ∧ (queuesFit s → queuesFit t) ∧
    (configureHeld s.config → configureHeld t.config) ∧ (countersFit s → countersFit t) ∧ (noTickInScan s → noTickInScan t) ∧
    (stepDrivesNothing s → stepDrivesNothing t)

/-- R119, R154, R158, R39: a step ends a trip only by CLEAR_TRIP or a hard or power-on reset; it changes an entry of a table other than WATCH
only by a WRITE_ENTRY taken in HALTED or by such a reset, the epoch only by RESUME or such a reset, and the pass count only by a pass,
SOFT_RESET or such a reset. -/
def Obligations.OnlyTheirCommandsEndTripsAndChangeEntries : Prop :=
  ∀ s t : State, step s = .next t →
    let front := fun (ok : Instr → Prop) => ∃ c rest, s.pending = c :: rest ∧
      (ok c ∨ c = .powerOn ∨ c = .resetNActive ∨ ∃ p, c = .hardReset p)
    (s.trip.state = .tripped → t.trip.state = .normal → front fun c => ∃ p, c = .clearTrip p) ∧
    (entriesOf t.config ≠ entriesOf s.config → front fun c => s.engine.state = .halted ∧ ∃ w, writeShape c = some w) ∧
    (t.config.epoch ≠ s.config.epoch → front fun c => ∃ p, c = .resume p) ∧
    (t.eval.passCount ≠ s.eval.passCount → front fun c => (∃ din pfb, c = .pass din pfb) ∨ ∃ p, c = .softReset p)
end

