-- ==== Sys2Proof/Laws/Bits.lean ====
section
/-! SUPPORT. The numbers of lists of bits (R171, R176). -/

namespace Sys2Proof.Laws

open Sys2Proof.Machine

/-- Bit i of the packed number is the i-th Boolean. -/
theorem packBits_testBit (l : List Bool) (i : Nat) : (packBits l).testBit i = l.getD i false := by
  induction l generalizing i with
  | nil => simp [packBits]
  | cons b bs ih =>
    cases i with
    | zero => cases b <;> simp [packBits, Nat.testBit_zero]
    | succ i =>
      have : (b.toNat + 2 * packBits bs) / 2 = packBits bs := by cases b <;> (simp; try omega)
      simp [packBits, Nat.testBit_succ, this, ih]

/-- A set of permits as a number has permit p's bit at p. -/
theorem permitBits (f : PermitId → Bool) (p : PermitId) :
    (BitVec.ofNat 16 (packBits (allPermits.map f))).getLsbD p = f p := by
  rw [BitVec.getLsbD_ofNat, packBits_testBit]
  fin_cases p <;> simp [allPermits]

/-- A set of channels as a number has channel c's bit at c. -/
theorem channelBits (f : ChannelId → Bool) (c : ChannelId) :
    (BitVec.ofNat 12 (packBits (allChannels.map f))).getLsbD c = f c := by
  rw [BitVec.getLsbD_ofNat, packBits_testBit]
  fin_cases c <;> simp [allChannels]

theorem mem_allPermits (p : PermitId) : p ∈ allPermits := by revert p; decide
theorem mem_allGroups (g : GroupId) : g ∈ allGroups := by revert g; decide
theorem mem_allPorts (p : Port) : p ∈ allPorts := by revert p; decide
theorem mem_allChannels (c : ChannelId) : c ∈ allChannels := by revert c; decide
theorem mem_allLines (n : LineId) : n ∈ allLines := by revert n; decide
theorem nodup_allPermits : allPermits.Nodup := by decide

end Sys2Proof.Laws
end

