-- ==== Sys2Proof/Laws/Vectors.lean ====
section
/-! SUPPORT. Reading a vector at an index of Fin n: the forms the model uses. A proof that calls simp drops Fin.getElem_fin, which rewrites
the index to a number. -/

namespace Sys2Proof.Laws

variable {α β : Type} {n : Nat}

@[simp] theorem get_set_self (v : Vector α n) (i : Fin n) (x : α) : (v.set i x)[i] = x := by
  simp

theorem get_set_ne (v : Vector α n) (i j : Fin n) (x : α) (h : i ≠ j) : (v.set i x)[j] = v[j] := by
  have : (i : Nat) ≠ j := fun e => h (Fin.ext e)
  simp [this]

theorem get_set (v : Vector α n) (i j : Fin n) (x : α) : (v.set i x)[j] = if i = j then x else v[j] := by
  by_cases h : i = j
  · subst h; simp
  · simp only [h, if_false]; exact get_set_ne v i j x h

@[simp] theorem get_ofFn (f : Fin n → α) (i : Fin n) : (Vector.ofFn f)[i] = f i := by simp

@[simp] theorem get_map (f : α → β) (v : Vector α n) (i : Fin n) : (v.map f)[i] = f v[i] := by simp

@[simp] theorem get_replicate (x : α) (i : Fin n) : (Vector.replicate n x)[i] = x := by simp

/-- Two vectors agree when they agree at every index. -/
theorem ext_get {v w : Vector α n} (h : ∀ i : Fin n, v[i] = w[i]) : v = w :=
  Vector.ext fun i hi => h ⟨i, hi⟩

@[simp] theorem set_get (v : Vector α n) (i : Fin n) : v.set i v[i] = v := by
  refine ext_get fun j => ?_
  rw [get_set]; split
  · next h => subst h; rfl
  · rfl

end Sys2Proof.Laws
end

