-- ==== Sys2Proof/Laws/Table.lean ====
section
/-! SUPPORT. What the permit table's operations can do: grant examination moves heads of queues to holder lists and nothing else
(`GrantsOnly`), and every departure only takes away (`Shrinks`). -/

namespace Sys2Proof.Laws

open Sys2Proof.Machine

/-! Grants. -/

/-- The record after k heads of its queue were granted (R77). -/
def grantedHeads (k : Nat) (r : PermitRecord) : PermitRecord :=
  { r with
    holders := r.holders ++ (r.queue.take k).map (fun c => ⟨c.port, .fresh⟩)
    queue := r.queue.drop k }

@[simp] theorem grantedHeads_zero (r : PermitRecord) : grantedHeads 0 r = r := by
  simp [grantedHeads]

theorem grantedHeads_add (j k : Nat) (r : PermitRecord) :
    grantedHeads k (grantedHeads j r) = grantedHeads (j + k) r := by
  simp [grantedHeads, List.take_add, List.drop_drop]

theorem grantHeads_eq (limit : Nat) (r : PermitRecord) :
    r.grantHeads limit = grantedHeads (min (limit - r.holders.length) r.queue.length) r := by
  simp only [PermitRecord.grantHeads, grantedHeads]
  rcases Nat.le_total (limit - r.holders.length) r.queue.length with h | h
  · rw [Nat.min_eq_left h]
  · rw [Nat.min_eq_right h, List.take_of_length_le h, List.drop_eq_nil_of_le h, List.take_length, List.drop_length]

/-- From t to t', grants alone: each record has had k heads granted, k above 0 only where the permit was eligible and stays within its
limit. -/
structure GrantsOnly (c : ConfigStore) (t t' : PermitTable) : Prop where
  settle : t'.settle = t.settle
  engine : t'.engine = t.engine
  trip : t'.trip = t.trip
  records : ∀ p : PermitId, ∃ k, t'.records[p] = grantedHeads k t.records[p] ∧ k ≤ t.records[p].queue.length ∧
    (k ≠ 0 → eligible c t p = true ∧ t.records[p].holders.length + k ≤ c.permits[p].limit)

theorem GrantsOnly.refl (c : ConfigStore) (t : PermitTable) : GrantsOnly c t t :=
  ⟨rfl, rfl, rfl, fun _ => ⟨0, by simp, Nat.zero_le _, fun h => absurd rfl h⟩⟩

/-- Grants keep every input of eligibility but the holders, which only grow. -/
theorem GrantsOnly.eligible {c : ConfigStore} {t t' : PermitTable} (h : GrantsOnly c t t') (p : PermitId)
    (he : eligible c t' p = true) : eligible c t p = true := by
  have hlock : t'.records[p].lock = t.records[p].lock := by
    obtain ⟨k, e, _⟩ := h.records p; rw [e]; rfl
  have hcond : t'.records[p].condition = t.records[p].condition := by
    obtain ⟨k, e, _⟩ := h.records p; rw [e]; rfl
  have hheld : ∀ g, otherMemberHeld c t' g p = false → otherMemberHeld c t g p = false := by
    intro g hg
    simp only [otherMemberHeld, List.any_eq_false] at hg ⊢
    intro q hq hcon
    refine hg q hq ?_
    obtain ⟨k, e, _⟩ := h.records q
    simp only [Bool.and_eq_true] at hcon ⊢
    refine ⟨hcon.1, ?_⟩
    rw [e]
    cases hh : t.records[q].holders <;> simp_all [grantedHeads, -Fin.getElem_fin]
  simp only [Machine.eligible, hlock, hcond, h.engine, h.trip, Bool.and_eq_true] at he ⊢
  refine ⟨he.1, ?_⟩
  have hg := he.2
  simp only [groupAdmits, h.settle] at hg ⊢
  cases hgr : c.permits[p].group with
  | none => rfl
  | some g =>
    simp only [hgr, Bool.and_eq_true, Bool.not_eq_true'] at hg ⊢
    exact ⟨hheld g hg.1, hg.2⟩

theorem GrantsOnly.trans {c : ConfigStore} {t t' t'' : PermitTable} (h : GrantsOnly c t t') (h' : GrantsOnly c t' t'') :
    GrantsOnly c t t'' := by
  refine ⟨h'.settle.trans h.settle, h'.engine.trans h.engine, h'.trip.trans h.trip, fun p => ?_⟩
  obtain ⟨j, ej, lj, cj⟩ := h.records p
  obtain ⟨k, ek, lk, ck⟩ := h'.records p
  refine ⟨j + k, by rw [ek, ej, grantedHeads_add], ?_, fun hne => ?_⟩
  · rw [ej] at lk; simp only [grantedHeads, List.length_drop] at lk; omega
  · have hlen : t'.records[p].holders.length = t.records[p].holders.length + j := by
      rw [ej]; simp only [grantedHeads, List.length_append, List.length_map, List.length_take]; omega
    by_cases hk : k = 0
    · subst hk; exact cj (by omega)
    · obtain ⟨e1, e2⟩ := ck hk
      exact ⟨h.eligible p e1, by omega⟩

/-- R77: one permit of an examination. -/
theorem grantPermit_grants (c : ConfigStore) (w : TableWork) (p : PermitId) :
    GrantsOnly c w.table (grantPermit c w p).table := by
  unfold grantPermit
  split
  · next he =>
    refine ⟨rfl, rfl, rfl, fun q => ?_⟩
    simp only [PermitTable.setRecord, get_set]
    by_cases hpq : p = q
    · subst hpq
      rw [if_pos rfl, grantHeads_eq]
      exact ⟨_, rfl, Nat.min_le_right _ _, fun hne => ⟨he, by omega⟩⟩
    · rw [if_neg hpq]
      exact ⟨0, by simp, Nat.zero_le _, fun hne => absurd rfl hne⟩
  · exact GrantsOnly.refl _ _

theorem grantUngrouped_grants (c : ConfigStore) (w : TableWork) (p : PermitId) :
    GrantsOnly c w.table (grantUngrouped c w p).table := by
  unfold grantUngrouped; split
  · exact grantPermit_grants c w p
  · exact GrantsOnly.refl _ _

theorem grantGroup_grants (c : ConfigStore) (w : TableWork) (g : GroupId) :
    GrantsOnly c w.table (grantGroup c w g).table := by
  unfold grantGroup; split
  · exact GrantsOnly.refl _ _
  · exact grantPermit_grants c w _

/-- A fold of steps of which each only grants only grants. -/
theorem GrantsOnly.fold {α : Type} (c : ConfigStore) (f : TableWork → α → TableWork)
    (hf : ∀ w a, GrantsOnly c w.table (f w a).table) (l : List α) (w : TableWork) :
    GrantsOnly c w.table (l.foldl f w).table := by
  induction l generalizing w with
  | nil => exact GrantsOnly.refl _ _
  | cons a l ih => exact (hf w a).trans (ih _)

/-- R76: grant examination only grants. -/
theorem grantExamination_grants (c : ConfigStore) (w : TableWork) :
    GrantsOnly c w.table (grantExamination c w).table :=
  (GrantsOnly.fold c _ (grantUngrouped_grants c) allPermits w).trans
    (GrantsOnly.fold c _ (grantGroup_grants c) allGroups _)

/-- What a grant leaves of the work: the notices so far stand first, GRANTED notices alone follow, and no cause is added. -/
def Extends (w w' : TableWork) : Prop :=
  w'.causes = w.causes ∧ ∃ more, w'.made = w.made ++ more ∧ ∀ m ∈ more, ∃ p, m.2 = .granted p

theorem Extends.refl (w : TableWork) : Extends w w := ⟨rfl, [], by simp⟩

theorem Extends.trans {w w' w'' : TableWork} (h : Extends w w') (h' : Extends w' w'') : Extends w w'' := by
  obtain ⟨c1, m1, e1, g1⟩ := h
  obtain ⟨c2, m2, e2, g2⟩ := h'
  exact ⟨c2.trans c1, m1 ++ m2, by rw [e2, e1, List.append_assoc], fun m hm =>
    (List.mem_append.mp hm).elim (g1 m) (g2 m)⟩

theorem grantPermit_extends (c : ConfigStore) (w : TableWork) (p : PermitId) : Extends w (grantPermit c w p) := by
  unfold grantPermit; split
  · refine ⟨rfl, _, rfl, fun m hm => ?_⟩
    obtain ⟨x, _, rfl⟩ := List.mem_map.mp hm
    exact ⟨p, rfl⟩
  · exact Extends.refl _

theorem Extends.fold {α : Type} (f : TableWork → α → TableWork) (hf : ∀ w a, Extends w (f w a)) (l : List α)
    (w : TableWork) : Extends w (l.foldl f w) := by
  induction l generalizing w with
  | nil => exact Extends.refl _
  | cons a l ih => exact (hf w a).trans (ih _)

theorem grantExamination_extends (c : ConfigStore) (w : TableWork) : Extends w (grantExamination c w) := by
  refine Extends.trans (Extends.fold _ (fun w p => ?_) allPermits w) (Extends.fold _ (fun w g => ?_) allGroups _)
  · unfold grantUngrouped; split
    · exact grantPermit_extends c w p
    · exact Extends.refl _
  · unfold grantGroup; split
    · exact Extends.refl _
    · exact grantPermit_extends c w _

/-- A permit that is not eligible keeps its record through an examination. -/
theorem grantExamination_ineligible (c : ConfigStore) (w : TableWork) (p : PermitId)
    (h : eligible c w.table p = false) : (grantExamination c w).table.records[p] = w.table.records[p] := by
  obtain ⟨k, e, _, hk⟩ := (grantExamination_grants c w).records p
  by_cases h0 : k = 0
  · rw [e, h0, grantedHeads_zero]
  · rw [h] at hk; exact absurd (hk h0).1 (by simp)

/-- With no permit eligible an examination does nothing. -/
theorem grantExamination_inert (c : ConfigStore) (w : TableWork) (h : ∀ p, eligible c w.table p = false) :
    grantExamination c w = w := by
  have hp : ∀ p, grantPermit c w p = w := fun p => by simp [grantPermit, h p]
  have hu : ∀ l : List PermitId, l.foldl (grantUngrouped c) w = w := by
    intro l
    induction l with
    | nil => rfl
    | cons a l ih =>
      have : grantUngrouped c w a = w := by unfold grantUngrouped; split <;> [exact hp a; rfl]
      simp only [List.foldl_cons, this, ih]
  have hg : ∀ l : List GroupId, l.foldl (grantGroup c) w = w := by
    intro l
    induction l with
    | nil => rfl
    | cons a l ih =>
      have : grantGroup c w a = w := by unfold grantGroup; split <;> [rfl; exact hp _]
      simp only [List.foldl_cons, this, ih]
  unfold grantExamination
  rw [hu, hg]

/-- Outside RUNNING an examination does nothing. -/
theorem grantExamination_notRunning (c : ConfigStore) (w : TableWork) (h : w.table.engine ≠ .running) :
    grantExamination c w = w := grantExamination_inert c w fun p => by simp [eligible, h]

/-! Departures. -/

/-- A record that has only lost holders, claims, stages and waits, and gained a lock only with both lists empty. -/
structure RecordShrinks (r r' : PermitRecord) : Prop where
  holders : (r'.holders.map Holder.port).Sublist (r.holders.map Holder.port)
  queue : (r'.queue.map fun x => (x.port, x.priority)).Sublist (r.queue.map fun x => (x.port, x.priority))
  lock : r'.lock = true → r.lock = true ∨ (r'.holders = [] ∧ r'.queue = [])

theorem RecordShrinks.refl (r : PermitRecord) : RecordShrinks r r :=
  ⟨List.Sublist.refl _, List.Sublist.refl _, fun h => Or.inl h⟩

theorem RecordShrinks.trans {r r' r'' : PermitRecord} (h : RecordShrinks r r') (h' : RecordShrinks r' r'') :
    RecordShrinks r r'' := by
  refine ⟨h'.holders.trans h.holders, h'.queue.trans h.queue, fun hl => ?_⟩
  rcases h'.lock hl with h1 | h1
  · rcases h.lock h1 with h2 | h2
    · exact Or.inl h2
    · right
      have a := h'.holders; have b := h'.queue
      rw [h2.1] at a; rw [h2.2] at b
      exact ⟨List.map_eq_nil_iff.mp (List.sublist_nil.mp a), List.map_eq_nil_iff.mp (List.sublist_nil.mp b)⟩
  · exact Or.inr h1

/-- A table of which every record has only shrunk, under the same trip state. -/
structure Shrinks (t t' : PermitTable) : Prop where
  trip : t'.trip = t.trip
  records : ∀ p : PermitId, RecordShrinks t.records[p] t'.records[p]

theorem Shrinks.refl (t : PermitTable) : Shrinks t t := ⟨rfl, fun _ => RecordShrinks.refl _⟩

theorem Shrinks.trans {t t' t'' : PermitTable} (h : Shrinks t t') (h' : Shrinks t' t'') : Shrinks t t'' :=
  ⟨h'.trip.trans h.trip, fun p => (h.records p).trans (h'.records p)⟩

theorem Shrinks.setRecord {t : PermitTable} {p : PermitId} {r : PermitRecord} (h : RecordShrinks t.records[p] r) :
    Shrinks t (t.setRecord p r) := by
  refine ⟨rfl, fun q => ?_⟩
  simp only [PermitTable.setRecord, get_set]
  split
  · next e => subst e; exact h
  · exact RecordShrinks.refl _

theorem Shrinks.setSettle (t : PermitTable) (g : GroupId) (n : Nat) : Shrinks t (t.setSettle g n) :=
  ⟨rfl, fun _ => RecordShrinks.refl _⟩

theorem startSettling_records (c : ConfigStore) (p : PermitId) (t : PermitTable) :
    (startSettling c p t).records = t.records ∧ (startSettling c p t).engine = t.engine ∧
      (startSettling c p t).trip = t.trip := by
  unfold startSettling; split <;> exact ⟨rfl, rfl, rfl⟩

/-- R55: a changed record stands in the table, whether or not settling starts. -/
theorem changeRecord_records (c : ConfigStore) (p : PermitId) (r : PermitRecord) (t : PermitTable) :
    (changeRecord c p r t).records = t.records.set p r ∧ (changeRecord c p r t).engine = t.engine ∧
      (changeRecord c p r t).trip = t.trip := by
  unfold changeRecord; split
  · exact startSettling_records c p (t.setRecord p r)
  · exact ⟨rfl, rfl, rfl⟩

theorem Shrinks.changeRecord {c : ConfigStore} {t : PermitTable} {p : PermitId} {r : PermitRecord}
    (h : RecordShrinks t.records[p] r) : Shrinks t (changeRecord c p r t) := by
  obtain ⟨e1, _, e3⟩ := changeRecord_records c p r t
  refine ⟨e3, fun q => ?_⟩
  rw [e1, get_set]
  split
  · next e => subst e; exact h
  · exact RecordShrinks.refl _

theorem Shrinks.fold {α : Type} (f : TableWork → α → TableWork) (hf : ∀ w a, Shrinks w.table (f w a).table) (l : List α)
    (w : TableWork) : Shrinks w.table (l.foldl f w).table := by
  induction l generalizing w with
  | nil => exact Shrinks.refl _
  | cons a l ih => exact (hf w a).trans (ih _)

/-- R51, R52: a condition loss. -/
theorem afterLoss_shrinks (x : LossAction) (r : PermitRecord) : RecordShrinks r (r.afterLoss x) := by
  cases x
  · exact ⟨by simp [PermitRecord.afterLoss], by simp [PermitRecord.afterLoss], fun h => Or.inl h⟩
  · exact ⟨by simp [PermitRecord.afterLoss], by simp [PermitRecord.afterLoss],
      fun _ => Or.inr ⟨rfl, rfl⟩⟩

/-- R97, R101 to R103: a tick at the holders. -/
theorem afterTick_shrinks (x : ExpiryAction) (r : PermitRecord) : RecordShrinks r (r.afterTick x) := by
  have hage : ∀ l : List Holder, (l.map Holder.age).map Holder.port = l.map Holder.port := by
    intro l; simp [Holder.age, Function.comp_def]
  cases x
  · refine ⟨?_, List.Sublist.refl _, fun h => Or.inl h⟩
    simp only [PermitRecord.afterTick, hage]
    exact (List.filter_sublist).map _
  · simp only [PermitRecord.afterTick]
    split
    · exact ⟨by simp, by simp, fun _ => Or.inr ⟨rfl, rfl⟩⟩
    · exact ⟨by simp only [hage]; exact List.Sublist.refl _, List.Sublist.refl _, fun h => Or.inl h⟩
  · exact ⟨by simp only [PermitRecord.afterTick, hage]; exact List.Sublist.refl _, List.Sublist.refl _,
      fun h => Or.inl h⟩

/-- R80, R81: a tick at the claims. -/
theorem waits_shrink (r : PermitRecord) : RecordShrinks r { r with queue := r.queue.filterMap Claim.afterTick } := by
  refine ⟨List.Sublist.refl _, ?_, fun h => Or.inl h⟩
  induction r.queue with
  | nil => simp
  | cons a l ih =>
    simp only [List.filterMap_cons]
    split
    · exact ih.trans (List.sublist_cons_self _ _)
    · next b hb =>
      have : (b.port, b.priority) = (a.port, a.priority) := by
        unfold Claim.afterTick at hb
        split at hb
        · cases hb; rfl
        · split at hb
          · cases hb
          · cases hb; rfl
      simp only [List.map_cons, this]
      exact ih.cons_cons _

/-- R50 steps 1 to 5 only take away. -/
theorem recordConditions_get (r : PassResult) (t : PermitTable) (p : PermitId) :
    (recordConditions r t).records[p] =
      match r.conditions[p] with
      | none => t.records[p]
      | some true => { t.records[p] with condition := .met }
      | some false => { t.records[p] with condition := .notMet } := by
  rcases h : r.conditions[p] with _ | _ | _ <;> simp only [Fin.getElem_fin] at h <;>
    simp only [recordConditions, Fin.getElem_fin, Vector.getElem_mapFinIdx, h]

theorem recordConditions_shrinks (r : PassResult) (t : PermitTable) : Shrinks t (recordConditions r t) := by
  refine ⟨rfl, fun p => ?_⟩
  rw [recordConditions_get]
  rcases r.conditions[p] with _ | _ | _ <;>
    exact ⟨List.Sublist.refl _, List.Sublist.refl _, fun h => Or.inl h⟩

theorem compareReadback_shrinks (c : ConfigStore) (r : PassResult) (w : TableWork) (p : PermitId) :
    Shrinks w.table (compareReadback c r w p).table := by
  unfold compareReadback; split
  · exact Shrinks.setRecord ⟨List.Sublist.refl _, List.Sublist.refl _, fun h => Or.inl h⟩
  · exact Shrinks.refl _

theorem revokeOnLoss_shrinks (c : ConfigStore) (w : TableWork) (p : PermitId) :
    Shrinks w.table (revokeOnLoss c w p).table := by
  unfold revokeOnLoss; simp only; split
  · exact Shrinks.changeRecord (afterLoss_shrinks _ _)
  · exact Shrinks.refl _

/-- R50: a pass result takes away, then grants. -/
theorem tablePassResult_spec (c : ConfigStore) (r : PassResult) (t : PermitTable) :
    ∃ u, Shrinks t u ∧ GrantsOnly c u (tablePassResult c r t).table :=
  ⟨_, (recordConditions_shrinks r t).trans
    ((Shrinks.fold _ (compareReadback_shrinks c r) allPermits (TableWork.start _)).trans
      (Shrinks.fold _ (revokeOnLoss_shrinks c) allPermits _)), grantExamination_grants c _⟩

theorem settleTick_shrinks (c : ConfigStore) (src : SourceId) (t : PermitTable) (g : GroupId) :
    Shrinks t (settleTick c src t g) := by
  unfold settleTick; split
  · exact Shrinks.setSettle _ _ _
  · exact Shrinks.refl _

theorem settleTicks_shrinks (c : ConfigStore) (src : SourceId) (l : List GroupId) (t : PermitTable) :
    Shrinks t (l.foldl (settleTick c src) t) := by
  induction l generalizing t with
  | nil => exact Shrinks.refl _
  | cons a l ih => exact (settleTick_shrinks c src t a).trans (ih _)

theorem leaseTick_shrinks (c : ConfigStore) (src : SourceId) (w : TableWork) (p : PermitId) :
    Shrinks w.table (leaseTick c src w p).table := by
  unfold leaseTick; split
  · exact Shrinks.changeRecord (afterTick_shrinks _ _)
  · exact Shrinks.refl _

theorem waitTick_shrinks (c : ConfigStore) (src : SourceId) (w : TableWork) (p : PermitId) :
    Shrinks w.table (waitTick c src w p).table := by
  unfold waitTick; split
  · exact Shrinks.setRecord (waits_shrink _)
  · exact Shrinks.refl _

/-- R96: a tick takes away, then grants. -/
theorem tableTick_spec (c : ConfigStore) (src : SourceId) (t : PermitTable) :
    ∃ u, Shrinks t u ∧ GrantsOnly c u (tableTick c src t).table := by
  unfold tableTick; split
  · have h := (settleTicks_shrinks c src allGroups t).trans
      ((Shrinks.fold _ (leaseTick_shrinks c src) allPermits (TableWork.start _)).trans
        (Shrinks.fold _ (waitTick_shrinks c src) allPermits _))
    refine ⟨_, h, ?_⟩
    simp only; split
    · exact grantExamination_grants c _
    · exact GrantsOnly.refl _ _
  · exact ⟨t, Shrinks.refl t, GrantsOnly.refl c _⟩

/-- R58. -/
theorem tableEngineChange_spec (c : ConfigStore) (e : EngineState) (t : PermitTable) :
    GrantsOnly c { t with engine := e } (tableEngineChange c e t).table := by
  unfold tableEngineChange; simp only; split
  · exact grantExamination_grants c (TableWork.start { t with engine := e })
  · exact GrantsOnly.refl _ _

theorem withdrawRights_shrinks (c : ConfigStore) (w : TableWork) (p : PermitId) :
    Shrinks w.table (withdrawRights c w p).table := by
  unfold withdrawRights
  exact Shrinks.changeRecord ⟨List.filter_sublist.map _, List.filter_sublist.map _, fun h => Or.inl h⟩

/-- R59: a RESUME takes away, then grants. -/
theorem tableResume_spec (c : ConfigStore) (commits : Bool) (t : PermitTable) :
    ∃ u, Shrinks t u ∧ GrantsOnly c u (tableResume c commits t).table := by
  have hf : ∀ u : PermitTable, Shrinks u { u.forgetConditions with engine := .running } := fun u =>
    ⟨rfl, fun p => by
      simp only [PermitTable.forgetConditions, get_map]
      exact ⟨List.Sublist.refl _, List.Sublist.refl _, fun h => Or.inl h⟩⟩
  unfold tableResume
  cases commits
  · exact ⟨_, hf t, grantExamination_grants c
      { TableWork.start t with table := { t.forgetConditions with engine := .running } }⟩
  · exact ⟨_, (Shrinks.fold _ (withdrawRights_shrinks c) allPermits (TableWork.start t)).trans (hf _),
      grantExamination_grants c { allPermits.foldl (withdrawRights c) (TableWork.start t) with
        table := { (allPermits.foldl (withdrawRights c) (TableWork.start t)).table.forgetConditions with
          engine := .running } }⟩

theorem emptied_shrinks (r : PermitRecord) : RecordShrinks r r.emptied :=
  ⟨by simp [PermitRecord.emptied], by simp [PermitRecord.emptied], fun h => Or.inl h⟩

/-- R60: one permit of trip entry is emptied, and stays so through the rest. -/
theorem emptyPermits_get (c : ConfigStore) (l : List PermitId) (t : PermitTable) (p : PermitId) :
    (l.foldl (emptyPermit c) t).records[p] = if p ∈ l then t.records[p].emptied else t.records[p] := by
  induction l generalizing t with
  | nil => simp
  | cons a l ih =>
    have h : (emptyPermit c t a).records = t.records.set a t.records[a].emptied := (changeRecord_records c a _ t).1
    simp only [List.foldl_cons]
    rw [ih, h, get_set]
    by_cases hp : p ∈ l <;> by_cases ha : a = p
    · subst ha; simp [hp, PermitRecord.emptied, -Fin.getElem_fin]
    · simp [hp, ha, -Fin.getElem_fin]
    · subst ha; simp [hp, -Fin.getElem_fin]
    · have : p ≠ a := fun e => ha e.symm
      simp [hp, ha, this, -Fin.getElem_fin]

theorem emptyPermits_rest (c : ConfigStore) (l : List PermitId) (t : PermitTable) :
    (l.foldl (emptyPermit c) t).trip = t.trip ∧ (l.foldl (emptyPermit c) t).engine = t.engine := by
  induction l generalizing t with
  | nil => exact ⟨rfl, rfl⟩
  | cons a l ih =>
    obtain ⟨_, e2, e3⟩ := changeRecord_records c a t.records[a].emptied t
    exact ⟨(ih _).1.trans e3, (ih _).2.trans e2⟩

/-- R60: trip entry empties every record and takes TRIPPED; the rest of a record stands. -/
theorem tableTripEntry_spec (c : ConfigStore) (t : PermitTable) :
    (tableTripEntry c t).trip = .tripped ∧ (tableTripEntry c t).engine = t.engine ∧
      ∀ p : PermitId, (tableTripEntry c t).records[p] = t.records[p].emptied := by
  refine ⟨(emptyPermits_rest c allPermits _).1, (emptyPermits_rest c allPermits _).2, fun p => ?_⟩
  unfold tableTripEntry
  rw [emptyPermits_get, if_pos (mem_allPermits p)]

end Sys2Proof.Laws
end

