-- ==== Sys2Proof/Laws/Departures.lean ====
section
/-! SUPPORT. The permit table taken permit by permit: a fold over the permits of which each step changes one record, with the notices,
the causes and the settling it leaves (R50, R55, R96). -/

namespace Sys2Proof.Laws

open Sys2Proof.Machine

/-- R48: what HELD says of the entry and the record. -/
theorem permitState_held (c : ConfigStore) (t : PermitTable) (p : PermitId) :
    permitState c t p = .held ↔
      c.permits[p].enabled = true ∧ t.records[p].lock = false ∧ t.records[p].holders ≠ [] := by
  unfold permitState
  cases h1 : c.permits[p].enabled
  · simp
  · cases h2 : t.records[p].lock
    · cases h3 : t.records[p].holders with
      | nil => simp; split <;> simp
      | cons a l => simp
    · simp

theorem flatMap_nothing {α β : Type} (l : List α) : l.flatMap (fun _ => ([] : List β)) = [] := by simp

/-- A step that replaces one record by a function of it, and adds notices and causes that are functions of it. -/
structure LocalStep (f : TableWork → PermitId → TableWork) (g : PermitId → PermitRecord → PermitRecord)
    (m : PermitId → PermitRecord → List Made) (k : PermitId → PermitRecord → List TripCause) : Prop where
  records : ∀ w p, (f w p).table.records = w.table.records.set p (g p w.table.records[p])
  engine : ∀ w p, (f w p).table.engine = w.table.engine
  trip : ∀ w p, (f w p).table.trip = w.table.trip
  made : ∀ w p, (f w p).made = w.made ++ m p w.table.records[p]
  causes : ∀ w p, (f w p).causes = w.causes ++ k p w.table.records[p]

variable {f : TableWork → PermitId → TableWork} {g : PermitId → PermitRecord → PermitRecord}
  {m : PermitId → PermitRecord → List Made} {k : PermitId → PermitRecord → List TripCause}

theorem LocalStep.get (h : LocalStep f g m k) (w : TableWork) (p q : PermitId) :
    (f w p).table.records[q] = if p = q then g q w.table.records[q] else w.table.records[q] := by
  rw [h.records, get_set]
  by_cases e : p = q
  · subst e; simp
  · simp [e]

/-- The fold over a list without repetitions: each permit of it is taken once, on its record as it stood at the start. -/
theorem LocalStep.fold (h : LocalStep f g m k) (l : List PermitId) (hl : l.Nodup) (w : TableWork) :
    (∀ q, (l.foldl f w).table.records[q] = if q ∈ l then g q w.table.records[q] else w.table.records[q]) ∧
    (l.foldl f w).table.engine = w.table.engine ∧ (l.foldl f w).table.trip = w.table.trip ∧
    (l.foldl f w).made = w.made ++ l.flatMap (fun q => m q w.table.records[q]) ∧
    (l.foldl f w).causes = w.causes ++ l.flatMap (fun q => k q w.table.records[q]) := by
  induction l generalizing w with
  | nil => simp
  | cons a l ih =>
    obtain ⟨hna, hl'⟩ := List.nodup_cons.mp hl
    obtain ⟨h1, h2, h3, h4, h5⟩ := ih hl' (f w a)
    have hne : ∀ q ∈ l, (f w a).table.records[q] = w.table.records[q] := by
      intro q hq
      rw [h.get, if_neg]
      rintro rfl; exact hna hq
    simp only [List.foldl_cons]
    refine ⟨fun q => ?_, h2.trans (h.engine w a), h3.trans (h.trip w a), ?_, ?_⟩
    · rw [h1, h.get]
      by_cases hq : q ∈ l
      · have : a ≠ q := by rintro rfl; exact hna hq
        simp [hq, this]
      · by_cases e : a = q
        · subst e; simp [hq]
        · simp [hq, e, Ne.symm e]
    · rw [h4, h.made, List.flatMap_cons, List.append_assoc]
      congr 2
      exact List.flatMap_congr fun q hq => by rw [hne q hq]
    · rw [h5, h.causes, List.flatMap_cons, List.append_assoc]
      congr 2
      exact List.flatMap_congr fun q hq => by rw [hne q hq]

/-- The fold over all permits. -/
theorem LocalStep.all (h : LocalStep f g m k) (w : TableWork) :
    (∀ q, (allPermits.foldl f w).table.records[q] = g q w.table.records[q]) ∧
    (allPermits.foldl f w).table.engine = w.table.engine ∧ (allPermits.foldl f w).table.trip = w.table.trip ∧
    (allPermits.foldl f w).made = w.made ++ allPermits.flatMap (fun q => m q w.table.records[q]) ∧
    (allPermits.foldl f w).causes = w.causes ++ allPermits.flatMap (fun q => k q w.table.records[q]) := by
  obtain ⟨h1, h2⟩ := h.fold allPermits nodup_allPermits w
  exact ⟨fun q => by rw [h1, if_pos (mem_allPermits q)], h2⟩

/-! Settling (R55). -/

/-- R55: the settle counters after a record was changed. -/
theorem changeRecord_settle (c : ConfigStore) (p : PermitId) (r : PermitRecord) (t : PermitTable) (x : GroupId) :
    (changeRecord c p r t).settle[x] =
      if c.permits[p].group = some x ∧ t.records[p].holders ≠ [] ∧ r.holders = [] then c.groups[x].settle
      else t.settle[x] := by
  unfold changeRecord startSettling
  cases h1 : t.records[p].holders <;> cases h2 : r.holders <;> cases h3 : c.permits[p].group <;>
    simp [PermitTable.setRecord, PermitTable.setSettle, -Fin.getElem_fin]
  rename_i g
  rw [get_set]
  by_cases e : g = x
  · subst e; simp [-Fin.getElem_fin]
  · simp [e]

/-- A fold whose steps change a record with settling: the groups of the permits that lost their last holder settle. -/
theorem settleFold (c : ConfigStore) (h : LocalStep f g m k)
    (hs : ∀ w p, (f w p).table.settle = (changeRecord c p (g p w.table.records[p]) w.table).settle)
    (l : List PermitId) (hl : l.Nodup) (w : TableWork) (x : GroupId) :
    ((∃ p ∈ l, c.permits[p].group = some x ∧ w.table.records[p].holders ≠ [] ∧ (g p w.table.records[p]).holders = []) →
      (l.foldl f w).table.settle[x] = c.groups[x].settle) ∧
    ((∀ p ∈ l, c.permits[p].group = some x → w.table.records[p].holders ≠ [] → (g p w.table.records[p]).holders ≠ []) →
      (l.foldl f w).table.settle[x] = w.table.settle[x]) := by
  induction l generalizing w with
  | nil => simp
  | cons a l ih =>
    obtain ⟨hna, hl'⟩ := List.nodup_cons.mp hl
    have hne : ∀ q ∈ l, (f w a).table.records[q] = w.table.records[q] := by
      intro q hq
      rw [h.get, if_neg]
      rintro rfl; exact hna hq
    obtain ⟨i1, i2⟩ := ih hl' (f w a)
    have hstep := changeRecord_settle c a (g a w.table.records[a]) w.table x
    rw [← hs] at hstep
    simp only [List.foldl_cons]
    constructor
    · rintro ⟨p, hp, e1, e2, e3⟩
      by_cases hin : ∃ q ∈ l, c.permits[q].group = some x ∧ w.table.records[q].holders ≠ [] ∧
          (g q w.table.records[q]).holders = []
      · obtain ⟨q, hq, f1, f2, f3⟩ := hin
        exact i1 ⟨q, hq, f1, by rwa [hne q hq], by rwa [hne q hq]⟩
      · rw [i2]
        · rcases List.mem_cons.mp hp with rfl | hp
          · rw [hstep, if_pos ⟨e1, e2, e3⟩]
          · exact absurd ⟨p, hp, e1, e2, e3⟩ hin
        · intro q hq f1 f2 f3
          rw [hne q hq] at f2 f3
          exact hin ⟨q, hq, f1, f2, f3⟩
    · intro hall
      rw [i2, hstep, if_neg]
      · rintro ⟨e1, e2, e3⟩
        exact hall a List.mem_cons_self e1 e2 e3
      · intro q hq f1 f2
        rw [hne q hq] at f2 ⊢
        exact hall q (List.mem_cons_of_mem a hq) f1 f2

/-! The folds of the model. -/

/-- R53, R50 step 2, permit by permit. -/
theorem compareReadback_local (c : ConfigStore) (r : PassResult) :
    LocalStep (compareReadback c r)
      (fun p x => if c.permits[p].enabled && c.permits[p].readback then
        { x with mismatch := nextMismatch (pairAgrees r p) x.mismatch } else x)
      (fun _ _ => [])
      (fun p x => if c.permits[p].enabled && c.permits[p].readback && !pairAgrees r p &&
        decide (nextMismatch (pairAgrees r p) x.mismatch = 2) then [.lineFeedback p] else []) := by
  constructor <;> intro w p <;> unfold compareReadback <;>
    cases h : (c.permits[p].enabled && c.permits[p].readback) <;> simp [PermitTable.setRecord, -Fin.getElem_fin]
  split <;> simp

theorem compareReadback_settle (c : ConfigStore) (r : PassResult) (w : TableWork) (p : PermitId) :
    (compareReadback c r w p).table.settle = w.table.settle := by
  unfold compareReadback; split <;> rfl

/-- R50 steps 3 and 4, permit by permit. -/
theorem revokeOnLoss_local (c : ConfigStore) :
    LocalStep (revokeOnLoss c)
      (fun p x => if c.permits[p].enabled && !x.lock && !x.holders.isEmpty && decide (x.condition = .notMet) then
        x.afterLoss c.permits[p].loss else x)
      (fun p x => if c.permits[p].enabled && !x.lock && !x.holders.isEmpty && decide (x.condition = .notMet) then
        lossNotices c.permits[p].loss p x else [])
      (fun _ _ => []) := by
  have key : ∀ (w : TableWork) (p : PermitId),
      (permitState c w.table p = .held ∧ w.table.records[p].condition = .notMet) ↔
      (c.permits[p].enabled && !w.table.records[p].lock && !w.table.records[p].holders.isEmpty &&
        decide (w.table.records[p].condition = .notMet)) = true := by
    intro w p; rw [permitState_held]; simp [and_assoc]
  constructor <;> intro w p <;> unfold revokeOnLoss <;> simp only <;> rw [if_congr (key w p) rfl rfl]
  all_goals split
  all_goals try first | rfl | simp [-Fin.getElem_fin]
  · exact (changeRecord_records _ _ _ _).1
  · exact (changeRecord_records _ _ _ _).2.1
  · exact (changeRecord_records _ _ _ _).2.2

theorem revokeOnLoss_settle (c : ConfigStore) (w : TableWork) (p : PermitId) :
    (revokeOnLoss c w p).table.settle = (changeRecord c p
      (if c.permits[p].enabled && !w.table.records[p].lock && !w.table.records[p].holders.isEmpty &&
        decide (w.table.records[p].condition = .notMet) then w.table.records[p].afterLoss c.permits[p].loss
      else w.table.records[p]) w.table).settle := by
  unfold revokeOnLoss
  simp only
  by_cases h : permitState c w.table p = .held ∧ w.table.records[p].condition = .notMet
  · have h' := h
    rw [permitState_held] at h'
    rw [if_pos h, if_pos (by simpa [and_assoc, List.isEmpty_iff] using h')]
  · have h' := h
    rw [permitState_held] at h'
    rw [if_neg h, if_neg (by simpa [and_assoc, List.isEmpty_iff] using h')]
    refine ext_get fun x => ?_
    rw [changeRecord_settle, if_neg]
    rintro ⟨_, h1, h2⟩; exact h1 h2

/-- R96 step 2, permit by permit. -/
theorem leaseTick_local (c : ConfigStore) (src : SourceId) :
    LocalStep (leaseTick c src)
      (fun p x => if leased c src p then x.afterTick c.permits[p].expiry else x)
      (fun p x => if leased c src p then leaseNotices c.permits[p].expiry p x else [])
      (fun p x => if leased c src p then leaseCauses c.permits[p].expiry p x else []) := by
  constructor <;> intro w p <;> unfold leaseTick <;> simp only <;> split
  all_goals try first | rfl | simp [-Fin.getElem_fin]
  · exact (changeRecord_records _ _ _ _).1
  · exact (changeRecord_records _ _ _ _).2.1
  · exact (changeRecord_records _ _ _ _).2.2

theorem leaseTick_settle (c : ConfigStore) (src : SourceId) (w : TableWork) (p : PermitId) :
    (leaseTick c src w p).table.settle = (changeRecord c p
      (if leased c src p then w.table.records[p].afterTick c.permits[p].expiry else w.table.records[p])
      w.table).settle := by
  unfold leaseTick
  split
  · rfl
  · refine ext_get fun x => ?_
    rw [changeRecord_settle, if_neg]
    rintro ⟨_, h1, h2⟩; exact h1 h2

/-- R96 step 3, permit by permit. -/
theorem waitTick_local (c : ConfigStore) (src : SourceId) :
    LocalStep (waitTick c src)
      (fun p x => if c.permits[p].source = src then { x with queue := x.queue.filterMap Claim.afterTick } else x)
      (fun p x => if c.permits[p].source = src then waitEndNotices p .expired (x.queue.filter expires) else [])
      (fun _ _ => []) := by
  constructor <;> intro w p <;> unfold waitTick <;> simp only <;> split
  all_goals try first | rfl | simp [-Fin.getElem_fin]

theorem waitTick_settle (c : ConfigStore) (src : SourceId) (w : TableWork) (p : PermitId) :
    (waitTick c src w p).table.settle = w.table.settle := by
  unfold waitTick; split <;> rfl

/-- A fold that keeps the settle counters at each step. -/
theorem settle_kept {h : TableWork → PermitId → TableWork} (hs : ∀ w p, (h w p).table.settle = w.table.settle)
    (l : List PermitId) (w : TableWork) : (l.foldl h w).table.settle = w.table.settle := by
  induction l generalizing w with
  | nil => rfl
  | cons a l ih => exact (ih _).trans (hs w a)

/-- R96 step 1: every counter on the source goes down by one. -/
theorem settleTicks_get (c : ConfigStore) (src : SourceId) (t : PermitTable) (x : GroupId) :
    (allGroups.foldl (settleTick c src) t).settle[x] =
      if c.groups[x].source = src then t.settle[x] - 1 else t.settle[x] := by
  have key : ∀ (l : List GroupId), l.Nodup → ∀ t : PermitTable,
      (l.foldl (settleTick c src) t).settle[x] =
        if x ∈ l ∧ c.groups[x].source = src then t.settle[x] - 1 else t.settle[x] := by
    intro l hl
    induction l with
    | nil => simp
    | cons a l ih =>
      obtain ⟨hna, hl'⟩ := List.nodup_cons.mp hl
      intro t
      simp only [List.foldl_cons]
      rw [ih hl']
      have hs : (settleTick c src t a).settle[x] =
          if a = x ∧ c.groups[x].source = src then t.settle[x] - 1 else t.settle[x] := by
        unfold settleTick PermitTable.setSettle
        by_cases e : a = x
        · subst e; by_cases h : c.groups[a].source = src <;> simp [h, -Fin.getElem_fin]
        · by_cases h : c.groups[a].source = src <;> simp [h, e, get_set, -Fin.getElem_fin]
      rw [hs]
      by_cases h1 : x ∈ l
      · have : a ≠ x := by rintro rfl; exact hna h1
        simp [h1, this, -Fin.getElem_fin]
      · by_cases e : a = x
        · subst e; simp [h1, -Fin.getElem_fin]
        · simp [h1, e, Ne.symm e, -Fin.getElem_fin]
  rw [key allGroups (by decide)]
  simp [mem_allGroups, -Fin.getElem_fin]

theorem settleTicks_rest (c : ConfigStore) (src : SourceId) (l : List GroupId) (t : PermitTable) :
    (l.foldl (settleTick c src) t).records = t.records ∧ (l.foldl (settleTick c src) t).engine = t.engine ∧
      (l.foldl (settleTick c src) t).trip = t.trip := by
  induction l generalizing t with
  | nil => exact ⟨rfl, rfl, rfl⟩
  | cons a l ih =>
    have h : (settleTick c src t a).records = t.records ∧ (settleTick c src t a).engine = t.engine ∧
        (settleTick c src t a).trip = t.trip := by
      unfold settleTick; split <;> exact ⟨rfl, rfl, rfl⟩
    obtain ⟨i1, i2, i3⟩ := ih (settleTick c src t a)
    exact ⟨i1.trans h.1, i2.trans h.2.1, i3.trans h.2.2⟩

/-! The two events of the permit table that take it permit by permit, before their grant examination. -/

/-- R46: a condition value after a pass result. -/
def conditionAfter (r : PassResult) (p : PermitId) (x : PermitRecord) : Condition :=
  (r.conditions[p]).elim x.condition fun b => if b then .met else .notMet

/-- R53: a mismatch count after a pass result. -/
def mismatchAfter (c : ConfigStore) (r : PassResult) (p : PermitId) (x : PermitRecord) : Nat :=
  if c.permits[p].enabled && c.permits[p].readback then nextMismatch (pairAgrees r p) x.mismatch else x.mismatch

/-- R50 step 3: the pass result ends the permit's holdings. -/
def lostAt (c : ConfigStore) (r : PassResult) (p : PermitId) (x : PermitRecord) : Bool :=
  c.permits[p].enabled && !x.lock && !x.holders.isEmpty && decide (conditionAfter r p x = .notMet)

/-- R50 steps 1 to 3: a record after a pass result, before the grant examination. -/
def recordAfterPass (c : ConfigStore) (r : PassResult) (p : PermitId) (x : PermitRecord) : PermitRecord :=
  let y := { x with condition := conditionAfter r p x, mismatch := mismatchAfter c r p x }
  if lostAt c r p x then y.afterLoss c.permits[p].loss else y

/-- R50: a pass result, up to its grant examination. -/
theorem tablePassResult_full (c : ConfigStore) (r : PassResult) (t : PermitTable) :
    ∃ w : TableWork, tablePassResult c r t = grantExamination c w ∧ w.table.engine = t.engine ∧
      w.table.trip = t.trip ∧ (∀ p : PermitId, w.table.records[p] = recordAfterPass c r p t.records[p]) ∧
      (∀ x : GroupId,
        ((∃ p : PermitId, c.permits[p].group = some x ∧ lostAt c r p t.records[p] = true) →
          w.table.settle[x] = c.groups[x].settle) ∧
        ((∀ p : PermitId, c.permits[p].group = some x → lostAt c r p t.records[p] = false) →
          w.table.settle[x] = t.settle[x])) ∧
      w.made = allPermits.flatMap (fun p =>
        if lostAt c r p t.records[p] then lossNotices c.permits[p].loss p t.records[p] else []) ∧
      w.causes = allPermits.flatMap (fun p =>
        if c.permits[p].enabled && c.permits[p].readback && !pairAgrees r p &&
          decide (mismatchAfter c r p t.records[p] = 2) then [.lineFeedback p] else []) := by
  obtain ⟨a1, a2, a3, a4, a5⟩ := (compareReadback_local c r).all (TableWork.start (recordConditions r t))
  have as := settle_kept (compareReadback_settle c r) allPermits (TableWork.start (recordConditions r t))
  obtain ⟨b1, b2, b3, b4, b5⟩ :=
    (revokeOnLoss_local c).all (allPermits.foldl (compareReadback c r) (TableWork.start (recordConditions r t)))
  have bs := settleFold c (revokeOnLoss_local c) (revokeOnLoss_settle c) allPermits nodup_allPermits
    (allPermits.foldl (compareReadback c r) (TableWork.start (recordConditions r t)))
  have hrec : ∀ p : PermitId, (TableWork.start (recordConditions r t)).table.records[p] =
      { t.records[p] with condition := conditionAfter r p t.records[p] } := by
    intro p
    show (recordConditions r t).records[p] = _
    rw [recordConditions_get]; unfold conditionAfter
    rcases r.conditions[p] with _ | _ | _ <;> rfl
  have hres : tablePassResult c r t = grantExamination c (allPermits.foldl (revokeOnLoss c)
      (allPermits.foldl (compareReadback c r) (TableWork.start (recordConditions r t)))) := rfl
  generalize allPermits.foldl (compareReadback c r) (TableWork.start (recordConditions r t)) = w2 at *
  have hmid : ∀ p : PermitId, w2.table.records[p] =
      { t.records[p] with condition := conditionAfter r p t.records[p], mismatch := mismatchAfter c r p t.records[p] } := by
    intro p
    rw [a1, hrec]; unfold mismatchAfter; split <;> rfl
  have hlost : ∀ p : PermitId, (c.permits[p].enabled && !w2.table.records[p].lock && !w2.table.records[p].holders.isEmpty &&
      decide (w2.table.records[p].condition = .notMet)) = lostAt c r p t.records[p] := by
    intro p; rw [hmid]; rfl
  have hloss : ∀ (l : LossAction) (y : PermitRecord), (y.afterLoss l).holders = [] := by intro l y; cases l <;> rfl
  have hfin : ∀ p : PermitId, (allPermits.foldl (revokeOnLoss c) w2).table.records[p] = recordAfterPass c r p t.records[p] := by
    intro p
    rw [b1, hlost, hmid]; rfl
  refine ⟨allPermits.foldl (revokeOnLoss c) w2, hres, b2.trans a2, b3.trans a3, hfin, fun x => ⟨?_, ?_⟩, ?_, ?_⟩
  · rintro ⟨p, e1, e2⟩
    refine (bs x).1 ⟨p, mem_allPermits p, e1, ?_, ?_⟩
    · rw [hmid]
      intro h
      have h : t.records[p].holders = [] := h
      simp [lostAt, h, -Fin.getElem_fin] at e2
    · rw [if_pos (by rw [hlost]; exact e2)]; exact hloss _ _
  · intro h
    rw [(bs x).2, as]; · rfl
    intro p _ e1 e2
    rw [if_neg (by rw [hlost, h p e1]; simp)]; exact e2
  · rw [b4, a4]
    simp only [flatMap_nothing, List.append_nil, TableWork.start, List.nil_append]
    refine List.flatMap_congr fun p _ => ?_
    rw [hlost, hmid]
    split <;> [skip; rfl]
    cases c.permits[p].loss <;> rfl
  · rw [b5, a5]
    simp only [flatMap_nothing, List.append_nil]
    rw [show (TableWork.start (recordConditions r t)).causes = [] from rfl, List.nil_append]
    refine List.flatMap_congr fun p _ => ?_
    rw [hrec]
    unfold mismatchAfter
    cases h : (c.permits[p].enabled && c.permits[p].readback) <;> simp

/-- R96 step 2: a record after the lease stages of a tick. -/
def recordAfterLease (c : ConfigStore) (src : SourceId) (p : PermitId) (x : PermitRecord) : PermitRecord :=
  if leased c src p then x.afterTick c.permits[p].expiry else x

/-- R96 steps 2 and 3: a record after a tick, before the grant examination. -/
def recordAfterTick (c : ConfigStore) (src : SourceId) (p : PermitId) (x : PermitRecord) : PermitRecord :=
  let y := recordAfterLease c src p x
  if c.permits[p].source = src then { y with queue := y.queue.filterMap Claim.afterTick } else y

theorem recordAfterTick_holders (c : ConfigStore) (src : SourceId) (p : PermitId) (x : PermitRecord) :
    (recordAfterTick c src p x).holders = (recordAfterLease c src p x).holders := by
  unfold recordAfterTick; simp only; split <;> rfl

/-- R96: a tick that counts, up to its grant examination. -/
theorem tableTick_full (c : ConfigStore) (src : SourceId) (t : PermitTable) (h : counting c t = true) :
    ∃ w : TableWork,
      tableTick c src t = (if allGroups.any (settleEnds c src t) || allPermits.any (leaseRemoves c src t) then
        grantExamination c w else w) ∧
      w.table.engine = t.engine ∧ w.table.trip = t.trip ∧
      (∀ p : PermitId, w.table.records[p] = recordAfterTick c src p t.records[p]) ∧
      (∀ x : GroupId,
        ((∃ p : PermitId, c.permits[p].group = some x ∧ t.records[p].holders ≠ [] ∧
            (recordAfterLease c src p t.records[p]).holders = []) →
          w.table.settle[x] = c.groups[x].settle) ∧
        ((∀ p : PermitId, c.permits[p].group = some x → t.records[p].holders ≠ [] →
            (recordAfterLease c src p t.records[p]).holders ≠ []) →
          w.table.settle[x] = if c.groups[x].source = src then t.settle[x] - 1 else t.settle[x])) ∧
      w.made = allPermits.flatMap (fun p =>
          if leased c src p then leaseNotices c.permits[p].expiry p t.records[p] else []) ++
        allPermits.flatMap (fun p => if c.permits[p].source = src then
          waitEndNotices p .expired ((recordAfterLease c src p t.records[p]).queue.filter expires) else []) ∧
      w.causes = allPermits.flatMap (fun p =>
          if leased c src p then leaseCauses c.permits[p].expiry p t.records[p] else []) := by
  have hres : tableTick c src t = (if allGroups.any (settleEnds c src t) || allPermits.any (leaseRemoves c src t) then
      grantExamination c (allPermits.foldl (waitTick c src) (allPermits.foldl (leaseTick c src)
        (TableWork.start (allGroups.foldl (settleTick c src) t))))
      else allPermits.foldl (waitTick c src) (allPermits.foldl (leaseTick c src)
        (TableWork.start (allGroups.foldl (settleTick c src) t)))) := by
    unfold tableTick; rw [if_pos h]
  obtain ⟨r1, r2, r3⟩ := settleTicks_rest c src allGroups t
  have r4 := settleTicks_get c src t
  generalize allGroups.foldl (settleTick c src) t = t1 at *
  obtain ⟨a1, a2, a3, a4, a5⟩ := (leaseTick_local c src).all (TableWork.start t1)
  have as := settleFold c (leaseTick_local c src) (leaseTick_settle c src) allPermits nodup_allPermits (TableWork.start t1)
  have e0 : ∀ p : PermitId, (TableWork.start t1).table.records[p] = t.records[p] := by
    intro p; show t1.records[p] = _; rw [r1]
  simp only [e0] at a1 a4 a5 as
  change ∀ q : PermitId, _ = recordAfterLease c src q t.records[q] at a1
  generalize allPermits.foldl (leaseTick c src) (TableWork.start t1) = w2 at *
  obtain ⟨b1, b2, b3, b4, b5⟩ := (waitTick_local c src).all w2
  have bs := settle_kept (waitTick_settle c src) allPermits w2
  simp only [a1] at b1 b4
  generalize allPermits.foldl (waitTick c src) w2 = w3 at *
  refine ⟨w3, hres, (b2.trans a2).trans r2, (b3.trans a3).trans r3, b1, fun x => ⟨?_, ?_⟩, ?_, ?_⟩
  · rintro ⟨p, e1, e2, e3⟩
    rw [bs]
    exact (as x).1 ⟨p, mem_allPermits p, e1, e2, e3⟩
  · intro hx
    rw [bs, (as x).2 fun p _ e1 e2 => hx p e1 e2]
    exact r4 x
  · rw [b4, a4]; rfl
  · rw [b5, a5]
    simp only [flatMap_nothing, List.append_nil]
    rfl

/-- R85: what rights withdrawal leaves of a permit's record. -/
def recordAfterWithdrawal (c : ConfigStore) (p : PermitId) (x : PermitRecord) : PermitRecord :=
  { x with
    holders := x.holders.filter fun h => maskAdmits c h.port p
    queue := x.queue.filter fun y => maskAdmits c y.port p }

/-- R85: its notices. -/
def withdrawalNotices (c : ConfigStore) (p : PermitId) (x : PermitRecord) : List Made :=
  revokeNotices p .rightWithdrawn (x.holders.filter fun h => !maskAdmits c h.port p) ++
    waitEndNotices p .rightWithdrawn (x.queue.filter fun y => !maskAdmits c y.port p)

theorem withdrawRights_local (c : ConfigStore) :
    LocalStep (withdrawRights c) (recordAfterWithdrawal c) (withdrawalNotices c) (fun _ _ => []) := by
  constructor <;> intro w p <;> unfold withdrawRights
  · exact (changeRecord_records _ _ _ _).1
  · exact (changeRecord_records _ _ _ _).2.1
  · exact (changeRecord_records _ _ _ _).2.2
  · simp only [List.append_assoc]; rfl
  · simp

/-- R59: a RESUME at the permit table. Every condition is UNKNOWN then, so nothing is granted. -/
theorem tableResume_full (c : ConfigStore) (commits : Bool) (t : PermitTable) :
    ∃ w : TableWork, tableResume c commits t = w ∧ w.table.engine = .running ∧ w.table.trip = t.trip ∧
      (∀ p : PermitId, w.table.records[p] =
        { (if commits then recordAfterWithdrawal c p t.records[p] else t.records[p]) with
          condition := .unknown, mismatch := 0 }) ∧
      (∀ x : GroupId,
        ((∃ p : PermitId, c.permits[p].group = some x ∧ t.records[p].holders ≠ [] ∧ w.table.records[p].holders = []) →
          w.table.settle[x] = c.groups[x].settle) ∧
        ((∀ p : PermitId, c.permits[p].group = some x → t.records[p].holders ≠ [] → w.table.records[p].holders ≠ []) →
          w.table.settle[x] = t.settle[x])) ∧
      w.made = (if commits then allPermits.flatMap fun p => withdrawalNotices c p t.records[p] else []) ∧
      w.causes = [] := by
  have inert : ∀ w : TableWork, grantExamination c { w with table := { w.table.forgetConditions with engine := .running } } =
      { w with table := { w.table.forgetConditions with engine := .running } } := by
    intro w
    refine grantExamination_inert c _ fun p => ?_
    have : (w.table.forgetConditions.records[p]).condition = .unknown := by
      simp only [PermitTable.forgetConditions, get_map]
    simp [eligible, this, -Fin.getElem_fin]
  have hrec : ∀ (u : PermitTable) (p : PermitId), u.forgetConditions.records[p] =
      { u.records[p] with condition := .unknown, mismatch := 0 } := by
    intro u p; simp only [PermitTable.forgetConditions, get_map]
  unfold tableResume
  cases commits
  · simp only [Bool.false_eq_true, if_false]
    refine ⟨_, inert _, rfl, rfl, fun p => hrec _ p, fun x => ⟨?_, fun _ => rfl⟩, rfl, rfl⟩
    rintro ⟨p, _, e1, e2⟩
    have e2 : (t.forgetConditions.records[p]).holders = [] := e2
    rw [hrec] at e2
    exact absurd e2 e1
  · simp only [if_true]
    obtain ⟨a1, a2, a3, a4, a5⟩ := (withdrawRights_local c).all (TableWork.start t)
    have as := settleFold c (withdrawRights_local c) (fun w p => rfl) allPermits nodup_allPermits (TableWork.start t)
    generalize allPermits.foldl (withdrawRights c) (TableWork.start t) = w at *
    have hfin : ∀ p : PermitId, (w.table.forgetConditions.records[p]).holders = (recordAfterWithdrawal c p t.records[p]).holders := by
      intro p; rw [hrec, a1]; rfl
    have hkeep : ∀ p : PermitId, w.table.forgetConditions.records[p] =
        { recordAfterWithdrawal c p t.records[p] with condition := .unknown, mismatch := 0 } := by
      intro p; rw [hrec, a1]; rfl
    refine ⟨_, inert w, rfl, a3, hkeep, fun x => ⟨?_, fun h => ?_⟩, a4, a5.trans ?_⟩
    · rintro ⟨p, e1, e2, e3⟩
      have e3 : (w.table.forgetConditions.records[p]).holders = [] := e3
      rw [hfin] at e3
      exact (as x).1 ⟨p, mem_allPermits p, e1, e2, e3⟩
    · refine (as x).2 fun p _ e1 e2 => ?_
      have := h p e1 e2
      change (w.table.forgetConditions.records[p]).holders ≠ [] at this
      rw [hfin] at this
      exact this
    · simp [flatMap_nothing, TableWork.start]

/-! Notices (R178). -/

/-- The notices of one event for one port stand behind those already on their way, in the order they were made. -/
theorem flyAll_get (maker : NoticeMaker) (count : PassCount) (made : List Made) (v : Vector (List FlyingNotice) 4)
    (port : Port) : (flyAll maker count made v)[port] =
      v[port] ++ (made.filter fun m => decide (m.1 = port)).map fun m => ⟨maker, ⟨m.2, count⟩⟩ := by
  unfold flyAll
  induction made generalizing v with
  | nil => simp
  | cons a l ih =>
    simp only [List.foldl_cons]
    rw [ih, get_set]
    by_cases e : a.1 = port
    · subst e; simp [-Fin.getElem_fin]
    · simp [e, -Fin.getElem_fin]

/-- What an event at the permit table leaves. -/
theorem commitWork_eq (count : PassCount) (w : TableWork) (s : State) : commitWork count w s = { s with
    table := w.table
    flight := { s.flight with
      tripCauses := s.flight.tripCauses ++ w.causes
      notices := flyAll .permitTable count w.made s.flight.notices } } := rfl

end Sys2Proof.Laws
end

