-- ==== Sys2Proof/Laws/State.lean ====
section
/-! SUPPORT. One lemma for each field and each update of State, true by rfl, so that no proof unfolds a record update. -/

namespace Sys2Proof.Laws

open Sys2Proof.Machine

variable (s : State) (port q : Port)

variable (fonConfig : ConfigStore → ConfigStore)
variable (fonScan : ScanUnit → ScanUnit)
variable (fonLines : LineUnit → LineUnit)
variable (fonEval : Evaluator → Evaluator)
variable (fonTable : PermitTable → PermitTable)
variable (fonTicks : TickGen → TickGen)
variable (fonTrip : TripUnit → TripUnit)
variable (fonEngine : EngineController → EngineController)
variable (fonFlight : InFlight → InFlight)
variable (fp : PortUnit → PortUnit) (fn : NoticeQueue → NoticeQueue)

@[simp] theorem config_onConfig : (s.onConfig fonConfig).config = fonConfig s.config := rfl
@[simp] theorem scan_onConfig : (s.onConfig fonConfig).scan = s.scan := rfl
@[simp] theorem lines_onConfig : (s.onConfig fonConfig).lines = s.lines := rfl
@[simp] theorem eval_onConfig : (s.onConfig fonConfig).eval = s.eval := rfl
@[simp] theorem table_onConfig : (s.onConfig fonConfig).table = s.table := rfl
@[simp] theorem ticks_onConfig : (s.onConfig fonConfig).ticks = s.ticks := rfl
@[simp] theorem trip_onConfig : (s.onConfig fonConfig).trip = s.trip := rfl
@[simp] theorem engine_onConfig : (s.onConfig fonConfig).engine = s.engine := rfl
@[simp] theorem ports_onConfig : (s.onConfig fonConfig).ports = s.ports := rfl
@[simp] theorem notices_onConfig : (s.onConfig fonConfig).notices = s.notices := rfl
@[simp] theorem flight_onConfig : (s.onConfig fonConfig).flight = s.flight := rfl
@[simp] theorem tripInActive_onConfig : (s.onConfig fonConfig).tripInActive = s.tripInActive := rfl
@[simp] theorem resetActive_onConfig : (s.onConfig fonConfig).resetActive = s.resetActive := rfl
@[simp] theorem freeCount_onConfig : (s.onConfig fonConfig).freeCount = s.freeCount := rfl
@[simp] theorem pending_onConfig : (s.onConfig fonConfig).pending = s.pending := rfl

@[simp] theorem config_onScan : (s.onScan fonScan).config = s.config := rfl
@[simp] theorem scan_onScan : (s.onScan fonScan).scan = fonScan s.scan := rfl
@[simp] theorem lines_onScan : (s.onScan fonScan).lines = s.lines := rfl
@[simp] theorem eval_onScan : (s.onScan fonScan).eval = s.eval := rfl
@[simp] theorem table_onScan : (s.onScan fonScan).table = s.table := rfl
@[simp] theorem ticks_onScan : (s.onScan fonScan).ticks = s.ticks := rfl
@[simp] theorem trip_onScan : (s.onScan fonScan).trip = s.trip := rfl
@[simp] theorem engine_onScan : (s.onScan fonScan).engine = s.engine := rfl
@[simp] theorem ports_onScan : (s.onScan fonScan).ports = s.ports := rfl
@[simp] theorem notices_onScan : (s.onScan fonScan).notices = s.notices := rfl
@[simp] theorem flight_onScan : (s.onScan fonScan).flight = s.flight := rfl
@[simp] theorem tripInActive_onScan : (s.onScan fonScan).tripInActive = s.tripInActive := rfl
@[simp] theorem resetActive_onScan : (s.onScan fonScan).resetActive = s.resetActive := rfl
@[simp] theorem freeCount_onScan : (s.onScan fonScan).freeCount = s.freeCount := rfl
@[simp] theorem pending_onScan : (s.onScan fonScan).pending = s.pending := rfl

@[simp] theorem config_onLines : (s.onLines fonLines).config = s.config := rfl
@[simp] theorem scan_onLines : (s.onLines fonLines).scan = s.scan := rfl
@[simp] theorem lines_onLines : (s.onLines fonLines).lines = fonLines s.lines := rfl
@[simp] theorem eval_onLines : (s.onLines fonLines).eval = s.eval := rfl
@[simp] theorem table_onLines : (s.onLines fonLines).table = s.table := rfl
@[simp] theorem ticks_onLines : (s.onLines fonLines).ticks = s.ticks := rfl
@[simp] theorem trip_onLines : (s.onLines fonLines).trip = s.trip := rfl
@[simp] theorem engine_onLines : (s.onLines fonLines).engine = s.engine := rfl
@[simp] theorem ports_onLines : (s.onLines fonLines).ports = s.ports := rfl
@[simp] theorem notices_onLines : (s.onLines fonLines).notices = s.notices := rfl
@[simp] theorem flight_onLines : (s.onLines fonLines).flight = s.flight := rfl
@[simp] theorem tripInActive_onLines : (s.onLines fonLines).tripInActive = s.tripInActive := rfl
@[simp] theorem resetActive_onLines : (s.onLines fonLines).resetActive = s.resetActive := rfl
@[simp] theorem freeCount_onLines : (s.onLines fonLines).freeCount = s.freeCount := rfl
@[simp] theorem pending_onLines : (s.onLines fonLines).pending = s.pending := rfl

@[simp] theorem config_onEval : (s.onEval fonEval).config = s.config := rfl
@[simp] theorem scan_onEval : (s.onEval fonEval).scan = s.scan := rfl
@[simp] theorem lines_onEval : (s.onEval fonEval).lines = s.lines := rfl
@[simp] theorem eval_onEval : (s.onEval fonEval).eval = fonEval s.eval := rfl
@[simp] theorem table_onEval : (s.onEval fonEval).table = s.table := rfl
@[simp] theorem ticks_onEval : (s.onEval fonEval).ticks = s.ticks := rfl
@[simp] theorem trip_onEval : (s.onEval fonEval).trip = s.trip := rfl
@[simp] theorem engine_onEval : (s.onEval fonEval).engine = s.engine := rfl
@[simp] theorem ports_onEval : (s.onEval fonEval).ports = s.ports := rfl
@[simp] theorem notices_onEval : (s.onEval fonEval).notices = s.notices := rfl
@[simp] theorem flight_onEval : (s.onEval fonEval).flight = s.flight := rfl
@[simp] theorem tripInActive_onEval : (s.onEval fonEval).tripInActive = s.tripInActive := rfl
@[simp] theorem resetActive_onEval : (s.onEval fonEval).resetActive = s.resetActive := rfl
@[simp] theorem freeCount_onEval : (s.onEval fonEval).freeCount = s.freeCount := rfl
@[simp] theorem pending_onEval : (s.onEval fonEval).pending = s.pending := rfl

@[simp] theorem config_onTable : (s.onTable fonTable).config = s.config := rfl
@[simp] theorem scan_onTable : (s.onTable fonTable).scan = s.scan := rfl
@[simp] theorem lines_onTable : (s.onTable fonTable).lines = s.lines := rfl
@[simp] theorem eval_onTable : (s.onTable fonTable).eval = s.eval := rfl
@[simp] theorem table_onTable : (s.onTable fonTable).table = fonTable s.table := rfl
@[simp] theorem ticks_onTable : (s.onTable fonTable).ticks = s.ticks := rfl
@[simp] theorem trip_onTable : (s.onTable fonTable).trip = s.trip := rfl
@[simp] theorem engine_onTable : (s.onTable fonTable).engine = s.engine := rfl
@[simp] theorem ports_onTable : (s.onTable fonTable).ports = s.ports := rfl
@[simp] theorem notices_onTable : (s.onTable fonTable).notices = s.notices := rfl
@[simp] theorem flight_onTable : (s.onTable fonTable).flight = s.flight := rfl
@[simp] theorem tripInActive_onTable : (s.onTable fonTable).tripInActive = s.tripInActive := rfl
@[simp] theorem resetActive_onTable : (s.onTable fonTable).resetActive = s.resetActive := rfl
@[simp] theorem freeCount_onTable : (s.onTable fonTable).freeCount = s.freeCount := rfl
@[simp] theorem pending_onTable : (s.onTable fonTable).pending = s.pending := rfl

@[simp] theorem config_onTicks : (s.onTicks fonTicks).config = s.config := rfl
@[simp] theorem scan_onTicks : (s.onTicks fonTicks).scan = s.scan := rfl
@[simp] theorem lines_onTicks : (s.onTicks fonTicks).lines = s.lines := rfl
@[simp] theorem eval_onTicks : (s.onTicks fonTicks).eval = s.eval := rfl
@[simp] theorem table_onTicks : (s.onTicks fonTicks).table = s.table := rfl
@[simp] theorem ticks_onTicks : (s.onTicks fonTicks).ticks = fonTicks s.ticks := rfl
@[simp] theorem trip_onTicks : (s.onTicks fonTicks).trip = s.trip := rfl
@[simp] theorem engine_onTicks : (s.onTicks fonTicks).engine = s.engine := rfl
@[simp] theorem ports_onTicks : (s.onTicks fonTicks).ports = s.ports := rfl
@[simp] theorem notices_onTicks : (s.onTicks fonTicks).notices = s.notices := rfl
@[simp] theorem flight_onTicks : (s.onTicks fonTicks).flight = s.flight := rfl
@[simp] theorem tripInActive_onTicks : (s.onTicks fonTicks).tripInActive = s.tripInActive := rfl
@[simp] theorem resetActive_onTicks : (s.onTicks fonTicks).resetActive = s.resetActive := rfl
@[simp] theorem freeCount_onTicks : (s.onTicks fonTicks).freeCount = s.freeCount := rfl
@[simp] theorem pending_onTicks : (s.onTicks fonTicks).pending = s.pending := rfl

@[simp] theorem config_onTrip : (s.onTrip fonTrip).config = s.config := rfl
@[simp] theorem scan_onTrip : (s.onTrip fonTrip).scan = s.scan := rfl
@[simp] theorem lines_onTrip : (s.onTrip fonTrip).lines = s.lines := rfl
@[simp] theorem eval_onTrip : (s.onTrip fonTrip).eval = s.eval := rfl
@[simp] theorem table_onTrip : (s.onTrip fonTrip).table = s.table := rfl
@[simp] theorem ticks_onTrip : (s.onTrip fonTrip).ticks = s.ticks := rfl
@[simp] theorem trip_onTrip : (s.onTrip fonTrip).trip = fonTrip s.trip := rfl
@[simp] theorem engine_onTrip : (s.onTrip fonTrip).engine = s.engine := rfl
@[simp] theorem ports_onTrip : (s.onTrip fonTrip).ports = s.ports := rfl
@[simp] theorem notices_onTrip : (s.onTrip fonTrip).notices = s.notices := rfl
@[simp] theorem flight_onTrip : (s.onTrip fonTrip).flight = s.flight := rfl
@[simp] theorem tripInActive_onTrip : (s.onTrip fonTrip).tripInActive = s.tripInActive := rfl
@[simp] theorem resetActive_onTrip : (s.onTrip fonTrip).resetActive = s.resetActive := rfl
@[simp] theorem freeCount_onTrip : (s.onTrip fonTrip).freeCount = s.freeCount := rfl
@[simp] theorem pending_onTrip : (s.onTrip fonTrip).pending = s.pending := rfl

@[simp] theorem config_onEngine : (s.onEngine fonEngine).config = s.config := rfl
@[simp] theorem scan_onEngine : (s.onEngine fonEngine).scan = s.scan := rfl
@[simp] theorem lines_onEngine : (s.onEngine fonEngine).lines = s.lines := rfl
@[simp] theorem eval_onEngine : (s.onEngine fonEngine).eval = s.eval := rfl
@[simp] theorem table_onEngine : (s.onEngine fonEngine).table = s.table := rfl
@[simp] theorem ticks_onEngine : (s.onEngine fonEngine).ticks = s.ticks := rfl
@[simp] theorem trip_onEngine : (s.onEngine fonEngine).trip = s.trip := rfl
@[simp] theorem engine_onEngine : (s.onEngine fonEngine).engine = fonEngine s.engine := rfl
@[simp] theorem ports_onEngine : (s.onEngine fonEngine).ports = s.ports := rfl
@[simp] theorem notices_onEngine : (s.onEngine fonEngine).notices = s.notices := rfl
@[simp] theorem flight_onEngine : (s.onEngine fonEngine).flight = s.flight := rfl
@[simp] theorem tripInActive_onEngine : (s.onEngine fonEngine).tripInActive = s.tripInActive := rfl
@[simp] theorem resetActive_onEngine : (s.onEngine fonEngine).resetActive = s.resetActive := rfl
@[simp] theorem freeCount_onEngine : (s.onEngine fonEngine).freeCount = s.freeCount := rfl
@[simp] theorem pending_onEngine : (s.onEngine fonEngine).pending = s.pending := rfl

@[simp] theorem config_onFlight : (s.onFlight fonFlight).config = s.config := rfl
@[simp] theorem scan_onFlight : (s.onFlight fonFlight).scan = s.scan := rfl
@[simp] theorem lines_onFlight : (s.onFlight fonFlight).lines = s.lines := rfl
@[simp] theorem eval_onFlight : (s.onFlight fonFlight).eval = s.eval := rfl
@[simp] theorem table_onFlight : (s.onFlight fonFlight).table = s.table := rfl
@[simp] theorem ticks_onFlight : (s.onFlight fonFlight).ticks = s.ticks := rfl
@[simp] theorem trip_onFlight : (s.onFlight fonFlight).trip = s.trip := rfl
@[simp] theorem engine_onFlight : (s.onFlight fonFlight).engine = s.engine := rfl
@[simp] theorem ports_onFlight : (s.onFlight fonFlight).ports = s.ports := rfl
@[simp] theorem notices_onFlight : (s.onFlight fonFlight).notices = s.notices := rfl
@[simp] theorem flight_onFlight : (s.onFlight fonFlight).flight = fonFlight s.flight := rfl
@[simp] theorem tripInActive_onFlight : (s.onFlight fonFlight).tripInActive = s.tripInActive := rfl
@[simp] theorem resetActive_onFlight : (s.onFlight fonFlight).resetActive = s.resetActive := rfl
@[simp] theorem freeCount_onFlight : (s.onFlight fonFlight).freeCount = s.freeCount := rfl
@[simp] theorem pending_onFlight : (s.onFlight fonFlight).pending = s.pending := rfl

@[simp] theorem config_onPort : (s.onPort port fp).config = s.config := rfl
@[simp] theorem scan_onPort : (s.onPort port fp).scan = s.scan := rfl
@[simp] theorem lines_onPort : (s.onPort port fp).lines = s.lines := rfl
@[simp] theorem eval_onPort : (s.onPort port fp).eval = s.eval := rfl
@[simp] theorem table_onPort : (s.onPort port fp).table = s.table := rfl
@[simp] theorem ticks_onPort : (s.onPort port fp).ticks = s.ticks := rfl
@[simp] theorem trip_onPort : (s.onPort port fp).trip = s.trip := rfl
@[simp] theorem engine_onPort : (s.onPort port fp).engine = s.engine := rfl
@[simp] theorem ports_onPort : (s.onPort port fp).ports = s.ports.set port (fp s.ports[port]) := rfl
@[simp] theorem notices_onPort : (s.onPort port fp).notices = s.notices := rfl
@[simp] theorem flight_onPort : (s.onPort port fp).flight = s.flight := rfl
@[simp] theorem tripInActive_onPort : (s.onPort port fp).tripInActive = s.tripInActive := rfl
@[simp] theorem resetActive_onPort : (s.onPort port fp).resetActive = s.resetActive := rfl
@[simp] theorem freeCount_onPort : (s.onPort port fp).freeCount = s.freeCount := rfl
@[simp] theorem pending_onPort : (s.onPort port fp).pending = s.pending := rfl

@[simp] theorem config_onNotices : (s.onNotices port fn).config = s.config := rfl
@[simp] theorem scan_onNotices : (s.onNotices port fn).scan = s.scan := rfl
@[simp] theorem lines_onNotices : (s.onNotices port fn).lines = s.lines := rfl
@[simp] theorem eval_onNotices : (s.onNotices port fn).eval = s.eval := rfl
@[simp] theorem table_onNotices : (s.onNotices port fn).table = s.table := rfl
@[simp] theorem ticks_onNotices : (s.onNotices port fn).ticks = s.ticks := rfl
@[simp] theorem trip_onNotices : (s.onNotices port fn).trip = s.trip := rfl
@[simp] theorem engine_onNotices : (s.onNotices port fn).engine = s.engine := rfl
@[simp] theorem ports_onNotices : (s.onNotices port fn).ports = s.ports := rfl
@[simp] theorem notices_onNotices : (s.onNotices port fn).notices = s.notices.set port (fn s.notices[port]) := rfl
@[simp] theorem flight_onNotices : (s.onNotices port fn).flight = s.flight := rfl
@[simp] theorem tripInActive_onNotices : (s.onNotices port fn).tripInActive = s.tripInActive := rfl
@[simp] theorem resetActive_onNotices : (s.onNotices port fn).resetActive = s.resetActive := rfl
@[simp] theorem freeCount_onNotices : (s.onNotices port fn).freeCount = s.freeCount := rfl
@[simp] theorem pending_onNotices : (s.onNotices port fn).pending = s.pending := rfl

end Sys2Proof.Laws
end

