-- ==== Sys2Proof/Laws/Drains.lean ====
section
/-! SUPPORT. What waits behind an arrival neither changes it nor is changed by it, so that arrivals taken all at once are the arrivals
taken one by one (log 9, log 12). -/

namespace Sys2Proof.Laws

open Sys2Proof Sys2Proof.Machine

/-- A fault report at the trip unit, and the reports behind it. -/
theorem applyFaultReport_behind (r : FaultReport) (rest : List FaultReport) (s : State) :
    (applyFaultReport r (s.onFlight fun f => { f with faultReports := rest })).flight.faultReports = rest ∧
    (applyFaultReport r (s.onFlight fun f => { f with faultReports := rest })).onFlight
      (fun f => { f with faultReports := [] }) = applyFaultReport r (s.onFlight fun f => { f with faultReports := [] }) := by
  unfold applyFaultReport
  simp only [trip_onFlight]
  cases h : s.trip.state
  · by_cases h2 : r.faulted &&& ~~~s.trip.present.channelFault = 0#12
    · simp only [h2, if_true]; exact ⟨rfl, rfl⟩
    · simp only [h2, if_false]; cases firstFaulted r.faulted <;> exact ⟨rfl, rfl⟩
  · exact ⟨rfl, rfl⟩

theorem placeAnswer_onFlight (port : Port) (echo : Byte) (r : Reply) (f : InFlight → InFlight) (s : State) :
    placeAnswer port echo r (s.onFlight f) = (placeAnswer port echo r s).onFlight f := by
  unfold placeAnswer
  show (match s.ports[port].context with | .executing lost => _ | _ => _) = _
  cases s.ports[port].context <;> rfl

theorem placeAnswer_flight (port : Port) (echo : Byte) (r : Reply) (s : State) :
    (placeAnswer port echo r s).flight = s.flight := by
  unfold placeAnswer; split <;> rfl

/-- A report of a pass at the engine controller, and the reports behind it. -/
theorem applyReport_behind (r : PassReport) (rest : List PassReport) (s : State) :
    (applyReport r (s.onFlight fun f => { f with passReports := rest })).flight.passReports = rest ∧
    (applyReport r (s.onFlight fun f => { f with passReports := rest })).onFlight
      (fun f => { f with passReports := [] }) = applyReport r (s.onFlight fun f => { f with passReports := [] }) := by
  unfold applyReport
  cases r.ending with
  | discarded a b c =>
    simp only [discardedReport, engine_onFlight]
    cases s.engine.state <;> exact ⟨rfl, rfl⟩
  | delivered n =>
    simp only [deliveredReport, engine_onFlight]
    cases s.engine.state <;> simp only
    · exact ⟨rfl, rfl⟩
    · cases r.old <;> exact ⟨rfl, rfl⟩
    · exact ⟨rfl, rfl⟩
    · cases r.kind
      · exact ⟨rfl, rfl⟩
      · simp only [if_true]
        unfold endStep
        simp only [engine_onFlight]
        cases s.engine.stepPort with
        | none => exact ⟨rfl, rfl⟩
        | some port => simp only; rw [placeAnswer_flight, ← placeAnswer_onFlight]; exact ⟨rfl, rfl⟩

/-- An arrival at the permit table, and the arrivals behind it. -/
theorem takeArrival_behind (a : PermitArrival) (rest : List PermitArrival) (s : State) :
    (takeArrival (s.onFlight fun f => { f with toPermit := rest }) a).flight.toPermit = rest ∧
    (takeArrival (s.onFlight fun f => { f with toPermit := rest }) a).onFlight (fun f => { f with toPermit := [] }) =
      takeArrival (s.onFlight fun f => { f with toPermit := [] }) a := by
  cases a <;> exact ⟨rfl, rfl⟩

end Sys2Proof.Laws
end

