-- ==== Sys2Proof/Laws/Ops.lean ====
section
/-! SUPPORT. What the shared operations can do: the taking and the answering of a request, the checks of rights, numbers and HALTED, and
the queues of notices. -/

namespace Sys2Proof.Laws

open Sys2Proof.Machine

/-! Requests. -/

/-- A request that is taken is performed on the part as the owning block meets it. -/
theorem serveWith_taken {port : Port} {c : Instr} {n : Nat} {s u : State} {live : Bool}
    (h : takeRequest port c n s = some (u, live)) (echo : Byte) (body : Bool → Body) :
    serveWith port c echo n body s = perform port echo live (body live) u := by
  simp [serveWith, h]

theorem serve_taken {port : Port} {c : Instr} {n : Nat} {s u : State} {live : Bool}
    (h : takeRequest port c n s = some (u, live)) (echo : Byte) (body : Body) :
    serve port c echo n body s = perform port echo live body u := serveWith_taken h echo fun _ => body

theorem serveWith_untaken {port : Port} {c : Instr} {n : Nat} {s : State}
    (h : takeRequest port c n s = none) (echo : Byte) (body : Bool → Body) :
    serveWith port c echo n body s = notTaken port n s := by
  simp [serveWith, h]

/-- An answer is placed. -/
theorem perform_answers {body : Body} {u t : State} {r : Reply} (h : body u = (t, some r)) (port : Port) (echo : Byte)
    (live : Bool) : perform port echo live body u = answerIn port echo live r t := by
  simp [perform, h]

/-- No answer is placed. -/
theorem perform_silent {body : Body} {u t : State} (h : body u = (t, none)) (port : Port) (echo : Byte) (live : Bool) :
    perform port echo live body u = t := by
  simp [perform, h]

/-- Taking a request changes the port's unit alone, and happens with RESET_N inactive. -/
theorem takeRequest_some {port : Port} {c : Instr} {n : Nat} {s u : State} {live : Bool}
    (h : takeRequest port c n s = some (u, live)) :
    s.resetActive = false ∧ ∃ x : PortUnit, u = { s with ports := s.ports.set port x } := by
  unfold takeRequest at h
  split at h
  · cases h
  · next hr =>
    refine ⟨by simpa using hr, ?_⟩
    split at h
    · split at h
      · cases h
      · cases h
        refine ⟨{ s.ports[port] with
          context := s.ports[port].context.take, serialOut := statusByte s port :: zeros (n + 3) }, ?_⟩
        simp only [State.onPort, shiftOut, get_set_self, Vector.set_set]
    · split at h
      · cases h; exact ⟨_, rfl⟩
      · cases h

/-- An answer changes the port's unit alone. -/
theorem answerIn_port (port : Port) (echo : Byte) (live : Bool) (r : Reply) (s : State) :
    ∃ x : PortUnit, answerIn port echo live r s = { s with ports := s.ports.set port x } := by
  have keep : s = { s with ports := s.ports.set port s.ports[port] } := by rw [set_get]
  unfold answerIn; split
  · unfold placeAnswer; split
    · exact ⟨_, rfl⟩
    · exact ⟨_, keep⟩
  · exact ⟨_, keep⟩

/-- A request that is not taken changes the port's unit alone. -/
theorem notTaken_port (port : Port) (n : Nat) (s : State) :
    ∃ x : PortUnit, notTaken port n s = { s with ports := s.ports.set port x } := by
  have keep : s = { s with ports := s.ports.set port s.ports[port] } := by rw [set_get]
  unfold notTaken; split
  · exact ⟨_, keep⟩
  · exact ⟨_, rfl⟩

/-! Checks. -/

theorem needRight_held {right : Profile → Bool} {port : Port} {s : State}
    (h : right s.config.profilesInUse[port] = true) (body : Body) : needRight right port body s = body s := by
  simp only [needRight, profileInUse, h, if_true]

theorem needRight_lacking {right : Profile → Bool} {port : Port} {s : State}
    (h : right s.config.profilesInUse[port] = false) (body : Body) :
    needRight right port body s = (s, some ⟨.refused, [0x02#8]⟩) := by
  simp only [needRight, profileInUse, h]; rfl

theorem byteFin_of {n : Nat} {b : Byte} {i : Fin n} (h : b.toNat = i.val) : byteFin n b = some i := by
  have hlt : b.toNat < n := h ▸ i.isLt
  simp only [byteFin, hlt, dif_pos]
  exact congrArg some (Fin.ext h)

theorem byteFin_none {n : Nat} {b : Byte} (h : n ≤ b.toNat) : byteFin n b = none := by
  have : ¬ b.toNat < n := by omega
  simp only [byteFin, this, dif_neg, not_false_iff]

theorem needNumber_of {n : Nat} {b : Byte} {i : Fin n} (h : b.toNat = i.val) (body : Fin n → Body) (s : State) :
    needNumber n b body s = body i s := by
  simp only [needNumber, byteFin_of h]

theorem needNumber_beyond {n : Nat} {b : Byte} (h : n ≤ b.toNat) (body : Fin n → Body) (s : State) :
    needNumber n b body s = (s, some ⟨.refused, [0x01#8]⟩) := by
  simp only [needNumber, byteFin_none h]; rfl

theorem needHalted_halted {s : State} (h : s.engine.state = .halted) (body : Body) : needHalted body s = body s := by
  simp only [needHalted, h]

theorem needHalted_running {s : State} (h : s.engine.state = .running ∨ s.engine.state = .halting) (body : Body) :
    needHalted body s = (s, some ⟨.refused, [0x0D#8]⟩) := by
  rcases h with h | h <;> simp only [needHalted, h] <;> rfl

theorem needHalted_stepping {s : State} (h : s.engine.state = .stepping) (body : Body) :
    needHalted body s = (s, some ⟨.refused, [0x0E#8]⟩) := by
  simp only [needHalted, h]; rfl

/-- The number of a byte that is a number. -/
theorem byte_eq {n : Nat} {b : Byte} {i : Fin n} (h : b.toNat = i.val) : numByte i = b := by
  unfold numByte; rw [← h]; exact BitVec.ofNat_toNat 8 b |>.trans (by simp)

/-! Notices. -/

/-- R178: a queue that fits still fits after an arrival. -/
theorem arrive_fits (n : Notice) (q : NoticeQueue) (h : q.queue.length ≤ 8) : (q.arrive n).queue.length ≤ 8 := by
  unfold NoticeQueue.arrive Config.queueDepth; split
  · simp only [List.length_append, List.length_cons, List.length_nil]; omega
  · exact h

end Sys2Proof.Laws
end

