-- ==== Sys2Proof/Laws/Keeps.lean ====
section
/-! SUPPORT. How a property of the part is carried through a command: through the taking and answering of a request, through the checks
before its body, and through the folds of arrivals. A property that every command keeps is one that every meaning of Dispatch.lean
keeps, and these laws reduce each meaning to its own effect. -/

namespace Sys2Proof.Laws

open Sys2Proof.Machine

variable {P : State → Prop}

/-- A property that says nothing of the port units. -/
def PortFree (P : State → Prop) : Prop := ∀ (s : State) (port : Port) (x : PortUnit), P s → P { s with ports := s.ports.set port x }

/-- An owning block's taking of a request keeps the property. -/
def BodyKeeps (P : State → Prop) (b : Body) : Prop := ∀ s, P s → P (b s).1

theorem unlessReset_keeps {f : State → State} (hf : ∀ s, s.resetActive = false → P s → P (f s)) {s : State} (h : P s) :
    P (s.unlessReset f) := by
  unfold State.unlessReset; split
  · exact h
  · next hr => exact hf s (by simpa using hr) h

/-- A request keeps what its body keeps, taken or not. -/
theorem serveWith_keeps (hp : PortFree P) {port : Port} {c : Instr} {echo : Byte} {n : Nat} {body : Bool → Body}
    (hb : ∀ live, BodyKeeps P (body live)) {s : State} (h : P s) : P (serveWith port c echo n body s) := by
  unfold serveWith; split
  · next t live e =>
    obtain ⟨_, x, rfl⟩ := takeRequest_some e
    have ht := hb live _ (hp s port x h)
    generalize hr : body live { s with ports := s.ports.set port x } = r at ht
    obtain ⟨t, _ | a⟩ := r
    · rw [perform_silent hr]; exact ht
    · rw [perform_answers hr]
      obtain ⟨y, e⟩ := answerIn_port port echo live a t
      rw [e]; exact hp t port y ht
  · obtain ⟨x, e⟩ := notTaken_port port n s
    rw [e]; exact hp s port x h

theorem serve_keeps (hp : PortFree P) {port : Port} {c : Instr} {echo : Byte} {n : Nat} {body : Body}
    (hb : BodyKeeps P body) {s : State} (h : P s) : P (serve port c echo n body s) := serveWith_keeps hp (fun _ => hb) h

/-- A read keeps everything. -/
theorem read_keeps (answer : State → Option Reply) : BodyKeeps P fun s => (s, answer s) := fun _ h => h

theorem needRight_keeps {right : Profile → Bool} {port : Port} {body : Body} (hb : BodyKeeps P body) :
    BodyKeeps P (needRight right port body) := by
  intro s h; unfold needRight; split
  · exact hb s h
  · exact h

theorem needNumber_keeps {n : Nat} {b : Byte} {body : Fin n → Body} (hb : ∀ i, BodyKeeps P (body i)) :
    BodyKeeps P (needNumber n b body) := by
  intro s h; unfold needNumber; split
  · exact h
  · exact hb _ s h

theorem needHalted_keeps {body : Body} (hb : ∀ s, s.engine.state = .halted → P s → P (body s).1) :
    BodyKeeps P (needHalted body) := by
  intro s h; unfold needHalted; split
  · exact h
  · exact h
  · exact h
  · next e => exact hb s e h

theorem checkFields_keeps {α : Type} {n : Nat} {index : Byte} {entry : Except FieldNo α} {body : Fin n → α → Body}
    (hb : ∀ i e, entry = .ok e → BodyKeeps P (body i e)) : BodyKeeps P (checkFields n index entry body) := by
  intro s h; unfold checkFields; split
  · exact h
  · exact h
  · exact hb _ _ rfl s h

theorem needConfigure_keeps {port : Port} {body : Body} (hb : ∀ s, s.engine.state = .halted → P s → P (body s).1) :
    BodyKeeps P (needConfigure port body) := needRight_keeps (needHalted_keeps hb)

/-- A fold of steps of which each keeps the property keeps it. -/
theorem fold_keeps {α : Type} {f : State → α → State} (hf : ∀ s a, P s → P (f s a)) (l : List α) {s : State} (h : P s) :
    P (l.foldl f s) := by
  induction l generalizing s with
  | nil => exact h
  | cons a l ih => exact ih (hf s a h)

/-- The transactions of a port change its unit alone. -/
theorem transaction_port (port : Port) (kind : Byte) (bytes : List Byte) (s : State) :
    ∃ x : PortUnit, transaction port kind bytes s = { s with ports := s.ports.set port x } := by
  unfold transaction; split
  · exact ⟨_, by simp only [requestTransaction, State.onPort, shiftOut, Vector.set_set]; rfl⟩
  · split
    · exact ⟨_, by simp only [fetchTransaction, State.onPort, shiftOut, Vector.set_set]; rfl⟩
    · exact ⟨_, rfl⟩

theorem requestTransaction_port (port : Port) (bytes : List Byte) (s : State) :
    ∃ x : PortUnit, requestTransaction port bytes s = { s with ports := s.ports.set port x } := by
  exact ⟨_, by simp only [requestTransaction, State.onPort, shiftOut, Vector.set_set]; rfl⟩

theorem fetchTransaction_port (port : Port) (n : Nat) (s : State) :
    ∃ x : PortUnit, fetchTransaction port n s = { s with ports := s.ports.set port x } := by
  exact ⟨_, by simp only [fetchTransaction, State.onPort, shiftOut, Vector.set_set]; rfl⟩

/-- A command of a port's transactions, whole or a part, changes the port's unit alone. -/
theorem takePart_port (port : Port) (kind : Byte) (part : TransactionPart) (s : State) :
    ∃ x : PortUnit, takePart port kind part s = { s with ports := s.ports.set port x } := by
  unfold takePart; split
  · exact ⟨_, rfl⟩
  · split
    · split
      · exact transaction_port port kind _ s
      · exact ⟨s.ports[port], by rw [set_get]⟩
    all_goals exact ⟨_, rfl⟩

/-- What the engine controller keeps of the other blocks at a report: the configuration, the permit table, the trip unit, the clock, the
evaluator and the queues. -/
theorem applyReport_rest (r : PassReport) (s : State) : (applyReport r s).config = s.config ∧
    (applyReport r s).table = s.table ∧ (applyReport r s).trip = s.trip ∧ (applyReport r s).ticks = s.ticks ∧
    (applyReport r s).eval = s.eval ∧ (applyReport r s).notices = s.notices := by
  have place : ∀ (p : Port) (e : Byte) (x : Reply) (t : State), (placeAnswer p e x t).config = t.config ∧
      (placeAnswer p e x t).table = t.table ∧ (placeAnswer p e x t).trip = t.trip ∧ (placeAnswer p e x t).ticks = t.ticks ∧
      (placeAnswer p e x t).eval = t.eval ∧ (placeAnswer p e x t).notices = t.notices := by
    intro p e x t; unfold placeAnswer; split <;> exact ⟨rfl, rfl, rfl, rfl, rfl, rfl⟩
  unfold applyReport; split
  · unfold deliveredReport; split
    · exact ⟨rfl, rfl, rfl, rfl, rfl, rfl⟩
    · exact ⟨rfl, rfl, rfl, rfl, rfl, rfl⟩
    · split <;> exact ⟨rfl, rfl, rfl, rfl, rfl, rfl⟩
    · split
      · unfold endStep; simp only; split
        · exact ⟨rfl, rfl, rfl, rfl, rfl, rfl⟩
        · exact place _ _ _ _
      · exact ⟨rfl, rfl, rfl, rfl, rfl, rfl⟩
  · unfold discardedReport; simp only; split <;> exact ⟨rfl, rfl, rfl, rfl, rfl, rfl⟩

/-- The reports taken at a RESUME keep the same blocks. -/
theorem drainReports_rest (s : State) : (drainReports s).config = s.config ∧ (drainReports s).table = s.table ∧
    (drainReports s).trip = s.trip ∧ (drainReports s).ticks = s.ticks ∧ (drainReports s).eval = s.eval ∧
    (drainReports s).notices = s.notices := by
  unfold drainReports
  refine fold_keeps (P := fun t => t.config = s.config ∧ t.table = s.table ∧ t.trip = s.trip ∧ t.ticks = s.ticks ∧
    t.eval = s.eval ∧ t.notices = s.notices) (fun t a h => ?_) _ ⟨rfl, rfl, rfl, rfl, rfl, rfl⟩
  obtain ⟨a1, a2, a3, a4, a5, a6⟩ := applyReport_rest a t
  exact ⟨a1.trans h.1, a2.trans h.2.1, a3.trans h.2.2.1, a4.trans h.2.2.2.1, a5.trans h.2.2.2.2.1, a6.trans h.2.2.2.2.2⟩

/-- An arrival at the permit table changes the table and what is in flight alone. -/
theorem takeArrival_rest (s : State) (a : PermitArrival) :
    ∃ (t : PermitTable) (f : InFlight), takeArrival s a = { s with table := t, flight := f } := by
  unfold takeArrival; split <;> exact ⟨_, _, rfl⟩

theorem drainPermit_rest (s : State) :
    ∃ (t : PermitTable) (f : InFlight), drainPermit s = { s with table := t, flight := f } := by
  unfold drainPermit
  refine fold_keeps (P := fun u => ∃ (t : PermitTable) (f : InFlight), u = { s with table := t, flight := f })
    (fun u a h => ?_) _ ⟨_, _, rfl⟩
  obtain ⟨t, f, rfl⟩ := h
  obtain ⟨t', f', e⟩ := takeArrival_rest { s with table := t, flight := f } a
  exact ⟨t', f', e⟩

/-- A fault report changes the trip unit and what is in flight alone. -/
theorem applyFaultReport_rest (r : FaultReport) (s : State) :
    ∃ (t : TripUnit) (f : InFlight), applyFaultReport r s = { s with trip := t, flight := f } := by
  unfold applyFaultReport; simp only; split
  · exact ⟨_, _, rfl⟩
  · split
    · exact ⟨_, _, rfl⟩
    · split <;> exact ⟨_, _, rfl⟩

/-- A cause that arrives changes the trip unit and what is in flight alone. -/
theorem causeArrives_rest (cause : TripCause) (s : State) :
    ∃ (t : TripUnit) (f : InFlight), causeArrives cause s = { s with trip := t, flight := f } := by
  unfold causeArrives; split <;> exact ⟨_, _, rfl⟩

end Sys2Proof.Laws
end

