-- ==== Sys2Proof/Laws/Measure.lean ====
section
/-! SUPPORT. The pass: the pending values of the terms as one consistent set (R32), and what a scan's pass is. -/

namespace Sys2Proof.Laws

open Sys2Proof.Machine

/-- What a source reads depends on the pending values of the higher-numbered terms alone (R25). -/
theorem sourceValue_congr (s : State) (view : PassView) (v w : Vector TermPending 24) (i : TermId)
    (h : ∀ k, i < k → v[k] = w[k]) (x : Source) : sourceValue s view v i x = sourceValue s view w i x := by
  cases x with
  | term k =>
    show (if i < k then v[k].output else _) = (if i < k then w[k].output else _)
    by_cases hk : i < k
    · rw [if_pos hk, if_pos hk, h k hk]
    · rw [if_neg hk, if_neg hk]
  | _ => rfl

theorem evalTerm_congr (s : State) (view : PassView) (v w : Vector TermPending 24) (i : TermId)
    (h : ∀ k, i < k → v[k] = w[k]) : evalTerm s view v i = evalTerm s view w i := by
  unfold evalTerm
  simp only [sourceValue_congr s view v w i h]

/-- Terms evaluated downward: each value stands as if all were evaluated at once, and the others are left. -/
theorem evalFold (s : State) (view : PassView) (l : List TermId) (v : Vector TermPending 24)
    (hl : l.Pairwise fun a b => b < a) :
    let w := l.foldl (fun pend (i : TermId) => pend.set i (evalTerm s view pend i)) v
    (∀ i ∈ l, w[i] = evalTerm s view w i) ∧ ∀ i, i ∉ l → w[i] = v[i] := by
  induction l generalizing v with
  | nil => exact ⟨fun i h => absurd h (by simp), fun i _ => rfl⟩
  | cons a l ih =>
    obtain ⟨hlt, hp⟩ := List.pairwise_cons.mp hl
    obtain ⟨h1, h2⟩ := ih (v.set a (evalTerm s view v a)) hp
    have hna : a ∉ l := fun h => absurd (hlt a h) (lt_irrefl a)
    refine ⟨fun i hi => ?_, fun i hi => ?_⟩
    · rcases List.mem_cons.mp hi with rfl | hi
      · simp only [List.foldl_cons]
        rw [h2 i hna, get_set_self]
        refine evalTerm_congr s view _ _ i fun k hk => ?_
        have hki : k ∉ l := fun h => absurd (hlt k h) (lt_asymm hk)
        rw [h2 k hki, get_set_ne v i k _ (ne_of_lt hk)]
      · exact h1 i hi
    · have hi' := List.not_mem_of_not_mem_cons hi
      have hne : a ≠ i := fun e => hi (e ▸ List.mem_cons_self)
      simp only [List.foldl_cons]
      rw [h2 i hi', get_set_ne v a i _ hne]

/-- R32: the pending values of a pass are one consistent set. -/
theorem evalTerms_get (s : State) (view : PassView) (i : TermId) :
    (evalTerms s view)[i] = evalTerm s view (evalTerms s view) i := by
  have hmem : ∀ j : TermId, j ∈ evaluationOrder := by decide
  have hp : evaluationOrder.Pairwise fun a b => b < a := by decide
  exact (evalFold s view evaluationOrder _ hp).1 i (hmem i)

/-- A sample is the level held to the range. -/
theorem clamp_eq (e : ChannelEntry) (v : Int) : e.clamp v = max e.low (min e.high v) := by
  have : e.low ≤ e.high := by unfold ChannelEntry.low ChannelEntry.high; cases e.negative <;> simp
  unfold ChannelEntry.clamp
  split
  · omega
  · split <;> omega

/-- R33: the pass of a scan with nothing left to convert, when no watch hits. -/
theorem takePass_delivers {din pfb : Word16} {sc : Scan} {s : State} (hs : s.scan.state = .inProgress sc)
    (ht : sc.todo = []) (h0 : watchHit sc din s 0 = false) (h1 : watchHit sc din s 1 = false) :
    takePass din pfb s = deliverPass sc din pfb (passPending sc din s) s := by
  simp [takePass, hs, ht, runPass, h0, h1]

/-- R34: the pass when a watch hits. -/
theorem takePass_discards {din pfb : Word16} {sc : Scan} {s : State} (hs : s.scan.state = .inProgress sc)
    (ht : sc.todo = []) (h : watchHit sc din s 0 = true ∨ watchHit sc din s 1 = true) :
    takePass din pfb s =
      discardPass sc.kind (watchHit sc din s 0) (watchHit sc din s 1) (passPending sc din s) s := by
  have : (watchHit sc din s 0 || watchHit sc din s 1) = true := by simpa using h
  simp only [takePass, hs, ht, runPass, this, List.isEmpty_nil, if_true]

end Sys2Proof.Laws
end

