-- ==== Sys2Proof/Laws/Ports.lean ====
section
/-! SUPPORT. The transactions of a port in parts: what each part makes of the port's unit, what several bytes make of it, and when a
frame's verdict falls. -/

namespace Sys2Proof.Laws

open Sys2Proof.Machine

/-! The part with one port unit replaced. -/

@[simp] theorem ports_withPort (s : State) (port : Port) (u : PortUnit) : (s.withPort port u).ports[port] = u := by
  simp [-Fin.getElem_fin, State.withPort]

@[simp] theorem withPort_withPort (s : State) (port : Port) (u v : PortUnit) :
    (s.withPort port u).withPort port v = s.withPort port v := by
  simp [State.withPort]

@[simp] theorem resetActive_withPort (s : State) (port : Port) (u : PortUnit) :
    (s.withPort port u).resetActive = s.resetActive := rfl

theorem onPort_eq (s : State) (port : Port) (f : PortUnit → PortUnit) : s.onPort port f = s.withPort port (f s.ports[port]) := rfl

theorem withPort_self (s : State) (port : Port) : s.withPort port s.ports[port] = s := by
  unfold State.withPort; rw [set_get]

/-! The parts, with RESET_N inactive. -/

variable {s : State} (port : Port) (kind : Byte)

theorem takePart_opening (h : s.resetActive = false) :
    takePart port kind .opening s = s.withPort port (s.ports[port].beginTransaction (statusByte s port)) := by
  unfold takePart; rw [if_neg (by simp [h])]; rfl

theorem takePart_kindByte (h : s.resetActive = false) :
    takePart port kind .kindByte s = s.withPort port (s.ports[port].takeKind kind) := by
  unfold takePart; rw [if_neg (by simp [h])]; rfl

theorem takePart_bytes (h : s.resetActive = false) (bytes : List Byte) :
    takePart port kind (.bytes bytes) s = s.withPort port (bytes.foldl (PortUnit.takeByte port) s.ports[port]) := by
  unfold takePart; rw [if_neg (by simp [h])]; rfl

theorem takePart_closing (h : s.resetActive = false) :
    takePart port kind .closing s = s.withPort port (s.ports[port].endTransaction port) := by
  unfold takePart; rw [if_neg (by simp [h])]; rfl

theorem takePart_whole (h : s.resetActive = false) (ht : s.ports[port].transfer = .none) (bytes : List Byte) :
    takePart port kind (.whole bytes) s = transaction port kind bytes s := by
  unfold takePart; rw [if_neg (by simp [h])]; simp only [PortUnit.atRest, ht, decide_true, if_true]

/-- A command of a port's transactions is its part. -/
theorem exec_part {c : Instr} {port : Port} {part : TransactionPart} (h : partOf c = some (port, part)) (s : State) :
    ∃ kind, exec c s = .next (takePart port kind part s) := by
  unfold partOf at h
  split at h <;> first | (cases h; exact ⟨_, rfl⟩) | cases h

/-- The four parts of a transaction in a row. -/
theorem takePart_row (h : s.resetActive = false) (ht : s.ports[port].transfer = .none) (bytes : List Byte) :
    takePart port kind .closing (takePart port kind (.bytes bytes)
      (takePart port kind .kindByte (takePart port kind .opening s))) =
    s.withPort port (PortUnit.endTransaction port (bytes.foldl (PortUnit.takeByte port) { s.ports[port] with
      transfer := .ofKind kind s.ports[port].context, serialOut := [statusByte s port] })) := by
  have h1 : s.ports[port].beginTransaction (statusByte s port) =
      { s.ports[port] with transfer := .first (statusByte s port), serialOut := [] } := by
    unfold PortUnit.beginTransaction; rw [ht]
  rw [takePart_opening port kind h, h1, takePart_kindByte, takePart_bytes, takePart_closing] <;>
    simp [-Fin.getElem_fin, h, PortUnit.takeKind]

/-! Several bytes. -/

/-- R163: 00H leaves for every byte of an ignored transaction. -/
theorem takeBytes_ignored (bytes : List Byte) (u : PortUnit) (h : u.transfer = .ignored) :
    bytes.foldl (PortUnit.takeByte port) u = { u with serialOut := u.serialOut ++ List.replicate bytes.length 0#8 } := by
  induction bytes generalizing u with
  | nil => simp
  | cons b l ih =>
    have e : u.takeByte port b = u.shift 0#8 := by simp [PortUnit.takeByte, h]
    rw [List.foldl_cons, e, ih (u.shift 0#8) (by simp [PortUnit.shift, h])]
    simp [PortUnit.shift, List.replicate_succ]

/-- R143, R170: a transaction that a hard reset has cut short changes nothing. -/
theorem takeBytes_cut (bytes : List Byte) (u : PortUnit) (h : u.transfer = .cut) :
    bytes.foldl (PortUnit.takeByte port) u = u := by
  induction bytes with
  | nil => rfl
  | cons b l ih =>
    have e : u.takeByte port b = u := by simp [PortUnit.takeByte, h]
    rw [List.foldl_cons, e]; exact ih

/-- R168: the frame leaves, then 00H; the slot is emptied when the last byte of an answer has left. -/
theorem takeBytes_fetch (bytes rest : List Byte) (answer : Bool) (u : PortUnit) (h : u.transfer = .fetch rest answer) :
    bytes.foldl (PortUnit.takeByte port) u = { u with
      context := if answer = true ∧ rest ≠ [] ∧ rest.length ≤ bytes.length then .idle else u.context
      serialOut := u.serialOut ++ (rest.take bytes.length ++ List.replicate (bytes.length - rest.length) 0#8)
      transfer := .fetch (rest.drop bytes.length) answer } := by
  induction bytes generalizing u rest with
  | nil => cases rest <;> simp [← h]
  | cons b l ih =>
    cases rest with
    | nil =>
      have e : u.takeByte port b = u.shift 0#8 := by simp [PortUnit.takeByte, h]
      rw [List.foldl_cons, e, ih [] (u.shift 0#8) (by simp [PortUnit.shift, h])]
      simp [PortUnit.shift, List.replicate_succ]
    | cons x r =>
      have e : u.takeByte port b =
          { u.shift x with transfer := .fetch r answer, context := u.context.sent answer r } := by
        simp [PortUnit.takeByte, h]
      rw [List.foldl_cons, e, ih r _ rfl]
      cases r <;> cases answer <;> simp [PortUnit.shift, PortContext.sent]

/-! Frames. -/

theorem frameEnds_iff (bytes : List Byte) : frameEnds bytes = true ↔
    ∃ (code len : Byte) (rest : List Byte), bytes = code :: len :: rest ∧ (32 < len.toNat ∨ len.toNat < rest.length) := by
  unfold frameEnds; split
  · next c len rest =>
    constructor
    · intro h; rw [Bool.or_eq_true] at h
      exact ⟨c, len, rest, rfl, h.imp of_decide_eq_true of_decide_eq_true⟩
    · rintro ⟨c', len', rest', e, h⟩; cases e
      rw [Bool.or_eq_true]; exact h.imp decide_eq_true decide_eq_true
  · next hn =>
    constructor
    · intro h; cases h
    · rintro ⟨c', len', rest', e, h⟩; exact absurd e (hn c' len' rest')

/-- R166: the verdict of a frame that has ended does not look at what follows. -/
theorem judgeFrame_append {bytes : List Byte} (h : frameEnds bytes = true) (more : List Byte) :
    judgeFrame (bytes ++ more) = judgeFrame bytes := by
  obtain ⟨code, len, rest, rfl, h⟩ := (frameEnds_iff bytes).mp h
  simp only [List.cons_append, judgeFrame]
  split
  · rfl
  · next hl =>
    have hr : len.toNat < rest.length := by simp only [Config.maxPayload] at hl; omega
    have e1 : (rest ++ more).take len.toNat = rest.take len.toNat := List.take_append_of_le_length (by omega)
    have e2 : (rest ++ more).drop len.toNat = rest.drop len.toNat ++ more := List.drop_append_of_le_length (by omega)
    rw [e1, e2]
    cases hd : rest.drop len.toNat with
    | nil => rw [List.drop_eq_nil_iff] at hd; omega
    | cons x l => rfl

/-- R166: a frame that has not ended is truncated, and echoes its code. -/
theorem judgeFrame_short {bytes : List Byte} (h : frameEnds bytes = false) :
    judgeFrame bytes = .failed .truncated (bytes.headD 0#8) := by
  have hn : ¬ frameEnds bytes = true := by simp [h]
  match bytes with
  | [] => rfl
  | [_] => rfl
  | code :: len :: rest =>
    simp only [frameEnds_iff, not_exists, not_and, not_or] at hn
    obtain ⟨h1, h2⟩ := hn code len rest rfl
    have hd : rest.drop len.toNat = [] := List.drop_eq_nil_of_le (by omega)
    simp only [judgeFrame, Config.maxPayload, if_neg h1, hd, List.headD_cons]

/-- R166: a frame in the middle: bytes are kept up to the one that ends it, whose verdict falls at once; the rest is ignored. -/
theorem takeBytes_request (bytes received : List Byte) (u : PortUnit) (h : u.transfer = .request received)
    (hr : frameEnds received = false) :
    bytes.foldl (PortUnit.takeByte port) u =
      if frameEnds (received ++ bytes) = true then
        { u.receive port (received ++ bytes) with
          transfer := .ignored, serialOut := u.serialOut ++ List.replicate bytes.length 0#8 }
      else { u with
        transfer := .request (received ++ bytes), serialOut := u.serialOut ++ List.replicate bytes.length 0#8 } := by
  have hout : ∀ (bs : List Byte), (u.receive port bs).serialOut = u.serialOut := by
    intro bs; unfold PortUnit.receive; split
    · rfl
    · split
      · rfl
      · unfold PortUnit.takeFrame; split <;> rfl
  induction bytes generalizing u received with
  | nil => simp [hr, h]; simp [← h]
  | cons b l ih =>
    rw [List.foldl_cons]
    have hb : u.takeByte port b = if frameEnds (received ++ [b]) = true then
        { (u.receive port (received ++ [b])).shift 0#8 with transfer := .ignored }
        else { u.shift 0#8 with transfer := .request (received ++ [b]) } := by
      unfold PortUnit.takeByte; rw [h]
    have hassoc : received ++ b :: l = received ++ [b] ++ l := by simp
    by_cases he : frameEnds (received ++ [b]) = true
    · have hrec : u.receive port (received ++ [b] ++ l) = u.receive port (received ++ [b]) := by
        unfold PortUnit.receive; rw [judgeFrame_append he]
      have hend : frameEnds (received ++ [b] ++ l) = true := by
        obtain ⟨c, len, rest, e, hx⟩ := (frameEnds_iff _).mp he
        refine (frameEnds_iff _).mpr ⟨c, len, rest ++ l, by rw [e]; rfl, ?_⟩
        rw [List.length_append]; omega
      rw [hb, if_pos he, takeBytes_ignored port l _ rfl, hassoc, if_pos hend, hrec]
      simp [PortUnit.shift, hout, List.replicate_succ]
    · have he' : frameEnds (received ++ [b]) = false := by simpa using he
      rw [hb, if_neg he, ih (received ++ [b]) { u.shift 0#8 with transfer := .request (received ++ [b]) } rfl he'
        (fun bs => by
          unfold PortUnit.receive; split
          · rfl
          · split
            · rfl
            · unfold PortUnit.takeFrame; split <;> rfl), hassoc]
      have hrec : ∀ bs x, ({ u.shift 0#8 with transfer := x } : PortUnit).receive port bs =
          { u.receive port bs with serialOut := u.serialOut ++ [0#8], transfer := x } := by
        intro bs x; unfold PortUnit.receive PortUnit.shift; simp only; split
        · rfl
        · split
          · rfl
          · unfold PortUnit.takeFrame; split <;> rfl
      split
      · rw [hrec]; simp [PortUnit.shift, List.replicate_succ]
      · simp [PortUnit.shift, List.replicate_succ]

/-- R163, R166, R167: a REQUEST transaction, from its kind byte to its end. -/
theorem requestRow (bytes : List Byte) (u : PortUnit) (h : u.transfer = .request []) :
    PortUnit.endTransaction port (bytes.foldl (PortUnit.takeByte port) u) =
      { u.receive port bytes with
        transfer := .none, serialOut := u.serialOut ++ List.replicate bytes.length 0#8 } := by
  rw [takeBytes_request port bytes [] u h rfl, List.nil_append]
  split
  · rfl
  · simp only [PortUnit.endTransaction]
    unfold PortUnit.receive; simp only; split
    · rfl
    · split
      · rfl
      · unfold PortUnit.takeFrame; split <;> rfl

end Sys2Proof.Laws
end

