-- ==== Sys2Proof/Laws/Sound.lean ====
section
/-! SUPPORT. The permit table's events keep it sound: no two members of a group held, the limit, one record a port, queues in order, closed
permits empty, and TRIPPED empty. Departures keep it since they only take away, grants since each asks for eligibility. -/

namespace Sys2Proof.Laws

open Sys2Proof.Machine

/-- The three properties of Safety.lean that speak of the permit table. -/
def TableSound (c : ConfigStore) (t : PermitTable) : Prop :=
  groupsExclude c t ∧ recordsSound c t ∧ trippedEmpties t

variable {c : ConfigStore} {t u : PermitTable}

theorem nil_of_map_sublist {α β : Type} {f : α → β} {l m : List α} (h : (l.map f).Sublist (m.map f)) (hm : m = []) : l = [] := by
  subst hm; exact List.map_eq_nil_iff.mp (List.sublist_nil.mp h)

/-- A record that only shrinks stays sound. -/
theorem RecordShrinks.sound {e : PermitEntry} {r r' : PermitRecord} (h : RecordShrinks r r') (hr : RecordSound e r) :
    RecordSound e r' := by
  have hq : (r'.queue.map Claim.port).Sublist (r.queue.map Claim.port) := by
    simpa [Function.comp_def] using h.queue.map Prod.fst
  refine ⟨?_, (h.holders.append hq).nodup hr.onePerPort, ?_, fun hc => ?_⟩
  · have := h.holders.length_le; simp only [List.length_map] at this; exact this.trans hr.holdersFit
  · have hp : (r.queue.map fun x => (x.port, x.priority)).Pairwise fun a b => b.2 ≤ a.2 :=
      List.pairwise_map.mpr hr.queueOrdered
    exact List.pairwise_map.mp (hp.sublist h.queue)
  · have old : e.enabled = false ∨ r.lock = true → r'.holders = [] ∧ r'.queue = [] := fun ho =>
      ⟨nil_of_map_sublist h.holders (hr.closedEmpty ho).1, nil_of_map_sublist h.queue (hr.closedEmpty ho).2⟩
    rcases hc with hc | hc
    · exact old (Or.inl hc)
    · rcases h.lock hc with hl | hl
      · exact old (Or.inr hl)
      · exact hl

/-- Departures keep the table sound. -/
theorem Shrinks.sound (h : Shrinks t u) (ht : TableSound c t) : TableSound c u := by
  have held : ∀ p : PermitId, u.records[p].holders ≠ [] → t.records[p].holders ≠ [] := fun p hp e =>
    hp (nil_of_map_sublist (h.records p).holders e)
  refine ⟨fun g p q hp hq h1 h2 => ht.1 g p q hp hq (held p h1) (held q h2),
    fun p => RecordShrinks.sound (h.records p) (ht.2.1 p), fun he p => ?_⟩
  have := ht.2.2 (h.trip ▸ he) p
  exact ⟨nil_of_map_sublist (h.records p).holders this.1, nil_of_map_sublist (h.records p).queue this.2⟩

/-- An eligible permit is enabled, not locked, in NORMAL, and the only member of its group that may have holders. -/
theorem eligible_facts {p : PermitId} (h : eligible c t p = true) : c.permits[p].enabled = true ∧
    t.records[p].lock = false ∧ t.trip = .normal ∧
    ∀ (g : GroupId) (q : PermitId), c.permits[p].group = some g → c.permits[q].group = some g →
      t.records[q].holders ≠ [] → q = p := by
  simp only [eligible, Bool.and_eq_true, Bool.not_eq_true', decide_eq_true_eq] at h
  obtain ⟨⟨⟨⟨⟨h1, h2⟩, h3⟩, h4⟩, h5⟩, h6⟩ := h
  refine ⟨h1, h2, h4, fun g q hp hq hh => ?_⟩
  simp only [groupAdmits, hp, Bool.and_eq_true, Bool.not_eq_true', otherMemberHeld, List.any_eq_false] at h6
  have := h6.1 q (mem_allPermits q)
  by_contra hne
  apply this
  simp only [isMember, hq, Bool.and_eq_true, decide_eq_true_eq, Bool.not_eq_true', List.isEmpty_eq_false_iff]
  exact ⟨⟨hne, trivial⟩, hh⟩

/-- A record of an eligible permit changed so that it stays sound keeps the table sound. -/
theorem setRecord_sound {p : PermitId} {r : PermitRecord} (ht : TableSound c t) (he : eligible c t p = true)
    (hr : RecordSound c.permits[p] r) : TableSound c (t.setRecord p r) := by
  obtain ⟨_, _, h3, h4⟩ := eligible_facts he
  have get : ∀ q : PermitId, (t.setRecord p r).records[q] = if p = q then r else t.records[q] := fun q => by
    simp only [PermitTable.setRecord, get_set]
  refine ⟨fun g a b ha hb h1 h2 => ?_, fun q => ?_, fun hn => ?_⟩
  · rw [get] at h1 h2
    by_cases ea : p = a
    · by_cases eb : p = b
      · exact ea.symm.trans eb
      · rw [if_neg eb] at h2
        subst ea; exact (h4 g b ha hb h2).symm
    · rw [if_neg ea] at h1
      by_cases eb : p = b
      · subst eb; exact h4 g a hb ha h1
      · rw [if_neg eb] at h2; exact ht.1 g a b ha hb h1 h2
  · rw [get]; split
    · next e => subst e; exact hr
    · exact ht.2.1 q
  · exact absurd (h3.symm.trans hn) (by decide)

/-- R77: a grant of heads within the limit keeps a record sound. -/
theorem grantHeads_sound {e : PermitEntry} {r : PermitRecord} (hr : RecordSound e r) (h1 : e.enabled = true)
    (h2 : r.lock = false) : RecordSound e (r.grantHeads e.limit) := by
  have hports : portsOf (r.grantHeads e.limit) = portsOf r := by
    simp only [portsOf, PermitRecord.grantHeads, List.map_append, List.map_map, List.append_assoc]
    congr 1
    have : (Holder.port ∘ fun x : Claim => (⟨x.port, .fresh⟩ : Holder)) = Claim.port := rfl
    rw [this, ← List.map_append, List.take_append_drop]
  refine ⟨?_, hports ▸ hr.onePerPort, hr.queueOrdered.sublist (List.drop_sublist _ _), fun hc => ?_⟩
  · have := hr.holdersFit
    simp only [PermitRecord.grantHeads, List.length_append, List.length_map, List.length_take]; omega
  · rcases hc with hc | hc
    · rw [h1] at hc; cases hc
    · exact absurd (h2.symm.trans hc) (by decide)

theorem grantPermit_sound {w : TableWork} (p : PermitId) (h : TableSound c w.table) : TableSound c (grantPermit c w p).table := by
  unfold grantPermit; split
  · next he =>
    obtain ⟨h1, h2, _, _⟩ := eligible_facts he
    exact setRecord_sound h he (grantHeads_sound (h.2.1 p) h1 h2)
  · exact h

/-- R76 to R78: grant examination keeps the table sound. -/
theorem grantExamination_sound {w : TableWork} (h : TableSound c w.table) : TableSound c (grantExamination c w).table := by
  have fold : ∀ {α : Type} (f : TableWork → α → TableWork), (∀ w a, TableSound c w.table → TableSound c (f w a).table) →
      ∀ (l : List α) (w : TableWork), TableSound c w.table → TableSound c (l.foldl f w).table := by
    intro α f hf l; induction l with
    | nil => exact fun _ h => h
    | cons a l ih => exact fun w h => ih _ (hf w a h)
  refine fold _ (fun w g h => ?_) _ _ (fold _ (fun w p h => ?_) _ _ h)
  · unfold grantGroup; split
    · exact h
    · exact grantPermit_sound _ h
  · unfold grantUngrouped; split
    · exact grantPermit_sound p h
    · exact h

/-- R50. -/
theorem tablePassResult_sound (r : PassResult) (h : TableSound c t) : TableSound c (tablePassResult c r t).table :=
  grantExamination_sound (Shrinks.sound ((recordConditions_shrinks r t).trans
    ((Shrinks.fold _ (compareReadback_shrinks c r) allPermits (TableWork.start _)).trans
      (Shrinks.fold _ (revokeOnLoss_shrinks c) allPermits _))) h)

/-- R96. -/
theorem tableTick_sound (src : SourceId) (h : TableSound c t) : TableSound c (tableTick c src t).table := by
  unfold tableTick; split
  · have hs := Shrinks.sound ((settleTicks_shrinks c src allGroups t).trans
      ((Shrinks.fold _ (leaseTick_shrinks c src) allPermits (TableWork.start _)).trans
        (Shrinks.fold _ (waitTick_shrinks c src) allPermits _))) h
    simp only; split
    · exact grantExamination_sound hs
    · exact hs
  · exact h

/-- R58. -/
theorem tableEngineChange_sound (e : EngineState) (h : TableSound c t) : TableSound c (tableEngineChange c e t).table := by
  unfold tableEngineChange; simp only; split
  · exact grantExamination_sound (w := TableWork.start { t with engine := e }) h
  · exact h

/-- R59, R85. -/
theorem tableResume_sound (commits : Bool) (h : TableSound c t) : TableSound c (tableResume c commits t).table := by
  have forget : ∀ u : PermitTable, TableSound c u → TableSound c { u.forgetConditions with engine := .running } := fun u hu =>
    Shrinks.sound (t := u) ⟨rfl, fun p => by
      simp only [PermitTable.forgetConditions, get_map]
      exact ⟨List.Sublist.refl _, List.Sublist.refl _, fun h => Or.inl h⟩⟩ hu
  unfold tableResume
  refine grantExamination_sound (forget _ ?_)
  split
  · exact Shrinks.sound (Shrinks.fold _ (withdrawRights_shrinks c) allPermits (TableWork.start t)) h
  · exact h

/-- R60, R66: a table with every record emptied is sound in either trip state. -/
theorem emptied_sound {v : PermitTable} (h : TableSound c t) (hv : ∀ p : PermitId, v.records[p].holders = [] ∧
    v.records[p].queue = []) : TableSound c v := by
  refine ⟨fun g p q _ _ h1 => absurd (hv p).1 h1, fun p => ⟨?_, ?_, ?_, fun _ => hv p⟩, fun _ => hv⟩
  · rw [(hv p).1]; exact Nat.zero_le _
  · simp only [portsOf, (hv p).1, (hv p).2]; exact List.nodup_nil
  · rw [(hv p).2]; exact List.Pairwise.nil

/-! Requests (R72, R74, R43). -/

/-- R72: an immediate grant keeps a record sound. -/
theorem addHolder_sound {e : PermitEntry} {r : PermitRecord} {port : Port} (hr : RecordSound e r) (h1 : e.enabled = true)
    (h2 : r.lock = false) (hroom : r.holders.length < e.limit) (hq : r.queue = []) (hport : isHolder r port = false) :
    RecordSound e (r.addHolder port) := by
  simp only [isHolder, List.any_eq_false, decide_eq_true_eq] at hport
  refine ⟨?_, ?_, ?_, fun hc => ?_⟩
  · simp only [PermitRecord.addHolder, List.length_append, List.length_singleton]; omega
  · have := hr.onePerPort
    simp only [portsOf, hq, List.map_nil, List.append_nil] at this
    simp only [portsOf, PermitRecord.addHolder, hq, List.map_append, List.map_cons, List.map_nil, List.append_nil]
    rw [List.nodup_append]
    refine ⟨this, by simp, ?_⟩
    rintro a ha b hb rfl
    obtain ⟨x, hx, e⟩ := List.mem_map.1 ha
    exact hport x hx (e.trans (List.mem_singleton.1 hb))
  · simp only [PermitRecord.addHolder, hq]; exact List.Pairwise.nil
  · rcases hc with hc | hc
    · rw [h1] at hc; cases hc
    · exact absurd (h2.symm.trans hc) (by decide)

/-- R74: the claims ahead of a new one and those behind it are the queue. -/
theorem aheadOf_append (q : Fin 4) (l : List Claim) : aheadOf q l ++ l.drop (aheadOf q l).length = l :=
  List.prefix_iff_eq_append.mp (List.takeWhile_prefix _)

theorem insertClaim_perm (x : Claim) (l : List Claim) : (insertClaim x l).Perm (x :: l) := by
  unfold insertClaim
  refine List.perm_middle.trans (List.Perm.cons _ ?_)
  rw [aheadOf_append]

/-- R74: the queue stays in order of priority. -/
theorem insertClaim_ordered (x : Claim) {l : List Claim} (h : l.Pairwise fun a b => b.priority ≤ a.priority) :
    (insertClaim x l).Pairwise fun a b => b.priority ≤ a.priority := by
  unfold insertClaim aheadOf
  induction l with
  | nil => simp
  | cons a l ih =>
    rw [List.pairwise_cons] at h
    simp only [List.takeWhile_cons]
    split
    · next hax =>
      simp only [List.cons_append, List.length_cons, List.drop_succ_cons, List.pairwise_cons]
      refine ⟨fun b hb => ?_, ih h.2⟩
      simp only [List.mem_append, List.mem_cons] at hb
      rcases hb with hb | rfl | hb
      · exact h.1 b ((List.takeWhile_sublist _).subset hb)
      · simpa using hax
      · exact h.1 b (List.mem_of_mem_drop hb)
    · next hax =>
      have hlt : a.priority < x.priority := by simpa using hax
      simp only [List.nil_append, List.length_nil, List.drop_zero, List.pairwise_cons]
      refine ⟨fun b hb => ?_, h⟩
      rcases List.mem_cons.1 hb with rfl | hb
      · exact hlt.le
      · exact (h.1 b hb).trans hlt.le

/-- R74: a queued claim keeps a record sound. -/
theorem insertClaim_sound {e : PermitEntry} {r : PermitRecord} {x : Claim} (hr : RecordSound e r) (h1 : e.enabled = true)
    (h2 : r.lock = false) (hh : isHolder r x.port = false) (hw : isWaiter r x.port = false) :
    RecordSound e { r with queue := insertClaim x r.queue } := by
  simp only [isHolder, isWaiter, List.any_eq_false, decide_eq_true_eq] at hh hw
  refine ⟨hr.holdersFit, ?_, insertClaim_ordered x hr.queueOrdered, fun hc => ?_⟩
  · have hp : (r.holders.map Holder.port ++ (insertClaim x r.queue).map Claim.port).Perm (x.port :: portsOf r) := by
      refine (List.Perm.append_left _ ((insertClaim_perm x r.queue).map _)).trans ?_
      simp only [List.map_cons, portsOf]
      exact List.perm_middle
    show (r.holders.map Holder.port ++ (insertClaim x r.queue).map Claim.port).Nodup
    rw [hp.nodup_iff, List.nodup_cons]
    refine ⟨fun hm => ?_, hr.onePerPort⟩
    simp only [portsOf, List.mem_append, List.mem_map] at hm
    rcases hm with ⟨y, hy, e⟩ | ⟨y, hy, e⟩
    · exact hh y hy e
    · exact hw y hy e
  · rcases hc with hc | hc
    · rw [h1] at hc; cases hc
    · exact absurd (h2.symm.trans hc) (by decide)

/-- A record changed to a sound one with the same holders keeps a table in NORMAL sound. -/
theorem setRecord_sound_kept {p : PermitId} {r : PermitRecord} (ht : TableSound c t) (htrip : t.trip ≠ .tripped)
    (hh : r.holders = t.records[p].holders) (hr : RecordSound c.permits[p] r) : TableSound c (t.setRecord p r) := by
  have get : ∀ q : PermitId, (t.setRecord p r).records[q] = if p = q then r else t.records[q] := fun q => by
    simp only [PermitTable.setRecord, get_set]
  have held : ∀ q : PermitId, (t.setRecord p r).records[q].holders = t.records[q].holders := fun q => by
    rw [get]; split
    · next e => subst e; exact hh
    · rfl
  refine ⟨fun g a b ha hb h1 h2 => ht.1 g a b ha hb (held a ▸ h1) (held b ▸ h2), fun q => ?_, fun hn => absurd hn htrip⟩
  rw [get]; split
  · next e => subst e; exact hr
  · exact ht.2.1 q

/-- R69: a claim that passes the checks meets an enabled, unlocked permit in NORMAL at which its port neither holds nor waits. -/
theorem claimRefusal_none {port : Port} {p : PermitId} {epoch : Word16} {s : State}
    (h : claimRefusal port p epoch s = none) : s.config.permits[p].enabled = true ∧ s.table.records[p].lock = false ∧
      s.table.trip ≠ .tripped ∧ isHolder s.table.records[p] port = false ∧ isWaiter s.table.records[p] port = false := by
  unfold claimRefusal at h
  simp only at h
  repeat' split at h
  all_goals cases h
  next h3 h4 h5 _ h7 h8 =>
    exact ⟨by simpa using h3, by simpa using h4, h5, by simpa using h7, by simpa using h8⟩

/-- R69 to R74: a CLAIM keeps the table sound. -/
theorem claimBody_sound (port : Port) (permit priority wait : Byte) (epoch : Word16) (s : State)
    (h : TableSound s.config s.table) :
    TableSound (claimBody port permit priority wait epoch s).1.config (claimBody port permit priority wait epoch s).1.table := by
  unfold claimBody; split
  · next p q _ _ =>
    split
    · exact h
    · next hnone =>
      obtain ⟨h1, h2, h3, h4, h5⟩ := claimRefusal_none hnone
      unfold admitClaim; simp only; split
      · next hg =>
        simp only [grantsAtOnce, Bool.and_eq_true, decide_eq_true_eq, List.isEmpty_iff] at hg
        exact setRecord_sound h hg.1.1 (addHolder_sound (h.2.1 p) h1 h2 hg.1.2 hg.2 h4)
      · split
        · exact h
        · exact grantExamination_sound (w := TableWork.start _)
            (setRecord_sound_kept h h3 rfl (insertClaim_sound (h.2.1 p) h1 h2 h4 h5))
  · exact h

/-- R43, R152: an accepted PERMIT write keeps the table sound, as the permit has neither holders nor claims. -/
theorem writePermitBody_sound (index : Byte) (p : PermitId) (e : PermitEntry) (s : State)
    (h : TableSound s.config s.table) :
    TableSound (writePermitBody index p e s).1.config (writePermitBody index p e s).1.table := by
  unfold writePermitBody; split
  · exact h
  · next hu =>
    simp only [inUse, Bool.or_eq_true, Bool.not_eq_true', not_or, Bool.not_eq_false, List.isEmpty_iff] at hu
    obtain ⟨h1, h2⟩ := hu
    have getr : ∀ q : PermitId, (setPermitEntry p e s).table.records[q] =
        if p = q then s.table.records[p].rewritten e else s.table.records[q] := fun q => by
      simp only [setPermitEntry, get_set]
    have getc : ∀ q : PermitId, (setPermitEntry p e s).config.permits[q] = if p = q then e else s.config.permits[q] :=
      fun q => by simp only [setPermitEntry, get_set]
    show TableSound (setPermitEntry p e s).config (setPermitEntry p e s).table
    refine ⟨fun g a b ha hb e1 e2 => ?_, fun q => ?_, fun hn q => ?_⟩
    · rw [getr] at e1 e2; rw [getc] at ha hb
      by_cases ea : p = a
      · rw [if_pos ea] at e1; exact absurd h1 e1
      · by_cases eb : p = b
        · rw [if_pos eb] at e2; exact absurd h1 e2
        · rw [if_neg ea] at e1 ha; rw [if_neg eb] at e2 hb; exact h.1 g a b ha hb e1 e2
    · rw [getr, getc]; split
      · refine ⟨?_, ?_, ?_, fun _ => ⟨h1, h2⟩⟩
        · simp only [PermitRecord.rewritten, h1]; exact Nat.zero_le _
        · simp only [portsOf, PermitRecord.rewritten, h1, h2]; exact List.nodup_nil
        · simp only [PermitRecord.rewritten, h2]; exact List.Pairwise.nil
      · exact h.2.1 q
    · rw [getr]; split
      · exact ⟨h1, h2⟩
      · exact h.2.2 hn q

end Sys2Proof.Laws
end

