-- ==== Sys2Proof/Laws/Steps.lean ====
section
/-! SUPPORT. A step and the engine changes it makes the permit table take (R133, log 34): what taking them changes and keeps, and the number
of steps under way. -/

namespace Sys2Proof.Laws

open Sys2Proof.Machine

/-! The arrivals of two kinds. -/

theorem engineChanges_append (l : List PermitArrival) (e : EngineState) :
    engineChanges (l ++ [.engineChange e]) = engineChanges l ++ [e] := by
  induction l with
  | nil => rfl
  | cons a l ih => cases a <;> simp [engineChanges, ih]

theorem passResults_append (l : List PermitArrival) (e : EngineState) : passResults (l ++ [.engineChange e]) = passResults l := by
  induction l with
  | nil => rfl
  | cons a l ih => cases a <;> simp [passResults, ih]

theorem engineChange_not_mem_passResults (l : List PermitArrival) (e : EngineState) : .engineChange e ∉ passResults l := by
  induction l with
  | nil => simp [passResults]
  | cons a l ih => cases a <;> simp [passResults, ih]

theorem engineChanges_eq_filterMap (l : List PermitArrival) :
    engineChanges l = l.filterMap fun a => match a with | .engineChange e => some e | .passResult _ => none := by
  induction l with
  | nil => rfl
  | cons a l ih => cases a <;> simp [engineChanges, ih]

theorem passResults_eq_filter (l : List PermitArrival) :
    passResults l = l.filter fun a => match a with | .engineChange _ => false | .passResult _ => true := by
  induction l with
  | nil => rfl
  | cons a l ih => cases a <;> simp [passResults, ih]

/-! Engine changes at the permit table. -/

/-- R58: a change of engine state at the permit table is the state it then holds; it moves no arrival and no report. -/
theorem takeEngineChange_spec (e : EngineState) (s : State) : (takeEngineChange e s).table.engine = e ∧
    (takeEngineChange e s).flight.toPermit = s.flight.toPermit ∧
    (takeEngineChange e s).flight.passReports = s.flight.passReports :=
  ⟨(tableEngineChange_spec s.config e s.table).engine, rfl, rfl⟩

/-- R58: a change to any state but RUNNING changes that alone; a change to RUNNING is followed by grant examination. -/
theorem takeEngineChange_eq (e : EngineState) (s : State) : takeEngineChange e s =
    if e = .running then commitWork s.eval.passCount (grantExamination s.config ⟨{ s.table with engine := e }, [], []⟩)
      { s with table := { s.table with engine := e } }
    else { s with table := { s.table with engine := e } } := by
  split
  · next h => subst h; rfl
  · next h =>
    unfold takeEngineChange tableEngineChange
    simp only [h, if_false, TableWork.start, commitWork, pushNotices, State.onFlight, List.append_nil]
    have : ∀ v : Vector (List FlyingNotice) 4, flyAll .permitTable s.eval.passCount [] v = v := fun v => by
      refine ext_get fun i => ?_
      rw [flyAll_get]; simp
    rw [this]

/-! Every other event of the permit table keeps the engine state it holds. -/

theorem grantExamination_engine (c : ConfigStore) (w : TableWork) : (grantExamination c w).table.engine = w.table.engine :=
  (grantExamination_grants c w).engine

theorem tablePassResult_engine (c : ConfigStore) (r : PassResult) (t : PermitTable) :
    (tablePassResult c r t).table.engine = t.engine := by
  obtain ⟨w, e, h, _⟩ := tablePassResult_full c r t
  rw [e, grantExamination_engine, h]

theorem tableTick_engine (c : ConfigStore) (src : SourceId) (t : PermitTable) : (tableTick c src t).table.engine = t.engine := by
  by_cases hc : counting c t = true
  · obtain ⟨w, e, h, _⟩ := tableTick_full c src t hc
    rw [e]; split
    · rw [grantExamination_engine, h]
    · exact h
  · simp only [tableTick, hc, Bool.false_eq_true, if_false]; rfl

/-! The engine changes on their way. -/

/-- The changes on their way change the permit table and what is in flight alone. -/
theorem takeEngineChanges_rest (s : State) :
    ∃ (t : PermitTable) (f : InFlight), takeEngineChanges s = { s with table := t, flight := f } := by
  unfold takeEngineChanges
  refine fold_keeps (P := fun u => ∃ (t : PermitTable) (f : InFlight), u = { s with table := t, flight := f })
    (fun u e h => ?_) _ ⟨_, _, rfl⟩
  obtain ⟨t, f, rfl⟩ := h
  exact ⟨_, _, rfl⟩

/-- Only pass results stay on their way, and no report is moved. -/
theorem takeEngineChanges_flight (s : State) : (takeEngineChanges s).flight.toPermit = passResults s.flight.toPermit ∧
    (takeEngineChanges s).flight.passReports = s.flight.passReports := by
  unfold takeEngineChanges
  exact fold_keeps (f := fun t e => takeEngineChange e t)
    (P := fun u => u.flight.toPermit = passResults s.flight.toPermit ∧ u.flight.passReports = s.flight.passReports)
    (fun _ _ h => h) _ ⟨rfl, rfl⟩

/-- What each change keeps, all of them keep. -/
theorem takeEngineChanges_keeps {P : State → Prop} (hf : ∀ (s : State) (g : InFlight → InFlight), P s → P (s.onFlight g))
    (hc : ∀ e s, P s → P (takeEngineChange e s)) {s : State} (h : P s) : P (takeEngineChanges s) :=
  fold_keeps (fun s e h => hc e s h) _ (hf s _ h)

/-- A change handed on and taken with those before it is taken last. -/
theorem takeEngineChanges_tell (e : EngineState) (s : State) :
    takeEngineChanges (s.onFlight (InFlight.tellTable e)) = takeEngineChange e (takeEngineChanges s) := by
  have h1 : engineChanges (s.onFlight (InFlight.tellTable e)).flight.toPermit = engineChanges s.flight.toPermit ++ [e] :=
    engineChanges_append ..
  have h2 : ((s.onFlight (InFlight.tellTable e)).onFlight fun f => { f with toPermit := passResults f.toPermit }) =
      s.onFlight fun f => { f with toPermit := passResults f.toPermit } := by
    simp only [State.onFlight, InFlight.tellTable, passResults_append]
  unfold takeEngineChanges
  rw [h1, h2, List.foldl_append]; rfl

theorem takeEngineChanges_onEngine (g : EngineController → EngineController) (s : State) :
    takeEngineChanges (s.onEngine g) = (takeEngineChanges s).onEngine g := by
  unfold takeEngineChanges
  change List.foldl (fun t e => takeEngineChange e t)
    ((s.onFlight fun f => { f with toPermit := passResults f.toPermit }).onEngine g) (engineChanges s.flight.toPermit) = _
  generalize (s.onFlight fun f => { f with toPermit := passResults f.toPermit }) = w
  induction engineChanges s.flight.toPermit generalizing w with
  | nil => rfl
  | cons e l ih => exact ih (takeEngineChange e w)

/-- R18, R133: a step that begins leaves the permit table outside RUNNING, with no change on its way to it. -/
theorem beginStep_table (answers : Option Port) (s : State) : (beginStep answers s).table.engine = .stepping ∧
    (∀ e, PermitArrival.engineChange e ∉ (beginStep answers s).flight.toPermit) ∧
    (beginStep answers s).flight.passReports = s.flight.passReports := by
  have h := takeEngineChanges_tell .stepping (s.onEngine fun u => { u with state := .stepping, stepPort := answers })
  obtain ⟨f1, f2⟩ := takeEngineChanges_flight (s.onEngine fun u => { u with state := .stepping, stepPort := answers })
  refine ⟨?_, fun e => ?_, ?_⟩
  · show (takeEngineChanges _).table.engine = _
    rw [h]; exact (takeEngineChange_spec _ _).1
  · show _ ∉ (takeEngineChanges _).flight.toPermit
    rw [h, (takeEngineChange_spec _ _).2.1, f1]
    exact engineChange_not_mem_passResults _ _
  · show (takeEngineChanges _).flight.passReports = _
    rw [h, (takeEngineChange_spec _ _).2.2, f2]; rfl

/-- A step that begins keeps what the changes at the permit table, the engine controller and the scan unit keep. -/
theorem beginStep_keeps {P : State → Prop} (hf : ∀ (s : State) (g : InFlight → InFlight), P s → P (s.onFlight g))
    (he : ∀ (s : State) (g : EngineController → EngineController), P s → P (s.onEngine g))
    (hs : ∀ (s : State) (g : ScanUnit → ScanUnit), P s → P (s.onScan g)) (hc : ∀ e s, P s → P (takeEngineChange e s))
    (answers : Option Port) {s : State} (h : P s) : P (beginStep answers s) :=
  hf _ _ (hs _ _ (hf _ _ (hs _ _ (takeEngineChanges_keeps hf hc (hf _ _ (he _ _ h))))))

/-- R57: outside RUNNING no line is driven active. -/
theorem commanded_outside_running {c : ConfigStore} {t : PermitTable} (h : t.engine ≠ .running) (p : PermitId) :
    commanded c t p = false := by
  simp [commanded, h]

end Sys2Proof.Laws
end

