-- ==== Sys2Proof/Laws/Ticks.lean ====
section
/-! SUPPORT. A tick at the permit table as the outcome commands see it (R96, log 3): when takePermitTickIf is the tick and when it is
nothing, and which notices a tick makes for which holdings and claims. Before it, how many ticks a base tick produces (R94). -/

namespace Sys2Proof.Laws

open Sys2Proof.Machine

/-! The making of ticks. -/

/-- R94: a base tick adds one tick of a source whose counter reaches its divider, and none of any other. -/
theorem produce_get (g : TickGen) (waiting : Vector Nat 4) (src : SourceId) :
    (g.produce waiting)[src] = if g.dividers[src] ≤ g.counters[src] + 1 then waiting[src] + 1 else waiting[src] := by
  simp [TickGen.produce, TickGen.reaches]

/-! Outcome commands. -/

/-- A tick in flight that has the outcome is taken. -/
theorem takePermitTickIf_pos {src : SourceId} {s : State} {b : Bool} (h : 0 < s.flight.permitTicks[src] ∧ b = true) :
    takePermitTickIf b src s = applyPermitTick src
      (s.onFlight fun f => { f with permitTicks := f.permitTicks.set src (f.permitTicks[src] - 1) }) := if_pos h

/-- No tick in flight, or one without the outcome: nothing. -/
theorem takePermitTickIf_neg {src : SourceId} {s : State} {b : Bool} (h : ¬ (0 < s.flight.permitTicks[src] ∧ b = true)) :
    takePermitTickIf b src s = s := if_neg h

/-! The notices of a tick. -/

theorem lateNotices_mem {p : PermitId} {m : Made} {l : List Holder} (h : m ∈ lateNotices p l) :
    ∃ x ∈ l, x.stage = .armed ∧ m = (x.port, .late p) := by
  obtain ⟨x, hx, rfl⟩ := List.mem_map.mp h
  have := List.mem_filter.mp hx
  exact ⟨x, this.1, by simpa using this.2, rfl⟩

theorem waitEndNotices_mem {p : PermitId} {m : Made} {l : List Claim} {c : EndCause} (h : m ∈ waitEndNotices p c l) :
    ∃ x ∈ l, m = (x.port, .waitEnded p c) := by
  obtain ⟨x, hx, rfl⟩ := List.mem_map.mp h; exact ⟨x, hx, rfl⟩

theorem releaseNotices_mem {p : PermitId} {m : Made} {l : List Holder} (h : m ∈ l.flatMap (releaseNotice p)) :
    ∃ x ∈ l, (x.stage = .armed ∧ m = (x.port, .late p)) ∨ (x.stage = .late ∧ m = (x.port, .revoked p .lease)) := by
  obtain ⟨x, hx, h⟩ := List.mem_flatMap.mp h
  refine ⟨x, hx, ?_⟩
  unfold releaseNotice at h
  split at h
  · cases h
  · next e => exact .inl ⟨e, by simpa using h⟩
  · next e => exact .inr ⟨e, by simpa using h⟩

/-- R102: a lock tells every holder REVOKED(LOCK), but the first LATE one REVOKED(LEASE). -/
theorem lockNotices_mem {p : PermitId} {m : Made} {l : List Holder} (h : m ∈ lockNotices p l) :
    (∃ port, m = (port, .revoked p .lock)) ∨ ∃ before x after, l = before ++ x :: after ∧ x.stage = .late ∧
      m = (x.port, .revoked p .lease) ∧ ∀ y ∈ before, y.stage ≠ .late := by
  induction l with
  | nil => cases h
  | cons a l ih =>
    unfold lockNotices at h
    split at h
    · next ha =>
      rcases List.mem_cons.mp h with h | h
      · exact .inr ⟨[], a, l, rfl, ha, h, by simp⟩
      · obtain ⟨x, _, rfl⟩ := List.mem_map.mp h; exact .inl ⟨_, rfl⟩
    · next ha =>
      rcases List.mem_cons.mp h with h | h
      · exact .inl ⟨_, h⟩
      · rcases ih h with h | ⟨b, x, c, rfl, h1, h2, h3⟩
        · exact .inl h
        · refine .inr ⟨a :: b, x, c, rfl, h1, h2, fun y hy => ?_⟩
          rcases List.mem_cons.mp hy with rfl | hy
          · exact ha
          · exact h3 y hy

/-- The port's holding at this stage stands in the record; under LOCK no LATE holding stands before it. -/
def HoldsAt (x : ExpiryAction) (port : Port) (stage : LeaseStage) (r : PermitRecord) : Prop :=
  ∃ before after, r.holders = before ++ ⟨port, stage⟩ :: after ∧ (x = .lock → ∀ y ∈ before, y.stage ≠ .late)

theorem HoldsAt.of_mem {x : ExpiryAction} (hx : x ≠ .lock) {r : PermitRecord} {z : Holder} {stage : LeaseStage} (h : z ∈ r.holders)
    (e : z.stage = stage) : HoldsAt x z.port stage r := by
  obtain ⟨b, a, h⟩ := List.append_of_mem h
  exact ⟨b, a, by rw [h, ← e], fun h => absurd h hx⟩

/-- R97, R98, R101 to R103: a LATE notice of step 2 is for an ARMED holding, and REVOKED(LEASE) for a LATE one, under LOCK the first; step 2
ends no wait with EXPIRED. -/
theorem leaseNotices_mem {x : ExpiryAction} {q p : PermitId} {port : Port} {r : PermitRecord} {b : NoticeBody}
    (h : (port, b) ∈ leaseNotices x q r) :
    (b = .late p → q = p ∧ HoldsAt x port .armed r) ∧ (b = .revoked p .lease → q = p ∧ HoldsAt x port .late r) ∧
      b ≠ .waitEnded p .expired := by
  cases x
  · obtain ⟨z, hz, ⟨e, hm⟩ | ⟨e, hm⟩⟩ := releaseNotices_mem h <;> cases hm
    · exact ⟨fun h => by cases h; exact ⟨rfl, .of_mem (by simp) hz e⟩, by simp, by simp⟩
    · exact ⟨by simp, fun h => by cases h; exact ⟨rfl, .of_mem (by simp) hz e⟩, by simp⟩
  · simp only [leaseNotices] at h
    split at h
    · rcases List.mem_append.mp h with h | h
      · rcases List.mem_append.mp h with h | h
        · obtain ⟨z, hz, e, hm⟩ := lateNotices_mem h; cases hm
          obtain ⟨c, d, e'⟩ := List.append_of_mem hz
          refine ⟨fun h => ?_, by simp, by simp⟩
          cases h
          obtain ⟨k, hk⟩ : ∃ k, r.holders = beforeLate r.holders ++ k :=
            (List.takeWhile_prefix _).imp fun _ h => h.symm
          refine ⟨rfl, c, d ++ k, by rw [hk, e', ← e]; simp, fun _ y hy => ?_⟩
          have : y ∈ beforeLate r.holders := by rw [e']; exact List.mem_append_left _ hy
          simpa using List.mem_takeWhile_imp this
        · rcases lockNotices_mem h with ⟨a, hm⟩ | ⟨c, z, d, e, h1, hm, h3⟩ <;> cases hm
          · exact ⟨by simp, by simp, by simp⟩
          · exact ⟨by simp, fun h => by cases h; exact ⟨rfl, c, d, by rw [e, ← h1], fun _ => h3⟩, by simp⟩
      · obtain ⟨z, hz, hm⟩ := waitEndNotices_mem h; cases hm; exact ⟨by simp, by simp, by simp⟩
    · next hn =>
      obtain ⟨z, hz, e, hm⟩ := lateNotices_mem h; cases hm
      obtain ⟨c, d, e'⟩ := List.append_of_mem hz
      refine ⟨fun h => ?_, by simp, by simp⟩
      cases h
      refine ⟨rfl, c, d, by rw [e', ← e], fun _ y hy hl => hn ?_⟩
      simp only [anyLate, List.any_eq_true, decide_eq_true_eq]
      exact ⟨y, by rw [e']; exact List.mem_append_left _ hy, hl⟩
  · obtain ⟨z, hz, e, hm⟩ := lateNotices_mem h; cases hm
    exact ⟨fun h => by cases h; exact ⟨rfl, .of_mem (by simp) hz e⟩, by simp, by simp⟩

/-- R96, R104: a notice that a tick makes comes of a tick that counts, and of step 2, of step 3 or of a grant. -/
theorem tickMakes_mem {s : State} {src : SourceId} {m : Made} (h : tickMakes src m s = true) :
    counting s.config s.table = true ∧
    ((∃ p : PermitId, leased s.config src p = true ∧ m ∈ leaseNotices s.config.permits[p].expiry p s.table.records[p]) ∨
      (∃ p : PermitId, s.config.permits[p].source = src ∧
        m ∈ waitEndNotices p .expired ((recordAfterLease s.config src p s.table.records[p]).queue.filter expires)) ∨
      ∃ q, m.2 = .granted q) := by
  simp only [tickMakes, tickWork, List.contains_iff_mem] at h
  by_cases hc : counting s.config s.table = true
  · refine ⟨hc, ?_⟩
    obtain ⟨w, e, _, _, _, _, e3, _⟩ := tableTick_full s.config src s.table hc
    have hex : Extends w (tableTick s.config src s.table) := by
      rw [e]; split
      · exact grantExamination_extends _ _
      · exact Extends.refl _
    obtain ⟨_, more, em, hm⟩ := hex
    rw [em, e3] at h
    rcases List.mem_append.mp h with h | h
    · rcases List.mem_append.mp h with h | h <;> obtain ⟨q, _, h⟩ := List.mem_flatMap.mp h <;> split at h
      · next hl => exact .inl ⟨q, hl, h⟩
      · cases h
      · next hl => exact .inr (.inl ⟨q, hl, h⟩)
      · cases h
    · exact .inr (.inr (hm _ h))
  · simp only [tableTick, hc, TableWork.start] at h; cases h

end Sys2Proof.Laws
end

