-- ==== Sys2Proof/Laws/Wire.lean ====
section
/-! SUPPORT. The bytes of answers and frames (R171, R173 to R176) and the members of cause sets (R109): what each encoder of
Machine/Operands.lean gives, bit by bit. -/

namespace Sys2Proof.Laws

open Sys2Proof.Machine

/-! The check byte (R171). -/

theorem checkByte_append (bytes : List Byte) (b : Byte) : checkByte (bytes ++ [b]) = crcByte (checkByte bytes) b := by
  simp [checkByte]

/-- Bytes followed by their check byte give 00H. -/
theorem checkByte_self (bytes : List Byte) : checkByte (bytes ++ [checkByte bytes]) = 0#8 := by
  rw [checkByte_append, crcByte, BitVec.xor_self]; rfl

/-! Numbers of several bytes. -/

theorem ofNat_toNat_shiftRight {n : Nat} (w : BitVec n) (i : Nat) : BitVec.ofNat 8 (w.toNat >>> i) = w.extractLsb' i 8 :=
  BitVec.eq_of_toNat_eq (by simp [BitVec.extractLsb'_toNat])

theorem bytesOf_two (w : Word16) : bytesOf 2 w.toNat = [w.extractLsb' 8 8, w.extractLsb' 0 8] := by
  simp [bytesOf, ← ofNat_toNat_shiftRight]

theorem bytesOf_three (w : BitVec 24) : bytesOf 3 w.toNat = [w.extractLsb' 16 8, w.extractLsb' 8 8, w.extractLsb' 0 8] := by
  simp [bytesOf, ← ofNat_toNat_shiftRight]

theorem bytesOf_four (w : PassCount) :
    bytesOf 4 w.toNat = [w.extractLsb' 24 8, w.extractLsb' 16 8, w.extractLsb' 8 8, w.extractLsb' 0 8] := by
  simp [bytesOf, ← ofNat_toNat_shiftRight]

theorem bytesOf_seven (w : BitVec 56) : bytesOf 7 w.toNat = [w.extractLsb' 48 8, w.extractLsb' 40 8, w.extractLsb' 32 8,
    w.extractLsb' 24 8, w.extractLsb' 16 8, w.extractLsb' 8 8, w.extractLsb' 0 8] := by
  simp [bytesOf, ← ofNat_toNat_shiftRight]

theorem packBits_eq_foldr (l : List Bool) : packBits l = l.foldr (fun x n => x.toNat + 2 * n) 0 := by
  induction l with
  | nil => rfl
  | cons a l ih => simp only [packBits, ih, List.foldr_cons]

theorem packBits_lt (l : List Bool) : packBits l < 2 ^ l.length := by
  induction l with
  | nil => simp [packBits]
  | cons a l ih => simp only [packBits, List.length_cons, pow_succ]; have := a.toNat_le; omega

/-- R176: a set of lines as two bytes holds bit n for line n. -/
theorem lineSetBits (f : LineId → Bool) :
    ∃ w : Word16, bytesOf 2 (packBits (allLines.map f)) = [w.extractLsb' 8 8, w.extractLsb' 0 8] ∧
      ∀ n : LineId, w.getLsbD n = f n := by
  refine ⟨BitVec.ofNat 16 (packBits (allLines.map f)), ?_, fun n => ?_⟩
  · rw [← bytesOf_two, BitVec.toNat_ofNat, Nat.mod_eq_of_lt (show _ < 2 ^ 16 from packBits_lt (allLines.map f))]
  · rw [BitVec.getLsbD_ofNat, packBits_testBit]
    fin_cases n <;> simp [allLines]

/-- R176: the outputs of the terms as three bytes hold bit n for term n. -/
theorem termBits (v : Vector Bool 24) :
    ∃ w : BitVec 24, termBytes v = [w.extractLsb' 16 8, w.extractLsb' 8 8, w.extractLsb' 0 8] ∧
      ∀ n : TermId, w.getLsbD n = v[n] := by
  have hl : v.toList.length = 24 := v.length_toList
  refine ⟨BitVec.ofNat 24 (packBits v.toList), ?_, fun n => ?_⟩
  · have := packBits_lt v.toList
    rw [hl] at this
    rw [← bytesOf_three, BitVec.toNat_ofNat, Nat.mod_eq_of_lt this]; rfl
  · rw [BitVec.getLsbD_ofNat, packBits_testBit]
    simp [List.getD, hl, n.isLt]

/-! Cause sets (R109, R176). -/

theorem toNat_append_eq {m n : Nat} (x : BitVec m) (y : BitVec n) : (x ++ y).toNat = y.toNat + x.toNat <<< n := by
  rw [BitVec.toNat_append, ← Nat.shiftLeft_add_eq_or_of_lt y.isLt, Nat.add_comm]

theorem toNat_append_six {n1 n2 n3 n4 n5 n6 k : Nat} (x1 : BitVec n1) (x2 : BitVec n2) (x3 : BitVec n3) (x4 : BitVec n4)
    (x5 : BitVec n5) (x6 : BitVec n6) : (0#k ++ x6 ++ x5 ++ x4 ++ x3 ++ x2 ++ x1).toNat = x1.toNat + x2.toNat <<< n1 +
      x3.toNat <<< (n1 + n2) + x4.toNat <<< (n1 + n2 + n3) + x5.toNat <<< (n1 + n2 + n3 + n4) +
      x6.toNat <<< (n1 + n2 + n3 + n4 + n5) := by
  simp only [toNat_append_eq, BitVec.toNat_ofNat, Nat.zero_mod, Nat.shiftLeft_eq]; ring

/-- R176: the number of a cause set, from bit 0: CHANNEL_FAULT, TRIP_IN, REQUEST, PASS_DEADLINE, LEASE and LINE_FEEDBACK. -/
theorem causeSet_number (c : CauseSet) :
    let w : BitVec 56 := 0#6 ++ c.lineFeedback ++ c.lease ++ BitVec.ofBool c.passDeadline ++ c.request ++
      BitVec.ofBool c.tripIn ++ c.channelFault
    c.number = w.toNat := by
  intro w
  have h := toNat_append_six (k := 6) c.channelFault (BitVec.ofBool c.tripIn) c.request (BitVec.ofBool c.passDeadline) c.lease
    c.lineFeedback
  simp only [BitVec.toNat_ofBool] at h
  exact h.symm

theorem union_single (a : CauseSet) (cause : TripCause) :
    let b := a.union (.single cause)
    b.tripIn = (a.tripIn || decide (cause = .tripIn)) ∧
    (∀ c : ChannelId, b.channelFault.getLsbD c = (a.channelFault.getLsbD c || decide (cause = .channelFault c))) ∧
    (∀ p : Port, b.request.getLsbD p = (a.request.getLsbD p || decide (cause = .request p))) ∧
    b.passDeadline = (a.passDeadline || decide (cause = .passDeadline)) ∧
    (∀ p : PermitId, b.lease.getLsbD p = (a.lease.getLsbD p || decide (cause = .lease p))) ∧
    ∀ p : PermitId, b.lineFeedback.getLsbD p = (a.lineFeedback.getLsbD p || decide (cause = .lineFeedback p)) := by
  have ht : ∀ {n : Nat} (c d : Fin n), (BitVec.twoPow n c).getLsbD d = decide (c = d) := by
    intro n c d
    rw [BitVec.getLsbD_twoPow]; simp [Fin.ext_iff]
  cases cause <;> simp [CauseSet.union, CauseSet.single, CauseSet.empty, ht, -BitVec.getLsbD_eq_getElem]

theorem empty_union (a : CauseSet) : CauseSet.empty.union a = a := by
  simp [CauseSet.union, CauseSet.empty]

end Sys2Proof.Laws
end

