-- ==== Sys2Proof/Tests/Slice0.lean ====
section
/-! SUPPORT. Tests: the smoke test of WellFormed, worked examples of the manual, and for every statement of
Certificates/Slice0/Obligations.lean a state and operands that meet its hypotheses (test_meets_<statement>), clause by clause, at the
ends of their ranges where a clause has a range. -/

namespace Sys2Proof.Tests

set_option maxRecDepth 4000
set_option Elab.async false

open Sys2Proof.Machine

/-! States. -/

/-- The state a command leaves. -/
def after (c : Instr) (s : State) : State :=
  match exec c s with
  | .next t => t
  | .fault _ => s
  | .refused _ => s

/-- The request is taken, and its owning block meets the part in a state with this property. -/
def meets (port : Port) (c : Instr) (n : Nat) (s : State) (holds : State → Bool) : Bool :=
  (takeRequest port c n s).any fun x => holds x.1

/-- The part after reset, RUNNING at every block. -/
def running : State :=
  { State.reset with
    scan := { ScanUnit.initial with engine := .running }
    table := { PermitTable.initial with engine := .running }
    engine := { EngineController.initial with state := .running } }

def withEngine (e : EngineState) (s : State) : State := { s with engine := { s.engine with state := e } }
def withEntry (p : PermitId) (e : PermitEntry) (s : State) : State :=
  { s with config := { s.config with permits := s.config.permits.set p e } }
def withRecord (p : PermitId) (r : PermitRecord) (s : State) : State :=
  { s with table := { s.table with records := s.table.records.set p r } }
def withFlight (f : InFlight → InFlight) (s : State) : State := { s with flight := f s.flight }
def withContext (x : PortContext) (s : State) : State :=
  { s with ports := s.ports.set 0 ⟨x, [], [], .none⟩ }
/-- The parts of a command of port A, one after another. -/
def parts (command : TransactionPart → Instr) (l : List TransactionPart) (s : State) : State :=
  l.foldl (fun s x => after (command x) s) s
/-- A FETCH transaction of n bytes. -/
def fetchOf (n : Nat) : Instr := .fetch 0 (.whole (List.replicate n 0#8))
def withScan (sc : Scan) (s : State) : State := { s with scan := { s.scan with state := .inProgress sc } }
def withChannel (e : ChannelEntry) (v : Verdict) (s : State) : State :=
  { s with
    config := { s.config with channels := s.config.channels.set 0 e }
    scan := { s.scan with channels := s.scan.channels.set 0 ⟨0, v⟩ } }
def withProfile (p : Profile) (s : State) : State :=
  { s with config := { s.config with profilesInUse := s.config.profilesInUse.set 0 p } }
def inReset (s : State) : State := { s with resetActive := true }
def tripped (s : State) : State :=
  { s with trip := { s.trip with state := .tripped }, table := { s.table with trip := .tripped } }

/-- A shared, leased permit on source 1 in group 0. -/
def shared (x : ExpiryAction) (l : LossAction) : PermitEntry := ⟨true, 0, .shared, 2, some 0, 1, true, x, l, true⟩
/-- A record that port A holds and port B waits on, with the condition met. -/
def used (stage : LeaseStage) : PermitRecord := ⟨false, .met, [⟨0, stage⟩], [⟨1, 2, some 1⟩], 0⟩
/-- RUNNING, with permit 3 held and waited on. -/
def busy (x : ExpiryAction) (l : LossAction) (stage : LeaseStage) : State :=
  withRecord 3 (used stage) (withEntry 3 (shared x l) running)
/-- RUNNING, with permit 3 READY. -/
def ready : State := withRecord 3 ⟨false, .met, [], [], 0⟩ (withEntry 3 (shared .release .drop) running)

def enabledChannel : ChannelEntry := ⟨true, 0, none, 2, 1000, 3000, 50, true, true⟩
def enabledTerm (st : OutputStage) : TermEntry := ⟨true, .zero, .zero, .zero, 0x01#8, st, false⟩
def withTerm (e : TermEntry) (h : TermHistory) (s : State) : State :=
  { s with
    config := { s.config with terms := s.config.terms.set 5 e }
    eval := { s.eval with history := s.eval.history.set 5 h } }
def withLine (e : LineEntry) (l : LineState) (s : State) : State :=
  { s with
    config := { s.config with lines := s.config.lines.set 2 e }
    lines := { s.lines with lines := s.lines.lines.set 2 l } }
def withWatch (e : WatchEntry) (s : State) : State :=
  { s with config := { s.config with watches := s.config.watches.set 0 e } }

/-- A scan with nothing left to convert, in which channel 0 has formed a reading. -/
def done (kind : ScanKind) (r : Reading) : Scan := ⟨kind, [], 0, 0, false, (Vector.replicate 12 none).set 0 (some r)⟩

/-! WellFormed. -/

theorem test_ill_formed_status_request : WellFormed (.status 0 0x02#8 (.whole [])) = false := by decide +kernel
theorem test_ill_formed_status_fetch : WellFormed (.status 3 0x03#8 .opening) = false := by decide +kernel
theorem test_well_formed_status : WellFormed (.status 3 0x04#8 (.whole [0#8])) = true := by decide +kernel
theorem test_ill_formed_frame_error : WellFormed (.frameError 0 (.whole [0x01#8, 0x00#8, 0x15#8])) = false := by decide +kernel
theorem test_well_formed_frame_error : WellFormed (.frameError 0 (.whole [0x01#8, 0x00#8, 0x14#8])) = true := by decide +kernel

/-! Frames (R166, R171, R172). -/

theorem test_crc : checkByte [0x31#8, 0x32#8, 0x33#8, 0x34#8, 0x35#8, 0x36#8, 0x37#8, 0x38#8, 0x39#8] = 0xF4#8 := by
  decide +kernel
theorem test_no_table_word : decodeTableWord 8 0 = none ∧ State.reset.withFetchWord 8 0 = State.reset := ⟨rfl, rfl⟩
theorem test_claim_frame : judgeFrame ([0x10#8, 5#8, 3#8, 2#8, 255#8, 0x12#8, 0x34#8].append
    [checkByte [0x10#8, 5#8, 3#8, 2#8, 255#8, 0x12#8, 0x34#8]]) = .wellFormed 0x10#8 [3#8, 2#8, 255#8, 0x12#8, 0x34#8] ∧
    decodeRequest 1 0x10#8 [3#8, 2#8, 255#8, 0x12#8, 0x34#8] = some (.claim 1 3#8 2#8 255#8 0x1234#16) := by decide +kernel

/-! Worked examples (R4, R5, R6, R16, R29). -/

theorem test_average : (⟨true, 0, none, 4, 0, 4095, 0, false, false⟩ : ChannelEntry).average 4007 = 1001 ∧
    (⟨true, 0, some 1, 2, -2048, 2047, 0, false, false⟩ : ChannelEntry).average (-5) = -3 := by decide +kernel
theorem test_hysteresis : enabledChannel.classify .above ⟨2951, false⟩ = .above ∧
    enabledChannel.classify .above ⟨2950, false⟩ = .inside ∧ enabledChannel.classify .inside ⟨1000, false⟩ = .inside ∧
    enabledChannel.classify .inside ⟨1500, true⟩ = .fault := by decide +kernel
theorem test_qualify : (⟨true, .qualify 2⟩ : LineEntry).next ⟨false, false, true, 0⟩ true = ⟨true, false, true, 1⟩ ∧
    (⟨true, .qualify 2⟩ : LineEntry).next ⟨true, false, true, 1⟩ true = ⟨true, true, true, 0⟩ := by decide +kernel
/-- A frame of its own, the owning block's taking, and the fetch of READ_STATUS after reset. -/
theorem test_read_status : (after (fetchOf 17) (after (.readStatus 0)
    (after (.frameDiscarded 0 (.whole [0x01#8, 0x00#8, 0x15#8])) State.reset))).ports[0] = ⟨.idle, [],
      0xAA#8 :: (Answer.frame ⟨.ok, 0x01#8, false, [2#8, 0#8, 0#8, 0#8, 0#8, 0#8, 0#8, 0#8, 0#8, 7#8, 1#8, 0#8]⟩), .none⟩ := by
  decide +kernel
/-- R168: an answer placed while the kind byte is received: the status byte says EXECUTING, and FETCH sends the answer. -/
theorem test_answer_during_kind_byte : (parts (.fetch 0) [.kindByte, .bytes (List.replicate 5 0#8), .closing]
    (placeAnswer 0 0x37#8 ⟨.ok, []⟩ (after (.fetch 0 .opening) (withContext (.executing false) State.reset)))).ports[0] =
      ⟨.idle, [], 0x6A#8 :: Answer.frame ⟨.ok, 0x37#8, false, []⟩, .none⟩ := by decide +kernel
/-- Port B in the midst of a transaction. -/
def midst (x : Transfer) : State :=
  { State.reset with ports := State.reset.ports.set 1 { PortUnit.initial with transfer := x } }
/-- R170: a soft reset in the midst of another port's FETCH, of its frame, and of its first byte; a hard reset in the midst of a frame. -/
theorem test_resets_cut_transactions :
    (after (.softReset 0) (midst (.fetch [1#8] true))).ports[1].transfer = .ignored ∧
    (after (.softReset 0) (midst (.request [1#8]))).ports[1].transfer = .ignored ∧
    (after (.softReset 0) (midst (.first 2#8))).ports[1].transfer = .first 2#8 ∧
    (after (.hardReset 0) (midst (.request [1#8]))).ports[1].transfer = .cut ∧
    (after (.status 1 0x01#8 (.bytes [0#8])) (midst .cut)) = midst .cut ∧
    (after (.status 1 0x01#8 .closing) (midst .cut)).ports[1].transfer = .none := by decide +kernel
/-- R1: a differential channel, and a channel against AGND. -/
theorem test_select : (⟨true, 3, some 5, 1, -2048, 2047, 0, false, false⟩ : ChannelEntry).select
      #v[0, 0, 0, 100, 0, 900, 0, 0, 0, 0, 0, 0] = -800 ∧
    (⟨true, 3, none, 1, 0, 4095, 0, false, false⟩ : ChannelEntry).select #v[0, 0, 0, 100, 0, 900, 0, 0, 0, 0, 0, 0] = 100 := by
  decide +kernel
/-- R10, R11: a tick that comes while a scan is in progress, or outside RUNNING, is dropped. -/
theorem test_ticks_in_scan : (after .baseTick (withScan (done .run ⟨0, false⟩) running)).flight.scanBaseTicks = 0 ∧
    (after .baseTick running).flight.scanBaseTicks = 1 ∧ (after .baseTick State.reset).flight.scanBaseTicks = 0 := by
  decide +kernel
/-- R95: the permit table's and the trip unit's arrivals of a tick are on their way at the base tick, and the scan unit's comes on its own,
here after the pass of the scan that was in progress. -/
theorem test_tick_ways :
    let s := after .baseTick (withScan (done .run ⟨0, false⟩) (running.onTicks fun g => { g with counters := #v[9, 0, 0, 0] }))
    let t := after (.pass 0#16 0#16) (after (.tickAtPermitTable 0) s)
    s.flight.permitTicks[0] = 1 ∧ s.flight.tripTicks = 1 ∧ t.flight.permitTicks[0] = 0 ∧
      (after (.sourceTick 0) s).flight.scanTicks[0] = 0 ∧ (after (.sourceTick 0) t).flight.scanTicks[0] = 1 := by decide +kernel
/-- R129, R38 (log 36): the pass of a HALTING engine has ended, a RESUME withdraws the halt, and the report finds RUNNING. -/
theorem test_resume_before_report :
    let s := (withFlight (fun f => { f with passReports := [⟨.run, false, .delivered 5#32⟩] }) running).onEngine
      fun u => { u with state := .halting, requester := some 1 }
    (after (.resume 0) s).engine.state = .running ∧
      (after .passEndReport (after (.resume 0) s)).engine.state = .running ∧
      (after .passEndReport s).engine.state = .halted := by decide +kernel
/-- Permit 3 held with its condition met on an enabled term, RUNNING; then a HALT and a STEP, and no arrival at the permit table. -/
def driving : State :=
  { busy .release .drop .fresh with config := { (busy .release .drop .fresh).config with
      terms := (busy .release .drop .fresh).config.terms.set 0 (enabledTerm .direct) } }
def stepped : State := after (.step 0) (after (fetchOf 6) (after (.halt 0) driving))
/-- R18, R133: the readback of a STEP pass is compared with LOW commands, though the line was active up to the HALT and no
ENGINE_STATE_CHANGE came before the pass; the result of the pass is then taken outside RUNNING. -/
theorem test_step_drives_nothing : commanded driving.config driving.table 3 = true ∧
    stepped.engine.state = .stepping ∧ stepped.table.engine = .stepping ∧ stepped.flight.toPermit = [] ∧
    (after (.pass 0#16 0xFFFF#16) stepped).flight.toPermit.map (fun a => match a with
      | .passResult r => (r.commanded, r.sampled)
      | .engineChange _ => (0xFFFF#16, 0#16)) = [(0#16, 0xFFFF#16)] ∧
    (after .passResult (after (.pass 0#16 0xFFFF#16) stepped)).table.records[3].mismatch = 1 := by decide +kernel
theorem test_claim_granted : (after (.claim 0 3#8 1#8 0#8 0#16) ready).table.records[3].holders = [⟨0, .fresh⟩] := by
  decide +kernel
theorem test_lease_locks : (after (.leaseExpiryLock 3 0)
    (withFlight (fun f => { f with permitTicks := #v[0, 1, 0, 0] }) (busy .lock .drop .late))).table.records[3] =
      ⟨true, .met, [], [], 0⟩ := by decide +kernel
theorem test_hard_reset_resets : (after (.hardReset 0) (tripped (busy .lock .drop .late))) = State.reset := by decide +kernel

/-! The hypotheses of the statements. -/

theorem test_meets_StepTakesTheFrontCommand :
    ({ State.reset with pending := [.baseTick] } : State).pending = .baseTick :: [] := rfl

theorem test_meets_EmptyQueueLetsAReferencePeriodPass :
    State.reset.pending = [] ∧ (inReset State.reset).pending = [] ∧ (inReset State.reset).resetActive = true ∧
    (State.reset.onTicks fun g => { g with baseDivider := 798 }).ticks.baseDivider + 1 < 800 ∧
    800 ≤ (State.reset.onTicks fun g => { g with baseDivider := 799 }).ticks.baseDivider + 1 := by decide +kernel

/-- A port with the claim of another frame in hand. -/
def inHand : State := { State.reset with ports := State.reset.ports.set 0 ⟨.executing false, [⟨.trip 0, true⟩], [], .none⟩ }

theorem test_meets_RequestsAreTakenInIdleOrAnswered :
    State.reset.ports[0].context = .idle ∧ State.reset.ports[0].inHand = [] ∧
    (withContext (.answered ⟨.ok, 1#8, false, []⟩) State.reset).ports[0].context = .answered ⟨.ok, 1#8, false, []⟩ ∧
    (withContext (.executing true) State.reset).ports[0].context = .executing true ∧
    inHand.ports[0].inHand = ⟨.trip 0, true⟩ :: [] ∧ inHand.resetActive = false ∧ State.reset.ports[0].transfer = .none ∧
    (after (.fetch 0 .opening) State.reset).ports[0].transfer ≠ .none ∧
    (after (.fetch 0 .opening) State.reset).ports[0].inHand = [] := by decide +kernel

theorem test_meets_AnswersAreHeldInTheSlot :
    (withContext (.executing true) State.reset).ports[0].context = .executing true ∧
    State.reset.ports[0].context.isExecuting = false := by decide +kernel

theorem test_meets_UntakenRequestsReachNoBlock :
    requestOf (.claim 0 0#8 0#8 0#8 0#16) = some (0, 5) ∧ requestOf (.readStatus 0) = some (0, 0) ∧
    (takeRequest 0 (.readStatus 0) 0 (withContext (.executing false) State.reset)).isNone = true ∧
    (takeRequest 0 (.readStatus 0) 0 (inReset State.reset)).isNone = true ∧
    (takeRequest 0 (.readStatus 0) 0 inHand).isNone = true ∧ inHand.ports[0].inHand ≠ [] ∧
    (takeRequest 0 (.readStatus 0) 0 (after (.fetch 0 .opening) State.reset)).isNone = true := by decide +kernel

/-- Port A after the parts of a transaction of this kind. -/
def transferOf (command : TransactionPart → Instr) (l : List TransactionPart) (s : State) : Transfer :=
  (parts command l s).ports[0].transfer

theorem test_meets_StatusTransactionsShowTheStatusByte :
    WellFormed (.status 0 0x01#8 (.whole [])) = true ∧ WellFormed (.status 0 0x04#8 (.whole [])) = true ∧
    State.reset.resetActive = false ∧ State.reset.ports[0].transfer = .none ∧
    transferOf (.status 0 0x01#8) [.opening] State.reset = .first 0x2A#8 ∧
    transferOf (.status 0 0x01#8) [.opening, .kindByte] State.reset = .ignored ∧
    transferOf (.status 0 0x01#8) [.opening, .kindByte, .bytes [1#8], .closing] State.reset = .none := by decide +kernel

/-- Port A with an answer of one byte. -/
def answered : State := withContext (.answered ⟨.ok, 1#8, true, [7#8]⟩) State.reset

theorem test_meets_FetchesSendTheAnswerOrNoResponse :
    answered.ports[0].context = .answered ⟨.ok, 1#8, true, [7#8]⟩ ∧
    (∀ clocked ∈ [5, 6], (clocked < 6 ↔ (after (fetchOf clocked) answered).ports[0].context ≠ .idle)) ∧
    transferOf (.fetch 0) [.opening] answered = .first 0xAA#8 ∧
    transferOf (.fetch 0) [.opening, .kindByte] answered = .fetch (Answer.frame ⟨.ok, 1#8, true, [7#8]⟩) true ∧
    transferOf (.fetch 0) [.opening, .kindByte] State.reset = .fetch noResponseFrame false ∧
    transferOf (.fetch 0) [.opening, .kindByte, .bytes (List.replicate 6 0#8)] answered = .fetch [] true := by decide +kernel

theorem test_meets_FramesAreJudgedInTheOrderOfTheChecks :
    judgeFrame [1#8, 33#8, 0#8] = .failed .length 1#8 ∧ judgeFrame [1#8, 32#8, 0#8] = .failed .truncated 1#8 ∧
    judgeFrame [1#8, 0#8, 0x14#8] = .failed .check 1#8 ∧ judgeFrame [0x7F#8, 0#8, checkByte [0x7F#8, 0#8]] =
      .failed .unknownCode 0x7F#8 ∧
    judgeFrame [1#8, 1#8, 0#8, checkByte [1#8, 1#8, 0#8]] = .failed .length 1#8 ∧
    judgeFrame [1#8, 0#8, 0x15#8, 9#8] = .wellFormed 1#8 [] ∧
    judgeFrame [0x40#8, 0#8, checkByte [0x40#8, 0#8]] = .failed .length 0x40#8 ∧
    judgeFrame [0x40#8, 4#8, 1#8, 0#8, 0#8, 0#8, checkByte [0x40#8, 4#8, 1#8, 0#8, 0#8, 0#8]] =
      .wellFormed 0x40#8 [1#8, 0#8, 0#8, 0#8] ∧
    judgeFrame [0x40#8, 1#8, 9#8, checkByte [0x40#8, 1#8, 9#8]] = .failed .length 0x40#8 ∧
    checkByte ([1#8, 0#8] ++ [0x15#8]) = 0#8 ∧ checkByte [1#8, 0#8] = 0x15#8 ∧ checkByte [0x80#8] = 0x89#8 := by decide +kernel

theorem test_meets_FailingFramesAreAnsweredFrameError :
    judgeFrame [1#8] = .failed .truncated 1#8 ∧ answered.ports[0].context.isExecuting = false ∧
    transferOf (.frameError 0) [.opening, .kindByte] answered = .request [] ∧
    transferOf (.frameError 0) [.opening, .kindByte, .bytes [1#8, 0#8]] answered = .request [1#8, 0#8] ∧
    frameEnds [1#8, 0#8, 0x14#8] = true ∧ frameEnds [1#8, 0#8] = false ∧ frameEnds [1#8, 32#8] = false ∧
    frameEnds [1#8, 33#8] = true ∧ judgeFrame [1#8, 33#8] = .failed .length 1#8 := by decide +kernel

theorem test_meets_FramesInExecutingAreDiscarded :
    decodeRequest 0 1#8 [] = some (.readStatus 0) ∧
    judgeFrame [0x40#8, 2#8, 9#8, 0#8, checkByte [0x40#8, 2#8, 9#8, 0#8]] = .wellFormed 0x40#8 [9#8, 0#8] ∧
    decodeRequest 0 0x40#8 [9#8, 0#8] = none ∧
    transferOf (.frameDiscarded 0) [.opening, .kindByte, .bytes [1#8, 0#8]] (withContext (.executing false) State.reset) =
      .request [1#8, 0#8] ∧
    frameEnds ([1#8, 0#8] ++ [0x15#8]) = true ∧ judgeFrame [1#8, 0#8, 0x15#8] = .wellFormed 1#8 [] ∧
    answered.ports[0].context.isExecuting = false := by decide +kernel

/-- One notice in flight, and the queue full but for one place, or full. -/
def noticed (n : Nat) : State :=
  { State.reset with
    flight := { State.reset.flight with notices := #v[[⟨.tripUnit, ⟨.tripCleared, 0#32⟩⟩], [], [], []] }
    notices := State.reset.notices.set 0 ⟨List.replicate n ⟨.tripCleared, 0#32⟩, false⟩ }

theorem test_meets_NoticesArriveAtTheirQueue :
    firstOf .tripUnit (noticed 7).flight.notices[0] = some (⟨.tripCleared, 0#32⟩, []) ∧
    (noticed 7).notices[0].queue.length < 8 ∧ ¬ (noticed 8).notices[0].queue.length < 8 ∧
    firstOf .engineController [⟨.tripUnit, ⟨.tripCleared, 0#32⟩⟩, ⟨.engineController, ⟨.resumed 0#16, 0#32⟩⟩] =
      some (⟨.resumed 0#16, 0#32⟩, [⟨.tripUnit, ⟨.tripCleared, 0#32⟩⟩]) ∧
    firstOf .engineController [⟨.permitTable, ⟨.revoked 3 .rightWithdrawn, 0#32⟩⟩, ⟨.engineController, ⟨.resumed 0#16, 0#32⟩⟩] =
      none ∧ firstOf .tripUnit State.reset.flight.notices[0] = none := by decide +kernel

theorem test_meets_ReadNoticeTakesTheOldestNotice :
    meets 0 (.readNotice 0) 0 State.reset (fun u => decide (u.notices[0].queue = [⟨.halted .reset, 0#32⟩])) = true ∧
    meets 0 (.readNotice 0) 0 (noticed 0) (fun u => u.notices[0].queue.isEmpty) = true ∧
    (∀ b ∈ [NoticeBody.granted 15, .revoked 0 .condition, .late 3, .waitEnded 3 .expired, .tripped (.lease 15), .tripCleared,
        .halted (.watch 1), .resumed 0x1234#16],
      meets 0 (.readNotice 0) 0 { State.reset with notices := State.reset.notices.set 0 ⟨[⟨b, 5#32⟩], true⟩ }
        (fun u => decide (u.notices[0].queue = [⟨b, 5#32⟩]) && u.notices[0].overflow) = true) := by decide +kernel

/-- R174: the bytes of a notice, argument, epoch and pass count most significant byte first. -/
theorem test_notice_bytes :
    (⟨.resumed 0x1234#16, 0x01020304#32⟩ : Notice).bytes = [8#8, 0xFF#8, 0#8, 0xFF#8, 0x12#8, 0x34#8, 1#8, 2#8, 3#8, 4#8] ∧
    (⟨.tripped (.lease 15), 1#32⟩ : Notice).bytes = [5#8, 0xFF#8, 3#8, 15#8, 0#8, 0#8, 0#8, 0#8, 0#8, 1#8] := by decide +kernel

/-- R176: the highest bit of a cause set, LINE_FEEDBACK of permit 15, is bit 49; REQUEST of port D is bit 16. -/
theorem test_cause_bits : (CauseSet.single (.lineFeedback 15)).number = 2 ^ 49 ∧ (CauseSet.single (.request 3)).number = 2 ^ 16 ∧
    (CauseSet.single (.lease 0)).number = 2 ^ 18 ∧ (CauseSet.single .passDeadline).number = 2 ^ 17 := by decide +kernel

/-- For ReadStatusReportsEightFields, ReadPermitReportsTheRecord and ReadsAnswerAndChangeNothing. -/
theorem test_meets_Reads :
    (takeRequest 0 (.readStatus 0) 0 running).isSome = true ∧
    (takeRequest 0 (.readPermit 0 15#8) 1 running).isSome = true ∧ (takeRequest 0 (.readPermit 0 16#8) 1 running).isSome = true ∧
    (takeRequest 0 (.readChannel 0 11#8) 1 running).isSome = true ∧ (takeRequest 0 (.readChannel 0 12#8) 1 running).isSome = true ∧
    (takeRequest 0 (.readLines 0) 0 running).isSome = true ∧ (takeRequest 0 (.readTerms 0) 0 running).isSome = true ∧
    (takeRequest 0 (.readTrip 0) 0 running).isSome = true ∧ (takeRequest 0 (.readHaltRecord 0) 0 running).isSome = true ∧
    meets 0 (.readEntry 0 7#8 0#8) 2 running (fun u => (entryPayload 7#8 0#8 u).isSome) = true ∧
    meets 0 (.readEntry 0 7#8 1#8) 2 running (fun u => (entryPayload 7#8 1#8 u).isNone) = true := by decide +kernel

theorem test_meets_BaseTicksAdvanceTheSourceCounters :
    (State.reset.onTicks fun g => { g with counters := #v[8, 0, 0, 0] }).ticks.counters[0] + 1 < State.reset.ticks.dividers[0] ∧
    State.reset.ticks.dividers[0] ≤ (State.reset.onTicks fun g => { g with counters := #v[9, 0, 0, 0] }).ticks.counters[0] + 1 := by
  decide +kernel

theorem test_meets_SourceTicksReachTheirConsumers :
    0 < (withFlight (fun f => { f with sourceTicks := #v[1, 0, 0, 0] }) running).flight.sourceTicks[0] ∧
    running.scan.engine = .running ∧ running.scan.state = .idle ∧
    (withScan (done .run ⟨0, false⟩) running).scan.state ≠ .idle ∧ State.reset.scan.engine ≠ .running := by decide +kernel

theorem test_meets_TriggerTicksBeginRunScans :
    (withFlight (fun f => { f with scanBaseTicks := 1 }) running).flight.triggerTicks .base ≠ 0 ∧
    running.config.engine.trigger = .free ∧ running.scan.engine = .running ∧ running.scan.state = .idle ∧
    running.scan.watchStopped = false ∧ State.reset.scan.engine ≠ .running := by decide +kernel

theorem test_meets_ConversionsFormTheReading :
    (withScan ⟨.run, [0], 0, 0, false, Vector.replicate 12 none⟩ (withChannel enabledChannel .unknown running)).scan.state =
      .inProgress ⟨.run, [0], 0, 0, false, Vector.replicate 12 none⟩ ∧ 0 + 1 < enabledChannel.count ∧
      enabledChannel.count ≤ 1 + 1 := by decide +kernel

/-- The pass of a scan with nothing left to convert is delivered. -/
def delivers (sc : Scan) (s : State) : Bool :=
  !s.resetActive && decide (s.scan.state = .inProgress sc) && sc.todo.isEmpty && !watchHit sc 0xFFFF#16 s 0 &&
    !watchHit sc 0xFFFF#16 s 1

theorem test_meets_DeliveredPassesClassifyTheReadings :
    (∀ v ∈ [Verdict.unknown, .below, .inside, .above, .fault], delivers (done .run ⟨1050, false⟩)
      (withScan (done .run ⟨1050, false⟩) (withChannel enabledChannel v running)) = true) ∧
    delivers (done .run ⟨4095, true⟩) (withScan (done .run ⟨4095, true⟩) (withChannel enabledChannel .inside running)) = true ∧
    delivers (done .step ⟨0, false⟩) (withScan (done .step ⟨0, false⟩) { withChannel enabledChannel .inside running with
      engine := { running.engine with injectedReading := running.engine.injectedReading.set 0 (some 4095) } }) = true := by
  decide +kernel

theorem test_meets_DeliveredPassesFilterTheLines :
    ∀ e ∈ [(⟨false, .none⟩ : LineEntry), ⟨true, .none⟩, ⟨true, .qualify 2⟩],
      ∀ l ∈ [(⟨false, false, false, 0⟩ : LineState), ⟨false, false, true, 0⟩, ⟨true, false, true, 1⟩, ⟨true, true, true, 0⟩],
        delivers (done .run ⟨0, false⟩) (withScan (done .run ⟨0, false⟩) (withLine e l running)) = true := by decide +kernel

theorem test_meets_TermsAreEvaluatedFromHighToLow :
    ∀ st ∈ [OutputStage.direct, .qualify 2, .rise, .fall],
      ∀ h ∈ [(⟨false, false, 0, false⟩ : TermHistory), ⟨false, false, 1, true⟩, ⟨true, true, 0, true⟩],
        delivers (done .run ⟨0, false⟩) (withScan (done .run ⟨0, false⟩) (withTerm (enabledTerm st) h running)) = true := by
  decide +kernel

theorem test_meets_DeliveredPassesHandOnTheirResults :
    delivers (done .run ⟨0, true⟩) (withScan (done .run ⟨0, true⟩) (withChannel enabledChannel .inside ready)) = true ∧
    (passPending (done .run ⟨0, true⟩) 0xFFFF#16 ready)[0].output = false ∧ ready.config.permits[3].enabled = true ∧
    stepDrivesNothing stepped ∧ delivers ⟨.step, [], 0, 0, false, Vector.replicate 12 none⟩ stepped = true := by
  unfold stepDrivesNothing; decide +kernel

theorem test_meets_WatchHitsDiscardThePass :
    watchHit (done .run ⟨0, true⟩) 0#16 (withWatch ⟨true, .anyFault⟩ (withChannel enabledChannel .inside running)) 0 = true ∧
    watchHit (done .run ⟨0, false⟩) 0#16
      (withWatch ⟨true, .termEdge 5 .rise⟩ (withTerm (enabledTerm .direct) ⟨false, false, 0, true⟩ running)) 0 = true ∧
    watchHit (done .step ⟨0, true⟩) 0#16 (withWatch ⟨true, .anyFault⟩ (withChannel enabledChannel .inside running)) 0 = false := by
  decide +kernel

/-- A pass result for permit 3. -/
def resultOf (condition : Option Bool) (sampled : Word16) : PassResult :=
  ⟨(Vector.replicate 16 none).set 3 condition, sampled, 0x0008#16, 1#32⟩
def withResult (r : PassResult) (s : State) : State := withFlight (fun f => { f with toPermit := [.passResult r] }) s

theorem test_meets_PassResultsRecordConditionsAndReadback :
    (withResult (resultOf (some false) 0#16) (busy .lock .lock .late)).flight.toPermit =
      .passResult (resultOf (some false) 0#16) :: [] ∧
    (shared .lock .lock).enabled = true ∧ (shared .lock .lock).readback = true ∧
    (resultOf none 0#16).sampled.getLsbD 3 ≠ (resultOf none 0#16).commanded.getLsbD 3 ∧
    (resultOf none 8#16).sampled.getLsbD 3 = (resultOf none 8#16).commanded.getLsbD 3 ∧
    (∀ n ∈ [0, 1, 2], (withRecord 3 { used .late with mismatch := n } running).table.records[3].mismatch = n) := by
  decide +kernel

theorem test_meets_FalseConditionsEndHoldings :
    ∀ l ∈ [LossAction.drop, .lock], ∀ s ∈ [busy .lock l .late],
      s.config.permits[3].enabled = true ∧ s.table.records[3].lock = false ∧ s.table.records[3].holders ≠ [] ∧
      (resultOf (some false) 0#16).conditions[3] = some false ∧ s.config.permits[3].loss = l ∧
      s.config.permits[3].group = some 0 ∧ (withResult (resultOf (some false) 0#16) s).flight.toPermit =
        .passResult (resultOf (some false) 0#16) :: [] ∧ s.table.engine = .running ∧ State.reset.table.engine ≠ .running := by
  decide +kernel

theorem test_meets_GrantExaminationGrantsHeads :
    (withRecord 3 ⟨false, .met, [], [⟨1, 2, none⟩], 0⟩ ready).config.permits[3].group = some 0 ∧
    eligible ready.config (withRecord 3 ⟨false, .met, [], [⟨1, 2, none⟩], 0⟩ ready).table 3 = true ∧
    arbiter ready.config (withRecord 3 ⟨false, .met, [], [⟨1, 2, none⟩], 0⟩ ready).table 0 = some 3 := by decide +kernel

theorem test_meets_EngineChangesReachTheirConsumers :
    (withFlight (fun f => f.tellBoth .halted) running).flight.toScan = [.halted] ∧
    firstEngineChange (withFlight (fun f => f.tellBoth .halted) running).flight.toPermit = some (.halted, []) ∧
    firstEngineChange (withFlight (fun f => f.tellBoth .running) running).flight.toPermit = some (.running, []) ∧
    firstEngineChange (withFlight (fun f => f.tellBoth .halted) (withResult (resultOf none 0#16) running)).flight.toPermit =
      some (.halted, [.passResult (resultOf none 0#16)]) := by decide +kernel

theorem test_meets_TripEntryEmptiesEveryPermit :
    (withFlight (fun f => { f with tripDeliveries := [.entry, .clearing] }) (busy .lock .drop .late)).flight.tripDeliveries =
      .entry :: [.clearing] ∧
    (busy .lock .drop .late).config.permits[3].group = some 0 ∧ (busy .lock .drop .late).table.records[3].holders ≠ [] ∧
    (∀ p : PermitId, (busy .lock .drop .late).config.permits[p].group ≠ some 1) ∧
    (withFlight (fun f => { f with tripDeliveries := [.clearing] }) running).flight.tripDeliveries = .clearing :: [] := by
  decide +kernel

/-- A tick of source 1 on its way to the permit table. -/
def ticking (s : State) : State := withFlight (fun f => { f with permitTicks := #v[0, 1, 0, 0] }) s
/-- Group 0 with its settling about to end, or not. -/
def settling (n : Nat) (s : State) : State := { s with table := { s.table with settle := #v[n, 0, 0, 0] } }

theorem test_meets_TicksCountLeasesWaitsAndSettling :
    0 < (ticking (busy .lock .drop .late)).flight.permitTicks[1] ∧ (busy .lock .drop .late).table.engine = .running ∧
    State.reset.table.engine ≠ .running ∧ State.reset.config.engine.supervision = .freeze ∧
    (settling 1 (ticking ready)).table.settle[0] = 1 ∧ (settling 1 ready).config.groups[0].source = 1 ∧
    (∀ g : GroupId, ready.table.settle[g] ≠ 1) ∧ (∀ p : PermitId, ready.table.records[p].holders = []) := by decide +kernel

theorem test_meets_SettlingAndWaitsEndAtTheirTick :
    0 < (settling 1 (ticking ready)).flight.permitTicks[(settling 1 (ticking ready)).config.groups[0].source] ∧
    (settling 1 (ticking ready)).table.settle[0] = 1 ∧ (settling 2 (ticking ready)).table.settle[0] ≠ 1 ∧
    (settling 1 (ticking ready)).table.engine = .running ∧
    (∀ p : PermitId, (settling 1 (ticking ready)).table.records[p].holders = []) ∧
    (⟨1, 2, some 1⟩ : Claim) ∈ (ticking (busy .lock .drop .armed)).table.records[3].queue ∧
    0 < (ticking (busy .lock .drop .armed)).flight.permitTicks[(busy .lock .drop .armed).config.permits[3].source] ∧
    (∀ h ∈ (busy .lock .drop .armed).table.records[3].holders, h.stage ≠ .late) ∧
    (portsOf (busy .lock .drop .armed).table.records[3]).Nodup ∧
    (∀ x ∈ ready.table.records[3].queue, x.port ≠ 1) := by decide +kernel

theorem test_meets_SilentHoldersBecomeLateAndExpire :
    ∀ x ∈ [ExpiryAction.release, .lock, .trip], ∀ stage ∈ [LeaseStage.armed, .late], ∀ s ∈ [ticking (busy x .drop stage)],
      s.resetActive = false ∧ s.table.engine = .running ∧ 0 < s.flight.permitTicks[s.config.permits[3].source] ∧
      s.config.permits[3].lease = true ∧ s.config.permits[3].expiry = x ∧
      s.table.records[3].holders = [] ++ ⟨0, stage⟩ :: [] ∧ (portsOf s.table.records[3]).Nodup := by decide +kernel

/-- The command does nothing. -/
def idles (c : Instr) (s : State) : Bool :=
  match exec c s with
  | .next t => decide (t = s)
  | _ => false
/-- HALTED at the permit table, under FREEZE. -/
def frozen (s : State) : State := { s with table := { s.table with engine := .halted } }
/-- Permit 3 held at this stage, with port B waiting so long, and a tick on its way. -/
def waiting (wait : Option Nat) : State :=
  withRecord 3 { used .armed with queue := [⟨1, 2, wait⟩] } (ticking (busy .lock .drop .armed))
/-- An ARMED holding of port A behind a LATE one. -/
def behind (x : ExpiryAction) : State :=
  withRecord 3 { used .armed with holders := [⟨2, .late⟩, ⟨0, .armed⟩] } (ticking (busy x .drop .armed))

/-- R56, R81 (log 3): without the outcome nothing happens, and with it something does. -/
theorem test_waits_and_settling_that_do_not_end :
    (∀ w ∈ [none, some 2, some 254], idles (.waitExpired 3 1) (waiting w) = true) ∧
    (∀ w ∈ [some 0, some 1], idles (.waitExpired 3 1) (waiting w) = false) ∧
    idles (.waitExpired 3 2) (waiting (some 1)) = true ∧ idles (.waitExpired 3 1) (frozen (waiting (some 1))) = true ∧
    idles (.waitExpired 3 1) (busy .lock .drop .armed) = true ∧
    idles (.waitExpired 3 1) (ticking (busy .lock .drop .late)) = true ∧
    idles (.waitExpired 3 1) (ticking (busy .release .drop .late)) = false ∧
    (∀ n ∈ [0, 2], idles (.settleEnd 0) (settling n (ticking ready)) = true) ∧ idles (.settleEnd 0) (settling 1 ready) = true ∧
    idles (.settleEnd 0) (frozen (settling 1 (ticking ready))) = true ∧
    idles (.settleEnd 0) (settling 1 (ticking ready)) = false := by decide +kernel

/-- R98, R101 to R103 (log 3): without the outcome nothing happens, and with it something does. -/
theorem test_holdings_that_stay :
    (∀ x ∈ [ExpiryAction.release, .lock, .trip], idles (.late 3 0) (ticking (busy x .drop .armed)) = false ∧
      idles (.late 3 0) (ticking (busy x .drop .late)) = true ∧ idles (.late 3 0) (ticking (busy x .drop .fresh)) = true ∧
      idles (.late 3 0) (busy x .drop .armed) = true ∧ idles (.late 3 0) (frozen (ticking (busy x .drop .armed))) = true ∧
      idles (.leaseExpiryRelease 3 0) (ticking (busy x .drop .late)) = decide (x ≠ .release) ∧
      idles (.leaseExpiryLock 3 0) (ticking (busy x .drop .late)) = decide (x ≠ .lock) ∧
      idles (.leaseExpiryTrip 3 0) (ticking (busy x .drop .late)) = decide (x ≠ .trip) ∧
      idles (.late 3 0) (behind x) = decide (x = .lock)) ∧
    idles (.leaseExpiryLock 3 0) (ticking (busy .lock .drop .armed)) = true := by decide +kernel

/-- R113 (log 3): the deadline does not pass without a tick that takes the counter from 1 to 0. -/
theorem test_deadlines_that_do_not_pass :
    ∀ n ∈ [0, 1, 2], ∀ k ∈ [0, 1], ∀ e ∈ [EngineState.running, .halted],
      idles .passDeadline (withEngine e (withFlight (fun f => { f with tripTicks := k })
        (running.onTrip fun u => { u with deadline := n }))) = !(decide (n = 1) && decide (k = 1) && decide (e = .running)) := by
  decide +kernel

/-- Port A's claim of a permit at a priority. -/
def claimOf (p q : Byte) (w : Byte) (e : Word16) : Instr := .claim 0 p q w e

theorem test_meets_ClaimsAreCheckedInOrder :
    (takeRequest 0 (claimOf 16#8 0#8 0#8 0#16) 5 ready).isSome = true ∧
    (takeRequest 0 (claimOf 15#8 4#8 0#8 0#16) 5 ready).isSome = true ∧
    (takeRequest 0 (claimOf 3#8 3#8 0#8 0#16) 5 ready).isSome = true ∧
    claimRefusal 0 3 0#16 (withProfile .bare ready) = some .noRight ∧ claimRefusal 0 3 1#16 ready = some .staleEpoch ∧
    claimRefusal 0 2 0#16 ready = some .notEnabled ∧
    claimRefusal 0 3 0#16 (withRecord 3 ⟨true, .met, [], [], 0⟩ ready) = some .locked ∧
    claimRefusal 0 3 0#16 (tripped ready) = some .tripped ∧
    claimRefusal 0 3 0#16 (withEntry 3 (shared .lock .drop) State.reset) = some .engineHalted ∧
    claimRefusal 0 3 0#16 (busy .lock .drop .fresh) = some .alreadyHolder ∧
    claimRefusal 0 3 0#16 (withRecord 3 ⟨false, .met, [], [⟨0, 1, none⟩], 0⟩ ready) = some .alreadyWaiting ∧
    claimRefusal 0 3 0#16 ready = none := by decide +kernel

theorem test_meets_ClaimsAreGrantedRefusedOrQueued :
    meets 0 (claimOf 3#8 (BitVec.ofNat 8 3) 0#8 0#16) 5 ready (fun u => decide (claimRefusal 0 3 0#16 u = none) &&
      eligible u.config u.table 3 && decide (u.table.records[3].holders.length < u.config.permits[3].limit) &&
      u.table.records[3].queue.isEmpty) = true ∧
    (∀ w ∈ [0#8, 1#8, 255#8], meets 0 (claimOf 3#8 (BitVec.ofNat 8 2) w 0#16) 5
      (withRecord 3 ⟨false, .notMet, [], [⟨1, 2, some 1⟩, ⟨2, 1, none⟩], 0⟩ ready)
      (fun u => decide (claimRefusal 0 3 0#16 u = none) && !eligible u.config u.table 3) = true) := by decide +kernel

theorem test_meets_ReleasesEndHoldingsOrWithdrawClaims :
    (takeRequest 0 (.release 0 16#8) 1 ready).isSome = true ∧
    meets 0 (.release 0 3#8) 1 (busy .lock .drop .late) (fun u => isHolder u.table.records[3] 0) = true ∧
    meets 1 (.release 1 3#8) 1 (busy .lock .drop .late)
      (fun u => !isHolder u.table.records[3] 1 && isWaiter u.table.records[3] 1) = true ∧
    meets 2 (.release 2 3#8) 1 (busy .lock .drop .late)
      (fun u => !isHolder u.table.records[3] 2 && !isWaiter u.table.records[3] 2) = true := by decide +kernel

theorem test_meets_RefreshesMakeHoldingsFresh :
    (takeRequest 0 (.refresh 0 16#8) 1 ready).isSome = true ∧ (takeRequest 0 (.refreshAll 0) 0 ready).isSome = true ∧
    meets 0 (.refresh 0 3#8) 1 (busy .lock .drop .late) (fun u => decide (u.table.records[3].holders = [⟨0, .late⟩])) = true ∧
    meets 2 (.refresh 2 3#8) 1 (busy .lock .drop .late) (fun u => !isHolder u.table.records[3] 2) = true := by decide +kernel

theorem test_meets_RevokeEmptiesAndUnlockClears :
    (∀ c ∈ [Instr.revoke 0 16#8, .unlock 0 16#8, .revoke 0 15#8, .unlock 0 15#8],
      (takeRequest 0 c 1 ready).isSome = true ∧
      meets 0 c 1 (withProfile .bare ready) (fun u => !u.config.profilesInUse[0].clear) = true) ∧
    meets 0 (.revoke 0 3#8) 1 (busy .lock .drop .late) (fun u => u.config.profilesInUse[0].clear) = true ∧
    meets 0 (.unlock 0 3#8) 1 (withRecord 3 ⟨true, .met, [], [], 0⟩ ready)
      (fun u => u.config.profilesInUse[0].clear && decide (permitState u.config u.table 3 = .locked)) = true ∧
    meets 0 (.unlock 0 3#8) 1 ready (fun u => decide (permitState u.config u.table 3 ≠ .locked)) = true := by decide +kernel

theorem test_meets_TripInputRaisesAndEndsItsCause :
    running.resetActive = false ∧ running.trip.state = .normal ∧ (tripped running).trip.state = .tripped := by decide +kernel

theorem test_meets_CausesEnterOrJoinTheTrip :
    (∀ c ∈ [TripCause.tripIn, .channelFault 11, .request 3, .lease 15, .passDeadline, .lineFeedback 15],
      ∀ s ∈ [running, tripped running],
        (withFlight (fun f => { f with tripCauses := [c] }) s).flight.tripCauses = c :: []) ∧
    meets 0 (.trip 0) 0 running (fun u => decide (u.trip.state = .normal)) = true ∧
    meets 0 (.trip 0) 0 (tripped running) (fun u => decide (u.trip.state = .tripped)) = true := by decide +kernel

theorem test_meets_FaultReportsSetTheChannelFaults :
    (withFlight (fun f => { f with faultReports := [⟨0x802#12, 1#32⟩] }) running).flight.faultReports =
      ⟨0x802#12, 1#32⟩ :: [] ∧ (0x802#12).getLsbD 11 = true ∧ running.trip.present.channelFault.getLsbD 11 = false ∧
    (∀ c : ChannelId, (0#12).getLsbD c = false) := by decide +kernel

theorem test_meets_TheDeadlineCountsInRunning :
    (withFlight (fun f => { f with deadlineRestarts := 1 }) running).flight.deadlineRestarts = 0 + 1 ∧
    (withFlight (fun f => { f with tripTicks := 1 }) running).flight.tripTicks = 0 + 1 ∧
    (∀ n ∈ [1, 2], (running.onTrip fun u => { u with deadline := n }).trip.deadline = n) ∧ running.trip.deadline = 0 ∧
    running.engine.state = .running := by decide +kernel

/-- TRIPPED, with TRIP_IN present. -/
def pinTripped : State := after .tripInActive running

theorem test_meets_ClearTripIsJudgedInOrder :
    meets 0 (.clearTrip 0) 0 (withProfile .bare running) (fun u => !u.config.profilesInUse[0].clear) = true ∧
    meets 0 (.clearTrip 0) 0 running (fun u => decide (u.trip.state = .normal)) = true ∧
    meets 0 (.clearTrip 0) 0 pinTripped (fun u => decide (u.trip.state = .tripped) && u.trip.present.tripIn) = true ∧
    meets 0 (.clearTrip 0) 0 (after .tripInInactive pinTripped)
      (fun u => decide (u.trip.state = .tripped) && !u.trip.present.hasLevel) = true := by decide +kernel

/-- RUNNING, with a scan in progress. -/
def scanning : State := withScan ⟨.run, [0], 0, 0, false, Vector.replicate 12 none⟩ running

theorem test_meets_HaltsStopTheEngine :
    meets 0 (.halt 0) 0 (withProfile .bare running) (fun u => !u.config.profilesInUse[0].maintain) = true ∧
    meets 0 (.halt 0) 0 scanning (fun u => decide (u.engine.state = .running) && decide (u.scan.state ≠ .idle)) = true ∧
    meets 0 (.halt 0) 0 running (fun u => decide (u.engine.state = .running) && decide (u.scan.state = .idle)) = true ∧
    (∀ e ∈ [EngineState.halting, .halted, .stepping],
      meets 0 (.halt 0) 0 (withEngine e running) (fun u => decide (u.engine.state = e)) = true) := by decide +kernel

/-- A configuration that fails check 2: permit 3 is enabled on a disabled term. -/
def invalid : ConfigStore := { (withEntry 3 (shared .lock .drop) State.reset).config with modified := true }

theorem test_meets_ResumeIsJudgedByTheEngineState :
    (∀ e ∈ [EngineState.running, .halting, .halted, .stepping],
      meets 0 (.resume 0) 0 (withEngine e running) (fun u => decide (u.engine.state = e)) = true) ∧
    meets 0 (.resume 0) 0 { State.reset with config := invalid }
      (fun u => u.config.modified && decide (validate u.config = some ⟨3#8, 3#8, 2#8⟩)) = true := by decide +kernel

def withReport (r : PassReport) (s : State) : State := withFlight (fun f => { f with passReports := [r] }) s

theorem test_meets_ResumeFromHaltedRestartsTheEngine :
    (withReport ⟨.run, false, .delivered 1#32⟩ State.reset).flight.passReports ≠ [] ∧
    State.reset.flight.passReports = [] ∧ State.reset.flight.toPermit = [] ∧
    (withResult (resultOf none 0#16) State.reset).flight.toPermit = .passResult (resultOf none 0#16) :: [] ∧
    (withFlight (fun f => f.tellBoth .halted) State.reset).flight.toPermit = .engineChange .halted :: [] ∧
    (∀ m ∈ [false, true], meets 0 (.resume 0) 0 { State.reset with config := { ConfigStore.initial with modified := m } }
      (fun u => u.config.profilesInUse[0].maintain && decide (u.engine.state = .halted) && decide (u.config.modified = m) &&
        decide (validate u.config = none)) = true) := by decide +kernel

theorem test_meets_ValidationFindsTheFirstFailure :
    validate ConfigStore.initial = none ∧
    validate { ConfigStore.initial with terms := ConfigStore.initial.terms.set 23 ⟨true, .line 2, .zero, .zero, 0#8, .direct, false⟩ } =
      some ⟨2#8, 23#8, 1#8⟩ ∧ validate invalid = some ⟨3#8, 3#8, 2#8⟩ ∧
    validate { ConfigStore.initial with permits := (ConfigStore.initial.permits.set 0
        { PermitEntry.default with group := some 3 }).set 1 { shared .lock .drop with enabled := false, group := some 3 } } =
      some ⟨4#8, 3#8, 4#8⟩ := by decide +kernel

theorem test_meets_StepsBeginAStepScan :
    (∀ e ∈ [EngineState.running, .halting, .halted, .stepping],
      meets 0 (.step 0) 0 (withEngine e running) (fun u => decide (u.engine.state = e) && u.config.profilesInUse[0].maintain &&
        decide (validate u.config = none)) = true) ∧
    (∀ l ∈ [[PermitArrival.passResult (resultOf none 0#16), .engineChange .halted],
        [.engineChange .halting, .engineChange .running, .engineChange .halted]],
      meets 0 (.step 0) 0 (withFlight (fun f => { f with toPermit := l }) State.reset) (fun u => decide (u.flight.toPermit = l) &&
        decide (u.engine.state = .halted) && decide (validate u.config = none)) = true) ∧
    meets 0 (.step 0) 0 { State.reset with config := invalid } (fun u => (validate u.config).isSome) = true ∧
    meets 1 (.step 1) 0 State.reset (fun u => !u.config.profilesInUse[1].maintain) = true := by decide +kernel

theorem test_meets_PassReportsMoveTheEngine :
    (∀ k ∈ [ScanKind.run, .step], ∀ old ∈ [false, true], (withReport ⟨k, old, .delivered 1#32⟩ running).flight.passReports =
      ⟨k, old, .delivered 1#32⟩ :: []) ∧
    (withReport ⟨.run, false, .discarded true false (Vector.replicate 24 false)⟩ running).flight.passReports =
      ⟨.run, false, .discarded true false (Vector.replicate 24 false)⟩ :: [] ∧
    ({ running.engine with state := .halting, requester := some 2 } : EngineController).requester = some 2 ∧
    ({ running.engine with state := .stepping, stepPort := some 2 } : EngineController).stepPort = some 2 := by decide +kernel

/-- A request of port A meets the part HALTED, or the engine in another state. -/
def meetsIn (c : Instr) (n : Nat) : Bool :=
  [EngineState.running, .halting, .halted, .stepping].all fun e =>
    meets 0 c n (withEngine e State.reset) fun u => decide (u.engine.state = e) && u.config.profilesInUse[0].maintain

theorem test_meets_InjectionsAreHeldAndCleared :
    meetsIn (.injectChannel 0 11#8 4095#16) 3 = true ∧ meetsIn (.injectChannel 0 11#8 0xFFFF#16) 3 = true ∧
    meetsIn (.injectChannel 0 12#8 0#16) 3 = true ∧ meetsIn (.injectChannel 0 0#8 4096#16) 3 = true ∧
    meetsIn (.injectLine 0 15#8 1#8) 2 = true ∧ meetsIn (.injectLine 0 16#8 2#8) 2 = true ∧
    (∀ c ∈ [Instr.clearInject 0 0#8 9#8, .clearInject 0 1#8 11#8, .clearInject 0 2#8 15#8, .clearInject 0 3#8 0#8,
      .clearInject 0 1#8 12#8, .clearInject 0 2#8 16#8], meetsIn c 2 = true) ∧ meetsIn (.clearHaltRecord 0) 0 = true := by
  decide +kernel

/-- For SoftResetKeepsTablesTripAndLocks and HardResetsLeaveTheInitialState. -/
theorem test_meets_Resets :
    meets 0 (.softReset 0) 0 (busy .lock .drop .late) (fun u => u.config.profilesInUse[0].maintain) = true ∧
    meets 1 (.softReset 1) 0 State.reset (fun u => !u.config.profilesInUse[1].maintain) = true ∧
    meets 0 (.hardReset 0) 0 pinTripped (fun u => u.config.profilesInUse[0].maintain && u.tripInActive) = true ∧
    meets 1 (.hardReset 1) 0 State.reset (fun u => !u.config.profilesInUse[1].maintain) = true ∧
    (inReset State.reset).resetActive = true ∧ State.reset.resetActive = false ∧ State.reset.flight.faultReports = [] ∧
    (withFlight (fun f => { f with faultReports := [⟨0#12, 1#32⟩] }) State.reset).flight.faultReports ≠ [] ∧
    (midst .cut).ports[1].transfer = .cut ∧ partOf (.fetch 1 .closing) = some (1, .closing) ∧
    partOf (.frameError 1 (.bytes [0#8])) = some (1, .bytes [0#8]) ∧
    partOf (.frameDiscarded 1 (.whole [0#8])) = some (1, .whole [0#8]) ∧ partOf (.status 1 1#8 .opening) = some (1, .opening) ∧
    partOf .baseTick = none := by decide +kernel

theorem test_meets_EntriesAreReadFromFieldsInRange :
    failingField (readChannel 7#8 11#8 12#8 64#8 0#16 4095#16 255#8) = none ∧
    failingField (readChannel 7#8 0#8 11#8 1#8 0xF800#16 2047#16 0#8) = none ∧
    failingField (readLine 1#8 8#8) = none ∧ failingField (readPermit 7#8 23#8 1#8 4#8 0xFF#8 3#8 2#8 1#8) = none ∧
    failingField (readGroupEntry 255#8 3#8) = none ∧ failingField (readProfile 7#8 0xFFFF#16 3#8) = none ∧
    failingField (readTick 1#16) = none ∧ failingField (readEngineEntry 0xFF#8 255#8 1#8) = none ∧
    failingField (readWatch 1#8 0#8 23#8 2#8) = none ∧
    (readTerm 3#8 1#8 8#8 0xFF#8 ⟨4#8, 11#8, 7#8, 9#8⟩ ⟨3#8, 0#8, 1#8, 1#8⟩ ⟨5#8, 15#8, 0#8, 0#8⟩).toOption =
      some ⟨true, .channel 11 true true true, .lineSet 1#16 true, .held 15, 0xFF#8, .qualify 8, true⟩ := by decide +kernel

/-- The field that each failing value names: the first of two, and each at a value just outside its range. -/
theorem test_failing_fields :
    failingField (readChannel 0#8 12#8 13#8 3#8 0#16 0#16 0#8) = some 1#8 ∧
    failingField (readChannel 0#8 5#8 5#8 1#8 0#16 0#16 0#8) = some 2#8 ∧
    failingField (readChannel 0#8 5#8 12#8 1#8 2#16 1#16 0#8) = some 5#8 ∧
    failingField (readTerm 0#8 4#8 0#8 0#8 ⟨0#8, 0#8, 0#8, 0#8⟩ ⟨1#8, 23#8, 0#8, 0#8⟩ ⟨2#8, 16#8, 0#8, 0#8⟩) = some 3#8 ∧
    failingField (readTerm 0#8 1#8 9#8 0#8 ⟨0#8, 0#8, 0#8, 0#8⟩ ⟨1#8, 23#8, 0#8, 0#8⟩ ⟨2#8, 15#8, 0#8, 0#8⟩) = some 5#8 ∧
    failingField (readTerm 0#8 0#8 9#8 0#8 ⟨6#8, 0#8, 0#8, 0#8⟩ ⟨0#8, 0#8, 0#8, 0#8⟩ ⟨0#8, 0#8, 0#8, 0#8⟩) = some 1#8 ∧
    failingField (readPermit 0#8 0#8 1#8 1#8 0xFF#8 4#8 0#8 0#8) = some 3#8 ∧
    failingField (readWatch 0#8 1#8 24#8 3#8) = none := by decide +kernel

/-- Writes to the nine tables at the last index of each. -/
def writes : List Instr :=
  [.writeChannelEntry 0 11#8 7#8 0#8 12#8 1#8 0#16 4095#16 0#8, .writeLineEntry 0 15#8 1#8 0#8,
    .writeTermEntry 0 23#8 1#8 0#8 0#8 1#8 ⟨0#8, 0#8, 0#8, 0#8⟩ ⟨0#8, 0#8, 0#8, 0#8⟩ ⟨0#8, 0#8, 0#8, 0#8⟩,
    .writePermitEntry 0 15#8 1#8 0#8 0#8 1#8 0xFF#8 0#8 0#8 0#8, .writeGroupEntry 0 3#8 1#8 0#8,
    .writeProfileEntry 0 3#8 7#8 0#16 0#8, .writeTickEntry 0 3#8 1#16, .writeEngineEntry 0 0#8 0xFF#8 0#8 0#8,
    .writeWatchEntry 0 1#8 1#8 1#8 0#8 0#8]

theorem test_meets_AcceptedWritesReplaceTheirEntry :
    ∀ c ∈ writes, (writeShape c).any (fun w => w.failing.isNone && decide (w.index.toNat + 1 = w.entries) &&
      meets w.port c w.length State.reset fun u => decide (u.engine.state = .halted) &&
        u.config.profilesInUse[w.port].configure && u.config.profilesInUse[w.port].maintain) = true := by decide +kernel

theorem test_meets_WritesAreCheckedInOrder :
    (∀ c ∈ [Instr.writeLineEntry 0 16#8 1#8 0#8, .writeLineEntry 0 15#8 1#8 1#8], (writeShape c).any (fun w =>
      (decide (w.entries ≤ w.index.toNat) || w.failing.isSome) && meets w.port c w.length State.reset fun _ => true) = true) ∧
    (∀ e ∈ [EngineState.running, .halting, .halted, .stepping], meets 0 (.writeLineEntry 0 15#8 1#8 0#8) 4 (withEngine e State.reset)
      (fun u => decide (u.engine.state = e)) = true) ∧
    meets 1 (.writeLineEntry 1 15#8 1#8 0#8) 4 State.reset (fun u => !u.config.profilesInUse[1].configure) = true ∧
    meets 1 (.writeWatchEntry 1 1#8 1#8 1#8 0#8 0#8) 6 State.reset (fun u => !u.config.profilesInUse[1].maintain) = true ∧
    meets 0 (.writePermitEntry 0 3#8 1#8 0#8 0#8 1#8 0xFF#8 0#8 0#8 0#8) 10 (withEngine .halted (busy .lock .drop .late))
      (fun u => inUse u.table 3) = true ∧
    meets 0 (.writeGroupEntry 0 0#8 1#8 0#8) 4 (withEngine .halted (busy .lock .drop .late))
      (fun u => decide (u.config.permits[3].group = some 0) && inUse u.table 3) = true ∧
    meets 0 (.writeProfileEntry 0 0#8 6#8 0#16 0#8) 6 State.reset
      (fun u => (readProfile 6#8 0#16 0#8).toOption.any fun e => !someConfigure (u.config.profiles.set 0 e)) = true := by
  decide +kernel

/-- RUNNING with permit 3 held and waited on, and a TRIP request waiting. -/
def sound : State := { busy .lock .drop .late with pending := [.trip 0] }

theorem test_groups_exclude : groupsExclude sound.config sound.table := by unfold groupsExclude; decide +kernel

theorem test_records_sound : recordsSound sound.config sound.table := by
  intro p
  refine ⟨?_, ?_, ?_, ?_⟩ <;> revert p <;> decide +kernel

theorem test_meets_StepsKeepThePermitTableSound : groupsExclude sound.config sound.table ∧
    recordsSound sound.config sound.table ∧ trippedEmpties sound.table ∧ resetEmpties sound ∧
    (match step sound with | .next t => decide (t.trip.state = .tripped) | _ => false) = true :=
  ⟨test_groups_exclude, test_records_sound, by unfold trippedEmpties; decide +kernel, by unfold resetEmpties; decide +kernel,
    by decide +kernel⟩

theorem test_meets_StepsKeepCausesQueuesRightsAndCounters : normalHasNoCause sound.trip ∧ queuesFit sound ∧
    configureHeld sound.config ∧ countersFit sound ∧ noTickInScan sound ∧ noTickInScan scanning ∧ scanning.scan.state ≠ .idle ∧
    stepDrivesNothing sound ∧ stepDrivesNothing stepped ∧ stepsUnderWay stepped = 1 ∧
    (match step sound with | .next t => decide (t.trip.state = .tripped) | _ => false) = true := by
  unfold normalHasNoCause queuesFit configureHeld countersFit noTickInScan stepDrivesNothing; decide +kernel

theorem test_meets_OnlyTheirCommandsEndTripsAndChangeEntries :
    (match step { after .tripInInactive pinTripped with pending := [.clearTrip 0] } with
      | .next t => decide (t.trip.state = .normal) | _ => false) = true ∧
    (match step { State.reset with pending := [.writeTickEntry 0 3#8 1#16] } with
      | .next t => decide (t.config.ticks[3] = 1) | _ => false) = true ∧
    (match step { State.reset with config := { ConfigStore.initial with modified := true }, pending := [.resume 0] } with
      | .next t => decide (t.config.epoch = 1#16) | _ => false) = true ∧
    (match step { withScan (done .run ⟨0, false⟩) running with pending := [.pass 0#16 0#16] } with
      | .next t => decide (t.eval.passCount = 1#32) | _ => false) = true := by decide +kernel

end Sys2Proof.Tests
end

section
/-! SUPPORT. The measurement path in the terms of its statements: the input selector and a conversion (R1, R4, R5), the trigger ticks (R9 to
R11), and what a delivered pass leaves in the channels and the lines (R6, R7, R14 to R18). -/

namespace Sys2Proof.Proofs

open Sys2Proof.Machine Sys2Proof.Laws

theorem unlessReset_inactive {s : State} (h : s.resetActive = false) (f : State → State) : s.unlessReset f = f s := by
  simp only [State.unlessReset, h, Bool.false_eq_true, if_false]

theorem exec_runScanStart {s : State} (h : s.resetActive = false) (tick : TriggerTick) :
    exec (.runScanStart tick) s = .next (takeTrigger tick s) := congrArg _ (unlessReset_inactive h _)

theorem exec_conversion {s : State} (h : s.resetActive = false) (ain : Vector Int 12) :
    exec (.conversion ain) s = .next (takeConversion ain s) := congrArg _ (unlessReset_inactive h _)

theorem exec_pass {s : State} (h : s.resetActive = false) (din pfb : Word16) :
    exec (.pass din pfb) s = .next (takePass din pfb s) := congrArg _ (unlessReset_inactive h _)

/-! The channel entry (R1, R2). -/

theorem low_eq (e : ChannelEntry) : e.low = if e.negative = none then 0 else -2048 := by
  simp only [ChannelEntry.low, Option.isNone_iff_eq_none]

theorem high_eq (e : ChannelEntry) : e.high = if e.negative = none then 4095 else 2047 := by
  simp only [ChannelEntry.high, Option.isNone_iff_eq_none]

theorem select_eq (e : ChannelEntry) (ain : Vector Int 12) :
    e.select ain = e.negative.elim ain[e.positive] fun n => ain[e.positive] - ain[n] := by
  unfold ChannelEntry.select; cases e.negative <;> rfl

/-! Conversions (R4, R5). -/

theorem convert_more {e : ChannelEntry} {sc : Scan} (h : sc.taken + 1 < e.count) (c : ChannelId) (rest : List ChannelId)
    (ain : Vector Int 12) : sc.convert e c rest ain =
      { sc with
        taken := sc.taken + 1
        acc := sc.acc + e.clamp (e.select ain)
        rail := sc.rail || (e.railCheck && e.atRail (e.clamp (e.select ain))) } := by
  simp only [Scan.convert, Nat.not_le.mpr h, if_false]

theorem convert_last {e : ChannelEntry} {sc : Scan} (h : e.count ≤ sc.taken + 1) (c : ChannelId) (rest : List ChannelId)
    (ain : Vector Int 12) : sc.convert e c rest ain =
      { sc with
        todo := rest, taken := 0, acc := 0, rail := false
        formed := sc.formed.set c (some ⟨e.average (sc.acc + e.clamp (e.select ain)),
          sc.rail || (e.railCheck && e.atRail (e.clamp (e.select ain)))⟩) } := by
  simp only [Scan.convert, h, if_true]

theorem takeConversion_converting {s : State} {sc : Scan} {c : ChannelId} {rest : List ChannelId}
    (hs : s.scan.state = .inProgress sc) (ht : sc.todo = c :: rest) (ain : Vector Int 12) :
    takeConversion ain s = { s with scan := { s.scan with
      state := .inProgress (sc.convert s.config.channels[c] c rest ain) } } := by
  simp only [takeConversion, hs, ht, State.onScan]

/-- Settles O20: the split is that of Scan.convert, by whether this sample is the last of the accumulation count. -/
theorem conversionsFormTheReading : Obligations.ConversionsFormTheReading := by
  unfold Obligations.ConversionsFormTheReading
  intro ain sc c rest s hr hs ht e level low high sample rail
  have hsample : e.clamp (e.select ain) = sample := by
    rw [clamp_eq, select_eq, low_eq, high_eq]
  have hrail : (sc.rail || (e.railCheck && e.atRail sample)) = rail := by
    rw [ChannelEntry.atRail, low_eq, high_eq]
  rw [exec_conversion hr, takeConversion_converting hs ht]
  refine ⟨fun hmore => ?_, fun hlast => ?_⟩
  · rw [convert_more hmore, hsample, hrail]
  · rw [convert_last hlast, hsample, hrail]; rfl

/-! Trigger ticks (R9 to R11). -/

theorem isTrigger_iff (trigger : ScanTrigger) (tick : TriggerTick) : isTrigger trigger tick = true ↔
    (trigger = .free ∧ tick = .base) ∨ ∃ src, trigger = .tick src ∧ tick = .source src := by
  cases trigger <;> cases tick <;> simp [isTrigger, eq_comm]

theorem startsRunScan_iff (tick : TriggerTick) (s : State) : startsRunScan tick s = true ↔
    isTrigger s.config.engine.trigger tick = true ∧ s.scan.engine = .running ∧ s.scan.state = .idle ∧
      s.scan.watchStopped = false := by
  simp only [startsRunScan, Bool.and_eq_true, decide_eq_true_eq, Bool.not_eq_true', and_assoc]

/-- R9: a RUN scan converts every enabled channel, injected readings or not. -/
theorem scanChannels_run (s : State) : scanChannels .run s = allChannels.filter fun c => s.config.channels[c].enabled := by
  simp only [scanChannels, reduceCtorEq, decide_false, Bool.false_and, Bool.not_false, Bool.and_true]

/-- R10, R11: dropping every tick that waits forgets that one of them was taken. -/
theorem dropTriggers_dropTriggerTick (f : InFlight) (tick : TriggerTick) :
    (f.dropTriggerTick tick).dropTriggers = f.dropTriggers := by
  cases tick <;> rfl

theorem takeTrigger_starts {tick : TriggerTick} {s : State} (hw : s.flight.triggerTicks tick ≠ 0)
    (h : startsRunScan tick s = true) :
    takeTrigger tick s = beginScan .run (s.onFlight fun f => f.dropTriggerTick tick) := by
  simp only [takeTrigger, hw, h, if_false, if_true]

theorem takeTrigger_drops {tick : TriggerTick} {s : State} (hw : s.flight.triggerTicks tick ≠ 0)
    (h : startsRunScan tick s = false) : takeTrigger tick s = s.onFlight fun f => f.dropTriggerTick tick := by
  simp only [takeTrigger, hw, h, if_false, Bool.false_eq_true]

theorem beginScan_run_dropTriggerTick (tick : TriggerTick) (s : State) :
    beginScan .run (s.onFlight fun f => f.dropTriggerTick tick) = { s with
      scan := { s.scan with
        state := .inProgress ⟨.run, allChannels.filter fun c => s.config.channels[c].enabled, 0, 0, false,
          Vector.replicate 12 none⟩ }
      flight := s.flight.dropTriggers } := by
  simp only [beginScan, State.onFlight, State.onScan, scanChannels_run, dropTriggers_dropTriggerTick]

/-- Settles O19: a tick that waits either starts the scan or is dropped. -/
theorem triggerTicksBeginRunScans : Obligations.TriggerTicksBeginRunScans := by
  unfold Obligations.TriggerTicksBeginRunScans
  intro tick s hr hw triggers
  have hstarts : startsRunScan tick s = true ↔
      triggers ∧ s.scan.engine = .running ∧ s.scan.state = .idle ∧ s.scan.watchStopped = false := by
    rw [startsRunScan_iff, isTrigger_iff]
  rw [exec_runScanStart hr]
  refine ⟨fun h => ?_, fun h => ?_⟩
  · rw [takeTrigger_starts hw (hstarts.mpr h), beginScan_run_dropTriggerTick]; rfl
  · rw [takeTrigger_drops hw (Bool.eq_false_iff.mpr (h ∘ hstarts.mp))]; rfl

/-! Verdicts at a delivered pass (R6, R7, R14). -/

theorem exec_pass_delivers {din pfb : Word16} {sc : Scan} {s : State} (hr : s.resetActive = false)
    (hs : s.scan.state = .inProgress sc) (ht : sc.todo = []) (h0 : watchHit sc din s 0 = false)
    (h1 : watchHit sc din s 1 = false) :
    exec (.pass din pfb) s = .next (deliverPass sc din pfb (passPending sc din s) s) := by
  rw [exec_pass hr, takePass_delivers hs ht h0 h1]

theorem deliverPass_channel (sc : Scan) (din pfb : Word16) (pend : Vector TermPending 24) (s : State) (c : ChannelId) :
    (deliverPass sc din pfb pend s).scan.channels[c] = nextChannel sc s c := get_ofFn _ c

theorem nextChannel_disabled {s : State} {c : ChannelId} (h : s.config.channels[c].enabled = false) (sc : Scan) :
    nextChannel sc s c = ⟨0, .unknown⟩ := by
  simp only [nextChannel, pendingVerdict, h, Bool.false_eq_true, if_false]

theorem nextChannel_enabled {s : State} {c : ChannelId} (h : s.config.channels[c].enabled = true) (sc : Scan) :
    nextChannel sc s c = ⟨(pendingReading sc s c).value,
      s.config.channels[c].classify s.scan.channels[c].verdict (pendingReading sc s c)⟩ := by
  simp only [nextChannel, pendingVerdict, h, if_true]

theorem pendingReading_injected {sc : Scan} {s : State} {c : ChannelId} {v : Int} (hk : sc.kind = .step)
    (hi : s.engine.injectedReading[c] = some v) : pendingReading sc s c = ⟨s.config.channels[c].clamp v, false⟩ := by
  simp only [pendingReading, hk, hi]

theorem pendingReading_formed {sc : Scan} {s : State} {c : ChannelId} {r : Reading}
    (h : sc.kind = .run ∨ s.engine.injectedReading[c] = none) (hf : sc.formed[c] = some r) :
    pendingReading sc s c = r := by
  rcases h with h | h
  · simp only [pendingReading, h, hf, Option.getD_some]
  · cases hk : sc.kind <;> simp only [pendingReading, hk, h, hf, Option.getD_some]

/-- R14: the reading of a pass is the injected one at a STEP pass of a channel that holds one, and the formed one otherwise. -/
theorem pendingReading_eq {sc : Scan} {s : State} {c : ChannelId} {r : Reading}
    (hf : sc.kind = .run ∨ s.engine.injectedReading[c] = none → sc.formed[c] = some r)
    (hi : ∀ v, sc.kind = .step → s.engine.injectedReading[c] = some v → r = ⟨s.config.channels[c].clamp v, false⟩) :
    pendingReading sc s c = r := by
  cases hk : sc.kind with
  | run => exact pendingReading_formed (.inl hk) (hf (.inl hk))
  | step =>
    cases hv : s.engine.injectedReading[c] with
    | none => exact pendingReading_formed (.inr hv) (hf (.inr hv))
    | some v => rw [pendingReading_injected hk hv, hi v hk hv]

/-! The rows of the verdict table (R6). -/

theorem classify_rail {r : Reading} (h : r.rail = true) (e : ChannelEntry) (before : Verdict) :
    e.classify before r = .fault := by
  simp only [ChannelEntry.classify, h, if_true]

theorem classify_start {r : Reading} {before : Verdict} (h : r.rail = false) (hb : before = .unknown ∨ before = .fault)
    (e : ChannelEntry) :
    e.classify before r = if r.value < e.lower then .below else if e.upper < r.value then .above else .inside := by
  rcases hb with rfl | rfl <;> simp only [ChannelEntry.classify, h, Bool.false_eq_true, if_false]

theorem classify_inside {r : Reading} (h : r.rail = false) (e : ChannelEntry) : e.classify .inside r =
    if e.upper < r.value then .above else if r.value < e.lower then .below else .inside := by
  simp only [ChannelEntry.classify, h, Bool.false_eq_true, if_false]

theorem classify_above {r : Reading} (h : r.rail = false) (e : ChannelEntry) : e.classify .above r =
    if r.value < e.lower then .below else if r.value ≤ e.upper - e.hysteresis then .inside else .above := by
  simp only [ChannelEntry.classify, h, Bool.false_eq_true, if_false]

theorem classify_below {r : Reading} (h : r.rail = false) (e : ChannelEntry) : e.classify .below r =
    if e.upper < r.value then .above else if e.lower + e.hysteresis ≤ r.value then .inside else .below := by
  simp only [ChannelEntry.classify, h, Bool.false_eq_true, if_false]

/-- Settles O21: a delivered pass stores the pending verdicts, each a row of the table. -/
theorem deliveredPassesClassifyTheReadings : Obligations.DeliveredPassesClassifyTheReadings := by
  unfold Obligations.DeliveredPassesClassifyTheReadings
  intro din pfb sc s hr hs ht h0 h1
  refine ⟨_, exec_pass_delivers hr hs ht h0 h1, ?_⟩
  intro c e before after
  have hafter : after = nextChannel sc s c := deliverPass_channel sc din pfb _ s c
  refine ⟨fun hd => hafter.trans (nextChannel_disabled hd sc), fun he r hformed hinjected => ?_⟩
  have hreading : pendingReading sc s c = r :=
    pendingReading_eq hformed fun v hk hv => by rw [hinjected v hk hv, clamp_eq]
  have hnext : after = ⟨r.value, e.classify before r⟩ := by
    rw [hafter, nextChannel_enabled he, hreading]
  have hverdict : after.verdict = e.classify before r := congrArg ChannelState.verdict hnext
  refine ⟨congrArg ChannelState.reading hnext, hverdict, ?_, ?_, ?_, ?_, ?_⟩ <;> rw [hverdict]
  · exact fun h => classify_rail h e before
  · exact fun h hb => classify_start h hb e
  · exact fun h hb => hb ▸ classify_inside h e
  · exact fun h hb => hb ▸ classify_above h e
  · exact fun h hb => hb ▸ classify_below h e

/-! Lines at a delivered pass (R15 to R18). -/

theorem deliverPass_line (sc : Scan) (din pfb : Word16) (pend : Vector TermPending 24) (s : State) (n : LineId) :
    (deliverPass sc din pfb pend s).lines.lines[n] =
      s.config.lines[n].next s.lines.lines[n] (pendingRaw sc din s n) := get_ofFn _ n

theorem pendingRaw_pin {sc : Scan} {s : State} {n : LineId} (h : sc.kind = .run ∨ s.engine.injectedLevel[n] = none)
    (din : Word16) : pendingRaw sc din s n = din.getLsbD n := by
  rcases h with h | h
  · simp only [pendingRaw, h]
  · cases hk : sc.kind <;> simp only [pendingRaw, hk, h]

theorem pendingRaw_injected {sc : Scan} {s : State} {n : LineId} {level : Bool} (hk : sc.kind = .step)
    (hi : s.engine.injectedLevel[n] = some level) (din : Word16) : pendingRaw sc din s n = level := by
  simp only [pendingRaw, hk, hi]

/-! The filter of a line (R15, R16). -/

section Filter

variable {e : LineEntry} {before : LineState} {raw : Bool} {q : Nat}

theorem next_raw (e : LineEntry) (before : LineState) (raw : Bool) : (e.next before raw).raw = raw := by
  unfold LineEntry.next
  repeat' split
  all_goals rfl

theorem next_disabled (he : e.enabled = false) : e.next before raw = ⟨raw, false, false, 0⟩ := by
  simp only [LineEntry.next, he, Bool.not_false, if_true]

theorem next_unseeded (he : e.enabled = true) (hs : before.seeded = false) : e.next before raw = ⟨raw, raw, true, 0⟩ := by
  simp only [LineEntry.next, he, hs, Bool.not_true, Bool.not_false, Bool.false_eq_true, if_false, if_true]

theorem next_unfiltered (he : e.enabled = true) (hs : before.seeded = true) (hf : e.filter = .none) :
    e.next before raw = ⟨raw, raw, true, 0⟩ := by
  simp only [LineEntry.next, he, hs, hf, Bool.not_true, Bool.false_eq_true, if_false]

theorem next_qualify (he : e.enabled = true) (hs : before.seeded = true) (hf : e.filter = .qualify q) :
    e.next before raw =
      if raw = before.filtered then ⟨raw, before.filtered, true, 0⟩
      else if q ≤ before.counter + 1 then ⟨raw, raw, true, 0⟩
      else ⟨raw, before.filtered, true, before.counter + 1⟩ := by
  simp only [LineEntry.next, he, hs, hf, Bool.not_true, Bool.false_eq_true, if_false]

end Filter

/-- Settles O22: a delivered pass stores LineEntry.next of the pending raw level, case by case of the entry and the seed. -/
theorem deliveredPassesFilterTheLines : Obligations.DeliveredPassesFilterTheLines := by
  unfold Obligations.DeliveredPassesFilterTheLines
  intro din pfb sc s hr hs ht h0 h1
  refine ⟨_, exec_pass_delivers hr hs ht h0 h1, rfl, ?_⟩
  intro n e before after
  have hafter : after = e.next before (pendingRaw sc din s n) := deliverPass_line sc din pfb _ s n
  have hraw : after.raw = pendingRaw sc din s n := by rw [hafter, next_raw]
  have hnext : after = e.next before after.raw := by rw [hraw, ← hafter]
  refine ⟨hnext, fun h => hraw.trans (pendingRaw_pin h din), fun _ hk hi => hraw.trans (pendingRaw_injected hk hi din),
    fun he => hnext.trans (next_disabled he), fun he hseed => hnext.trans (next_unseeded he hseed),
    fun he hseed hf => hnext.trans (next_unfiltered he hseed hf), fun q he hseed hf => ?_⟩
  have hq := hnext.trans (next_qualify he hseed hf)
  refine ⟨fun hold => hq.trans (if_pos hold), fun hnew hcount => ?_, fun hnew hcount => ?_⟩
  · rwa [if_neg hnew, if_pos hcount] at hq
  · rwa [if_neg hnew, if_neg (Nat.not_le.mpr hcount)] at hq

end Sys2Proof.Proofs
end

section
/-! SUPPORT. The reads: a read's request answered, READ_ENTRY by its table and index (R156), and the bytes of the payloads in the terms of
the statement (R171, R175, R176). -/

namespace Sys2Proof.Proofs

open Sys2Proof.Machine Sys2Proof.Laws

/-! Requests that read. -/

section Reads

variable {port : Port} {c : Instr} {echo : Byte} {n : Nat} {s u : State} {live : Bool}

/-- A request whose body changes nothing places its answer on the part as the owning block meets it. -/
theorem exec_of_read {body : Body} {r : Reply} (hx : exec c s = .next (serve port c echo n body s))
    (h : takeRequest port c n s = some (u, live)) (hb : body u = (u, some r)) :
    exec c s = .next (answerIn port echo live r u) := by
  rw [hx, serve_taken h, perform_answers hb]

theorem exec_readChannel_beyond {b : Byte} (h : takeRequest port (.readChannel port b) 1 s = some (u, live))
    (hb : 12 ≤ b.toNat) : exec (.readChannel port b) s = .next (answerIn port 0x04#8 live ⟨.refused, [0x01#8]⟩ u) :=
  exec_of_read rfl h (needNumber_beyond hb _ u)

theorem exec_readChannel {b : Byte} {k : ChannelId} (h : takeRequest port (.readChannel port b) 1 s = some (u, live))
    (hk : b.toNat = k.val) :
    exec (.readChannel port b) s = .next (answerIn port 0x04#8 live ⟨.ok, channelPayload k u⟩ u) :=
  exec_of_read rfl h (needNumber_of hk _ u)

theorem exec_readLines (h : takeRequest port (.readLines port) 0 s = some (u, live)) :
    exec (.readLines port) s = .next (answerIn port 0x05#8 live ⟨.ok, linesPayload u⟩ u) := exec_of_read rfl h rfl

theorem exec_readTerms (h : takeRequest port (.readTerms port) 0 s = some (u, live)) :
    exec (.readTerms port) s = .next (answerIn port 0x06#8 live ⟨.ok, termsPayload u⟩ u) := exec_of_read rfl h rfl

theorem exec_readTrip (h : takeRequest port (.readTrip port) 0 s = some (u, live)) :
    exec (.readTrip port) s = .next (answerIn port 0x08#8 live ⟨.ok, tripPayload u⟩ u) := exec_of_read rfl h rfl

theorem exec_readHaltRecord (h : takeRequest port (.readHaltRecord port) 0 s = some (u, live)) :
    exec (.readHaltRecord port) s =
      .next (answerIn port 0x09#8 live ⟨.ok, [u.engine.state.code] ++ u.engine.record.bytes⟩ u) := exec_of_read rfl h rfl

theorem exec_readEntry_none {b i : Byte} (h : takeRequest port (.readEntry port b i) 2 s = some (u, live))
    (hp : entryPayload b i u = none) :
    exec (.readEntry port b i) s = .next (answerIn port 0x03#8 live ⟨.refused, [0x01#8]⟩ u) :=
  exec_of_read rfl h (by rw [readEntryBody, hp]; rfl)

theorem exec_readEntry_some {b i : Byte} {bytes : List Byte}
    (h : takeRequest port (.readEntry port b i) 2 s = some (u, live)) (hp : entryPayload b i u = some bytes) :
    exec (.readEntry port b i) s = .next (answerIn port 0x03#8 live ⟨.ok, [b, i] ++ bytes⟩ u) :=
  exec_of_read rfl h (by rw [readEntryBody, hp]; rfl)

end Reads

/-! READ_ENTRY (R156): each table with its index. -/

section Entries

variable {b i : Byte} (u : State)

theorem entryPayload_channel {k : ChannelId} (h : i.toNat = k.val) :
    entryPayload 0#8 i u = some u.config.channels[k].bytes := congrArg (Option.map _) (byteFin_of h)

theorem entryPayload_line {k : LineId} (h : i.toNat = k.val) :
    entryPayload 1#8 i u = some u.config.lines[k].bytes := congrArg (Option.map _) (byteFin_of h)

theorem entryPayload_term {k : TermId} (h : i.toNat = k.val) :
    entryPayload 2#8 i u = some u.config.terms[k].bytes := congrArg (Option.map _) (byteFin_of h)

theorem entryPayload_permit {k : PermitId} (h : i.toNat = k.val) :
    entryPayload 3#8 i u = some u.config.permits[k].bytes := congrArg (Option.map _) (byteFin_of h)

theorem entryPayload_group {k : GroupId} (h : i.toNat = k.val) :
    entryPayload 4#8 i u = some u.config.groups[k].bytes := congrArg (Option.map _) (byteFin_of h)

theorem entryPayload_profile {k : Port} (h : i.toNat = k.val) :
    entryPayload 5#8 i u = some (u.config.profiles[k].bytes ++ u.config.profilesInUse[k].bytes) :=
  congrArg (Option.map _) (byteFin_of h)

theorem entryPayload_tick {k : SourceId} (h : i.toNat = k.val) :
    entryPayload 6#8 i u = some (bytesOf 2 u.config.ticks[k] ++ bytesOf 2 u.ticks.dividers[k]) :=
  congrArg (Option.map _) (byteFin_of h)

theorem entryPayload_engine : entryPayload 7#8 0#8 u = some u.config.engine.bytes := rfl

theorem entryPayload_watch {k : SlotId} (h : i.toNat = k.val) :
    entryPayload 8#8 i u = some u.config.watches[k].bytes := congrArg (Option.map _) (byteFin_of h)

theorem entryPayload_noTable (h : 9 ≤ b.toNat) : entryPayload b i u = none := by
  unfold entryPayload
  split
  case h_10 => rfl
  all_goals omega

/-- The number of entries of each table. -/
theorem entryPayload_beyond {n : Nat}
    (ht : (b.toNat, n) ∈ [(0, 12), (1, 16), (2, 24), (3, 16), (4, 4), (5, 4), (6, 4), (7, 1), (8, 2)])
    (hn : n ≤ i.toNat) : entryPayload b i u = none := by
  simp only [List.mem_cons, Prod.mk.injEq, List.not_mem_nil, or_false] at ht
  rcases ht with ⟨hb, rfl⟩ | ⟨hb, rfl⟩ | ⟨hb, rfl⟩ | ⟨hb, rfl⟩ | ⟨hb, rfl⟩ | ⟨hb, rfl⟩ | ⟨hb, rfl⟩ | ⟨hb, rfl⟩ | ⟨hb, rfl⟩ <;>
    simp only [entryPayload, hb, byteFin_none hn, Option.map_none]

end Entries

/-! Bytes. -/

theorem signedBytes_eq (v : Int) : signedBytes v =
    [(BitVec.ofInt 16 v).extractLsb' 8 8, (BitVec.ofInt 16 v).extractLsb' 0 8] := bytesOf_two _

/-- A 2-byte number of any size is sent modulo 65536. -/
theorem bytesOf_two_ofNat (n : Nat) : bytesOf 2 n =
    [(BitVec.ofNat 16 n).extractLsb' 8 8, (BitVec.ofNat 16 n).extractLsb' 0 8] := by
  rw [← bytesOf_two]
  simp only [bytesOf, List.cons.injEq, and_true]
  constructor <;> apply BitVec.eq_of_toNat_eq <;>
    simp only [BitVec.toNat_ofNat, Nat.shiftRight_eq_div_pow] <;> omega

theorem packBits_shiftRight (l : List Bool) (k : Nat) : packBits l >>> k = packBits (l.drop k) :=
  Nat.eq_of_testBit_eq fun i => by
    simp only [Nat.testBit_shiftRight, packBits_testBit, List.getD_eq_getElem?_getD, List.getElem?_drop]

/-- A byte of flags holds the first eight of them. -/
theorem flagByte_take (l : List Bool) : flagByte l = flagByte (l.take 8) := by
  refine BitVec.eq_of_getLsbD_eq fun i hi => ?_
  simp only [flagByte, BitVec.getLsbD_ofNat, packBits_testBit, List.getD_eq_getElem?_getD, List.getElem?_take_of_lt hi]

/-- R176: the outputs of the terms, the highest-numbered eight first. -/
theorem termBytes_eq (v : Vector Bool 24) : termBytes v =
    [flagByte (v.toList.drop 16), flagByte ((v.toList.drop 8).take 8), flagByte (v.toList.take 8)] := by
  rw [← flagByte_take (v.toList.drop 8), ← flagByte_take v.toList]
  simp only [termBytes, bytesOf, packBits_shiftRight, flagByte, Nat.reduceMul, Nat.mul_one, Nat.mul_zero, List.drop_zero]

/-- R171: an optional number, FFH when absent. -/
theorem optByte_map_val {n : Nat} (o : Option (Fin n)) : optByte (o.map Fin.val) = o.elim 0xFF#8 fun k => numByte k := by
  cases o <;> rfl

theorem channelEntry_bytes (e : ChannelEntry) : e.bytes =
    [flagByte [e.enabled, e.railCheck, e.tripOnFault], numByte e.positive, e.negative.elim 12#8 fun n => numByte n,
      numByte e.count, (BitVec.ofInt 16 e.lower).extractLsb' 8 8, (BitVec.ofInt 16 e.lower).extractLsb' 0 8,
      (BitVec.ofInt 16 e.upper).extractLsb' 8 8, (BitVec.ofInt 16 e.upper).extractLsb' 0 8, numByte e.hysteresis] := by
  rw [ChannelEntry.bytes, signedBytes_eq, signedBytes_eq]
  cases e.negative <;> rfl

theorem permitEntry_bytes (e : PermitEntry) : e.bytes =
    [flagByte [e.enabled, e.lease, e.readback], numByte e.term, e.mode.code, numByte e.limit,
      e.group.elim 0xFF#8 fun g => numByte g, numByte e.source, e.expiry.code, e.loss.code] := by
  rw [PermitEntry.bytes, groupByte, optByte_map_val]

theorem lineSet_bytes (mask : Word16) (allHigh : Bool) : (Source.lineSet mask allHigh).bytes =
    [3#8, mask.extractLsb' 8 8, mask.extractLsb' 0 8, boolByte allHigh] := by
  rw [Source.bytes, bytesOf_two]; rfl

theorem channelPayload_eq (k : ChannelId) (s : State) : channelPayload k s =
    [numByte k, flagByte [s.config.channels[k].enabled, s.config.channels[k].negative.isSome,
      s.engine.injectedReading[k].isSome]] ++ signedBytes s.scan.channels[k].reading ++
      [s.scan.channels[k].verdict.code] ++ s.engine.injectedReading[k].elim [0xFF#8, 0xFF#8] signedBytes := by
  unfold channelPayload
  cases s.engine.injectedReading[k] <;> rfl

theorem haltRecord_bytes (r : HaltRecord) : r.bytes =
    r.cause.bytes ++ [r.also.elim 0xFF#8 fun p => numByte p, flagByte [r.hit0, r.hit1]] ++
      [r.count.extractLsb' 24 8, r.count.extractLsb' 16 8, r.count.extractLsb' 8 8, r.count.extractLsb' 0 8] ++
      r.captured.elim [0xFF#8, 0xFF#8, 0xFF#8] fun v =>
        [flagByte (v.toList.drop 16), flagByte ((v.toList.drop 8).take 8), flagByte (v.toList.take 8)] := by
  rw [HaltRecord.bytes, bytesOf_four, optByte_map_val]
  cases r.captured with
  | none => rfl
  | some v => exact congrArg _ (termBytes_eq v)

/-- R176: a cause set as seven bytes. -/
theorem causeSet_bytes (c : CauseSet) :
    let w : BitVec 56 := 0#6 ++ c.lineFeedback ++ c.lease ++ BitVec.ofBool c.passDeadline ++ c.request ++
      BitVec.ofBool c.tripIn ++ c.channelFault
    bytesOf 7 c.number = [w.extractLsb' 48 8, w.extractLsb' 40 8, w.extractLsb' 32 8, w.extractLsb' 24 8,
      w.extractLsb' 16 8, w.extractLsb' 8 8, w.extractLsb' 0 8] := by
  intro w
  rw [causeSet_number, bytesOf_seven]

/-- Settles O16: each read places its payload, and each payload is the statement's bytes. -/
theorem readsAnswerAndChangeNothing : Obligations.ReadsAnswerAndChangeNothing := by
  unfold Obligations.ReadsAnswerAndChangeNothing
  intro port b i s u live number two four flags signed
  have hflags : ∀ l, flagByte l = flags l := fun l => congrArg (BitVec.ofNat 8) (packBits_eq_foldr l)
  refine ⟨fun h => ⟨fun hb => exec_readChannel_beyond h hb, ?_⟩, fun h => ?_, fun h => ?_, fun h => ?_, fun h => ?_,
    fun h => ?_⟩
  · intro c hc e injected verdict
    have hsigned : signedBytes = signed := funext signedBytes_eq
    have hverdict : u.scan.channels[c].verdict.code = verdict := rfl
    rw [exec_readChannel h hc, channelPayload_eq, byte_eq hc, hsigned, hflags, hverdict]
  · obtain ⟨raw, hraw, braw⟩ := lineSetBits fun n => u.lines.lines[n].raw
    obtain ⟨filtered, hfiltered, bfiltered⟩ := lineSetBits fun n => u.lines.lines[n].filtered
    obtain ⟨seeded, hseeded, bseeded⟩ := lineSetBits fun n => u.lines.lines[n].seeded
    obtain ⟨injected, hinjected, binjected⟩ := lineSetBits fun n => u.engine.injectedLevel[n].isSome
    refine ⟨raw, filtered, seeded, injected, fun n => ⟨braw n, bfiltered n, bseeded n, binjected n⟩, ?_⟩
    simp only [exec_readLines h, linesPayload, lineSetBytes, hraw, hfiltered, hseeded, hinjected, bytesOf_two, two]
  · obtain ⟨held, hheld, bheld⟩ := termBits (u.eval.history.map TermHistory.held)
    refine ⟨held, fun k => (bheld k).trans (get_map _ _ k), ?_⟩
    rw [exec_readTerms h, termsPayload, hheld, bytesOf_four]
  · intro set state first
    have hfirst : firstCauseBytes u.trip.record.first = first := by
      simp only [first]
      rcases u.trip.record.first with _ | _ | _ | _ | _ | _ | _ <;> rfl
    have hset : ∀ c : CauseSet, bytesOf 7 c.number = set c := causeSet_bytes
    rw [exec_readTrip h, tripPayload, TripRecord.bytes, hset, hset, hfirst, bytesOf_four]
    simp only [List.append_assoc]; rfl
  · intro r cause engine
    have hcause : u.engine.record.cause.bytes = [cause.1, cause.2] := by
      simp only [cause, r]
      cases u.engine.record.cause <;> rfl
    rw [exec_readHaltRecord h, haltRecord_bytes, hcause]
    simp only [hflags]
    rfl
  · intro source profile answers entry c
    refine ⟨fun hb => exec_readEntry_none h (entryPayload_noTable u hb),
      fun n ht hn => exec_readEntry_none h (entryPayload_beyond u ht hn), ?_, ?_, ?_, ?_, ?_, ?_, ?_, ?_, ?_⟩
    · rintro k rfl hk e
      refine (exec_readEntry_some h (entryPayload_channel u hk)).trans ?_
      rw [channelEntry_bytes]
      rfl
    · rintro k rfl hk e
      exact exec_readEntry_some h (entryPayload_line u hk)
    · rintro k rfl hk e
      have hsource : ∀ x : Source, x.bytes = source x := by
        rintro (_ | _ | _ | ⟨mask, allHigh⟩ | _ | _)
        case lineSet => exact lineSet_bytes mask allHigh
        all_goals rfl
      refine (exec_readEntry_some h (entryPayload_term u hk)).trans ?_
      simp only [TermEntry.bytes, hsource, hflags]
      rfl
    · rintro k rfl hk e
      refine (exec_readEntry_some h (entryPayload_permit u hk)).trans ?_
      rw [permitEntry_bytes]
      rfl
    · rintro k rfl hk
      exact exec_readEntry_some h (entryPayload_group u hk)
    · rintro k rfl hk
      refine (exec_readEntry_some h (entryPayload_profile u hk)).trans ?_
      rw [Profile.bytes, Profile.bytes, bytesOf_two, bytesOf_two]
      rfl
    · rintro k rfl hk
      refine (exec_readEntry_some h (entryPayload_tick u hk)).trans ?_
      rw [bytesOf_two_ofNat, bytesOf_two_ofNat]
    · rintro rfl rfl e
      exact exec_readEntry_some h (entryPayload_engine u)
    · rintro k rfl hk e
      exact exec_readEntry_some h (entryPayload_watch u hk)

end Sys2Proof.Proofs
end

section
/-! SUPPORT. The entries of a write, read from their bytes (R3, R15, R22, R23, R43, R44, R94, R147, R148, R151, R175): for each reader of
Machine/Operands.lean when it gives a value and which, for each entry what an accepted write makes it, and the field that a failing one
names (R150, R173). -/

namespace Sys2Proof.Proofs

open Sys2Proof.Machine Sys2Proof.Laws

/-! Checks in their order. -/

/-- R150, R173: the field of the first check that fails. -/
def firstFailing (checks : List (Byte × Bool)) : Option FieldNo := (checks.find? fun x => !x.2).map Prod.fst

section Checks

variable {α : Type} {c : Prop} [Decidable c] {field : Byte} {holds : Bool} {checks : List (Byte × Bool)} {x : Except FieldNo α}

theorem failingField_check (hc : holds = true ↔ ¬ c) (hx : failingField x = firstFailing checks) :
    failingField (if c then .error field else x) = firstFailing ((field, holds) :: checks) := by
  by_cases h : c
  · have : holds = false := Bool.eq_false_iff.mpr fun hh => hc.mp hh h
    rw [if_pos h, this]; rfl
  · rw [if_neg h, hc.mpr h]; exact hx

theorem check_eq_ok {e : α} : (if c then .error field else x) = .ok e ↔ ¬ c ∧ x = .ok e := by
  split <;> simp [*]

end Checks

/-! Numbers. -/

theorem byteFin_eq_some {n : Nat} {b : Byte} {i : Fin n} : byteFin n b = some i ↔ i.val = b.toNat := by
  refine ⟨fun h => ?_, fun h => byteFin_of h.symm⟩
  unfold byteFin at h
  split at h
  · exact congrArg Fin.val (Option.some.inj h).symm
  · cases h

theorem byteFin_isSome (n : Nat) (b : Byte) : (byteFin n b).isSome = decide (b.toNat < n) := by
  unfold byteFin
  split <;> simp [*]

theorem byteFin_map_eq_some {α : Type} {n : Nat} {b : Byte} {g : Fin n → α} {y : α} :
    (byteFin n b).map g = some y ↔ ∃ i : Fin n, b.toNat = i.val ∧ y = g i :=
  Option.map_eq_some_iff.trans (exists_congr fun _ => and_congr (byteFin_eq_some.trans eq_comm) eq_comm)

theorem lt_of_val_eq {n : Nat} {b : Byte} {i : Fin n} (h : i.val = b.toNat) : b.toNat < n := h ▸ i.isLt

/-! CHANNEL (R2, R3). -/

theorem readNegative_ground : readNegative 12#8 = some none := rfl

theorem readNegative_pin {b : Byte} (h : b ≠ 12#8) : readNegative b = (byteFin 12 b).map some := by
  unfold readNegative
  rw [if_neg h]
  cases byteFin 12 b <;> rfl

theorem readNegative_eq_some {b : Byte} {o : Option ChannelId} : readNegative b = some o ↔
    (b = 12#8 ∧ o = none) ∨ (b ≠ 12#8 ∧ ∃ c : ChannelId, o = some c ∧ c.val = b.toNat) := by
  by_cases h : b = 12#8
  · subst h; simp [readNegative_ground, eq_comm]
  · simp only [readNegative_pin h, Option.map_eq_some_iff, byteFin_eq_some, h, false_and, false_or, ne_eq, not_false_eq_true,
      true_and, and_comm, eq_comm (b := o)]

theorem readNegative_isSome (b : Byte) : (readNegative b).isSome = decide (b.toNat ≤ 12) := by
  by_cases h : b = 12#8
  · subst h; rfl
  · have hne : b.toNat ≠ 12 := fun e => h (BitVec.eq_of_toNat_eq e)
    rw [readNegative_pin h, Option.isSome_map, byteFin_isSome, decide_eq_decide]
    omega

/-- R3: the negative pin is the positive one when their bytes agree. -/
theorem negative_eq_positive {p n : Byte} {pos : ChannelId} {neg : Option ChannelId} (hp : byteFin 12 p = some pos)
    (hn : readNegative n = some neg) : neg = some pos ↔ n = p := by
  have hpos : pos.val = p.toNat := byteFin_eq_some.mp hp
  have hlt := pos.isLt
  rcases readNegative_eq_some.mp hn with ⟨rfl, rfl⟩ | ⟨-, c, rfl, hc⟩
  · refine ⟨nofun, fun h => ?_⟩
    subst h; simp at hpos; omega
  · rw [Option.some_inj, Fin.ext_iff, hc, hpos, BitVec.toNat_inj]

/-- R1, R2: the rails by the byte of the negative pin. -/
theorem rails_of_readNegative {n : Byte} {e : ChannelEntry} (hn : readNegative n = some e.negative) :
    e.low = (if n = 12#8 then 0 else -2048) ∧ e.high = if n = 12#8 then 4095 else 2047 := by
  have : e.negative = none ↔ n = 12#8 := by
    rcases readNegative_eq_some.mp hn with ⟨h, ho⟩ | ⟨h, c, ho, -⟩ <;> simp [h, ho]
  simp only [low_eq, high_eq, this, and_self]

theorem isCount_eq (n : Nat) : isCount n = decide (n ∈ [1, 2, 4, 8, 16, 32, 64]) := List.elem_eq_mem n _

/-- R3: the entry that an accepted CHANNEL write makes. -/
theorem readChannel_eq_ok {f p n a h : Byte} {l u : Word16} {e : ChannelEntry} : readChannel f p n a l u h = .ok e ↔
    byteFin 12 p = some e.positive ∧ readNegative n = some e.negative ∧ n ≠ p ∧ isCount a.toNat = true ∧
    (e.low ≤ l.toInt ∧ l.toInt ≤ u.toInt ∧ u.toInt ≤ e.high) ∧ e.enabled = f.getLsbD 0 ∧ e.count = a.toNat ∧
    e.lower = l.toInt ∧ e.upper = u.toInt ∧ e.hysteresis = h.toNat ∧ e.railCheck = f.getLsbD 1 ∧
    e.tripOnFault = f.getLsbD 2 := by
  unfold readChannel
  cases hp : byteFin 12 p with
  | none => simp
  | some pos =>
    cases hn : readNegative n with
    | none => simp
    | some neg =>
      simp only [check_eq_ok, Except.ok.injEq, Option.some.injEq, negative_eq_positive hp hn, not_or, not_lt,
        Bool.not_eq_true', Bool.not_eq_false]
      refine ⟨?_, ?_⟩
      · rintro ⟨hne, hcount, ⟨hl, -⟩, ⟨-, hu, hlu⟩, rfl⟩
        exact ⟨rfl, rfl, hne, hcount, ⟨hl, hlu, hu⟩, rfl, rfl, rfl, rfl, rfl, rfl, rfl⟩
      · obtain ⟨enabled, positive, negative, count, lower, upper, hysteresis, railCheck, tripOnFault⟩ := e
        rintro ⟨rfl, rfl, hne, hcount, ⟨hl, hlu, hu⟩, rfl, rfl, rfl, rfl, rfl, rfl, rfl⟩
        exact ⟨hne, hcount, ⟨hl, hlu.trans hu⟩, ⟨hl.trans hlu, hu, hlu⟩, rfl⟩

/-- R150, R173: the field that a failing CHANNEL write names. -/
theorem failingField_readChannel (f p n a h : Byte) (l u : Word16) :
    let low : Int := if n = 12#8 then 0 else -2048
    let high : Int := if n = 12#8 then 4095 else 2047
    failingField (readChannel f p n a l u h) = firstFailing [(1#8, decide (p.toNat < 12)),
      (2#8, decide (n.toNat ≤ 12 ∧ n ≠ p)), (3#8, decide (a.toNat ∈ [1, 2, 4, 8, 16, 32, 64])),
      (4#8, decide (low ≤ l.toInt ∧ l.toInt ≤ high)),
      (5#8, decide (low ≤ u.toInt ∧ u.toInt ≤ high ∧ l.toInt ≤ u.toInt))] := by
  intro low high
  rw [← byteFin_isSome, Bool.decide_and, ← readNegative_isSome]
  unfold readChannel
  cases hp : byteFin 12 p with
  | none => rfl
  | some pos =>
    cases hn : readNegative n with
    | none => rfl
    | some neg =>
      obtain ⟨hlow, hhigh⟩ := rails_of_readNegative (n := n) (e := ⟨f.getLsbD 0, pos, neg, a.toNat, l.toInt, u.toInt, h.toNat,
        f.getLsbD 1, f.getLsbD 2⟩) hn
      rw [← isCount_eq]
      refine failingField_check ?_ (failingField_check ?_ (failingField_check ?_ (failingField_check ?_ rfl)))
      · simp [negative_eq_positive hp hn]
      · simp
      · simp only [hlow, hhigh, not_or, not_lt, decide_eq_true_eq, low, high]
      · simp only [hlow, hhigh, not_or, not_lt, decide_eq_true_eq, low, high]

/-! LINE (R15). -/

theorem isQualify_eq (q : Byte) : isQualify q = decide (2 ≤ q.toNat ∧ q.toNat ≤ 8) := (Bool.decide_and _ _).symm

theorem readLine_eq_ok {f q : Byte} {e : LineEntry} : readLine f q = .ok e ↔ e.enabled = f.getLsbD 0 ∧
    ((q = 0#8 ∧ e.filter = .none) ∨ (2 ≤ q.toNat ∧ q.toNat ≤ 8 ∧ e.filter = .qualify q.toNat)) := by
  unfold readLine
  rw [isQualify_eq]
  constructor
  · intro h
    split at h
    · next hq => cases h; exact ⟨rfl, .inl ⟨hq, rfl⟩⟩
    · split at h
      · next hq =>
        obtain ⟨hlow, hhigh⟩ := of_decide_eq_true hq
        cases h; exact ⟨rfl, .inr ⟨hlow, hhigh, rfl⟩⟩
      · cases h
  · obtain ⟨enabled, filter⟩ := e
    rintro ⟨rfl, ⟨rfl, rfl⟩ | ⟨hlow, hhigh, rfl⟩⟩
    · rfl
    · have hq : q ≠ 0#8 := by rintro rfl; exact absurd hlow (by decide)
      rw [if_neg hq, if_pos (decide_eq_true ⟨hlow, hhigh⟩)]

theorem failingField_readLine (f q : Byte) : failingField (readLine f q) =
    firstFailing [(1#8, decide (q = 0#8) || decide (2 ≤ q.toNat ∧ q.toNat ≤ 8))] := by
  unfold readLine
  rw [← isQualify_eq]
  by_cases hq : q = 0#8
  · rw [if_pos hq, decide_eq_true hq]; rfl
  · rw [if_neg hq, decide_eq_false hq]
    cases isQualify q <;> rfl

/-! TERM (R22, R23). -/

/-- R22, R175: the source that four bytes spell. -/
def Makes (x : RawSource) (y : Source) : Prop :=
  (x.kind = 0#8 ∧ y = .zero) ∨
  (x.kind = 1#8 ∧ ∃ k : TermId, x.arg1.toNat = k.val ∧ y = .term k) ∨
  (x.kind = 2#8 ∧ ∃ n : LineId, x.arg1.toNat = n.val ∧ y = .line n) ∨
  (x.kind = 3#8 ∧ x.arg1 ++ x.arg2 ≠ 0#16 ∧ (x.arg3 = 0#8 ∨ x.arg3 = 1#8) ∧
    y = .lineSet (x.arg1 ++ x.arg2) (decide (x.arg3 = 1#8))) ∨
  (x.kind = 4#8 ∧ ∃ c : ChannelId, x.arg1.toNat = c.val ∧ 0 < x.arg2.toNat ∧ x.arg2.toNat < 8 ∧
    y = .channel c (x.arg2.getLsbD 0) (x.arg2.getLsbD 1) (x.arg2.getLsbD 2)) ∨
  (x.kind = 5#8 ∧ ∃ p : PermitId, x.arg1.toNat = p.val ∧ y = .held p)

/-- R23: four bytes that spell a source. -/
def sourceFits (x : RawSource) : Bool :=
  decide (x.kind = 0#8) || (decide (x.kind = 1#8) && decide (x.arg1.toNat < 24)) ||
    (decide (x.kind = 2#8) && decide (x.arg1.toNat < 16)) ||
    (decide (x.kind = 3#8) && decide (x.arg1 ++ x.arg2 ≠ 0#16) && decide (x.arg3.toNat < 2)) ||
    (decide (x.kind = 4#8) && decide (x.arg1.toNat < 12) && decide (0 < x.arg2.toNat ∧ x.arg2.toNat < 8)) ||
    (decide (x.kind = 5#8) && decide (x.arg1.toNat < 16))

theorem sourceKind_cases (b : Byte) :
    b = 0#8 ∨ b = 1#8 ∨ b = 2#8 ∨ b = 3#8 ∨ b = 4#8 ∨ b = 5#8 ∨ 5 < b.toNat := by
  simp only [← BitVec.toNat_inj, BitVec.toNat_ofNat]
  omega

section Source

variable {a b c : Byte} {y : Source}

theorem readSource_lineSet_eq_some : readSource ⟨3#8, a, b, c⟩ = some y ↔
    a ++ b ≠ 0#16 ∧ (c = 0#8 ∨ c = 1#8) ∧ y = .lineSet (a ++ b) (decide (c = 1#8)) := by
  show (if a ++ b = 0#16 then none else if c = 0#8 then some (.lineSet (a ++ b) false) else
    if c = 1#8 then some (.lineSet (a ++ b) true) else none) = some y ↔ _
  by_cases hm : a ++ b = 0#16
  · simp [hm]
  by_cases h0 : c = 0#8
  · subst h0; simp [hm, eq_comm]
  by_cases h1 : c = 1#8
  · subst h1; simp [hm, eq_comm]
  · simp [hm, h0, h1]

theorem readSource_channel_eq_some : readSource ⟨4#8, a, b, c⟩ = some y ↔
    ∃ k : ChannelId, a.toNat = k.val ∧ 0 < b.toNat ∧ b.toNat < 8 ∧
      y = .channel k (b.getLsbD 0) (b.getLsbD 1) (b.getLsbD 2) := by
  have hset : (b = 0#8 ∨ 8 ≤ b.toNat) ↔ ¬ (0 < b.toNat ∧ b.toNat < 8) := by
    simp only [← BitVec.toNat_inj, BitVec.toNat_ofNat]; omega
  show (match byteFin 12 a with
    | none => none
    | some k => if b = 0#8 ∨ 8 ≤ b.toNat then none
      else some (.channel k (b.getLsbD 0) (b.getLsbD 1) (b.getLsbD 2))) = some y ↔ _
  simp only [hset]
  constructor
  · intro h
    split at h
    · cases h
    · next k hk =>
      split at h
      · cases h
      · next hb =>
        obtain ⟨hpos, hlt⟩ := not_not.mp hb
        cases h; exact ⟨k, (byteFin_eq_some.mp hk).symm, hpos, hlt, rfl⟩
  · rintro ⟨k, hk, hpos, hlt, rfl⟩
    simp only [byteFin_of hk]
    exact if_neg (not_not.mpr ⟨hpos, hlt⟩)

end Source

/-- R23: a kind byte above 5 spells no source. -/
theorem readSource_unknown {x : RawSource} (h : 5 < x.kind.toNat) : readSource x = none := by
  unfold readSource
  split
  case h_7 => rfl
  all_goals omega

theorem readSource_eq_some (x : RawSource) (y : Source) : readSource x = some y ↔ Makes x y := by
  obtain ⟨kind, a, b, c⟩ := x
  rcases sourceKind_cases kind with rfl | rfl | rfl | rfl | rfl | rfl | h
  · show some Source.zero = some y ↔ _
    rw [Option.some_inj, eq_comm]
    simp [Makes]
  · show (byteFin 24 a).map Source.term = some y ↔ _
    rw [byteFin_map_eq_some]
    simp [Makes]
  · show (byteFin 16 a).map Source.line = some y ↔ _
    rw [byteFin_map_eq_some]
    simp [Makes]
  · simp [Makes, readSource_lineSet_eq_some]
  · simp [Makes, readSource_channel_eq_some]
  · show (byteFin 16 a).map Source.held = some y ↔ _
    rw [byteFin_map_eq_some]
    simp [Makes]
  · have hne : ∀ k : Byte, k.toNat ≤ 5 → kind ≠ k := by rintro k hk rfl; omega
    simp [Makes, readSource_unknown (x := ⟨kind, a, b, c⟩) h, hne]

theorem readSource_isSome (x : RawSource) : (readSource x).isSome = sourceFits x := by
  rw [Bool.eq_iff_iff, Option.isSome_iff_exists]
  have hnumber : ∀ n, (∃ i : Fin n, x.arg1.toNat = i.val) ↔ x.arg1.toNat < n := fun n =>
    ⟨fun ⟨i, hi⟩ => hi ▸ i.isLt, fun h => ⟨⟨_, h⟩, rfl⟩⟩
  have hlevel : x.arg3 = 0#8 ∨ x.arg3 = 1#8 ↔ x.arg3.toNat < 2 := by
    simp only [← BitVec.toNat_inj, BitVec.toNat_ofNat]; omega
  simp only [readSource_eq_some, Makes, sourceFits, exists_or, exists_and_left, exists_and_right, exists_comm (α := Source),
    exists_eq, and_true, hnumber, hlevel, Bool.or_eq_true, Bool.and_eq_true, decide_eq_true_eq, or_assoc, and_assoc]

theorem readStage_eq_some {st q : Byte} {x : OutputStage} : readStage st q = some x ↔
    (st = 0#8 ∧ x = .direct) ∨ (st = 1#8 ∧ isQualify q = true ∧ x = .qualify q.toNat) ∨ (st = 2#8 ∧ x = .rise) ∨
      (st = 3#8 ∧ x = .fall) := by
  constructor
  · intro h
    unfold readStage at h
    split at h
    · next hb => cases h; exact .inl ⟨BitVec.eq_of_toNat_eq hb, rfl⟩
    · next hb =>
      split at h
      · next hq => cases h; exact .inr (.inl ⟨BitVec.eq_of_toNat_eq hb, hq, rfl⟩)
      · cases h
    · next hb => cases h; exact .inr (.inr (.inl ⟨BitVec.eq_of_toNat_eq hb, rfl⟩))
    · next hb => cases h; exact .inr (.inr (.inr ⟨BitVec.eq_of_toNat_eq hb, rfl⟩))
    · cases h
  · rintro (⟨rfl, rfl⟩ | ⟨rfl, hq, rfl⟩ | ⟨rfl, rfl⟩ | ⟨rfl, rfl⟩)
    case inr.inl => exact if_pos hq
    all_goals rfl

theorem readStage_isSome (st q : Byte) :
    (readStage st q).isSome = (decide (st.toNat < 4) && (decide (st ≠ 1#8) || isQualify q)) := by
  rw [Bool.eq_iff_iff, Option.isSome_iff_exists]
  simp only [readStage_eq_some, exists_or, exists_and_left, exists_eq, and_true, Bool.and_eq_true, Bool.or_eq_true,
    decide_eq_true_eq, ne_eq, ← BitVec.toNat_inj, BitVec.toNat_ofNat]
  cases isQualify q <;> simp <;> omega

/-- R23: the entry that an accepted TERM write makes. -/
theorem readTerm_eq_ok {f st q tt : Byte} {a b c : RawSource} {e : TermEntry} : readTerm f st q tt a b c = .ok e ↔
    readSource a = some e.sourceA ∧ readSource b = some e.sourceB ∧ readSource c = some e.sourceC ∧
    readStage st q = some e.stage ∧ e.enabled = f.getLsbD 0 ∧ e.initial = f.getLsbD 1 ∧ e.truth = tt := by
  obtain ⟨enabled, sourceA, sourceB, sourceC, truth, stage, initial⟩ := e
  unfold readTerm
  cases readSource a with
  | none => simp
  | some => cases readSource b with
    | none => simp
    | some => cases readSource c with
      | none => simp
      | some => cases readStage st q with
        | none => simp
        | some =>
          simp only [Except.ok.injEq, TermEntry.mk.injEq, Option.some.injEq, eq_comm]
          constructor
          · rintro ⟨h1, h2, h3, h4, h5, h6, h7⟩; exact ⟨h2, h3, h4, h6, h1, h7, h5⟩
          · rintro ⟨h2, h3, h4, h6, h1, h7, h5⟩; exact ⟨h1, h2, h3, h4, h5, h6, h7⟩

theorem failingField_readTerm (f st q tt : Byte) (a b c : RawSource) : failingField (readTerm f st q tt a b c) =
    firstFailing [(1#8, sourceFits a), (2#8, sourceFits b), (3#8, sourceFits c),
      (5#8, decide (st.toNat < 4) && (decide (st ≠ 1#8) || decide (2 ≤ q.toNat ∧ q.toNat ≤ 8)))] := by
  rw [← isQualify_eq, ← readSource_isSome, ← readSource_isSome, ← readSource_isSome, ← readStage_isSome]
  unfold readTerm
  cases readSource a with
  | none => rfl
  | some => cases readSource b with
    | none => rfl
    | some => cases readSource c with
      | none => rfl
      | some => cases readStage st q <;> rfl

/-! PERMIT (R42, R43). -/

theorem readGroup_none : readGroup 0xFF#8 = some none := rfl

theorem readGroup_member {b : Byte} (h : b ≠ 0xFF#8) : readGroup b = (byteFin 4 b).map some := by
  unfold readGroup absent
  rw [if_neg h]
  cases byteFin 4 b <;> rfl

theorem readMode_eq_some {b : Byte} {x : PermitMode} :
    readMode b = some x ↔ (b = 0#8 ∧ x = .exclusive) ∨ (b = 1#8 ∧ x = .shared) := by
  constructor
  · intro h
    unfold readMode at h
    split at h <;> cases h
    · next hb => exact .inl ⟨BitVec.eq_of_toNat_eq hb, rfl⟩
    · next hb => exact .inr ⟨BitVec.eq_of_toNat_eq hb, rfl⟩
  · rintro (⟨rfl, rfl⟩ | ⟨rfl, rfl⟩) <;> rfl

theorem readExpiry_eq_some {b : Byte} {x : ExpiryAction} :
    readExpiry b = some x ↔ (b = 0#8 ∧ x = .release) ∨ (b = 1#8 ∧ x = .lock) ∨ (b = 2#8 ∧ x = .trip) := by
  constructor
  · intro h
    unfold readExpiry at h
    split at h <;> cases h
    · next hb => exact .inl ⟨BitVec.eq_of_toNat_eq hb, rfl⟩
    · next hb => exact .inr (.inl ⟨BitVec.eq_of_toNat_eq hb, rfl⟩)
    · next hb => exact .inr (.inr ⟨BitVec.eq_of_toNat_eq hb, rfl⟩)
  · rintro (⟨rfl, rfl⟩ | ⟨rfl, rfl⟩ | ⟨rfl, rfl⟩) <;> rfl

theorem readLoss_eq_some {b : Byte} {x : LossAction} :
    readLoss b = some x ↔ (b = 0#8 ∧ x = .drop) ∨ (b = 1#8 ∧ x = .lock) := by
  constructor
  · intro h
    unfold readLoss at h
    split at h <;> cases h
    · next hb => exact .inl ⟨BitVec.eq_of_toNat_eq hb, rfl⟩
    · next hb => exact .inr ⟨BitVec.eq_of_toNat_eq hb, rfl⟩
  · rintro (⟨rfl, rfl⟩ | ⟨rfl, rfl⟩) <;> rfl

theorem readMode_isSome (b : Byte) : (readMode b).isSome = decide (b.toNat < 2) := by
  rw [Bool.eq_iff_iff, Option.isSome_iff_exists]
  simp [readMode_eq_some, exists_or, ← BitVec.toNat_inj]
  omega

theorem readExpiry_isSome (b : Byte) : (readExpiry b).isSome = decide (b.toNat < 3) := by
  rw [Bool.eq_iff_iff, Option.isSome_iff_exists]
  simp [readExpiry_eq_some, exists_or, ← BitVec.toNat_inj]
  omega

theorem readLoss_isSome (b : Byte) : (readLoss b).isSome = decide (b.toNat < 2) := by
  rw [Bool.eq_iff_iff, Option.isSome_iff_exists]
  simp [readLoss_eq_some, exists_or, ← BitVec.toNat_inj]
  omega

/-- R42, R175: the group by its byte. -/
theorem readGroup_eq_some {b : Byte} {o : Option GroupId} :
    readGroup b = some o ↔ o.elim 0xFF#8 (fun k => BitVec.ofNat 8 k.val) = b := by
  have hcode : ∀ k : GroupId, BitVec.ofNat 8 k.val = b ↔ k.val = b.toNat := fun k => by
    rw [← BitVec.toNat_inj, BitVec.toNat_ofNat, Nat.mod_eq_of_lt (by omega)]
  by_cases h : b = 0xFF#8
  · subst h
    cases o with
    | none => simp [readGroup_none]
    | some k =>
      have : k.val ≠ (0xFF#8 : Byte).toNat := by have := k.isLt; simp; omega
      simp only [readGroup_none, Option.elim_some, hcode, this, Option.some_inj, reduceCtorEq]
  · rw [readGroup_member h, byteFin_map_eq_some]
    cases o with
    | none => simpa using Ne.symm h
    | some k => simp [hcode, eq_comm]

theorem readGroup_isSome (b : Byte) : (readGroup b).isSome = decide (b = 0xFF#8 ∨ b.toNat < 4) := by
  by_cases h : b = 0xFF#8
  · subst h; rfl
  · rw [readGroup_member h, Option.isSome_map, byteFin_isSome]
    simp [h]

/-- R42: the holder limit by the mode's byte. -/
theorem limitFits_eq {m l : Byte} {x : PermitMode} (hm : readMode m = some x) : limitFits x l.toNat =
    if m = 0#8 then decide (l = 1#8) else decide (2 ≤ l.toNat ∧ l.toNat ≤ 4) := by
  rcases readMode_eq_some.mp hm with ⟨rfl, rfl⟩ | ⟨rfl, rfl⟩
  · simp [limitFits, ← BitVec.toNat_inj]
  · simp [limitFits]

/-- R43: the entry that an accepted PERMIT write makes. -/
theorem readPermit_eq_ok {f t m l g src x y : Byte} {e : PermitEntry} : readPermit f t m l g src x y = .ok e ↔
    byteFin 24 t = some e.term ∧ readMode m = some e.mode ∧ limitFits e.mode l.toNat = true ∧ readGroup g = some e.group ∧
    byteFin 4 src = some e.source ∧ readExpiry x = some e.expiry ∧ readLoss y = some e.loss ∧ e.enabled = f.getLsbD 0 ∧
    e.lease = f.getLsbD 1 ∧ e.readback = f.getLsbD 2 ∧ e.limit = l.toNat := by
  unfold readPermit
  cases byteFin 24 t with
  | none => simp
  | some => cases readMode m with
    | none => simp
    | some =>
      rw [check_eq_ok, Bool.not_eq_true', Bool.not_eq_false]
      cases readGroup g with
      | none => simp
      | some => cases byteFin 4 src with
        | none => simp
        | some => cases readExpiry x with
          | none => simp
          | some => cases readLoss y with
            | none => simp
            | some =>
              constructor
              · rintro ⟨hl, he⟩
                cases he; exact ⟨rfl, rfl, hl, rfl, rfl, rfl, rfl, rfl, rfl, rfl, rfl⟩
              · obtain ⟨enabled, term, mode, limit, group, source, lease, expiry, loss, readback⟩ := e
                rintro ⟨⟨⟩, ⟨⟩, hl, ⟨⟩, ⟨⟩, ⟨⟩, ⟨⟩, ⟨⟩, ⟨⟩, ⟨⟩, ⟨⟩⟩
                exact ⟨hl, rfl⟩

theorem failingField_readPermit (f t m l g src x y : Byte) : failingField (readPermit f t m l g src x y) =
    firstFailing [(1#8, decide (t.toNat < 24)), (2#8, decide (m.toNat < 2)),
      (3#8, if m = 0#8 then decide (l = 1#8) else decide (2 ≤ l.toNat ∧ l.toNat ≤ 4)),
      (4#8, decide (g = 0xFF#8 ∨ g.toNat < 4)), (5#8, decide (src.toNat < 4)), (7#8, decide (x.toNat < 3)),
      (8#8, decide (y.toNat < 2))] := by
  rw [← byteFin_isSome 24, ← byteFin_isSome 4, ← readMode_isSome, ← readGroup_isSome, ← readExpiry_isSome, ← readLoss_isSome]
  unfold readPermit
  cases byteFin 24 t with
  | none => rfl
  | some => cases hm : readMode m with
    | none => rfl
    | some mode =>
      rw [← limitFits_eq hm]
      refine failingField_check (by simp) ?_
      cases readGroup g with
      | none => rfl
      | some => cases byteFin 4 src with
        | none => rfl
        | some => cases readExpiry x with
          | none => rfl
          | some => cases readLoss y <;> rfl

/-! GROUP, PROFILE and TICK (R44, R94, R147). -/

theorem readGroupEntry_eq_ok {v src : Byte} {e : GroupEntry} : readGroupEntry v src = .ok e ↔
    byteFin 4 src = some e.source ∧ e.settle = v.toNat := by
  unfold readGroupEntry
  cases byteFin 4 src with
  | none => simp
  | some =>
    constructor
    · rintro ⟨⟩; exact ⟨rfl, rfl⟩
    · obtain ⟨settle, source⟩ := e
      rintro ⟨⟨⟩, ⟨⟩⟩; rfl

theorem failingField_readGroupEntry (v src : Byte) : failingField (readGroupEntry v src) =
    firstFailing [(1#8, decide (src.toNat < 4))] := by
  rw [← byteFin_isSome]
  unfold readGroupEntry
  cases byteFin 4 src <;> rfl

theorem readProfile_eq_ok {r c : Byte} {m : Word16} {e : Profile} : readProfile r m c = .ok e ↔
    r.toNat < 8 ∧ byteFin 4 c = some e.ceiling ∧ e.configure = r.getLsbD 0 ∧ e.maintain = r.getLsbD 1 ∧
      e.clear = r.getLsbD 2 ∧ e.mask = m := by
  unfold readProfile
  rw [check_eq_ok, not_le]
  cases byteFin 4 c with
  | none => simp
  | some =>
    constructor
    · rintro ⟨hr, ⟨⟩⟩; exact ⟨hr, rfl, rfl, rfl, rfl, rfl⟩
    · obtain ⟨configure, maintain, clear, mask, ceiling⟩ := e
      rintro ⟨hr, ⟨⟩, ⟨⟩, ⟨⟩, ⟨⟩, ⟨⟩⟩; exact ⟨hr, rfl⟩

theorem failingField_readProfile (r c : Byte) (m : Word16) : failingField (readProfile r m c) =
    firstFailing [(0#8, decide (r.toNat < 8)), (2#8, decide (c.toNat < 4))] := by
  rw [← byteFin_isSome 4]
  unfold readProfile
  refine failingField_check (by simp) ?_
  cases byteFin 4 c <;> rfl

theorem readTick_eq_ok {d : Word16} {n : Nat} : readTick d = .ok n ↔ d ≠ 0#16 ∧ n = d.toNat := by
  unfold readTick
  rw [check_eq_ok, Except.ok.injEq, eq_comm (b := n)]

theorem failingField_readTick (d : Word16) : failingField (readTick d) = firstFailing [(0#8, decide (d ≠ 0#16))] := by
  unfold readTick
  exact failingField_check (by simp) rfl

/-! ENGINE (R148). -/

theorem readTrigger_free : readTrigger 0xFF#8 = some .free := rfl

theorem readTrigger_tick {b : Byte} (h : b ≠ 0xFF#8) : readTrigger b = (byteFin 4 b).map .tick := if_neg h

theorem readTrigger_eq_some {b : Byte} {x : ScanTrigger} : readTrigger b = some x ↔
    (b = 0xFF#8 ∧ x = .free) ∨ ∃ src : SourceId, b.toNat = src.val ∧ x = .tick src := by
  by_cases h : b = 0xFF#8
  · subst h
    have : ∀ src : SourceId, 255 ≠ src.val := fun src => by omega
    rw [readTrigger_free, Option.some_inj, eq_comm]
    simp [this]
  · rw [readTrigger_tick h, byteFin_map_eq_some]
    simp [h]

theorem readTrigger_isSome (b : Byte) : (readTrigger b).isSome = decide (b = 0xFF#8 ∨ b.toNat < 4) := by
  by_cases h : b = 0xFF#8
  · subst h; rfl
  · rw [readTrigger_tick h, Option.isSome_map, byteFin_isSome]
    simp [h]

theorem readEngineEntry_eq_ok {t d o : Byte} {e : EngineEntry} : readEngineEntry t d o = .ok e ↔
    readTrigger t = some e.trigger ∧ ((o = 0#8 ∧ e.supervision = .freeze) ∨ (o = 1#8 ∧ e.supervision = .run)) ∧
      e.deadline = d.toNat := by
  unfold readEngineEntry
  cases readTrigger t with
  | none => simp
  | some =>
    constructor
    · intro h
      simp only at h
      split at h
      · next ho => cases h; exact ⟨rfl, .inl ⟨ho, rfl⟩, rfl⟩
      · split at h
        · next ho => cases h; exact ⟨rfl, .inr ⟨ho, rfl⟩, rfl⟩
        · cases h
    · obtain ⟨trigger, deadline, supervision⟩ := e
      rintro ⟨⟨⟩, ⟨rfl, ⟨⟩⟩ | ⟨rfl, ⟨⟩⟩, ⟨⟩⟩ <;> rfl

theorem failingField_readEngineEntry (t d o : Byte) : failingField (readEngineEntry t d o) =
    firstFailing [(0#8, decide (t = 0xFF#8 ∨ t.toNat < 4)), (2#8, decide (o.toNat < 2))] := by
  rw [← readTrigger_isSome]
  unfold readEngineEntry
  cases readTrigger t with
  | none => rfl
  | some =>
    by_cases h0 : o = 0#8
    · subst h0; rfl
    by_cases h1 : o = 1#8
    · subst h1; rfl
    · have : ¬ o.toNat < 2 := by simp only [← BitVec.toNat_inj, BitVec.toNat_ofNat] at h0 h1; omega
      simp only [if_neg h0, if_neg h1, decide_eq_false this]; rfl

/-! WATCH (R134, R151). -/

theorem readEdge_eq_some {b : Byte} {x : WatchEdge} :
    readEdge b = some x ↔ (b = 0#8 ∧ x = .rise) ∨ (b = 1#8 ∧ x = .fall) ∨ (b = 2#8 ∧ x = .either) := by
  constructor
  · intro h
    unfold readEdge at h
    split at h <;> cases h
    · next hb => exact .inl ⟨BitVec.eq_of_toNat_eq hb, rfl⟩
    · next hb => exact .inr (.inl ⟨BitVec.eq_of_toNat_eq hb, rfl⟩)
    · next hb => exact .inr (.inr ⟨BitVec.eq_of_toNat_eq hb, rfl⟩)
  · rintro (⟨rfl, rfl⟩ | ⟨rfl, rfl⟩ | ⟨rfl, rfl⟩) <;> rfl

theorem readEdge_isSome (b : Byte) : (readEdge b).isSome = decide (b.toNat < 3) := by
  rw [Bool.eq_iff_iff, Option.isSome_iff_exists]
  simp [readEdge_eq_some, exists_or, ← BitVec.toNat_inj]
  omega

theorem watchKind_cases (k : Byte) : k = 0#8 ∨ k = 1#8 ∨ 1 < k.toNat := by
  simp only [← BitVec.toNat_inj, BitVec.toNat_ofNat]; omega

theorem readWatch_termEdge {f t x : Byte} {e : WatchEntry} : readWatch f 0#8 t x = .ok e ↔
    ∃ (i : TermId) (edge : WatchEdge), byteFin 24 t = some i ∧ readEdge x = some edge ∧
      e = ⟨f.getLsbD 0, .termEdge i edge⟩ := by
  unfold readWatch
  cases byteFin 24 t with
  | none => simp
  | some => cases readEdge x with
    | none => simp
    | some => simp [eq_comm]

theorem readWatch_anyFault (f t x : Byte) : readWatch f 1#8 t x = .ok ⟨f.getLsbD 0, .anyFault⟩ := rfl

theorem readWatch_unknown {k : Byte} (h : 1 < k.toNat) (f t x : Byte) : readWatch f k t x = .error 1#8 := by
  unfold readWatch
  split
  case h_3 => rfl
  all_goals omega

/-- R134, R151: the entry that an accepted WATCH write makes. -/
theorem readWatch_eq_ok {f k t x : Byte} {e : WatchEntry} : readWatch f k t x = .ok e ↔ e.enabled = f.getLsbD 0 ∧
    ((k = 1#8 ∧ e.kind = .anyFault) ∨
      (k = 0#8 ∧ ∃ (i : TermId) (edge : WatchEdge), byteFin 24 t = some i ∧ readEdge x = some edge ∧
        e.kind = .termEdge i edge)) := by
  obtain ⟨enabled, kind⟩ := e
  rcases watchKind_cases k with rfl | rfl | hk
  · rw [readWatch_termEdge]
    constructor
    · rintro ⟨i, edge, hi, hx, ⟨⟩⟩; exact ⟨rfl, .inr ⟨rfl, i, edge, hi, hx, rfl⟩⟩
    · rintro ⟨⟨⟩, ⟨h, -⟩ | ⟨-, i, edge, hi, hx, ⟨⟩⟩⟩
      · cases h
      · exact ⟨i, edge, hi, hx, rfl⟩
  · rw [readWatch_anyFault]
    simp [eq_comm]
  · have h0 : k ≠ 0#8 := by rintro rfl; exact absurd hk (by decide)
    have h1 : k ≠ 1#8 := by rintro rfl; exact absurd hk (by decide)
    simp [readWatch_unknown hk, h0, h1]

theorem failingField_readWatch (f k t x : Byte) : failingField (readWatch f k t x) = firstFailing [(1#8, decide (k.toNat < 2)),
    (2#8, decide (k ≠ 0#8) || decide (t.toNat < 24)), (3#8, decide (k ≠ 0#8) || decide (x.toNat < 3))] := by
  rw [← byteFin_isSome 24, ← readEdge_isSome]
  rcases watchKind_cases k with rfl | rfl | hk
  · unfold readWatch
    cases byteFin 24 t with
    | none => rfl
    | some => cases readEdge x <;> rfl
  · rfl
  · rw [readWatch_unknown hk, decide_eq_false (Nat.not_lt.mpr hk)]; rfl

/-! The clauses of O54 on CHANNEL and PERMIT, whose fields depend on each other. -/

/-- R2, R3: the entry of a CHANNEL write, field by field. -/
theorem readChannel_fields (f p n a h : Byte) (l u : Word16) (e : ChannelEntry) : readChannel f p n a l u h = .ok e ↔
    p.toNat < 12 ∧ n.toNat ≤ 12 ∧ n ≠ p ∧ a.toNat ∈ [1, 2, 4, 8, 16, 32, 64] ∧
    (if n = 12#8 then 0 else -2048) ≤ l.toInt ∧ l.toInt ≤ u.toInt ∧ u.toInt ≤ (if n = 12#8 then 4095 else 2047) ∧
    e.enabled = f.getLsbD 0 ∧ e.positive.val = p.toNat ∧ (n = 12#8 → e.negative = none) ∧
    (n ≠ 12#8 → ∃ c : ChannelId, e.negative = some c ∧ c.val = n.toNat) ∧ e.count = a.toNat ∧ e.lower = l.toInt ∧
    e.upper = u.toInt ∧ e.hysteresis = h.toNat ∧ e.railCheck = f.getLsbD 1 ∧ e.tripOnFault = f.getLsbD 2 := by
  rw [readChannel_eq_ok, byteFin_eq_some, isCount_eq, decide_eq_true_eq]
  constructor
  · rintro ⟨hp, hn, hne, ha, ⟨hl, hlu, hu⟩, henabled, hcount, hlower, hupper, hhyst, hrail, htrip⟩
    obtain ⟨hlow, hhigh⟩ := rails_of_readNegative hn
    have hn12 : n.toNat ≤ 12 := by
      have := readNegative_isSome n
      rw [hn] at this
      exact of_decide_eq_true this.symm
    rcases readNegative_eq_some.mp hn with ⟨hg, hnone⟩ | ⟨hg, hsome⟩
    · exact ⟨lt_of_val_eq hp, hn12, hne, ha, hlow ▸ hl, hlu, hhigh ▸ hu, henabled, hp, fun _ => hnone, fun h => absurd hg h,
        hcount, hlower, hupper, hhyst, hrail, htrip⟩
    · exact ⟨lt_of_val_eq hp, hn12, hne, ha, hlow ▸ hl, hlu, hhigh ▸ hu, henabled, hp, fun h => absurd h hg, fun _ => hsome,
        hcount, hlower, hupper, hhyst, hrail, htrip⟩
  · rintro ⟨-, -, hne, ha, hl, hlu, hu, henabled, hp, hnone, hsome, hcount, hlower, hupper, hhyst, hrail, htrip⟩
    have hn : readNegative n = some e.negative := readNegative_eq_some.mpr <|
      (em (n = 12#8)).imp (fun h => ⟨h, hnone h⟩) fun h => ⟨h, hsome h⟩
    obtain ⟨hlow, hhigh⟩ := rails_of_readNegative hn
    exact ⟨hp, hn, hne, ha, ⟨hlow ▸ hl, hlu, hhigh ▸ hu⟩, henabled, hcount, hlower, hupper, hhyst, hrail, htrip⟩

/-- R42, R43: the mode and the limit of a PERMIT write. -/
theorem readMode_limitFits {m l : Byte} {x : PermitMode} : (readMode m = some x ∧ limitFits x l.toNat = true) ↔
    (m = 0#8 ∧ l = 1#8 ∧ x = .exclusive) ∨ (m = 1#8 ∧ 2 ≤ l.toNat ∧ l.toNat ≤ 4 ∧ x = .shared) := by
  rw [readMode_eq_some]
  cases x <;> simp [limitFits, ← BitVec.toNat_inj]

/-- R42, R43: the entry of a PERMIT write, field by field. -/
theorem readPermit_fields (f t m l g src x y : Byte) (e : PermitEntry) : readPermit f t m l g src x y = .ok e ↔
    t.toNat < 24 ∧ src.toNat < 4 ∧ (g = 0xFF#8 ∨ g.toNat < 4) ∧
    ((m = 0#8 ∧ l = 1#8 ∧ e.mode = .exclusive) ∨ (m = 1#8 ∧ 2 ≤ l.toNat ∧ l.toNat ≤ 4 ∧ e.mode = .shared)) ∧
    ((x = 0#8 ∧ e.expiry = .release) ∨ (x = 1#8 ∧ e.expiry = .lock) ∨ (x = 2#8 ∧ e.expiry = .trip)) ∧
    ((y = 0#8 ∧ e.loss = .drop) ∨ (y = 1#8 ∧ e.loss = .lock)) ∧
    e.enabled = f.getLsbD 0 ∧ e.lease = f.getLsbD 1 ∧ e.readback = f.getLsbD 2 ∧ e.term.val = t.toNat ∧
    e.limit = l.toNat ∧ e.source.val = src.toNat ∧ e.group.elim 0xFF#8 (fun k => BitVec.ofNat 8 k.val) = g := by
  rw [readPermit_eq_ok, ← readMode_limitFits, ← readExpiry_eq_some, ← readLoss_eq_some, ← readGroup_eq_some, byteFin_eq_some,
    byteFin_eq_some]
  constructor
  · rintro ⟨ht, hm, hl, hg, hsrc, hx, hy, henabled, hlease, hreadback, hlimit⟩
    have hgroup : g = 0xFF#8 ∨ g.toNat < 4 := by
      have := readGroup_isSome g
      rw [hg] at this
      exact of_decide_eq_true this.symm
    exact ⟨lt_of_val_eq ht, lt_of_val_eq hsrc, hgroup, ⟨hm, hl⟩, hx, hy, henabled, hlease, hreadback, ht, hlimit, hsrc, hg⟩
  · rintro ⟨-, -, -, ⟨hm, hl⟩, hx, hy, henabled, hlease, hreadback, ht, hlimit, hsrc, hg⟩
    exact ⟨ht, hm, hl, hg, hsrc, hx, hy, henabled, hlease, hreadback, hlimit⟩

/-- Settles O54: the entry and the failing field of each table, in the order of the tables. -/
theorem entriesAreReadFromFieldsInRange : Obligations.EntriesAreReadFromFieldsInRange := by
  unfold Obligations.EntriesAreReadFromFieldsInRange
  intro first qualifies makes sourceFits
  refine ⟨readChannel_fields, failingField_readChannel, fun _ _ _ => readLine_eq_ok, failingField_readLine, readSource_eq_some,
    ?_, failingField_readTerm, readPermit_fields, failingField_readPermit, ?_, failingField_readGroupEntry, ?_,
    failingField_readProfile, fun _ _ => readTick_eq_ok, failingField_readTick, ?_, failingField_readEngineEntry, ?_,
    failingField_readWatch⟩
  · intro f st q tt a b c e
    rw [readTerm_eq_ok, readSource_eq_some, readSource_eq_some, readSource_eq_some, readStage_eq_some, isQualify_eq]
    rfl
  · intro v src e
    rw [readGroupEntry_eq_ok, byteFin_eq_some]
    exact ⟨fun ⟨hsrc, hsettle⟩ => ⟨lt_of_val_eq hsrc, hsettle, hsrc⟩, fun ⟨_, hsettle, hsrc⟩ => ⟨hsrc, hsettle⟩⟩
  · intro r c m e
    rw [readProfile_eq_ok, byteFin_eq_some]
    exact ⟨fun ⟨hr, hc, h0, h1, h2, hm⟩ => ⟨hr, lt_of_val_eq hc, h0, h1, h2, hm, hc⟩,
      fun ⟨hr, _, h0, h1, h2, hm, hc⟩ => ⟨hr, hc, h0, h1, h2, hm⟩⟩
  · intro t d o e
    rw [readEngineEntry_eq_ok, readTrigger_eq_some]
  · intro f k t x e
    simp only [readWatch_eq_ok, byteFin_eq_some, readEdge_eq_some, or_and_right, and_assoc, exists_or, exists_and_left,
      exists_eq_left, eq_comm (b := t.toNat)]

end Sys2Proof.Proofs
end

section
/-! SUPPORT. The evaluation pass in the terms of its statements: what the sources read and what the stages give (R24 to R30, R35), what a
delivered pass hands on (R36 to R38, R112), and when a watch hits (R135). -/

namespace Sys2Proof.Proofs

open Sys2Proof.Machine Sys2Proof.Laws

/-! Sources (R24 to R26). -/

theorem maskAll_eq (mask : Word16) (level : Bool) (filtered : Vector Bool 16) :
    maskAll mask level filtered = decide (∀ n : LineId, mask.getLsbD n = true → filtered[n] = level) := by
  rw [maskAll, Bool.eq_iff_iff, List.all_eq_true, decide_eq_true_eq]
  refine forall_congr' fun n => ⟨fun h hn => ?_, fun h _ => ?_⟩
  · have := h (mem_allLines n)
    rwa [hn, Bool.not_true, Bool.false_or, beq_iff_eq] at this
  · cases hn : mask.getLsbD n with
    | false => rfl
    | true => rw [Bool.not_true, Bool.false_or, beq_iff_eq]; exact h hn

theorem accepts_eq (below inside above : Bool) (v : Option Verdict) : accepts below inside above v =
    ((below && decide (v = some .below)) || (inside && decide (v = some .inside)) || (above && decide (v = some .above))) := by
  rcases v with _ | _ | _ | _ | _ | _ <;> simp [accepts]

section View

variable (sc : Scan) (din : Word16) (s : State)

theorem passView_verdicts (c : ChannelId) : (passView sc din s).verdicts[c] = pendingVerdict sc s c := get_ofFn _ c

theorem passView_filtered (n : LineId) : (passView sc din s).filtered[n] =
    (s.config.lines[n].next s.lines.lines[n] (pendingRaw sc din s n)).filtered := get_ofFn _ n

theorem passView_held (p : PermitId) :
    (passView sc din s).held[p] = decide (permitState s.config s.table p = .held) := get_ofFn _ p

end View

theorem pendingVerdict_disabled {s : State} {c : ChannelId} (h : s.config.channels[c].enabled = false) (sc : Scan) :
    pendingVerdict sc s c = none := by
  simp only [pendingVerdict, h, Bool.false_eq_true, if_false]

theorem pendingVerdict_enabled {s : State} {c : ChannelId} (h : s.config.channels[c].enabled = true) (sc : Scan) :
    pendingVerdict sc s c = some (s.config.channels[c].classify s.scan.channels[c].verdict (pendingReading sc s c)) := by
  simp only [pendingVerdict, h, if_true]

/-! Terms (R27, R29, R30, R32). -/

/-- R32: a term's pending values read those of the whole pass. -/
theorem passPending_get (sc : Scan) (din : Word16) (s : State) (i : TermId) :
    (passPending sc din s)[i] = evalTerm s (passView sc din s) (passPending sc din s) i := evalTerms_get s _ i

section Term

variable {s : State} {view : PassView} {pend : Vector TermPending 24} {i : TermId}

theorem evalTerm_disabled (h : s.config.terms[i].enabled = false) : evalTerm s view pend i = ⟨false, false, 0⟩ := by
  simp only [evalTerm, h, Bool.false_eq_true, if_false]

theorem evalTerm_enabled (h : s.config.terms[i].enabled = true) : evalTerm s view pend i =
    s.config.terms[i].stage.apply s.config.terms[i] s.eval.history[i] (s.config.terms[i].truth.getLsbD
      (4 * (sourceValue s view pend i s.config.terms[i].sourceA).toNat +
        2 * (sourceValue s view pend i s.config.terms[i].sourceB).toNat +
        (sourceValue s view pend i s.config.terms[i].sourceC).toNat)) := by
  simp only [evalTerm, h, if_true, truthIndex]

end Term

/-- Settles O23: the pending values by evalTerms_get, source by source and stage by stage, and then what a delivered pass stores. -/
theorem termsAreEvaluatedFromHighToLow : Obligations.TermsAreEvaluatedFromHighToLow := by
  unfold Obligations.TermsAreEvaluatedFromHighToLow
  intro din pfb sc s hr hs ht pend view
  refine ⟨fun i => ?_, fun c => ?_, fun n => ⟨fun hk => ?_, fun level hk hi => ?_⟩,
    fun h0 h1 => ⟨_, exec_pass_delivers hr hs ht h0 h1, fun i => get_ofFn _ i, fun n => ?_, fun c he => ?_⟩⟩
  · intro e h value raw prevOut prevRaw counter
    have hvalue : ∀ x, sourceValue s view pend i x = value x := by
      rintro (_ | _ | _ | ⟨mask, level⟩ | ⟨c, below, inside, above⟩ | p)
      case lineSet => exact maskAll_eq mask level view.filtered
      case channel => exact accepts_eq below inside above _
      case held => exact passView_held sc din s p
      all_goals rfl
    refine ⟨fun hd => (passPending_get sc din s i).trans (evalTerm_disabled hd), fun he => ?_⟩
    have hpend : pend[i] = e.stage.apply e h raw := by
      rw [passPending_get, evalTerm_enabled he, hvalue, hvalue, hvalue]
    refine ⟨fun hdirect => ?_, fun hrise => ?_, fun hfall => ?_, fun q hqualify => ?_⟩
    · rw [hpend, hdirect]; rfl
    · rw [hpend, hrise]; rfl
    · rw [hpend, hfall]; rfl
    · have hq : pend[i] = if raw = prevOut then ⟨prevOut, raw, 0⟩ else if q ≤ counter then ⟨raw, raw, 0⟩
          else ⟨prevOut, raw, counter⟩ := by rw [hpend, hqualify]; rfl
      refine ⟨fun hold => hq.trans (if_pos hold), fun hnew hcount => ?_, fun hnew hcount => ?_⟩
      · rwa [if_neg hnew, if_pos hcount] at hq
      · rwa [if_neg hnew, if_neg (Nat.not_le.mpr hcount)] at hq
  · refine ⟨fun hd => (passView_verdicts sc din s c).trans (pendingVerdict_disabled hd sc), fun he r hformed hinjected => ?_⟩
    have hreading : pendingReading sc s c = r :=
      pendingReading_eq hformed fun v hk hv => by rw [hinjected v hk hv, clamp_eq]
    rw [passView_verdicts, pendingVerdict_enabled he, hreading]
  · rw [passView_filtered, pendingRaw_pin hk]
  · rw [passView_filtered, pendingRaw_injected hk hi]
  · rw [deliverPass_line, passView_filtered]
  · rw [deliverPass_channel, nextChannel_enabled he, passView_verdicts, pendingVerdict_enabled he]

/-! What a delivered pass hands on (R36, R112, R18). -/

/-- A channel's verdict after delivery is FAULT when its pending verdict is. -/
theorem nextChannel_fault_iff (sc : Scan) (s : State) (c : ChannelId) :
    (nextChannel sc s c).verdict = .fault ↔ pendingVerdict sc s c = some .fault := by
  unfold nextChannel
  cases pendingVerdict sc s c <;> simp

theorem pendingVerdict_fault_enabled {sc : Scan} {s : State} {c : ChannelId} (h : pendingVerdict sc s c = some .fault) :
    s.config.channels[c].enabled = true := by
  by_contra hd
  rw [pendingVerdict_disabled (Bool.eq_false_iff.mpr hd)] at h
  cases h

/-- R112: the channels reported faulted. -/
theorem faultBits_iff (sc : Scan) (s : State) (c : ChannelId) : (faultBits sc s).getLsbD c = true ↔
    s.config.channels[c].enabled = true ∧ s.config.channels[c].tripOnFault = true ∧
      (nextChannel sc s c).verdict = .fault := by
  rw [faultBits, channelBits, Bool.and_eq_true, decide_eq_true_eq, nextChannel_fault_iff]
  exact ⟨fun ⟨htrip, hf⟩ => ⟨pendingVerdict_fault_enabled hf, htrip, hf⟩, fun ⟨_, h⟩ => h⟩

theorem commanded_not_running {t : PermitTable} (h : t.engine ≠ .running) (c : ConfigStore) (p : PermitId) :
    commanded c t p = false := by
  simp only [commanded, h, decide_false, Bool.false_and]

/-- R18: with the engine held other than RUNNING every commanded level is LOW. -/
theorem commandedLevels_not_running {s : State} (h : s.table.engine ≠ .running) : commandedLevels s = 0#16 := by
  refine BitVec.eq_of_getLsbD_eq fun i hi => ?_
  rw [BitVec.getLsbD_zero]
  exact (permitBits _ ⟨i, hi⟩).trans (commanded_not_running h s.config ⟨i, hi⟩)

/-- R133, log 34: while a STEP scan is in progress the permit table does not hold the engine RUNNING. -/
theorem stepDrivesNothing_engine {s : State} {sc : Scan} (h : stepDrivesNothing s) (hs : s.scan.state = .inProgress sc)
    (hk : sc.kind = .step) : s.table.engine ≠ .running := by
  obtain ⟨hidle, hstepping⟩ := h
  by_cases he : s.engine.state = .stepping
  · obtain ⟨-, hengine, -⟩ := hstepping he
    exact hengine
  · have hnone := hidle he
    simp only [stepsUnderWay, hs, hk, if_true] at hnone
    omega

section Conditions

variable {s : State} {p : PermitId} (pfb : Word16) (pend : Vector TermPending 24) (count : PassCount)

theorem makePassResult_enabled (h : s.config.permits[p].enabled = true) :
    (makePassResult pfb pend count s).conditions[p] = some pend[s.config.permits[p].term].output :=
  (get_ofFn _ p).trans (if_pos h)

theorem makePassResult_disabled (h : s.config.permits[p].enabled = false) :
    (makePassResult pfb pend count s).conditions[p] = none :=
  (get_ofFn _ p).trans (if_neg (Bool.eq_false_iff.mp h))

end Conditions

/-- Settles O24: the parts of deliverPass, and the LOW levels of a STEP pass from the engine state that the permit table holds. -/
theorem deliveredPassesHandOnTheirResults : Obligations.DeliveredPassesHandOnTheirResults := by
  unfold Obligations.DeliveredPassesHandOnTheirResults
  intro din pfb sc s hr hs ht h0 h1
  refine ⟨_, makePassResult pfb (passPending sc din s) (s.eval.passCount + 1) s, faultBits sc s,
    exec_pass_delivers hr hs ht h0 h1, rfl, rfl, rfl, permitBits _,
    fun hstep hk => commandedLevels_not_running (stepDrivesNothing_engine hstep hs hk),
    fun _ => makePassResult_enabled pfb _ _, fun _ => makePassResult_disabled pfb _ _, fun c => ?_⟩
  rw [deliverPass_channel, faultBits_iff]

/-! The watch check (R135). -/

theorem classify_fault_iff (e : ChannelEntry) (before : Verdict) (r : Reading) :
    e.classify before r = .fault ↔ r.rail = true := by
  refine ⟨fun h => ?_, fun h => classify_rail h e before⟩
  by_contra hrail
  unfold ChannelEntry.classify at h
  rw [if_neg hrail] at h
  revert h
  cases before <;> simp only <;> split_ifs <;> exact nofun

/-- R4: at a RUN pass the reading of a channel is the one that its scan formed. -/
theorem pendingReading_rail_iff {sc : Scan} (hk : sc.kind = .run) (s : State) (c : ChannelId) :
    (pendingReading sc s c).rail = true ↔ ∃ r, sc.formed[c] = some r ∧ r.rail = true := by
  simp only [pendingReading, hk]
  cases sc.formed[c] <;> simp

/-- R6: at a RUN pass a channel is FAULT when it is enabled and its reading carries a rail mark. -/
theorem pendingVerdict_fault_iff {sc : Scan} (hk : sc.kind = .run) (s : State) (c : ChannelId) :
    pendingVerdict sc s c = some .fault ↔
      s.config.channels[c].enabled = true ∧ ∃ r, sc.formed[c] = some r ∧ r.rail = true := by
  cases he : s.config.channels[c].enabled with
  | false => simp [pendingVerdict_disabled he]
  | true => rw [pendingVerdict_enabled he, Option.some_inj, classify_fault_iff, pendingReading_rail_iff hk, eq_self, true_and]

theorem newFault_iff {sc : Scan} (hk : sc.kind = .run) (din : Word16) (s : State) :
    newFault s (passView sc din s) = true ↔ ∃ (c : ChannelId) (r : Reading), s.config.channels[c].enabled = true ∧
      sc.formed[c] = some r ∧ r.rail = true ∧ s.scan.channels[c].verdict ≠ .fault := by
  simp only [newFault, List.any_eq_true, mem_allChannels, true_and, Bool.and_eq_true, decide_eq_true_eq, passView_verdicts,
    pendingVerdict_fault_iff hk, and_assoc, exists_and_left, ← exists_and_right]

theorem hits_iff (x : WatchEdge) (before after : Bool) : x.hits before after = true ↔
    match x with
    | .rise => before = false ∧ after = true
    | .fall => before = true ∧ after = false
    | .either => before ≠ after := by
  cases x <;> simp [WatchEdge.hits]

theorem watchHit_iff (sc : Scan) (din : Word16) (s : State) (slot : SlotId) : watchHit sc din s slot = true ↔
    sc.kind = .run ∧ slotHits s (passView sc din s) (passPending sc din s) slot = true := by
  rw [watchHit, Bool.and_eq_true, decide_eq_true_eq]

/-- Settles O25: slot by slot the kind of its watch, and takePass_discards. -/
theorem watchHitsDiscardThePass : Obligations.WatchHitsDiscardThePass := by
  unfold Obligations.WatchHitsDiscardThePass
  intro din pfb sc s hr hs ht
  refine ⟨fun slot => ?_, fun hit => ?_⟩
  · rw [watchHit_iff]
    refine and_congr_right fun hk => ?_
    simp only [slotHits, Bool.and_eq_true]
    refine and_congr_right fun _ => ?_
    cases s.config.watches[slot].kind with
    | termEdge k x => exact hits_iff x _ _
    | anyFault => exact newFault_iff hk din s
  · rw [exec_pass hr, takePass_discards hs ht hit]; rfl

end Sys2Proof.Proofs
end

section
/-! SUPPORT. The report of a pass at the engine controller (R38, R128, R133, R136, R137), state by state of the engine. -/

namespace Sys2Proof.Proofs

open Sys2Proof.Machine Sys2Proof.Laws

theorem exec_passEndReport {r : PassReport} {rest : List PassReport} {s : State} (hr : s.resetActive = false)
    (h : s.flight.passReports = r :: rest) :
    exec .passEndReport s = .next (applyReport r (s.onFlight fun f => { f with passReports := rest })) := by
  refine congrArg _ ((unlessReset_inactive hr _).trans ?_)
  simp only [takeReport, h]

/-! A delivered pass. -/

section Delivered

variable {r : PassReport} {count : PassCount} {s : State}

theorem applyReport_delivered_idle (h : r.ending = .delivered count)
    (he : s.engine.state = .running ∨ s.engine.state = .halted) : applyReport r s = s := by
  rcases he with he | he <;> simp only [applyReport, h, deliveredReport, he]

theorem applyReport_delivered_halting (h : r.ending = .delivered count) (he : s.engine.state = .halting) :
    applyReport r s =
      if r.old then s else enterHalted (.ofHalt s.engine.requester s.eval.passCount) s.engine.requester s := by
  simp only [applyReport, h, deliveredReport, he]

theorem applyReport_delivered_stepping (h : r.ending = .delivered count) (he : s.engine.state = .stepping) :
    applyReport r s = if r.kind = .step then endStep count s else s := by
  simp only [applyReport, h, deliveredReport, he]

theorem endStep_unasked (h : s.engine.stepPort = none) (count : PassCount) :
    endStep count s =
      (s.onEngine fun u => { u with state := .halted, stepPort := none }).onFlight (InFlight.tellBoth .halted) := by
  simp only [endStep, h]

/-- R133 step 4: the answer carries the pass count, most significant byte first. -/
theorem endStep_asked {port : Port} (h : s.engine.stepPort = some port) (count : PassCount) :
    endStep count s = answerIn port 0x32#8 true
      ⟨.ok, [count.extractLsb' 24 8, count.extractLsb' 16 8, count.extractLsb' 8 8, count.extractLsb' 0 8]⟩
      ((s.onEngine fun u => { u with state := .halted, stepPort := none }).onFlight (InFlight.tellBoth .halted)) := by
  simp only [endStep, h, ← bytesOf_four, answerIn, if_true]

end Delivered

/-! A discarded pass. -/

section Discarded

variable {r : PassReport} {hit0 hit1 : Bool} {captured : Vector Bool 24} {s : State}

/-- R136: a watch hit enters HALTED, with the requester of a halt under way in the record. -/
theorem applyReport_discarded_halts (h : r.ending = .discarded hit0 hit1 captured)
    (he : s.engine.state = .running ∨ s.engine.state = .halting) : applyReport r s = enterHalted (.ofWatch hit0 hit1 captured
      (if s.engine.state = .halting then s.engine.requester else none) s.eval.passCount) none s := by
  rcases he with he | he <;> simp only [applyReport, h, discardedReport, he, reduceCtorEq, if_false, if_true]

theorem applyReport_discarded_rewrites (h : r.ending = .discarded hit0 hit1 captured)
    (he : s.engine.state = .halted ∨ s.engine.state = .stepping) : applyReport r s =
      rewriteRecord (.ofWatch hit0 hit1 captured s.engine.haltPort s.eval.passCount) s := by
  rcases he with he | he <;> simp only [applyReport, h, discardedReport, he]

end Discarded

/-- Settles O50: the report is applied to the part without it, by the way the pass ended and the state of the engine. -/
theorem passReportsMoveTheEngine : Obligations.PassReportsMoveTheEngine := by
  unfold Obligations.PassReportsMoveTheEngine
  intro r rest s hr h u tells toBoth
  have htaken : exec .passEndReport s = .next (applyReport r u) := exec_passEndReport hr h
  rw [htaken]
  refine ⟨fun count hd => ⟨fun he => ?_, fun he hold => ?_, fun port he hnew hreq => ?_, fun he hrun => ?_, fun he hstep => ?_⟩,
    fun hit0 hit1 captured hd => ⟨fun he => ?_, fun he => ?_⟩⟩
  · rw [applyReport_delivered_idle (s := u) hd he]
  · rw [applyReport_delivered_halting (s := u) hd he, if_pos hold]
  · have hport : u.engine.requester = some port := hreq
    rw [applyReport_delivered_halting (s := u) hd he, if_neg (Bool.eq_false_iff.mp hnew), hport]; rfl
  · rw [applyReport_delivered_stepping (s := u) hd he, hrun, if_neg nofun]
  · rw [applyReport_delivered_stepping (s := u) hd he, if_pos hstep]
    exact ⟨fun hnone => congrArg _ (endStep_unasked (s := u) hnone count),
      fun _ hport => congrArg _ (endStep_asked (s := u) hport count)⟩
  · rw [applyReport_discarded_halts (s := u) hd he]; rfl
  · rw [applyReport_discarded_rewrites (s := u) hd he]; rfl

end Sys2Proof.Proofs
end

section
/-! SUPPORT. The soundness of the permit table carried through every command (R45, R48, R54, R60, R143): the events of the permit table keep
it by Laws/Sound.lean, every other command leaves the table and the PERMIT entries as they are, and the resets empty the records. -/

namespace Sys2Proof.Proofs

open Sys2Proof Sys2Proof.Machine Sys2Proof.Laws

/-- What every step keeps of the permit table. -/
def PermitsSound (s : State) : Prop := TableSound s.config s.table ∧ resetEmpties s

/-- A sound permit table while RESET_N is inactive, as every arrival and every request that is taken meets it. -/
def AwakeSound (s : State) : Prop := s.resetActive = false ∧ TableSound s.config s.table

theorem AwakeSound.permitsSound {s : State} (h : AwakeSound s) : PermitsSound s :=
  ⟨h.2, fun hr => absurd (h.1.symm.trans hr) (by decide)⟩

theorem PermitsSound.awake {s : State} (h : PermitsSound s) (hr : s.resetActive = false) : AwakeSound s := ⟨hr, h.1⟩

/-! The table and the entries. -/

/-- Of the configuration the PERMIT entries alone count. -/
theorem tableSound_of_permits {c c' : ConfigStore} {t : PermitTable} (h : TableSound c t) (e : c'.permits = c.permits) :
    TableSound c' t := by
  unfold TableSound groupsExclude recordsSound at *
  rwa [e]

theorem AwakeSound.of_same {s t : State} (h : AwakeSound s) (hr : t.resetActive = s.resetActive)
    (hp : t.config.permits = s.config.permits) (ht : t.table = s.table) : AwakeSound t :=
  ⟨hr.trans h.1, ht ▸ tableSound_of_permits h.2 hp⟩

/-- R60, R66, R143: a table whose records are all empty is sound whatever the entries say. -/
theorem tableSound_of_empty {t : PermitTable} (h : ∀ p : PermitId, t.records[p].holders = [] ∧ t.records[p].queue = [])
    (c : ConfigStore) : TableSound c t where
  left := fun _ p _ _ _ held => absurd (h p).1 held
  right := ⟨fun p => {
    holdersFit := by rw [(h p).1]; exact Nat.zero_le _
    onePerPort := by rw [portsOf, (h p).1, (h p).2]; exact List.nodup_nil
    queueOrdered := by rw [(h p).2]; exact .nil
    closedEmpty := fun _ => h p }, fun _ => h⟩

theorem commitWork_sound (count : PassCount) {w : TableWork} {s : State} (h : AwakeSound s)
    (hw : TableSound s.config w.table) : AwakeSound (commitWork count w s) := ⟨h.1, hw⟩

theorem onTable_sound {f : PermitTable → PermitTable} {s : State} (h : AwakeSound s) (hf : TableSound s.config (f s.table)) :
    AwakeSound (s.onTable f) := ⟨h.1, hf⟩

theorem onConfig_sound {f : ConfigStore → ConfigStore} {s : State} (h : AwakeSound s)
    (hf : (f s.config).permits = s.config.permits) : AwakeSound (s.onConfig f) := h.of_same rfl hf rfl

theorem onFlight_sound (f : InFlight → InFlight) {s : State} (h : AwakeSound s) : AwakeSound (s.onFlight f) := h

/-! Events and requests. -/

/-- A property of the permit table says nothing of the port units. -/
theorem awakeSound_portFree : PortFree AwakeSound := fun _ _ _ h => h

theorem event_sound {f : State → State} (hf : ∀ s, AwakeSound s → AwakeSound (f s)) {s : State} (h : PermitsSound s) :
    PermitsSound (s.unlessReset f) :=
  unlessReset_keeps (P := PermitsSound) (fun s hr h => (hf s (h.awake hr)).permitsSound) h

theorem request_sound {port : Port} {c : Instr} {echo : Byte} {n : Nat} {body : Bool → Body}
    (hb : ∀ live, BodyKeeps AwakeSound (body live)) {s : State} (h : PermitsSound s) :
    PermitsSound (serveWith port c echo n body s) := by
  cases hr : s.resetActive with
  | false => exact (serveWith_keeps awakeSound_portFree hb (h.awake hr)).permitsSound
  | true =>
    have huntaken : takeRequest port c n s = none := by simp only [takeRequest, hr, if_true]
    rw [serveWith_untaken huntaken]
    simpa only [notTaken, hr, Bool.true_or, if_true] using h

theorem serve_sound {port : Port} {c : Instr} {echo : Byte} {n : Nat} {body : Body} (hb : BodyKeeps AwakeSound body) {s : State}
    (h : PermitsSound s) : PermitsSound (serve port c echo n body s) := request_sound (fun _ => hb) h

theorem takePart_sound (port : Port) (kind : Byte) (part : TransactionPart) {s : State} (h : PermitsSound s) :
    PermitsSound (takePart port kind part s) := by
  obtain ⟨x, e⟩ := takePart_port port kind part s
  rw [e]; exact h

/-! Arrivals at the permit table. -/

theorem takePassResult_sound (r : PassResult) {s : State} (h : AwakeSound s) : AwakeSound (takePassResult r s) :=
  commitWork_sound _ h (tablePassResult_sound r h.2)

theorem takeEngineChange_sound (e : EngineState) {s : State} (h : AwakeSound s) : AwakeSound (takeEngineChange e s) :=
  commitWork_sound _ h (tableEngineChange_sound e h.2)

theorem takeArrival_sound {s : State} (h : AwakeSound s) (a : PermitArrival) : AwakeSound (takeArrival s a) := by
  cases a with
  | passResult r => exact takePassResult_sound r h
  | engineChange e => exact takeEngineChange_sound e h

theorem drainPermit_sound {s : State} (h : AwakeSound s) : AwakeSound (drainPermit s) :=
  fold_keeps (P := AwakeSound) (fun _ a h => takeArrival_sound h a) _ h

theorem takeOldestResult_sound {s : State} (h : AwakeSound s) : AwakeSound (takeOldestResult s) := by
  unfold takeOldestResult; split
  · exact takePassResult_sound _ h
  · exact h

theorem takeTableChange_sound {s : State} (h : AwakeSound s) : AwakeSound (takeTableChange s) := by
  unfold takeTableChange; split
  · exact h
  · exact takeEngineChange_sound _ h

theorem applyPermitTick_sound (src : SourceId) {s : State} (h : AwakeSound s) : AwakeSound (applyPermitTick src s) :=
  commitWork_sound _ h (tableTick_sound src h.2)

theorem takePermitTickIf_sound (happens : Bool) (src : SourceId) {s : State} (h : AwakeSound s) :
    AwakeSound (takePermitTickIf happens src s) := by
  unfold takePermitTickIf; split
  · exact applyPermitTick_sound src h
  · exact h

/-- R60: trip entry leaves every permit empty. -/
theorem tableTripEntry_empty (c : ConfigStore) (t : PermitTable) (p : PermitId) :
    (tableTripEntry c t).records[p].holders = [] ∧ (tableTripEntry c t).records[p].queue = [] := by
  obtain ⟨_, _, hrecords⟩ := tableTripEntry_spec c t
  rw [hrecords p]; exact ⟨rfl, rfl⟩

theorem takeTripEntry_sound {s : State} (h : AwakeSound s) : AwakeSound (takeTripEntry s) := by
  unfold takeTripEntry; split
  · exact onFlight_sound _ (onTable_sound h (tableSound_of_empty (tableTripEntry_empty s.config s.table) _))
  · exact h

/-- R61: with the trip state NORMAL there is nothing more that TRIPPED forbids. -/
theorem takeTripClearing_sound {s : State} (h : AwakeSound s) : AwakeSound (takeTripClearing s) := by
  unfold takeTripClearing; split
  · obtain ⟨hr, hgroups, hrecords, _⟩ := h
    exact ⟨hr, hgroups, hrecords, nofun⟩
  · exact h

/-! Arrivals elsewhere. -/

theorem causeArrives_sound (cause : TripCause) {s : State} (h : AwakeSound s) : AwakeSound (causeArrives cause s) := by
  obtain ⟨t, f, e⟩ := causeArrives_rest cause s
  rw [e]; exact h

theorem applyFaultReport_sound (r : FaultReport) {s : State} (h : AwakeSound s) : AwakeSound (applyFaultReport r s) := by
  obtain ⟨t, f, e⟩ := applyFaultReport_rest r s
  rw [e]; exact h

theorem applyReport_resetActive (r : PassReport) (s : State) : (applyReport r s).resetActive = s.resetActive := by
  have placed : ∀ (port : Port) (echo : Byte) (x : Reply) (t : State),
      (placeAnswer port echo x t).resetActive = t.resetActive := by
    intro port echo x t; unfold placeAnswer; split <;> rfl
  unfold applyReport; split
  · unfold deliveredReport endStep; split
    · rfl
    · rfl
    · split <;> rfl
    · split
      · simp only; split
        · rfl
        · exact placed ..
      · rfl
  · unfold discardedReport; simp only; split <;> rfl

theorem applyReport_sound (r : PassReport) {s : State} (h : AwakeSound s) : AwakeSound (applyReport r s) := by
  obtain ⟨hconfig, htable, _⟩ := applyReport_rest r s
  exact h.of_same (applyReport_resetActive r s) (congrArg _ hconfig) htable

theorem takeReport_sound {s : State} (h : AwakeSound s) : AwakeSound (takeReport s) := by
  unfold takeReport; split
  · exact h
  · exact applyReport_sound _ h

theorem takeTrigger_sound (tick : TriggerTick) {s : State} (h : AwakeSound s) : AwakeSound (takeTrigger tick s) := by
  unfold takeTrigger; split
  · exact h
  · simp only; split <;> exact h

theorem takeConversion_sound (ain : Vector Int 12) {s : State} (h : AwakeSound s) : AwakeSound (takeConversion ain s) := by
  unfold takeConversion; split
  · exact h
  · split <;> exact h

theorem takePass_sound (din pfb : Word16) {s : State} (h : AwakeSound s) : AwakeSound (takePass din pfb s) := by
  unfold takePass runPass; split
  · exact h
  · split
    · simp only; split <;> exact h
    · exact h

theorem takeFaultReport_sound {s : State} (h : AwakeSound s) : AwakeSound (takeFaultReport s) := by
  unfold takeFaultReport; split
  · exact h
  · exact applyFaultReport_sound _ h

theorem takeDeadlineRestart_sound {s : State} (h : AwakeSound s) : AwakeSound (takeDeadlineRestart s) := by
  unfold takeDeadlineRestart; split <;> exact h

theorem takeTripTick_sound {s : State} (h : AwakeSound s) : AwakeSound (takeTripTick s) := by
  unfold takeTripTick applyTripTick; split
  · exact h
  · split
    · simp only; split
      · exact causeArrives_sound _ h
      · exact h
    · exact h

theorem takeTripCause_sound {s : State} (h : AwakeSound s) : AwakeSound (takeTripCause s) := by
  unfold takeTripCause; split
  · exact h
  · exact causeArrives_sound _ h

theorem takeScanChange_sound {s : State} (h : AwakeSound s) : AwakeSound (takeScanChange s) := by
  unfold takeScanChange; split <;> exact h

theorem takeNotice_sound (maker : NoticeMaker) (port : Port) {s : State} (h : AwakeSound s) :
    AwakeSound (takeNotice maker port s) := by
  unfold takeNotice; split <;> exact h

theorem takeSourceTick_sound (src : SourceId) {s : State} (h : AwakeSound s) : AwakeSound (takeSourceTick src s) := by
  unfold takeSourceTick; split <;> exact h

theorem referencePeriod_sound {s : State} (h : AwakeSound s) : AwakeSound (referencePeriod s) := by
  unfold referencePeriod; split <;> exact h

/-! Requests at the permit table. -/

theorem claimBody_keeps (port : Port) (permit priority wait : Byte) (epoch : Word16) :
    BodyKeeps AwakeSound (claimBody port permit priority wait epoch) := by
  intro s h
  refine ⟨Eq.trans ?_ h.1, claimBody_sound port permit priority wait epoch s h.2⟩
  unfold claimBody; split
  · split
    · rfl
    · unfold admitClaim; simp only; split
      · rfl
      · split <;> rfl
  · rfl

theorem dropHolder_shrinks (port : Port) (r : PermitRecord) : RecordShrinks r (r.dropHolder port) :=
  ⟨List.filter_sublist.map _, .refl _, .inl⟩

theorem dropClaim_shrinks (port : Port) (r : PermitRecord) : RecordShrinks r (r.dropClaim port) :=
  ⟨.refl _, List.filter_sublist.map _, .inl⟩

theorem refresh_shrinks (port : Port) (r : PermitRecord) : RecordShrinks r (r.refresh port) := by
  refine ⟨?_, .refl _, .inl⟩
  have hport : Holder.port ∘ (fun h => if h.port = port then { h with stage := .fresh } else h) = Holder.port := by
    funext h; simp only [Function.comp_apply]; split <;> rfl
  simp only [PermitRecord.refresh, List.map_map, hport, List.Sublist.refl]

theorem releaseBody_keeps (port : Port) (p : PermitId) : BodyKeeps AwakeSound (releaseBody port p) := by
  intro s h
  unfold releaseBody; simp only; split
  · exact commitWork_sound _ h (grantExamination_sound (w := .start _)
      ((Shrinks.changeRecord (dropHolder_shrinks port _)).sound h.2))
  · split
    · exact ⟨h.1, (Shrinks.setRecord (dropClaim_shrinks port _)).sound h.2⟩
    · exact h

theorem refreshBody_keeps (port : Port) (p : PermitId) : BodyKeeps AwakeSound (refreshBody port p) := by
  intro s h
  unfold refreshBody; simp only; split
  · exact h
  · exact ⟨h.1, (Shrinks.setRecord (refresh_shrinks port _)).sound h.2⟩

theorem refreshAllBody_keeps (port : Port) : BodyKeeps AwakeSound (refreshAllBody port) := by
  intro s h
  refine ⟨h.1, Shrinks.sound (t := s.table) ⟨rfl, fun p => ?_⟩ h.2⟩
  exact (get_map (PermitRecord.refresh port) s.table.records p).symm ▸ refresh_shrinks port _

theorem revokeBody_keeps (p : PermitId) : BodyKeeps AwakeSound (revokeBody p) := fun _ h =>
  commitWork_sound _ h (grantExamination_sound ((Shrinks.changeRecord (emptied_shrinks _)).sound h.2))

/-- R62: a LOCKED permit is empty and stays so when its mark is cleared. -/
theorem unlocked_shrinks (r : PermitRecord) : RecordShrinks r { r with lock := false } := ⟨.refl _, .refl _, nofun⟩

theorem unlockBody_keeps (p : PermitId) : BodyKeeps AwakeSound (unlockBody p) := by
  intro s h
  unfold unlockBody; simp only; split
  · exact commitWork_sound _ h (grantExamination_sound (w := .start _)
      ((Shrinks.setRecord (unlocked_shrinks _)).sound h.2))
  · exact h

/-! Requests elsewhere. -/

theorem readNoticeBody_keeps (port : Port) : BodyKeeps AwakeSound (readNoticeBody port) := by
  intro s h; unfold readNoticeBody; simp only; split <;> exact h

theorem readEntryBody_keeps (table index : Byte) : BodyKeeps AwakeSound (readEntryBody table index) := by
  intro s h; unfold readEntryBody; split <;> exact h

theorem clearTripBody_keeps : BodyKeeps AwakeSound clearTripBody := by
  intro s h; unfold clearTripBody; split
  · exact h
  · split <;> exact h

theorem haltBody_keeps (port : Port) : BodyKeeps AwakeSound (haltBody port) := by
  intro s h; unfold haltBody; split
  · split <;> exact h
  · exact h

theorem pushNotices_sound (maker : NoticeMaker) (count : PassCount) (made : List Made) {s : State} (h : AwakeSound s) :
    AwakeSound (pushNotices maker count made s) := h

theorem setDeadline_sound {s : State} (h : AwakeSound s) : AwakeSound (setDeadline s) := h

theorem resumeState_sound (commits : Bool) {s : State} (h : AwakeSound s) : AwakeSound (resumeState commits s) := by
  have hdrained : AwakeSound (drainPermit (drainReports s)) :=
    drainPermit_sound (fold_keeps (P := AwakeSound) (fun _ r h => applyReport_sound r h) _ h)
  have hcommitted : AwakeSound (if commits then
      (commitTicks (drainPermit (drainReports s))).onConfig ConfigStore.commit else drainPermit (drainReports s)) := by
    split
    · exact hdrained.of_same rfl rfl rfl
    · exact hdrained
  exact pushNotices_sound _ _ _ (setDeadline_sound (commitWork_sound _ hcommitted (tableResume_sound commits hcommitted.2)))

theorem resumeBody_keeps : BodyKeeps AwakeSound resumeBody := by
  intro s h
  unfold resumeBody; split
  · exact h
  · exact h
  · exact h
  · split
    · split
      · exact h
      · exact resumeState_sound true h
    · exact resumeState_sound false h

theorem stepBody_keeps (port : Port) (live : Bool) : BodyKeeps AwakeSound (stepBody port live) := by
  intro s h
  unfold stepBody; split
  · exact h
  · exact h
  · exact h
  · split
    · exact h
    · exact beginStep_keeps (fun _ _ h => h) (fun _ _ h => h) (fun _ _ h => h) (fun e _ h => takeEngineChange_sound e h) _ h

theorem injectChannelBody_keeps (c : ChannelId) (v : Int) : BodyKeeps AwakeSound (injectChannelBody c v) := by
  intro s h; unfold injectChannelBody; simp only; split <;> exact h

theorem clearInjectBody_keeps (port : Port) (selection number : Byte) :
    BodyKeeps AwakeSound (clearInjectBody port selection number) := by
  unfold clearInjectBody; split
  · exact needRight_keeps (needHalted_keeps fun _ _ h => h)
  · exact needNumber_keeps fun _ => needRight_keeps (needHalted_keeps fun _ _ h => h)
  · exact needNumber_keeps fun _ => needRight_keeps (needHalted_keeps fun _ _ h => h)
  · exact fun _ h => h

/-- A check of an operand before the rest of a request. -/
theorem refusedUnless_keeps {c : Prop} [Decidable c] {reason : Reason} {body : Body} (hb : BodyKeeps AwakeSound body) :
    BodyKeeps AwakeSound fun s => if c then body s else refused s reason := by
  intro s h; simp only; split
  · exact hb s h
  · exact h

/-- A write to another table than PERMIT and GROUP. -/
theorem acceptWrite_keeps (table index : Byte) {f : ConfigStore → ConfigStore} (hf : ∀ c, (f c).permits = c.permits) :
    BodyKeeps AwakeSound (acceptWrite table index fun t => t.onConfig f) := fun s h =>
  onConfig_sound (onConfig_sound h (hf s.config)) rfl

theorem write_keeps {α : Type} {n : Nat} {port : Port} {index : Byte} {entry : Except FieldNo α} {body : Fin n → α → Body}
    (hb : ∀ i e, BodyKeeps AwakeSound (body i e)) :
    BodyKeeps AwakeSound (checkFields n index entry fun i e => needConfigure port (body i e)) :=
  checkFields_keeps fun i e _ => needConfigure_keeps fun s _ h => hb i e s h

theorem writePermitBody_keeps (index : Byte) (p : PermitId) (e : PermitEntry) :
    BodyKeeps AwakeSound (writePermitBody index p e) := by
  intro s h
  refine ⟨Eq.trans ?_ h.1, writePermitBody_sound index p e s h.2⟩
  unfold writePermitBody; split <;> rfl

theorem writeGroupBody_keeps (index : Byte) (g : GroupId) (e : GroupEntry) : BodyKeeps AwakeSound (writeGroupBody index g e) := by
  intro s h
  unfold writeGroupBody; split
  · exact h
  · exact ⟨h.1, tableSound_of_permits h.2 rfl⟩

theorem writeProfileBody_keeps (index : Byte) (i : Port) (e : Profile) : BodyKeeps AwakeSound (writeProfileBody index i e) := by
  intro s h
  unfold writeProfileBody; split
  · exact acceptWrite_keeps 5#8 index (fun _ => rfl) s h
  · exact h

/-! Resets. -/

/-- R143, R144: a reset leaves every permit empty. -/
theorem initialValues_empty (s : State) (p : PermitId) :
    (initialValues s).table.records[p].holders = [] ∧ (initialValues s).table.records[p].queue = [] := by
  have hinitial : (initialValues s).table.records[p] = PermitRecord.initial := get_replicate _ p
  rw [hinitial]; exact ⟨rfl, rfl⟩

/-- R124: the end of a reset keeps the records, and so leaves a table without holders and claims sound in TRIPPED too. -/
theorem endReset_sound {s : State} (hr : s.resetActive = false)
    (h : ∀ p : PermitId, s.table.records[p].holders = [] ∧ s.table.records[p].queue = []) : AwakeSound (endReset s) := by
  unfold endReset; simp only; split
  · exact ⟨hr, tableSound_of_empty (t := { s.table with trip := .tripped }) h _⟩
  · exact ⟨hr, tableSound_of_empty h _⟩

theorem powerOn_sound (s : State) : PermitsSound (if s.resetActive then initialValues s else endReset (initialValues s)) := by
  split
  · exact ⟨tableSound_of_empty (initialValues_empty s) _, fun _ => initialValues_empty s⟩
  · next hr =>
    exact (endReset_sound (s := initialValues s) (Bool.eq_false_iff.mpr hr) (initialValues_empty s)).permitsSound

theorem resetEnd_sound {s : State} (h : PermitsSound s) :
    PermitsSound (if s.resetActive then endReset { s with resetActive := false } else s) := by
  split
  · next hr => exact (endReset_sound (s := { s with resetActive := false }) rfl (h.2 hr)).permitsSound
  · exact h

theorem hardResetBody_keeps : BodyKeeps AwakeSound hardResetBody := fun s h => endReset_sound h.1 (initialValues_empty s)

theorem finishPasses_sound {s : State} (h : AwakeSound s) : AwakeSound (finishPasses s) :=
  fold_keeps (P := AwakeSound) (fun _ r h => applyFaultReport_sound r h) _ (drainPermit_sound h)

theorem tableSoftReset_empty (t : PermitTable) (p : PermitId) :
    (tableSoftReset t).records[p].holders = [] ∧ (tableSoftReset t).records[p].queue = [] := by
  have hrecord : (tableSoftReset t).records[p] = { t.records[p].emptied with condition := .unknown, mismatch := 0 } :=
    get_map _ t.records p
  rw [hrecord]; exact ⟨rfl, rfl⟩

theorem softResetBody_keeps (port : Port) : BodyKeeps AwakeSound (softResetBody port) := fun s h =>
  ⟨(finishPasses_sound h).1, tableSound_of_empty (tableSoftReset_empty (finishPasses s).table) _⟩

/-! Every command. -/

theorem exec_sound (c : Instr) {s : State} (h : PermitsSound s) : ∃ t, exec c s = .next t ∧ PermitsSound t := by
  cases c with
  | powerOn => exact ⟨_, rfl, powerOn_sound s⟩
  | resetNActive => exact ⟨_, rfl, tableSound_of_empty (initialValues_empty s) _, fun _ => initialValues_empty s⟩
  | resetEnd => exact ⟨_, rfl, resetEnd_sound h⟩
  | tripInActive => exact ⟨_, rfl, event_sound (s := { s with tripInActive := true }) (fun _ => causeArrives_sound _) h⟩
  | tripInInactive =>
    refine ⟨_, rfl, event_sound (s := { s with tripInActive := false }) (fun _ ht => ?_) h⟩
    exact ht
  | baseTick => exact ⟨_, rfl, event_sound (f := baseTick) (fun _ ht => ht) h⟩
  | sourceTick src => exact ⟨_, rfl, event_sound (fun _ => takeSourceTick_sound src) h⟩
  | tickAtPermitTable src => exact ⟨_, rfl, event_sound (fun _ => takePermitTickIf_sound _ src) h⟩
  | settleEnd g => exact ⟨_, rfl, event_sound (fun _ => takePermitTickIf_sound _ _) h⟩
  | late p port => exact ⟨_, rfl, event_sound (fun _ => takePermitTickIf_sound _ _) h⟩
  | leaseExpiryRelease p port => exact ⟨_, rfl, event_sound (fun _ => takePermitTickIf_sound _ _) h⟩
  | leaseExpiryLock p port => exact ⟨_, rfl, event_sound (fun _ => takePermitTickIf_sound _ _) h⟩
  | leaseExpiryTrip p port => exact ⟨_, rfl, event_sound (fun _ => takePermitTickIf_sound _ _) h⟩
  | waitExpired p port => exact ⟨_, rfl, event_sound (fun _ => takePermitTickIf_sound _ _) h⟩
  | tickAtTripUnit => exact ⟨_, rfl, event_sound (fun _ => takeTripTick_sound) h⟩
  | passDeadline =>
    refine ⟨_, rfl, event_sound (fun t ht => ?_) h⟩
    split
    · exact takeTripTick_sound ht
    · exact ht
  | runScanStart tick => exact ⟨_, rfl, event_sound (fun _ => takeTrigger_sound tick) h⟩
  | conversion ain => exact ⟨_, rfl, event_sound (fun _ => takeConversion_sound ain) h⟩
  | pass din pfb => exact ⟨_, rfl, event_sound (fun _ => takePass_sound din pfb) h⟩
  | passResult => exact ⟨_, rfl, event_sound (fun _ => takeOldestResult_sound) h⟩
  | faultReport => exact ⟨_, rfl, event_sound (fun _ => takeFaultReport_sound) h⟩
  | deadlineRestart => exact ⟨_, rfl, event_sound (fun _ => takeDeadlineRestart_sound) h⟩
  | passEndReport => exact ⟨_, rfl, event_sound (fun _ => takeReport_sound) h⟩
  | engineStateChange consumer =>
    refine ⟨_, rfl, event_sound (fun t ht => ?_) h⟩
    cases consumer with
    | permitTable => exact takeTableChange_sound ht
    | scanUnit => exact takeScanChange_sound ht
  | tripCauseArrival => exact ⟨_, rfl, event_sound (fun _ => takeTripCause_sound) h⟩
  | permitTripEntry => exact ⟨_, rfl, event_sound (fun _ => takeTripEntry_sound) h⟩
  | permitTripClearing => exact ⟨_, rfl, event_sound (fun _ => takeTripClearing_sound) h⟩
  | noticeArrival maker port => exact ⟨_, rfl, event_sound (fun _ => takeNotice_sound maker port) h⟩
  | status port kind part => exact ⟨_, rfl, takePart_sound port kind part h⟩
  | fetch port part => exact ⟨_, rfl, takePart_sound port _ part h⟩
  | frameError port part => exact ⟨_, rfl, takePart_sound port _ part h⟩
  | frameDiscarded port part => exact ⟨_, rfl, takePart_sound port _ part h⟩
  | readStatus port => exact ⟨_, rfl, serve_sound (read_keeps _) h⟩
  | readNotice port => exact ⟨_, rfl, serve_sound (readNoticeBody_keeps port) h⟩
  | readEntry port table index => exact ⟨_, rfl, serve_sound (readEntryBody_keeps table index) h⟩
  | readChannel port channel => exact ⟨_, rfl, serve_sound (needNumber_keeps fun _ => read_keeps _) h⟩
  | readLines port => exact ⟨_, rfl, serve_sound (read_keeps _) h⟩
  | readTerms port => exact ⟨_, rfl, serve_sound (read_keeps _) h⟩
  | readPermit port permit => exact ⟨_, rfl, serve_sound (needNumber_keeps fun _ => read_keeps _) h⟩
  | readTrip port => exact ⟨_, rfl, serve_sound (read_keeps _) h⟩
  | readHaltRecord port => exact ⟨_, rfl, serve_sound (read_keeps _) h⟩
  | claim port permit priority wait epoch =>
    exact ⟨_, rfl, serve_sound (claimBody_keeps port permit priority wait epoch) h⟩
  | release port permit => exact ⟨_, rfl, serve_sound (needNumber_keeps (releaseBody_keeps port)) h⟩
  | refresh port permit => exact ⟨_, rfl, serve_sound (needNumber_keeps (refreshBody_keeps port)) h⟩
  | refreshAll port => exact ⟨_, rfl, serve_sound (refreshAllBody_keeps port) h⟩
  | revoke port permit =>
    exact ⟨_, rfl, serve_sound (needNumber_keeps fun p => needRight_keeps (revokeBody_keeps p)) h⟩
  | unlock port permit =>
    exact ⟨_, rfl, serve_sound (needNumber_keeps fun p => needRight_keeps (unlockBody_keeps p)) h⟩
  | trip port => exact ⟨_, rfl, serve_sound (fun _ => causeArrives_sound _) h⟩
  | clearTrip port => exact ⟨_, rfl, serve_sound (needRight_keeps clearTripBody_keeps) h⟩
  | halt port => exact ⟨_, rfl, serve_sound (needRight_keeps (haltBody_keeps port)) h⟩
  | resume port => exact ⟨_, rfl, serve_sound (needRight_keeps resumeBody_keeps) h⟩
  | step port => exact ⟨_, rfl, request_sound (fun live => needRight_keeps (stepBody_keeps port live)) h⟩
  | injectChannel port channel reading =>
    exact ⟨_, rfl, serve_sound (needNumber_keeps fun c => refusedUnless_keeps (needRight_keeps
      (needHalted_keeps fun t _ ht => injectChannelBody_keeps c _ t ht))) h⟩
  | injectLine port line level =>
    exact ⟨_, rfl, serve_sound (needNumber_keeps fun _ => refusedUnless_keeps (needRight_keeps
      (needHalted_keeps fun _ _ ht => ht))) h⟩
  | clearInject port selection number => exact ⟨_, rfl, serve_sound (clearInjectBody_keeps port selection number) h⟩
  | clearHaltRecord port => exact ⟨_, rfl, serve_sound (needRight_keeps (needHalted_keeps fun _ _ ht => ht)) h⟩
  | softReset port => exact ⟨_, rfl, serve_sound (needRight_keeps (softResetBody_keeps port)) h⟩
  | hardReset port => exact ⟨_, rfl, serve_sound (needRight_keeps hardResetBody_keeps) h⟩
  | writeChannelEntry port =>
    refine ⟨_, rfl, serve_sound (write_keeps fun _ _ => ?_) h⟩
    exact acceptWrite_keeps _ _ fun _ => rfl
  | writeLineEntry port =>
    refine ⟨_, rfl, serve_sound (write_keeps fun _ _ => ?_) h⟩
    exact acceptWrite_keeps _ _ fun _ => rfl
  | writeTermEntry port =>
    refine ⟨_, rfl, serve_sound (write_keeps fun _ _ => ?_) h⟩
    exact acceptWrite_keeps _ _ fun _ => rfl
  | writePermitEntry port => exact ⟨_, rfl, serve_sound (write_keeps fun p e => writePermitBody_keeps _ p e) h⟩
  | writeGroupEntry port => exact ⟨_, rfl, serve_sound (write_keeps fun g e => writeGroupBody_keeps _ g e) h⟩
  | writeProfileEntry port => exact ⟨_, rfl, serve_sound (write_keeps fun i e => writeProfileBody_keeps _ i e) h⟩
  | writeTickEntry port =>
    refine ⟨_, rfl, serve_sound (write_keeps fun _ _ => ?_) h⟩
    exact acceptWrite_keeps _ _ fun _ => rfl
  | writeEngineEntry port =>
    refine ⟨_, rfl, serve_sound (write_keeps fun _ _ => ?_) h⟩
    exact acceptWrite_keeps _ _ fun _ => rfl
  | writeWatchEntry port =>
    exact ⟨_, rfl, serve_sound (checkFields_keeps fun _ _ _ => needRight_keeps fun _ ht => ht) h⟩

/-- Settles O58: the front command, or the reference period of an empty queue, keeps the permit table sound. -/
theorem stepsKeepThePermitTableSound : Obligations.StepsKeepThePermitTableSound := by
  unfold Obligations.StepsKeepThePermitTableSound
  intro s t hgroups hrecords htripped hreset hstep
  have h : PermitsSound s := ⟨⟨hgroups, hrecords, htripped⟩, hreset⟩
  obtain ⟨t', ht', hsound⟩ : ∃ t', step s = .next t' ∧ PermitsSound t' := by
    unfold step; split
    · exact ⟨_, rfl, event_sound (fun _ => referencePeriod_sound) h⟩
    · exact exec_sound _ h
  cases hstep.symm.trans ht'
  obtain ⟨⟨hgroups, hrecords, htripped⟩, hreset⟩ := hsound
  exact ⟨hgroups, hrecords, htripped, hreset⟩

end Sys2Proof.Proofs
end

section
/-! SUPPORT. What a permit's state, its eligibility and its commanded level are in the terms of R47, R48 and R57, and the answer of
READ_PERMIT (R64, R175). -/

namespace Sys2Proof.Proofs

open Sys2Proof Sys2Proof.Machine Sys2Proof.Laws

section Permit

variable (c : ConfigStore) (t : PermitTable) (p : PermitId)

/-- R47(5), R48(4): another member of the permit's group has a holder. -/
def GroupHeld : Prop := ∃ (g : GroupId) (q : PermitId), c.permits[p].group = some g ∧ q ≠ p ∧ c.permits[q].group = some g ∧
  t.records[q].holders ≠ []

/-- R47(5), R48(5): the permit's group settles. -/
def GroupSettling : Prop := ∃ g : GroupId, c.permits[p].group = some g ∧ 0 < t.settle[g]

variable {c t p}

theorem otherMemberHeld_iff {g : GroupId} : otherMemberHeld c t g p = true ↔
    ∃ q : PermitId, q ≠ p ∧ c.permits[q].group = some g ∧ t.records[q].holders ≠ [] := by
  simp only [otherMemberHeld, isMember, List.any_eq_true, mem_allPermits, Bool.and_eq_true, Bool.not_eq_true',
    decide_eq_true_eq, List.isEmpty_eq_false_iff, true_and, and_assoc]

theorem groupHeld_iff {g : GroupId} (hg : c.permits[p].group = some g) : GroupHeld c t p ↔ otherMemberHeld c t g p = true := by
  rw [otherMemberHeld_iff, GroupHeld]
  constructor
  · rintro ⟨g', q, hg', hq⟩
    cases hg.symm.trans hg'
    exact ⟨q, hq⟩
  · rintro ⟨q, hq⟩
    exact ⟨g, q, hg, hq⟩

theorem groupSettling_iff {g : GroupId} (hg : c.permits[p].group = some g) : GroupSettling c t p ↔ t.settle[g] ≠ 0 := by
  rw [← Nat.pos_iff_ne_zero]
  constructor
  · rintro ⟨g', hg', hs⟩
    cases hg.symm.trans hg'
    exact hs
  · exact fun hs => ⟨g, hg, hs⟩

/-- R47(5): the group admits the permit, if it has one. -/
theorem groupAdmits_iff : groupAdmits c t p = true ↔ ¬ GroupHeld c t p ∧ ¬ GroupSettling c t p := by
  unfold groupAdmits
  cases hg : c.permits[p].group with
  | none => simp only [GroupHeld, GroupSettling, hg, reduceCtorEq, false_and, exists_false, not_false_eq_true, and_self]
  | some g =>
    simp only [groupHeld_iff hg, groupSettling_iff hg, Bool.and_eq_true, Bool.not_eq_true', decide_eq_true_eq,
      Bool.not_eq_true, ne_eq, not_not]

/-- R47. -/
theorem eligible_iff : eligible c t p = true ↔ (c.permits[p].enabled = true ∧ t.records[p].lock = false) ∧
    t.engine = .running ∧ t.trip = .normal ∧ t.records[p].condition = .met ∧ ¬ GroupHeld c t p ∧ ¬ GroupSettling c t p := by
  simp only [eligible, Bool.and_eq_true, Bool.not_eq_true', decide_eq_true_eq, groupAdmits_iff, and_assoc]

/-! The lines of R48, each below those before it. -/

theorem permitState_disabled (h : c.permits[p].enabled = false) : permitState c t p = .disabled := by
  simp only [permitState, h, Bool.not_false, if_true]

theorem permitState_locked (he : c.permits[p].enabled = true) (hl : t.records[p].lock = true) :
    permitState c t p = .locked := by
  simp only [permitState, he, hl, Bool.not_true, Bool.false_eq_true, if_false, if_true]

/-- R48: an enabled permit without lock mark and holders is READY or BLOCKED. -/
theorem permitState_unheld (he : c.permits[p].enabled = true) (hl : t.records[p].lock = false)
    (hh : t.records[p].holders = []) :
    permitState c t p = if eligible c t p then .ready else .blocked (blockReason c t p) := by
  simp only [permitState, he, hl, hh, Bool.not_true, Bool.false_eq_true, if_false, List.isEmpty_nil]

/-! The reasons of R48, each below those before it. -/

theorem blockReason_tripped (h : t.trip = .tripped) : blockReason c t p = .tripped := by
  simp only [blockReason, h, if_true]

theorem blockReason_engine (ht : t.trip = .normal) (h : t.engine ≠ .running) : blockReason c t p = .engine := by
  simp only [blockReason, ht, reduceCtorEq, if_false, h, ne_eq, not_false_eq_true, if_true]

theorem blockReason_condition (ht : t.trip = .normal) (he : t.engine = .running) (h : t.records[p].condition ≠ .met) :
    blockReason c t p = .condition := by
  simp only [blockReason, ht, he, reduceCtorEq, if_false, ne_eq, not_true_eq_false, h, not_false_eq_true, if_true]

/-- R48: with nothing else in its way a permit is blocked by its group. -/
theorem blockReason_group {g : GroupId} (ht : t.trip = .normal) (he : t.engine = .running)
    (hc : t.records[p].condition = .met) (hg : c.permits[p].group = some g) :
    blockReason c t p = if otherMemberHeld c t g p then .groupHeld else .groupSettling := by
  simp only [blockReason, ht, he, hc, hg, reduceCtorEq, if_false, ne_eq, not_true_eq_false]

theorem blockReason_groupHeld (ht : t.trip = .normal) (he : t.engine = .running) (hc : t.records[p].condition = .met)
    (h : GroupHeld c t p) : blockReason c t p = .groupHeld := by
  obtain ⟨g, _, hg, _⟩ := id h
  rw [blockReason_group ht he hc hg, if_pos ((groupHeld_iff hg).mp h)]

theorem blockReason_groupSettling (ht : t.trip = .normal) (he : t.engine = .running) (hc : t.records[p].condition = .met)
    (hn : ¬ GroupHeld c t p) (h : GroupSettling c t p) : blockReason c t p = .groupSettling := by
  obtain ⟨g, hg, _⟩ := h
  rw [blockReason_group ht he hc hg, if_neg ((groupHeld_iff hg).not.mp hn)]

/-- R57. -/
theorem commanded_iff : commanded c t p = true ↔ t.engine = .running ∧ t.trip = .normal ∧ permitState c t p = .held ∧
    t.records[p].condition = .met := by
  simp only [commanded, Bool.and_eq_true, decide_eq_true_eq, and_assoc]

end Permit

theorem trip_normal_of_not_tripped {x : TripState} (h : x ≠ .tripped) : x = .normal := by
  cases x with
  | normal => rfl
  | tripped => exact absurd rfl h

/-! The answer (R64, R175). -/

section Answer

variable {port : Port} {b : Byte} {s u : State} {live : Bool}

theorem exec_readPermit_beyond (h : takeRequest port (.readPermit port b) 1 s = some (u, live)) (hb : 16 ≤ b.toNat) :
    exec (.readPermit port b) s = .next (answerIn port 0x07#8 live ⟨.refused, [0x01#8]⟩ u) :=
  exec_of_read rfl h (needNumber_beyond hb _ u)

theorem exec_readPermit {p : PermitId} (h : takeRequest port (.readPermit port b) 1 s = some (u, live)) (hp : b.toNat = p.val) :
    exec (.readPermit port b) s = .next (answerIn port 0x07#8 live ⟨.ok, permitPayload p u⟩ u) :=
  exec_of_read rfl h (needNumber_of hp _ u)

end Answer

/-- R64: the group's number with its settle counter, FFH and 0 without a group. -/
theorem groupBytes_eq (s : State) (p : PermitId) :
    (groupByte s.config.permits[p].group, numByte (settleRemaining s p)) =
      match s.config.permits[p].group with
      | none => (0xFF#8, 0#8)
      | some g => (BitVec.ofNat 8 g.val, BitVec.ofNat 8 s.table.settle[g]) := by
  unfold settleRemaining groupByte
  cases s.config.permits[p].group <;> rfl

/-- Settles O15: the state goes down the lines of R48, and the answer is the record's bytes. -/
theorem readPermitReportsTheRecord : Obligations.ReadPermitReportsTheRecord := by
  unfold Obligations.ReadPermitReportsTheRecord
  refine ⟨fun c t p => ?_, fun port b s u live h => ⟨exec_readPermit_beyond h, ?_⟩⟩
  · intro e r groupHeld groupSettling ready state
    have hready : eligible c t p = true ↔ ready := eligible_iff
    refine ⟨hready, ?_, commanded_iff⟩
    split_ifs with he hl hh hok ht hrun hc hheld
    · exact permitState_disabled he
    all_goals have henabled : e.enabled = true := Bool.eq_true_of_not_eq_false he
    · exact permitState_locked henabled hl
    all_goals have hunlocked : r.lock = false := Bool.eq_false_of_not_eq_true hl
    · exact (permitState_held c t p).mpr ⟨henabled, hunlocked, hh⟩
    all_goals
      have hunheld : state = if eligible c t p then .ready else .blocked (blockReason c t p) :=
        permitState_unheld henabled hunlocked (not_not.mp hh)
    · rw [hunheld, if_pos (hready.mpr hok)]
    all_goals rw [hunheld, if_neg (hready.not.mpr hok)]
    · rw [blockReason_tripped ht]
    all_goals have hnormal := trip_normal_of_not_tripped ht
    · rw [blockReason_engine hnormal hrun]
    · rw [blockReason_condition hnormal (not_not.mp hrun) hc]
    · rw [blockReason_groupHeld hnormal (not_not.mp hrun) (not_not.mp hc) hheld]
    · have hsettling : groupSettling := not_not.mp fun hn =>
        hok ⟨⟨henabled, hunlocked⟩, not_not.mp hrun, hnormal, not_not.mp hc, hheld, hn⟩
      rw [blockReason_groupSettling hnormal (not_not.mp hrun) (not_not.mp hc) hheld hsettling]
      exact ⟨hsettling, rfl⟩
  · intro p hp r st condition group stage wait
    have hstate : (permitState u.config u.table p).bytes = [st.1, st.2] := by
      simp only [st]
      rcases permitState u.config u.table p with _ | (_ | _ | _ | _ | _) | _ | _ | _ <;> rfl
    have hgroup : (groupByte u.config.permits[p].group, numByte (settleRemaining u p)) = group := groupBytes_eq u p
    rw [exec_readPermit h hp, permitPayload, hstate, byte_eq hp, ← hgroup]
    rfl

end Sys2Proof.Proofs
end

section
/-! SUPPORT. Engine changes, trip entry and trip clearing at the permit table (R58, R60, R61, R65), and the requests REVOKE and UNLOCK (R62,
R63). -/

namespace Sys2Proof.Proofs

open Sys2Proof Sys2Proof.Machine Sys2Proof.Laws

/-- A permit table in its parts, of which the settle counters stand as they are. -/
theorem table_eq_of {t : PermitTable} {records : Vector PermitRecord 16} {engine : EngineState} {trip : TripState}
    (hr : t.records = records) (he : t.engine = engine) (ht : t.trip = trip) : t = ⟨records, t.settle, engine, trip⟩ := by
  subst hr he ht; rfl

/-! Engine changes (R58, R65, R126). -/

/-- R65: the oldest change on its way stands behind pass results alone. -/
theorem firstEngineChange_iff (l : List PermitArrival) (e : EngineState) (rest : List PermitArrival) :
    firstEngineChange l = some (e, rest) ↔ ∃ before after, l = before ++ .engineChange e :: after ∧ rest = before ++ after ∧
      ∀ a ∈ before, ∃ r, a = .passResult r := by
  induction l generalizing rest with
  | nil => simp [firstEngineChange]
  | cons a l ih =>
    cases a with
    | engineChange e' =>
      constructor
      · intro h
        cases h
        exact ⟨[], _, rfl, rfl, nofun⟩
      · rintro ⟨before, after, hl, rfl, hbefore⟩
        cases before with
        | nil => cases hl; rfl
        | cons b before =>
          cases hl
          exact absurd (hbefore _ List.mem_cons_self) nofun
    | passResult r =>
      simp only [firstEngineChange, Option.map_eq_some_iff, Prod.mk.injEq, Prod.exists]
      constructor
      · rintro ⟨e', rest', h, rfl, rfl⟩
        obtain ⟨before, after, rfl, rfl, hbefore⟩ := (ih rest').mp h
        exact ⟨.passResult r :: before, after, rfl, rfl, List.forall_mem_cons.mpr ⟨⟨r, rfl⟩, hbefore⟩⟩
      · rintro ⟨before, after, hl, rfl, hbefore⟩
        cases before with
        | nil => cases hl
        | cons b before =>
          cases hl
          exact ⟨e, _, (ih _).mpr ⟨before, after, rfl, rfl, (List.forall_mem_cons.mp hbefore).2⟩, rfl, rfl⟩

section EngineChanges

variable {s : State} {e : EngineState}

theorem exec_scanChange {rest : List EngineState} (hr : s.resetActive = false) (h : s.flight.toScan = e :: rest) :
    exec (.engineStateChange .scanUnit) s = .next { s with
      scan := { s.scan with engine := e }, flight := { s.flight with toScan := rest } } := by
  refine congrArg _ ((unlessReset_inactive hr _).trans ?_)
  simp only [takeScanChange, h]; rfl

theorem exec_tableChange {rest : List PermitArrival} (hr : s.resetActive = false)
    (h : firstEngineChange s.flight.toPermit = some (e, rest)) : exec (.engineStateChange .permitTable) s =
      .next (takeEngineChange e (s.onFlight fun f => { f with toPermit := rest })) := by
  refine congrArg _ ((unlessReset_inactive hr _).trans ?_)
  simp only [takeTableChange, h]

/-- R65: a pass result behind a change of engine state waits. -/
theorem exec_passResult_behind {rest : List PermitArrival} (hr : s.resetActive = false)
    (h : s.flight.toPermit = .engineChange e :: rest) : exec .passResult s = .next s := by
  refine congrArg _ ((unlessReset_inactive hr _).trans ?_)
  simp only [takeOldestResult, h]

end EngineChanges

/-- Settles O30: each consumer takes its oldest change, which at the permit table is found behind pass results alone. -/
theorem engineChangesReachTheirConsumers : Obligations.EngineChangesReachTheirConsumers := by
  unfold Obligations.EngineChangesReachTheirConsumers
  refine ⟨firstEngineChange_iff, fun s hr => ⟨fun e rest h => exec_scanChange hr h, ?_,
    fun e rest h => exec_passResult_behind hr h⟩⟩
  intro e rest h u
  rw [exec_tableChange hr h, takeEngineChange_eq]
  refine ⟨fun he => ?_, fun he => ?_⟩
  · rw [if_neg he]; rfl
  · rw [if_pos he]; rfl

/-! Trip entry and trip clearing (R60, R61). -/

/-- R60: the emptying of the permits, taken as a work without notices and causes. -/
def emptyWork (c : ConfigStore) (w : TableWork) (p : PermitId) : TableWork := { w with table := emptyPermit c w.table p }

theorem emptyWork_local (c : ConfigStore) :
    LocalStep (emptyWork c) (fun _ r => r.emptied) (fun _ _ => []) (fun _ _ => []) where
  records w p := (changeRecord_records c p _ w.table).1
  engine w p := (changeRecord_records c p _ w.table).2.1
  trip w p := (changeRecord_records c p _ w.table).2.2
  made _ _ := (List.append_nil _).symm
  causes _ _ := (List.append_nil _).symm

theorem emptyWork_table (c : ConfigStore) (l : List PermitId) (w : TableWork) :
    (l.foldl (emptyWork c) w).table = l.foldl (emptyPermit c) w.table := by
  induction l generalizing w with
  | nil => rfl
  | cons p l ih => exact ih _

/-- R55, R60: at trip entry the groups that had a member with a holder start settling, and no others. -/
theorem tableTripEntry_settle (c : ConfigStore) (t : PermitTable) (g : GroupId) :
    ((∃ p : PermitId, c.permits[p].group = some g ∧ t.records[p].holders ≠ []) →
      (tableTripEntry c t).settle[g] = c.groups[g].settle) ∧
    ((∀ p : PermitId, c.permits[p].group = some g → t.records[p].holders = []) →
      (tableTripEntry c t).settle[g] = t.settle[g]) := by
  obtain ⟨hstart, hkeep⟩ := settleFold c (emptyWork_local c) (fun _ _ => rfl) allPermits nodup_allPermits
    (.start { t with trip := .tripped }) g
  rw [emptyWork_table] at hstart hkeep
  refine ⟨?_, fun hempty => hkeep fun p _ hp hheld => absurd (hempty p hp) hheld⟩
  rintro ⟨p, hp, hheld⟩
  exact hstart ⟨p, mem_allPermits p, hp, hheld, rfl⟩

section TripDeliveries

variable {s : State} {rest : List TripDelivery}

theorem exec_permitTripEntry (hr : s.resetActive = false) (h : s.flight.tripDeliveries = .entry :: rest) :
    exec .permitTripEntry s = .next { s with
      table := tableTripEntry s.config s.table, flight := { s.flight with tripDeliveries := rest } } := by
  refine congrArg _ ((unlessReset_inactive hr _).trans ?_)
  simp only [takeTripEntry, h, State.onTable, State.onFlight]

theorem exec_permitTripClearing (hr : s.resetActive = false) (h : s.flight.tripDeliveries = .clearing :: rest) :
    exec .permitTripClearing s = .next { s with
      table := { s.table with trip := .normal }, flight := { s.flight with tripDeliveries := rest } } := by
  refine congrArg _ ((unlessReset_inactive hr _).trans ?_)
  simp only [takeTripClearing, h, State.onTable, State.onFlight, tableTripClearing]

end TripDeliveries

/-- Settles O31: trip entry is a fold that empties each record, with the settling of its departures. -/
theorem tripEntryEmptiesEveryPermit : Obligations.TripEntryEmptiesEveryPermit := by
  unfold Obligations.TripEntryEmptiesEveryPermit
  refine fun s hr => ⟨fun rest h => ?_, fun rest h => exec_permitTripClearing hr h⟩
  obtain ⟨htrip, hengine, hrecords⟩ := tableTripEntry_spec s.config s.table
  have hsettle := tableTripEntry_settle s.config s.table
  rw [exec_permitTripEntry hr h]
  generalize tableTripEntry s.config s.table = t at *
  exact ⟨_, rfl, rfl, table_eq_of rfl hengine htrip, hrecords, hsettle⟩

/-! REVOKE and UNLOCK (R62, R63, R149). -/

section Requests

variable {port : Port} {c : Instr} {echo : Byte} {n : Nat} {s u t : State} {live : Bool}

/-- A request whose body answers places the answer on the part that the body leaves. -/
theorem exec_of_answer {body : Body} {r : Reply} (hx : exec c s = .next (serve port c echo n body s))
    (h : takeRequest port c n s = some (u, live)) (hb : body u = (t, some r)) :
    exec c s = .next (answerIn port echo live r t) := by
  rw [hx, serve_taken h, perform_answers hb]

/-- R62, R63, R149: the number is checked before the right CLEAR. -/
theorem needClear_lacking {permit : Byte} (hp : permit.toNat < 16) (hc : u.config.profilesInUse[port].clear = false)
    (body : PermitId → Body) : needNumber 16 permit (fun p => needRight Profile.clear port (body p)) u =
      (u, some ⟨.refused, [0x02#8]⟩) := by
  rw [needNumber_of (i := ⟨permit.toNat, hp⟩) rfl, needRight_lacking hc]

theorem needClear_held {permit : Byte} {p : PermitId} (hp : permit.toNat = p.val)
    (hc : u.config.profilesInUse[port].clear = true) (body : PermitId → Body) :
    needNumber 16 permit (fun p => needRight Profile.clear port (body p)) u = body p u := by
  rw [needNumber_of hp, needRight_held hc]

end Requests

theorem changeRecord_eq (c : ConfigStore) (p : PermitId) (r : PermitRecord) (t : PermitTable) :
    changeRecord c p r t = { t with records := t.records.set p r, settle := (changeRecord c p r t).settle } := by
  obtain ⟨hrecords, hengine, htrip⟩ := changeRecord_records c p r t
  exact table_eq_of hrecords hengine htrip

/-- R62: UNLOCK of a LOCKED permit. -/
theorem unlockBody_locked {u : State} {p : PermitId} (h : permitState u.config u.table p = .locked) :
    let t := commitWork u.eval.passCount
      (grantExamination u.config (.start (u.table.setRecord p { u.table.records[p] with lock := false }))) u
    unlockBody p u = (t, some ⟨.ok, (permitState t.config t.table p).bytes⟩) := by
  simp only [unlockBody, h, if_true, okReply]

/-- R62: UNLOCK of any other permit. -/
theorem unlockBody_unlocked {u : State} {p : PermitId} (h : permitState u.config u.table p ≠ .locked) :
    unlockBody p u = (u, some ⟨.ok, (permitState u.config u.table p).bytes⟩) := by
  simp only [unlockBody, h, if_false, okReply]

/-- Settles O39: after the two checks REVOKE is one departure and UNLOCK one record without its mark. -/
theorem revokeEmptiesAndUnlockClears : Obligations.RevokeEmptiesAndUnlockClears := by
  unfold Obligations.RevokeEmptiesAndUnlockClears
  intro port permit s u live
  constructor
  · intro h answers
    refine ⟨fun hp => exec_of_answer rfl h (needNumber_beyond hp _ u),
      fun hp hc => exec_of_answer rfl h (needClear_lacking hp hc _), ?_⟩
    intro p hp hc r
    refine ⟨changeRecord u.config p r.emptied u.table, exec_of_answer rfl h (needClear_held hp hc _),
      changeRecord_eq .., fun g => ?_⟩
    have hsettle := changeRecord_settle u.config p r.emptied u.table g
    refine ⟨fun ⟨hg, hheld⟩ => ?_, fun hkeep => ?_⟩
    · rw [hsettle, if_pos ⟨hg, hheld, rfl⟩]
    · rw [hsettle, if_neg fun ⟨hg, hheld, _⟩ => hkeep ⟨hg, hheld⟩]
  · intro h st answers
    refine ⟨fun hp => exec_of_answer rfl h (needNumber_beyond hp _ u),
      fun hp hc => exec_of_answer rfl h (needClear_lacking hp hc _), ?_⟩
    intro p hp hc
    have hst : ∀ x : PermitState, x.bytes = st x := by
      rintro (_ | (_ | _ | _ | _ | _) | _ | _ | _) <;> rfl
    simp only [answers, ← hst]
    exact ⟨fun hl => exec_of_answer rfl h ((needClear_held hp hc _).trans (unlockBody_unlocked hl)),
      fun hl => exec_of_answer rfl h ((needClear_held hp hc _).trans (unlockBody_locked hl))⟩

end Sys2Proof.Proofs
end

section
/-! SUPPORT. A pass result at the permit table (R46, R50 to R53): the work of its losses before grant examination, and what the examination
keeps of it. -/

namespace Sys2Proof.Proofs

open Sys2Proof Sys2Proof.Machine Sys2Proof.Laws

/-- What some of a list's members contribute is what those members contribute. -/
theorem flatMap_if {α β : Type} (f : α → Bool) (g : α → List β) (l : List α) :
    (l.flatMap fun a => if f a then g a else []) = (l.filter f).flatMap g := by
  induction l with
  | nil => rfl
  | cons a l ih => cases h : f a <;> simp [h, ih]

theorem exec_passResult {r : PassResult} {rest : List PermitArrival} {s : State} (hr : s.resetActive = false)
    (h : s.flight.toPermit = .passResult r :: rest) : exec .passResult s =
      .next (commitWork r.count (tablePassResult s.config r s.table)
        { s with flight := { s.flight with toPermit := rest } }) := by
  refine congrArg _ ((unlessReset_inactive hr _).trans ?_)
  simp only [takeOldestResult, h]; rfl

/-! The losses (R51, R52). -/

theorem lossNotices_eq (x : LossAction) (p : PermitId) (r : PermitRecord) : lossNotices x p r =
    r.holders.map (fun h => (h.port, .revoked p .condition)) ++
      if decide (x = .lock) then r.queue.map (fun y => (y.port, .waitEnded p .lock)) else [] := by
  cases x <;> rfl

theorem afterLoss_eq (x : LossAction) (r : PermitRecord) : r.afterLoss x = { r with
    holders := []
    queue := if decide (x = .lock) then [] else r.queue
    lock := r.lock || decide (x = .lock) } := by
  cases x with
  | drop => simp only [PermitRecord.afterLoss, reduceCtorEq, decide_false, Bool.false_eq_true, if_false, Bool.or_false]
  | lock => simp only [PermitRecord.afterLoss, decide_true, if_true, Bool.or_true]

/-- R50 to R52: a record after the losses, field by field. -/
theorem recordAfterPass_eq (c : ConfigStore) (r : PassResult) (p : PermitId) (x : PermitRecord) :
    let lost := lostAt c r p x
    let locks := decide (c.permits[p].loss = .lock)
    recordAfterPass c r p x = { x with
      condition := conditionAfter r p x
      mismatch := mismatchAfter c r p x
      holders := if lost then [] else x.holders
      queue := if lost && locks then [] else x.queue
      lock := x.lock || (lost && locks) } := by
  intro lost locks
  unfold recordAfterPass
  cases hlost : lost with
  | false => simp only [show lostAt c r p x = false from hlost, Bool.false_eq_true, if_false, Bool.false_and, Bool.or_false]
  | true => simp only [show lostAt c r p x = true from hlost, if_true, Bool.true_and, afterLoss_eq, locks]

/-- Settles O28: the work is that of `tablePassResult_full`, each record of which is `recordAfterPass`. -/
theorem falseConditionsEndHoldings : Obligations.FalseConditionsEndHoldings := by
  unfold Obligations.FalseConditionsEndHoldings
  intro r rest s hr h before condition lost locks
  obtain ⟨w, hw, hengine, htrip, hrecords, hsettle, hmade, _⟩ := tablePassResult_full s.config r s.table
  refine ⟨w, ?_, fun hne => grantExamination_notRunning _ w (hengine ▸ hne), table_eq_of rfl hengine htrip, ?_, fun p => ?_,
    fun g ⟨p, hlost, hg⟩ => (hsettle g).1 ⟨p, hg, hlost⟩, fun g hkeep => (hsettle g).2 fun p hg => ?_⟩
  · rw [exec_passResult hr h, hw]
  · simp only [hmade, flatMap_if, lossNotices_eq]; rfl
  · rw [hrecords, recordAfterPass_eq]; rfl
  · exact Bool.eq_false_iff.mpr fun hlost => hkeep p hlost hg

/-! Conditions and the readback check (R46, R53). -/

/-- Grants change a record in its holders and its queue alone. -/
theorem grants_keep_condition_mismatch {c : ConfigStore} {t t' : PermitTable} (h : GrantsOnly c t t') (p : PermitId) :
    t'.records[p].condition = t.records[p].condition ∧ t'.records[p].mismatch = t.records[p].mismatch := by
  obtain ⟨k, hk, _⟩ := h.records p
  rw [hk]; exact ⟨rfl, rfl⟩

/-- R46, R53: what a pass result leaves of a permit's condition and mismatch count, its losses and grants included. -/
theorem tablePassResult_condition_mismatch (c : ConfigStore) (r : PassResult) (t : PermitTable) (p : PermitId) :
    (tablePassResult c r t).table.records[p].condition = conditionAfter r p t.records[p] ∧
    (tablePassResult c r t).table.records[p].mismatch = mismatchAfter c r p t.records[p] := by
  obtain ⟨w, hw, _, _, hrecords, _⟩ := tablePassResult_full c r t
  obtain ⟨hcondition, hmismatch⟩ := grants_keep_condition_mismatch (grantExamination_grants c w) p
  rw [hw, hcondition, hmismatch, hrecords, recordAfterPass_eq]
  exact ⟨rfl, rfl⟩

/-- R53: the causes of a pass result are those of the enabled permits with readback check on that disagree and stand at 2. -/
theorem tablePassResult_causes (c : ConfigStore) (r : PassResult) (t : PermitTable) : (tablePassResult c r t).causes =
    (allPermits.filter fun p => c.permits[p].enabled && c.permits[p].readback && !pairAgrees r p &&
      decide (mismatchAfter c r p t.records[p] = 2)).map .lineFeedback := by
  obtain ⟨w, hw, _, _, _, _, _, hcauses⟩ := tablePassResult_full c r t
  obtain ⟨hkept, _⟩ := grantExamination_extends c w
  rw [hw, hkept, hcauses, flatMap_if]
  exact List.flatMap_pure_eq_map _ _

theorem tablePassResult_rest (c : ConfigStore) (r : PassResult) (t : PermitTable) :
    (tablePassResult c r t).table.engine = t.engine ∧ (tablePassResult c r t).table.trip = t.trip := by
  obtain ⟨w, hw, hengine, htrip, _⟩ := tablePassResult_full c r t
  have hgrants := grantExamination_grants c w
  rw [hw]
  exact ⟨hgrants.engine.trans hengine, hgrants.trip.trans htrip⟩

section Readback

variable {c : ConfigStore} {r : PassResult} {p : PermitId} {x : PermitRecord}

theorem pairAgrees_eq (r : PassResult) (p : PermitId) :
    pairAgrees r p = decide (r.sampled.getLsbD p = r.commanded.getLsbD p) := beq_eq_decide _ _

theorem conditionAfter_none (h : r.conditions[p] = none) : conditionAfter r p x = x.condition := by
  simp only [conditionAfter, h, Option.elim]

theorem conditionAfter_some {b : Bool} (h : r.conditions[p] = some b) :
    conditionAfter r p x = if b then .met else .notMet := by
  simp only [conditionAfter, h, Option.elim]

theorem mismatchAfter_uncompared (h : (c.permits[p].enabled && c.permits[p].readback) = false) :
    mismatchAfter c r p x = x.mismatch := by
  simp only [mismatchAfter, h, Bool.false_eq_true, if_false]

theorem mismatchAfter_compared (h : (c.permits[p].enabled && c.permits[p].readback) = true) :
    mismatchAfter c r p x = nextMismatch (pairAgrees r p) x.mismatch := by
  simp only [mismatchAfter, h, if_true]

theorem nextMismatch_agrees (n : Nat) : nextMismatch true n = 0 := rfl

theorem nextMismatch_counts {n : Nat} (h : n < 2) : nextMismatch false n = n + 1 := by
  simp only [nextMismatch, Bool.false_eq_true, if_false, h, if_true]

theorem nextMismatch_full : nextMismatch false 2 = 2 := rfl

end Readback

/-- Settles O27: the losses and the grants keep what steps 1 and 2 of R50 set. -/
theorem passResultsRecordConditionsAndReadback : Obligations.PassResultsRecordConditionsAndReadback := by
  unfold Obligations.PassResultsRecordConditionsAndReadback
  intro r rest s hr h compared agrees
  have hrecord := tablePassResult_condition_mismatch s.config r s.table
  have hcauses := tablePassResult_causes s.config r s.table
  obtain ⟨hengine, htrip⟩ := tablePassResult_rest s.config r s.table
  rw [exec_passResult hr h]
  generalize tablePassResult s.config r s.table = w at *
  refine ⟨_, rfl, rfl, table_eq_of rfl hengine htrip, ?_, fun p => ?_⟩
  · rw [commitWork_eq]
    simp only [hcauses, pairAgrees_eq, ← (hrecord _).2]
    rfl
  · obtain ⟨hcondition, hmismatch⟩ := hrecord p
    have hagrees : pairAgrees r p = agrees p := pairAgrees_eq r p
    change (_ → w.table.records[p].condition = _) ∧ (∀ b, _ → w.table.records[p].condition = _) ∧
      (_ → w.table.records[p].mismatch = _) ∧ (_ → _ → w.table.records[p].mismatch = 0) ∧
      (_ → _ → _ → w.table.records[p].mismatch = _) ∧ (_ → _ → _ → w.table.records[p].mismatch = 2)
    rw [hcondition, hmismatch]
    refine ⟨conditionAfter_none, fun b => conditionAfter_some, mismatchAfter_uncompared, fun hc ha => ?_, fun hc ha hlt => ?_,
      fun hc ha hfull => ?_⟩
    all_goals rw [mismatchAfter_compared hc, hagrees, ha]
    · exact nextMismatch_agrees _
    · exact nextMismatch_counts hlt
    · rw [hfull]; exact nextMismatch_full

end Sys2Proof.Proofs
end

section
/-! SUPPORT. The ticks at which a group's settling and a claim's wait end (R56, R81, R96; log 3): when the next tick has that outcome, and
what it leaves of the group's counter, of the port's notices and of the queue. -/

namespace Sys2Proof.Proofs

open Sys2Proof Sys2Proof.Machine Sys2Proof.Laws

/-! Outcome commands. -/

section Outcomes

variable {s : State}

/-- The part after the permit table has taken a tick of the source. -/
def afterPermitTick (src : SourceId) (s : State) : State :=
  applyPermitTick src (s.onFlight fun f => { f with permitTicks := f.permitTicks.set src (f.permitTicks[src] - 1) })

theorem exec_tickAtPermitTable {src : SourceId} (hr : s.resetActive = false) (h : 0 < s.flight.permitTicks[src]) :
    exec (.tickAtPermitTable src) s = .next (afterPermitTick src s) :=
  congrArg _ ((unlessReset_inactive hr _).trans (takePermitTickIf_pos ⟨h, rfl⟩))

theorem exec_settleEnd (hr : s.resetActive = false) (g : GroupId) : exec (.settleEnd g) s =
    .next (takePermitTickIf (settlingEnds g s) s.config.groups[g].source s) := congrArg _ (unlessReset_inactive hr _)

theorem exec_waitExpired (hr : s.resetActive = false) (p : PermitId) (port : Port) : exec (.waitExpired p port) s =
    .next (takePermitTickIf (tickMakes s.config.permits[p].source (port, .waitEnded p .expired) s)
      s.config.permits[p].source s) := congrArg _ (unlessReset_inactive hr _)

end Outcomes

/-! A tick that counts (R96, R104). -/

section Tick

variable {c : ConfigStore} {src : SourceId} {t : PermitTable}

theorem counting_iff : counting c t = true ↔ t.engine = .running ∨ c.engine.supervision = .run := by
  simp only [counting, Bool.or_eq_true, decide_eq_true_eq]

/-- R96: grants alone follow on the work of the tick, if anything does. -/
theorem grants_of_examined {w w' : TableWork} {b : Bool} (h : w' = if b then grantExamination c w else w) :
    GrantsOnly c w.table w'.table ∧ Extends w w' := by
  subst h
  cases b with
  | false => exact ⟨.refl .., .refl _⟩
  | true => exact ⟨grantExamination_grants c w, grantExamination_extends c w⟩

/-- R56: a counter on the source goes down by one when no member of its group had a holder. -/
theorem tableTick_settle (hc : counting c t = true) {g : GroupId} (hsrc : c.groups[g].source = src)
    (hempty : ∀ p : PermitId, c.permits[p].group = some g → t.records[p].holders = []) :
    (tableTick c src t).table.settle[g] = t.settle[g] - 1 := by
  obtain ⟨w, hw, _, _, _, hsettle, _⟩ := tableTick_full c src t hc
  obtain ⟨hgrants, _⟩ := grants_of_examined hw
  rw [hgrants.settle, (hsettle g).2 fun p hp hheld => absurd (hempty p hp) hheld, if_pos hsrc]

/-- R96: a record after a tick is the record after steps 2 and 3 with heads of its queue granted. -/
theorem tableTick_record (hc : counting c t = true) (p : PermitId) :
    ∃ k, (tableTick c src t).table.records[p] = grantedHeads k (recordAfterTick c src p t.records[p]) := by
  obtain ⟨w, hw, _, _, hrecords, _⟩ := tableTick_full c src t hc
  obtain ⟨k, hk, _⟩ := (grants_of_examined hw).1.records p
  exact ⟨k, hrecords p ▸ hk⟩

/-- R81: the notices of the waits that end at the tick are among its notices. -/
theorem waitNotices_mem_tableTick (hc : counting c t = true) {p : PermitId} (hsrc : c.permits[p].source = src) {m : Made}
    (hm : m ∈ waitEndNotices p .expired ((recordAfterLease c src p t.records[p]).queue.filter expires)) :
    m ∈ (tableTick c src t).made := by
  obtain ⟨w, hw, _, _, _, _, hmade, _⟩ := tableTick_full c src t hc
  obtain ⟨_, more, hmore, _⟩ := (grants_of_examined hw).2
  rw [hmore, hmade]
  exact List.mem_append_left _ (List.mem_append_right _ (List.mem_flatMap.mpr ⟨p, mem_allPermits p, by rwa [if_pos hsrc]⟩))

end Tick

/-! Settling (R56). -/

theorem settlingEnds_iff (g : GroupId) (s : State) : settlingEnds g s = true ↔
    (s.table.engine = .running ∨ s.config.engine.supervision = .run) ∧ s.table.settle[g] = 1 := by
  simp only [settlingEnds, settleEnds, Bool.and_eq_true, counting_iff, decide_true, Bool.true_and, decide_eq_true_eq]

/-! Waits (R80, R81). -/

section Waits

variable {c : ConfigStore} {src : SourceId} {p : PermitId}

theorem expires_iff (x : Claim) : expires x = true ↔ ∃ n, x.wait = some n ∧ n ≤ 1 := by
  unfold expires Claim.afterTick
  cases x.wait with
  | none => simp only [Option.isNone_some, Bool.false_eq_true, reduceCtorEq, false_and, exists_false]
  | some n => by_cases hn : n ≤ 1 <;> simp [hn]

theorem afterTick_port {x y : Claim} (h : x.afterTick = some y) : y.port = x.port := by
  unfold Claim.afterTick at h
  split at h
  · cases h; rfl
  · split at h
    · cases h
    · cases h; rfl

/-- R102: a tick of its source locks the permit. -/
def locksAtTick (c : ConfigStore) (p : PermitId) (x : PermitRecord) : Bool :=
  c.permits[p].lease && decide (c.permits[p].expiry = .lock) && anyLate x.holders

theorem locksAtTick_iff (x : PermitRecord) : locksAtTick c p x = true ↔
    c.permits[p].lease = true ∧ c.permits[p].expiry = .lock ∧ ∃ h ∈ x.holders, h.stage = .late := by
  simp only [locksAtTick, anyLate, Bool.and_eq_true, decide_eq_true_eq, List.any_eq_true, and_assoc]

/-- R102: the claims leave at a lock, before their waits are counted. -/
theorem recordAfterLease_queue (x : PermitRecord) (hsrc : c.permits[p].source = src) :
    (recordAfterLease c src p x).queue = if locksAtTick c p x then [] else x.queue := by
  unfold recordAfterLease leased locksAtTick
  cases c.permits[p].lease with
  | false => simp only [Bool.false_and, Bool.false_eq_true, if_false]
  | true =>
    simp only [hsrc, decide_true, Bool.and_true, if_true, Bool.true_and]
    cases c.permits[p].expiry with
    | lock => simp only [PermitRecord.afterTick, decide_true, Bool.true_and]; split <;> rfl
    | release => rfl
    | trip => rfl

/-- R81: a tick ends the wait of the port's claims alone that stand at 1, at a permit that does not lock. -/
theorem tickMakes_expired_iff (p : PermitId) (port : Port) (s : State) :
    tickMakes s.config.permits[p].source (port, .waitEnded p .expired) s = true ↔
      (s.table.engine = .running ∨ s.config.engine.supervision = .run) ∧
      ¬ (s.config.permits[p].lease = true ∧ s.config.permits[p].expiry = .lock ∧
        ∃ h ∈ s.table.records[p].holders, h.stage = .late) ∧
      ∃ x ∈ s.table.records[p].queue, x.port = port ∧ ∃ n, x.wait = some n ∧ n ≤ 1 := by
  constructor
  · intro hmakes
    obtain ⟨hc, ⟨q, _, hm⟩ | ⟨q, _, hm⟩ | ⟨q, hm⟩⟩ := tickMakes_mem hmakes
    · obtain ⟨_, _, hne⟩ := leaseNotices_mem (p := p) hm
      exact absurd rfl hne
    · obtain ⟨x, hx, hxm⟩ := waitEndNotices_mem hm
      cases hxm
      obtain ⟨hqueue, hexpires⟩ := List.mem_filter.mp hx
      rw [recordAfterLease_queue _ rfl] at hqueue
      split at hqueue
      · cases hqueue
      · next hlocks => exact ⟨counting_iff.mp hc, (locksAtTick_iff _).not.mp hlocks, x, hqueue, rfl, (expires_iff x).mp hexpires⟩
    · cases hm
  · rintro ⟨hc, hlocks, x, hx, rfl, hwait⟩
    rw [tickMakes, List.contains_iff_mem]
    refine waitNotices_mem_tableTick (counting_iff.mpr hc) rfl (List.mem_map.mpr ⟨x, List.mem_filter.mpr ⟨?_, ?_⟩, rfl⟩)
    · rwa [recordAfterLease_queue _ rfl, if_neg ((locksAtTick_iff _).not.mpr hlocks)]
    · exact (expires_iff x).mpr hwait

/-- R81: a port whose claim's wait ends at the tick, and which stands once in the record, does not wait after it. -/
theorem tableTick_ends_wait {t : PermitTable} (hc : counting c t = true) (hsrc : c.permits[p].source = src) {x : Claim}
    (hx : x ∈ t.records[p].queue) (hexpires : expires x = true) (hnodup : (portsOf t.records[p]).Nodup) :
    ∀ y ∈ (tableTick c src t).table.records[p].queue, y.port ≠ x.port := by
  intro y hy hport
  obtain ⟨k, hk⟩ := tableTick_record (src := src) hc p
  have hy' : y ∈ (recordAfterLease c src p t.records[p]).queue.filterMap Claim.afterTick := by
    rw [hk] at hy
    have := List.mem_of_mem_drop hy
    rwa [recordAfterTick, if_pos hsrc] at this
  obtain ⟨z, hz, hzy⟩ := List.mem_filterMap.mp hy'
  have hzx : z = x := by
    have hqueue : (t.records[p].queue.map Claim.port).Nodup := (List.nodup_append.mp hnodup).2.1
    refine List.inj_on_of_nodup_map hqueue ?_ hx ((afterTick_port hzy).symm.trans hport)
    rw [recordAfterLease_queue _ hsrc] at hz
    split at hz
    · cases hz
    · exact hz
  rw [hzx] at hzy
  simp only [expires, hzy, Option.isNone_some, Bool.false_eq_true] at hexpires

end Waits

/-! Notices (R178). -/

/-- A notice that an event of the permit table makes for a port stands behind those already on their way to it. -/
theorem commitWork_tells {w : TableWork} {port : Port} {b : NoticeBody} (h : (port, b) ∈ w.made) (count : PassCount)
    (s : State) : ∃ more rest, (commitWork count w s).flight.notices[port] =
      s.flight.notices[port] ++ more ++ ⟨.permitTable, ⟨b, count⟩⟩ :: rest := by
  obtain ⟨before, after, hsplit⟩ := List.append_of_mem
    (List.mem_filter (p := fun m : Made => decide (m.1 = port)).mpr ⟨h, decide_eq_true rfl⟩)
  have hnotices := flyAll_get .permitTable count w.made s.flight.notices port
  rw [hsplit, List.map_append, List.map_cons, ← List.append_assoc] at hnotices
  exact ⟨_, _, hnotices⟩

/-- Settles O33: each command is the tick when `settlingEnds` or `tickMakes` says that the tick has the outcome. -/
theorem settlingAndWaitsEndAtTheirTick : Obligations.SettlingAndWaitsEndAtTheirTick := by
  unfold Obligations.SettlingAndWaitsEndAtTheirTick
  intro s hr counts comes
  constructor
  · intro g ends
    have hends := settlingEnds_iff g s
    refine ⟨fun ⟨⟨hc, htick⟩, hone⟩ => ?_, fun hnot => ?_⟩
    · refine ⟨_, (exec_settleEnd hr g).trans (congrArg _ (takePermitTickIf_pos ⟨htick, hends.mpr ⟨hc, hone⟩⟩)),
        exec_tickAtPermitTable hr htick, fun hempty => ?_⟩
      exact (tableTick_settle (counting_iff.mpr hc) rfl hempty).trans (by rw [hone])
    · rw [exec_settleEnd hr g, takePermitTickIf_neg]
      rintro ⟨htick, hmakes⟩
      obtain ⟨hc, hone⟩ := hends.mp hmakes
      exact hnot ⟨⟨hc, htick⟩, hone⟩
  · intro p port e r locks ends
    have hends := tickMakes_expired_iff p port s
    refine ⟨fun ⟨⟨hc, htick⟩, hlocks, hclaim⟩ => ?_, fun hnot => ?_⟩
    · have hmakes := hends.mpr ⟨hc, hlocks, hclaim⟩
      obtain ⟨more, rest, hnotices⟩ := commitWork_tells (List.contains_iff_mem.mp hmakes) s.eval.passCount
        (s.onFlight fun f => { f with permitTicks := f.permitTicks.set e.source (f.permitTicks[e.source] - 1) })
      refine ⟨_, more, rest, (exec_waitExpired hr p port).trans (congrArg _ (takePermitTickIf_pos ⟨htick, hmakes⟩)),
        exec_tickAtPermitTable hr htick, hnotices, fun hnodup => ?_⟩
      obtain ⟨x, hx, rfl, hwait⟩ := hclaim
      exact tableTick_ends_wait (counting_iff.mpr hc) rfl hx ((expires_iff x).mpr hwait) hnodup
    · rw [exec_waitExpired hr p port, takePermitTickIf_neg]
      rintro ⟨htick, hmakes⟩
      obtain ⟨hc, hlocks, hclaim⟩ := hends.mp hmakes
      exact hnot ⟨⟨hc, htick⟩, hlocks, hclaim⟩

end Sys2Proof.Proofs
end

section
/-! SUPPORT. CLAIM and RELEASE at the permit table (R68 to R74, R82 to R84): the checks in their order, and the answer of each way on. -/

namespace Sys2Proof.Proofs

open Sys2Proof Sys2Proof.Machine Sys2Proof.Laws

theorem isHolder_iff (r : PermitRecord) (port : Port) : isHolder r port = true ↔ ∃ h ∈ r.holders, h.port = port := by
  simp only [isHolder, List.any_eq_true, decide_eq_true_eq]

theorem isWaiter_iff (r : PermitRecord) (port : Port) : isWaiter r port = true ↔ ∃ x ∈ r.queue, x.port = port := by
  simp only [isWaiter, List.any_eq_true, decide_eq_true_eq]

theorem not_isHolder {r : PermitRecord} {port : Port} (h : ∀ x ∈ r.holders, x.port ≠ port) : isHolder r port = false := by
  simpa only [isHolder, List.any_eq_false, decide_eq_true_eq] using h

theorem not_isWaiter {r : PermitRecord} {port : Port} (h : ∀ x ∈ r.queue, x.port ≠ port) : isWaiter r port = false := by
  simpa only [isWaiter, List.any_eq_false, decide_eq_true_eq] using h

/-! The checks of CLAIM (R69). -/

section Claim

variable {port : Port} {permit priority wait : Byte} {epoch : Word16} {p : PermitId} {q : Fin 4} {s u : State} {live : Bool}

/-- R69 check 1. -/
theorem claimBody_badArgument (h : 16 ≤ permit.toNat ∨ 4 ≤ priority.toNat) :
    claimBody port permit priority wait epoch u = (u, some ⟨.refused, [0x01#8]⟩) := by
  unfold claimBody
  split
  · next hp hq =>
    rcases h with h | h
    · rw [byteFin_none h] at hp; cases hp
    · rw [byteFin_none h] at hq; cases hq
  · rfl

/-- R69 checks 2 to 9. -/
theorem claimBody_refused {reason : Reason} (hp : permit.toNat = p.val) (hq : priority.toNat = q.val)
    (h : claimRefusal port p epoch u = some reason) :
    claimBody port permit priority wait epoch u = (u, some ⟨.refused, [reason.code]⟩) := by
  simp only [claimBody, byteFin_of hp, byteFin_of hq, h, refused, refuse]

/-- R70: a claim goes on when it has passed the checks. -/
theorem claimBody_passed (hp : permit.toNat = p.val) (hq : priority.toNat = q.val)
    (h : claimRefusal port p epoch u = none) :
    claimBody port permit priority wait epoch u = admitClaim port p q wait u := by
  simp only [claimBody, byteFin_of hp, byteFin_of hq, h]

/-- R69: the checks in the terms of the profile, the entry and the record. -/
theorem claimRefusal_eq (port : Port) (p : PermitId) (epoch : Word16) (u : State) : claimRefusal port p epoch u =
    if u.config.profilesInUse[port].mask.getLsbD p = false then some .noRight
    else if epoch ≠ u.config.epoch then some .staleEpoch
    else if u.config.permits[p].enabled = false then some .notEnabled
    else if u.table.records[p].lock = true then some .locked
    else if u.table.trip = .tripped then some .tripped
    else if u.table.engine ≠ .running then some .engineHalted
    else if isHolder u.table.records[p] port = true then some .alreadyHolder
    else if isWaiter u.table.records[p] port = true then some .alreadyWaiting
    else none := by
  simp only [claimRefusal, profileInUse, Bool.not_eq_true']

end Claim

/-- Settles O35: each refusal is that of the first check of `claimRefusal` that fails. -/
theorem claimsAreCheckedInOrder : Obligations.ClaimsAreCheckedInOrder := by
  unfold Obligations.ClaimsAreCheckedInOrder
  intro port permit priority wait epoch s u live h refuses
  refine ⟨fun hbad => exec_of_answer rfl h (claimBody_badArgument hbad), ?_⟩
  intro p hp hq r
  have hrefused : ∀ reason : Reason, claimRefusal port p epoch u = some reason → refuses reason.code := fun reason hr =>
    exec_of_answer rfl h (claimBody_refused (q := ⟨priority.toNat, hq⟩) hp rfl hr)
  simp only [claimRefusal_eq, r, isHolder_iff, isWaiter_iff] at hrefused ⊢
  split_ifs at hrefused ⊢
  any_goals exact hrefused _ rfl
  rfl

/-! A claim that passes the checks (R70 to R74). -/

/-- R72. -/
theorem grantsAtOnce_iff (s : State) (p : PermitId) : grantsAtOnce s p = true ↔ eligible s.config s.table p = true ∧
    s.table.records[p].holders.length < s.config.permits[p].limit ∧ s.table.records[p].queue = [] := by
  simp only [grantsAtOnce, Bool.and_eq_true, decide_eq_true_eq, List.isEmpty_iff, and_assoc]

section Admit

variable {port : Port} {p : PermitId} {w : Byte} {s : State} (q : Fin 4)

/-- R72. -/
theorem admitClaim_granted (h : grantsAtOnce s p = true) : admitClaim port p q w s =
    (s.onTable fun t => t.setRecord p (s.table.records[p].addHolder port),
      some ⟨.granted, [numByte p, numByte (effectivePriority s port q), numByte (s.table.records[p].holders.length + 1)]⟩) := by
  simp only [admitClaim, h, if_true]

/-- R73. -/
theorem admitClaim_notReady (h : grantsAtOnce s p = false) : admitClaim port p q 0#8 s =
    (s, some ⟨.refused, [0x0A#8] ++ (permitState s.config s.table p).bytes ++ [numByte (effectivePriority s port q)]⟩) := by
  simp only [admitClaim, h, Bool.false_eq_true, if_false, if_true]; rfl

/-- R74. -/
theorem admitClaim_queued (h : grantsAtOnce s p = false) (hw : w ≠ 0#8) :
    let eff := effectivePriority s port q
    let r := s.table.records[p]
    admitClaim port p q w s = (commitWork s.eval.passCount (grantExamination s.config
        (.start (s.table.setRecord p { r with queue := insertClaim ⟨port, eff, waitOf w⟩ r.queue }))) s,
      some ⟨.queued, [numByte p, numByte eff, numByte ((aheadOf eff r.queue).length + 1)]⟩) := by
  simp only [admitClaim, h, hw, Bool.false_eq_true, if_false]

end Admit

/-- R74: the claims ahead of a new one have its priority or a higher. -/
theorem aheadOf_priority {q : Fin 4} {l : List Claim} : ∀ x ∈ aheadOf q l, q ≤ x.priority := fun _ hx =>
  of_decide_eq_true (List.mem_takeWhile_imp (p := fun x : Claim => decide (q ≤ x.priority)) hx)

/-- R74: the first claim behind a new one has a lower priority. -/
theorem behind_priority {q : Fin 4} {l : List Claim} : ∀ x ∈ (l.drop (aheadOf q l).length).head?, x.priority < q := by
  induction l with
  | nil => nofun
  | cons a l ih =>
    by_cases ha : q ≤ a.priority
    · simpa only [aheadOf, ha, decide_true, List.takeWhile_cons_of_pos, List.length_cons, List.drop_succ_cons] using ih
    · intro x hx
      simp only [aheadOf, ha, decide_false, Bool.false_eq_true, not_false_eq_true, List.takeWhile_cons_of_neg,
        List.length_nil, List.drop_zero, List.head?_cons, Option.mem_some_iff] at hx
      exact hx ▸ not_le.mp ha

/-- R68: a priority as CLAIM carries it. -/
theorem toNat_ofNat_priority (q : Fin 4) : (BitVec.ofNat 8 q.val : Byte).toNat = q.val := by
  revert q; decide

/-- Settles O36: after the checks the claim takes one of the three ways of `admitClaim`. -/
theorem claimsAreGrantedRefusedOrQueued : Obligations.ClaimsAreGrantedRefusedOrQueued := by
  unfold Obligations.ClaimsAreGrantedRefusedOrQueued
  intro port permit wait p q epoch s u live c h hp hpass r ceiling eff effByte st atOnce
  have hbody := claimBody_passed (port := port) (wait := wait) hp (toNat_ofNat_priority q) hpass
  have hgrants : grantsAtOnce u p = true ↔ atOnce := grantsAtOnce_iff u p
  refine ⟨fun hnow => ?_, fun hlater hw => ?_, fun hlater hw => ?_⟩
  · rw [← byte_eq hp]
    exact exec_of_answer rfl h (hbody.trans (admitClaim_granted q (hgrants.mpr hnow)))
  · have hst : (permitState u.config u.table p).bytes = st (permitState u.config u.table p) := by
      rcases permitState u.config u.table p with _ | (_ | _ | _ | _ | _) | _ | _ | _ <;> rfl
    subst hw
    rw [← hst]
    exact exec_of_answer rfl h (hbody.trans (admitClaim_notReady q (Bool.eq_false_of_not_eq_true (hgrants.not.mpr hlater))))
  · rw [← byte_eq hp]
    exact ⟨aheadOf eff r.queue, r.queue.drop (aheadOf eff r.queue).length, (aheadOf_append eff r.queue).symm,
      aheadOf_priority, behind_priority,
      exec_of_answer rfl h (hbody.trans (admitClaim_queued q (Bool.eq_false_of_not_eq_true (hgrants.not.mpr hlater)) hw))⟩

/-! RELEASE (R82 to R84). -/

section Release

variable {port : Port} {p : PermitId} {s : State}

/-- R83. -/
theorem releaseBody_holder (h : isHolder s.table.records[p] port = true) :
    let r := s.table.records[p].dropHolder port
    releaseBody port p s = (commitWork s.eval.passCount
        (grantExamination s.config (.start (changeRecord s.config p r s.table))) s,
      some ⟨.ok, [0#8, numByte r.holders.length]⟩) := by
  simp only [releaseBody, h, if_true, okReply]

/-- R84. -/
theorem releaseBody_waiter (hh : isHolder s.table.records[p] port = false)
    (hw : isWaiter s.table.records[p] port = true) : releaseBody port p s =
      (s.onTable fun t => t.setRecord p (s.table.records[p].dropClaim port),
        some ⟨.ok, [1#8, numByte (positionOf port s.table.records[p].queue)]⟩) := by
  simp only [releaseBody, hh, hw, Bool.false_eq_true, if_false, if_true, okReply]

/-- R82. -/
theorem releaseBody_neither (hh : isHolder s.table.records[p] port = false)
    (hw : isWaiter s.table.records[p] port = false) : releaseBody port p s = (s, some ⟨.refused, [0x0B#8]⟩) := by
  simp only [releaseBody, hh, hw, Bool.false_eq_true, if_false]; rfl

end Release

/-- R84: the position of a waiting port's claim is one above its index. -/
theorem positionOf_eq (port : Port) (l : List Claim) :
    positionOf port l = l.findIdx (fun x => decide (x.port = port)) + 1 := by
  simp only [positionOf, List.takeWhile_eq_take_findIdx_not, List.length_take, decide_not, Bool.not_not,
    Nat.min_eq_left List.findIdx_le_length]

/-- Settles O37: RELEASE of a holding is one departure and an examination, of a claim one record without it. -/
theorem releasesEndHoldingsOrWithdrawClaims : Obligations.ReleasesEndHoldingsOrWithdrawClaims := by
  unfold Obligations.ReleasesEndHoldingsOrWithdrawClaims
  intro port permit s u live h answers
  refine ⟨fun hp => exec_of_answer rfl h (needNumber_beyond hp _ u), ?_⟩
  intro p hp r left
  have hanswer : ∀ {t : State} {x : Reply}, releaseBody port p u = (t, some x) → answers x t := fun hb =>
    exec_of_answer rfl h ((needNumber_of hp _ u).trans hb)
  refine ⟨fun hholds => ?_, fun hno hwaits => ?_, fun hno hnone =>
    hanswer (releaseBody_neither (not_isHolder hno) (not_isWaiter hnone))⟩
  · refine ⟨changeRecord u.config p (r.dropHolder port) u.table,
      hanswer (releaseBody_holder ((isHolder_iff r port).mpr hholds)), changeRecord_eq .., fun g => ?_⟩
    have hheld : r.holders ≠ [] := by
      obtain ⟨x, hx, _⟩ := hholds
      exact List.ne_nil_of_mem hx
    have hsettle := changeRecord_settle u.config p (r.dropHolder port) u.table g
    refine ⟨fun ⟨hg, hlast⟩ => ?_, fun hkeep => ?_⟩
    · rw [hsettle, if_pos ⟨hg, hheld, hlast⟩]
    · rw [hsettle, if_neg fun ⟨hg, _, hlast⟩ => hkeep ⟨hg, hlast⟩]
  · rw [← positionOf_eq]
    exact hanswer (releaseBody_waiter (not_isHolder hno) ((isWaiter_iff r port).mpr hwaits))

end Sys2Proof.Proofs
end

section
/-! SUPPORT. Grant examination as one list of permits: a grant to one of them changes neither the eligibility of the others nor the choice
of another group's arbiter, so that all are told from the table before the examination (R76 to R78). -/

namespace Sys2Proof.Proofs

open Sys2Proof Sys2Proof.Machine Sys2Proof.Laws

/-! The group arbiter (R78). -/

section Arbiter

variable {c : ConfigStore} {t : PermitTable} {g : GroupId} {p b : PermitId}

theorem candidate_iff : candidate c t g p = true ↔
    c.permits[p].group = some g ∧ eligible c t p = true ∧ t.records[p].queue ≠ [] := by
  simp only [candidate, isMember, Bool.and_eq_true, decide_eq_true_eq, Bool.not_eq_true', List.isEmpty_eq_false_iff,
    and_assoc]

theorem mem_candidates : p ∈ allPermits.filter (candidate c t g) ↔ candidate c t g p = true := by
  simp only [List.mem_filter, mem_allPermits, true_and]

theorem betterOf_eq_argAux (t : PermitTable) : betterOf t = List.argAux fun p b => headPriority t b < headPriority t p := by
  funext best p
  cases best <;> rfl

/-- The arbiter is the library's first maximum. -/
theorem arbiter_eq_argmax (c : ConfigStore) (t : PermitTable) (g : GroupId) :
    arbiter c t g = (allPermits.filter (candidate c t g)).argmax (headPriority t) := by
  rw [arbiter, betterOf_eq_argAux]; rfl

theorem arbiter_eq_none_iff : arbiter c t g = none ↔ ∀ p, ¬ candidate c t g p = true := by
  rw [arbiter_eq_argmax, List.argmax_eq_none, List.filter_eq_nil_iff]
  exact forall_congr' fun p => forall_prop_of_true (mem_allPermits p)

/-- The candidates stand in ascending number. -/
theorem idxOf_candidates_le (hb : candidate c t g b = true) (hp : candidate c t g p = true) :
    (allPermits.filter (candidate c t g)).idxOf b ≤ (allPermits.filter (candidate c t g)).idxOf p ↔ b ≤ p := by
  have hsorted : (allPermits.filter (candidate c t g)).SortedLT :=
    ((by decide : allPermits.Pairwise (· < ·)).filter _).sortedLT
  exact (hsorted.getIso _).symm.le_iff_le (x := ⟨b, mem_candidates.mpr hb⟩) (y := ⟨p, mem_candidates.mpr hp⟩)

/-- R78: the highest head priority, and of equals the lowest number. -/
theorem arbiter_eq_some_iff : arbiter c t g = some b ↔ candidate c t g b = true ∧ ∀ p, candidate c t g p = true →
    headPriority t p < headPriority t b ∨ (headPriority t p = headPriority t b ∧ b ≤ p) := by
  rw [arbiter_eq_argmax, List.argmax_eq_some_iff]
  simp only [mem_candidates]
  constructor
  · rintro ⟨hb, hmax, hfirst⟩
    refine ⟨hb, fun p hp => (hmax p hp).lt_or_eq.imp_right fun he => ⟨he, ?_⟩⟩
    exact (idxOf_candidates_le hb hp).mp (hfirst p hp he.ge)
  · rintro ⟨hb, hbest⟩
    refine ⟨hb, fun p hp => ?_, fun p hp hle => (idxOf_candidates_le hb hp).mpr ?_⟩
    · rcases hbest p hp with hlt | ⟨he, _⟩
      · exact hlt.le
      · exact he.le
    · rcases hbest p hp with hlt | ⟨_, hnumber⟩
      · exact absurd hle (not_le.mpr hlt)
      · exact hnumber

/-- R78: an arbiter picks an eligible member of its group. -/
theorem arbiter_member (h : arbiter c t g = some p) : c.permits[p].group = some g ∧ eligible c t p = true := by
  obtain ⟨hg, he, _⟩ := candidate_iff.mp (arbiter_eq_some_iff.mp h).1
  exact ⟨hg, he⟩

end Arbiter

/-! What a grant to one permit leaves of the others. -/

/-- The two tables agree on the permits of S and on all that is no record. -/
structure AgreeOn (S : PermitId → Prop) (t t' : PermitTable) : Prop where
  records : ∀ p, S p → t'.records[p] = t.records[p]
  settle : t'.settle = t.settle
  engine : t'.engine = t.engine
  trip : t'.trip = t.trip

namespace AgreeOn

variable {c : ConfigStore} {S S' : PermitId → Prop} {t t' : PermitTable} {g : GroupId} {p : PermitId}

theorem mono (h : AgreeOn S t t') (hS : ∀ p, S' p → S p) : AgreeOn S' t t' :=
  ⟨fun p hp => h.records p (hS p hp), h.settle, h.engine, h.trip⟩

/-- R47: eligibility is told by the permit's own record and those of its group. -/
theorem eligible_eq (h : AgreeOn S t t') (hp : S p)
    (hgroup : ∀ g q, c.permits[p].group = some g → c.permits[q].group = some g → S q) :
    eligible c t' p = eligible c t p := by
  have hadmits : groupAdmits c t' p = groupAdmits c t p := by
    unfold groupAdmits
    cases hg : c.permits[p].group with
    | none => rfl
    | some g =>
      have hheld : otherMemberHeld c t' g p = otherMemberHeld c t g p := by
        rw [Bool.eq_iff_iff, otherMemberHeld_iff, otherMemberHeld_iff]
        refine exists_congr fun q => and_congr_right fun _ => and_congr_right fun hq => ?_
        rw [h.records q (hgroup g q hg hq)]
      simp only [hheld, h.settle]
  simp only [eligible, h.records p hp, h.engine, h.trip, hadmits]

/-- R78: the arbiter's choice is told by the records of the group. -/
theorem arbiter_eq (h : AgreeOn S t t') (hS : ∀ p, c.permits[p].group = some g → S p) :
    arbiter c t' g = arbiter c t g := by
  have hcand : ∀ p, candidate c t' g p = candidate c t g p := fun p => by
    rw [Bool.eq_iff_iff, candidate_iff, candidate_iff]
    refine and_congr_right fun hp => ?_
    have hgroup : ∀ g' q, c.permits[p].group = some g' → c.permits[q].group = some g' → S q := fun g' q hg' hq =>
      hS q (hq.trans (hg'.symm.trans hp))
    rw [h.eligible_eq (hS p hp) hgroup, h.records p (hS p hp)]
  have hhead : ∀ p, candidate c t g p = true → headPriority t' p = headPriority t p := fun p hp => by
    simp only [headPriority, h.records p (hS p (candidate_iff.mp hp).1)]
  refine Option.ext fun b => ?_
  rw [arbiter_eq_some_iff, arbiter_eq_some_iff]
  simp only [hcand]
  refine and_congr_right fun hb => forall_congr' fun p => imp_congr_right fun hp => ?_
  rw [hhead b hb, hhead p hp]

end AgreeOn

/-! The examination as one fold. -/

/-- R77: the grant of one permit that is eligible. -/
def grantHeadsOf (c : ConfigStore) (w : TableWork) (p : PermitId) : TableWork :=
  { w with
    table := w.table.setRecord p (w.table.records[p].grantHeads c.permits[p].limit)
    made := w.made ++ grantNotices c.permits[p].limit p w.table.records[p] }

theorem grantPermit_eq (c : ConfigStore) (w : TableWork) (p : PermitId) :
    grantPermit c w p = if eligible c w.table p then grantHeadsOf c w p else w := rfl

theorem grantHeadsOf_local (c : ConfigStore) : LocalStep (grantHeadsOf c) (fun p r => r.grantHeads c.permits[p].limit)
    (fun p r => grantNotices c.permits[p].limit p r) (fun _ _ => []) where
  records _ _ := rfl
  engine _ _ := rfl
  trip _ _ := rfl
  made _ _ := rfl
  causes _ _ := (List.append_nil _).symm

theorem AgreeOn.after_grant {S S' : PermitId → Prop} {t : PermitTable} {w : TableWork} (h : AgreeOn S t w.table)
    (c : ConfigStore) (p : PermitId) (hS : ∀ q, S' q → S q ∧ p ≠ q) : AgreeOn S' t (grantHeadsOf c w p).table := by
  refine ⟨fun q hq => ?_, h.settle, h.engine, h.trip⟩
  obtain ⟨hold, hne⟩ := hS q hq
  rw [(grantHeadsOf_local c).get, if_neg hne, h.records q hold]

/-- R77: a permit without a group that is granted. -/
def ungroupedGranted (c : ConfigStore) (t : PermitTable) (p : PermitId) : Bool :=
  decide (c.permits[p].group = none) && eligible c t p

/-- R76: the permits granted by an examination, in order. -/
def grantedList (c : ConfigStore) (t : PermitTable) : List PermitId :=
  allPermits.filter (ungroupedGranted c t) ++ allGroups.filterMap (arbiter c t)

section Fold

variable {c : ConfigStore} {t : PermitTable}

/-- R77: whether a permit without a group is granted is told from the table t, while the permits still to come agree with it. -/
theorem grantUngrouped_fold (l : List PermitId) (hl : l.Nodup) (w : TableWork) (h : AgreeOn (· ∈ l) t w.table) :
    l.foldl (grantUngrouped c) w = (l.filter (ungroupedGranted c t)).foldl (grantHeadsOf c) w := by
  induction l generalizing w with
  | nil => rfl
  | cons p l ih =>
    obtain ⟨hp, hl'⟩ := List.nodup_cons.mp hl
    have hstep : grantUngrouped c w p = if ungroupedGranted c t p then grantHeadsOf c w p else w := by
      unfold grantUngrouped ungroupedGranted
      by_cases hg : c.permits[p].group = none
      · rw [if_pos hg, grantPermit_eq, h.eligible_eq List.mem_cons_self fun g q hpg => absurd (hg.symm.trans hpg) nofun]
        simp only [hg, decide_true, Bool.true_and]
      · simp only [hg, if_false, decide_false, Bool.false_and, Bool.false_eq_true]
    rw [List.foldl_cons, hstep, List.filter_cons]
    split
    · refine ih hl' _ (h.after_grant c p fun q hq => ⟨List.mem_cons_of_mem p hq, ?_⟩)
      rintro rfl
      exact hp hq
    · exact ih hl' _ (h.mono fun q hq => List.mem_cons_of_mem p hq)

/-- R78: whom a group's arbiter picks is told from the table t, while the members of the groups still to come agree with it. -/
theorem grantGroup_fold (l : List GroupId) (hl : l.Nodup) (w : TableWork)
    (h : AgreeOn (fun p => ∃ g ∈ l, c.permits[p].group = some g) t w.table) :
    l.foldl (grantGroup c) w = (l.filterMap (arbiter c t)).foldl (grantHeadsOf c) w := by
  induction l generalizing w with
  | nil => rfl
  | cons g l ih =>
    obtain ⟨hg, hl'⟩ := List.nodup_cons.mp hl
    have hmember : ∀ p : PermitId, c.permits[p].group = some g → ∃ g' ∈ g :: l, c.permits[p].group = some g' := fun p hp =>
      ⟨g, List.mem_cons_self, hp⟩
    have hrest : ∀ p : PermitId, (∃ g' ∈ l, c.permits[p].group = some g') → ∃ g' ∈ g :: l, c.permits[p].group = some g' :=
      fun p ⟨g', hg', hp⟩ => ⟨g', List.mem_cons_of_mem g hg', hp⟩
    rw [List.foldl_cons, List.filterMap_cons, grantGroup, h.arbiter_eq hmember]
    cases hchosen : arbiter c t g with
    | none => exact ih hl' w (h.mono hrest)
    | some p =>
      obtain ⟨hp, heligible⟩ := arbiter_member hchosen
      have hstep : grantPermit c w p = grantHeadsOf c w p := by
        rw [grantPermit_eq, h.eligible_eq (hmember p hp) fun g' q hg' hq => ⟨g, List.mem_cons_self, ?_⟩, if_pos heligible]
        rw [hq, ← hg', hp]
      simp only [hstep, List.foldl_cons]
      refine ih hl' _ (h.after_grant c p fun q hq => ⟨hrest q hq, ?_⟩)
      rintro rfl
      obtain ⟨g', hg', hq'⟩ := hq
      exact hg (Option.some.inj (hp.symm.trans hq') ▸ hg')

theorem mem_grantedList {p : PermitId} : p ∈ grantedList c t ↔ eligible c t p = true ∧
    (c.permits[p].group = none ∨ ∃ g, c.permits[p].group = some g ∧ arbiter c t g = some p) := by
  simp only [grantedList, List.mem_append, List.mem_filter, mem_allPermits, true_and, ungroupedGranted, Bool.and_eq_true,
    decide_eq_true_eq, List.mem_filterMap, mem_allGroups]
  constructor
  · rintro (⟨hg, he⟩ | ⟨g, hchosen⟩)
    · exact ⟨he, .inl hg⟩
    · obtain ⟨hg, he⟩ := arbiter_member hchosen
      exact ⟨he, .inr ⟨g, hg, hchosen⟩⟩
  · rintro ⟨he, hg | ⟨g, _, hchosen⟩⟩
    · exact .inl ⟨hg, he⟩
    · exact .inr ⟨g, hchosen⟩

theorem nodup_grantedList (c : ConfigStore) (t : PermitTable) : (grantedList c t).Nodup := by
  refine List.nodup_append'.mpr ⟨nodup_allPermits.filter _, List.Nodup.filterMap ?_ (by decide), ?_⟩
  · intro g g' p hp hp'
    exact Option.some.inj ((arbiter_member hp).1.symm.trans (arbiter_member hp').1)
  · intro p hu hgrouped
    simp only [List.mem_filter, ungroupedGranted, Bool.and_eq_true, decide_eq_true_eq] at hu
    obtain ⟨g, _, hchosen⟩ := List.mem_filterMap.mp hgrouped
    rw [(arbiter_member hchosen).1] at hu
    exact absurd hu.2.1 nofun

end Fold

/-- R76: an examination grants the permits of one list, told from the table before it. -/
theorem grantExamination_eq_fold (c : ConfigStore) (w : TableWork) :
    grantExamination c w = (grantedList c w.table).foldl (grantHeadsOf c) w := by
  have hungrouped := grantUngrouped_fold (c := c) allPermits nodup_allPermits w ⟨fun _ _ => rfl, rfl, rfl, rfl⟩
  have hgrants := GrantsOnly.fold c _ (grantUngrouped_grants c) allPermits w
  have hrecords := (grantHeadsOf_local c).fold _ (nodup_allPermits.filter (ungroupedGranted c w.table)) w
  rw [grantExamination, grantedList, List.foldl_append, ← hungrouped]
  refine grantGroup_fold allGroups (by decide) _ ⟨fun p ⟨g, _, hg⟩ => ?_, hgrants.settle, hgrants.engine, hgrants.trip⟩
  rw [hungrouped, hrecords.1 p, if_neg]
  simp only [List.mem_filter, ungroupedGranted, hg, reduceCtorEq, decide_false, Bool.false_and, Bool.false_eq_true, and_false,
    not_false_eq_true]

/-- Settles O29: the examination is a fold over `grantedList`, whose permits are granted once each, on the record before it. -/
theorem grantExaminationGrantsHeads : Obligations.GrantExaminationGrantsHeads := by
  unfold Obligations.GrantExaminationGrantsHeads
  intro c w records cand heads notices
  obtain ⟨hrecords, hengine, htrip, hmade, hcauses⟩ :=
    (grantHeadsOf_local c).fold _ (nodup_grantedList c w.table) w
  rw [← grantExamination_eq_fold] at hrecords hengine htrip hmade hcauses
  have hsettle := (grantExamination_grants c w).settle
  refine ⟨arbiter c w.table, fun g hnone p hp => arbiter_eq_none_iff.mp hnone p (candidate_iff.mpr hp), ?_, ?_⟩
  · intro g b hsome
    obtain ⟨hb, hbest⟩ := arbiter_eq_some_iff.mp hsome
    exact ⟨candidate_iff.mp hb, fun p hp => hbest p (candidate_iff.mpr hp)⟩
  · intro granted w'
    refine ⟨fun p hp => ?_, fun p hp => ?_, ?_, ?_, ?_⟩
    · rw [hrecords p, if_pos (mem_grantedList.mpr hp)]; rfl
    · rw [hrecords p, if_neg (mem_grantedList.not.mpr hp)]
    · exact (table_eq_of rfl hengine htrip).trans (by rw [hsettle])
    · rw [hcauses, flatMap_nothing, List.append_nil]
    · rw [hmade, grantedList, List.flatMap_append, List.append_assoc, List.filterMap_eq_flatMap_toList, List.flatMap_assoc]
      rfl

end Sys2Proof.Proofs
end

section
/-! SUPPORT. The six properties of R93, R94, R109, R153, R178, R10, R11 and R18 carried through every command, each by itself: a command
that leaves a property's blocks as they are keeps it, and the few that change them keep it by their own rule. -/

namespace Sys2Proof.Proofs

open Sys2Proof Sys2Proof.Machine Sys2Proof.Laws

/-- What the six properties speak of. -/
def concernedFields (s : State) :=
  (s.trip.state, s.trip.present, s.notices, s.config.profiles, s.config.profilesInUse, s.config.ticks, s.ticks, s.scan.state,
    s.flight.scanBaseTicks, s.flight.scanTicks, s.flight.passReports, s.engine.state, s.table.engine, s.flight.toPermit)

/-- From s to t each of the six properties is kept, whether or not the others hold. -/
structure Kept (s t : State) : Prop where
  present : normalHasNoCause s.trip → normalHasNoCause t.trip
  queues : queuesFit s → queuesFit t
  rights : configureHeld s.config → configureHeld t.config
  counters : countersFit s → countersFit t
  scanTicks : noTickInScan s → noTickInScan t
  steps : stepDrivesNothing s → stepDrivesNothing t

namespace Kept

variable {s t u : State}

theorem refl (s : State) : Kept s s := ⟨id, id, id, id, id, id⟩

theorem trans (h : Kept s t) (h' : Kept t u) : Kept s u :=
  ⟨h'.present ∘ h.present, h'.queues ∘ h.queues, h'.rights ∘ h.rights, h'.counters ∘ h.counters,
    h'.scanTicks ∘ h.scanTicks, h'.steps ∘ h.steps⟩

/-- `trans` with the later change first, whose states say what the earlier change is. -/
theorem after (h' : Kept t u) (h : Kept s t) : Kept s u := h.trans h'

/-- Changes that leave the trip unit, the queues, the configuration and the clock as they stand: of the six properties two are left. -/
theorem of_rest (htrip : t.trip = s.trip) (hnotices : t.notices = s.notices) (hconfig : t.config = s.config)
    (hticks : t.ticks = s.ticks) (hscan : noTickInScan s → noTickInScan t) (hsteps : stepDrivesNothing s → stepDrivesNothing t) :
    Kept s t where
  present := htrip ▸ id
  queues h p := by rw [hnotices]; exact h p
  rights := hconfig ▸ id
  counters h := by unfold countersFit; rw [hticks, hconfig]; exact h
  scanTicks := hscan
  steps := hsteps

/-- A change elsewhere keeps all six. -/
theorem elsewhere (h : concernedFields t = concernedFields s) : Kept s t := by
  simp only [concernedFields, Prod.mk.injEq] at h
  obtain ⟨hstate, hpresent, hnotices, hprofiles, hinUse, hwritten, hticks, hscan, hbase, hsources, hreports, hengine, htable,
    harrivals⟩ := h
  refine ⟨fun h => ?_, fun h => ?_, fun h => ?_, fun h => ?_, fun h => ?_, fun h => ?_⟩
  · unfold normalHasNoCause; rw [hstate, hpresent]; exact h
  · unfold queuesFit; rw [hnotices]; exact h
  · unfold configureHeld; rw [hprofiles, hinUse]; exact h
  · unfold countersFit; rw [hticks, hwritten]; exact h
  · unfold noTickInScan; rw [hscan, hbase, hsources]; exact h
  · unfold stepDrivesNothing stepsUnderWay; rw [hscan, hreports, hengine, htable, harrivals]; exact h

end Kept

/-! Updates of one block. -/

section Updates

variable {s : State}

theorem ports_kept (s : State) (v : Vector PortUnit 4) : Kept s { s with ports := v } := .elsewhere rfl

theorem onTrip_kept {f : TripUnit → TripUnit} (hf : normalHasNoCause s.trip → normalHasNoCause (f s.trip)) :
    Kept s (s.onTrip f) := ⟨hf, id, id, id, id, id⟩

theorem onConfig_kept {f : ConfigStore → ConfigStore} (hrights : configureHeld s.config → configureHeld (f s.config))
    (hticks : (∀ src : SourceId, 0 < s.config.ticks[src]) → ∀ src : SourceId, 0 < (f s.config).ticks[src]) :
    Kept s (s.onConfig f) :=
  ⟨id, id, hrights, fun ⟨hbase, hcounters, hdividers⟩ => ⟨hbase, hcounters, hticks hdividers⟩, id, id⟩

/-- R18: a step that moves no engine state and hands the permit table no further change to RUNNING, with no more steps under way. -/
theorem stepDrivesNothing_mono {t : State} (hengine : t.engine.state = s.engine.state) (htable : t.table.engine = s.table.engine)
    (harrivals : PermitArrival.engineChange .running ∈ t.flight.toPermit → PermitArrival.engineChange .running ∈ s.flight.toPermit)
    (hn : stepsUnderWay t ≤ stepsUnderWay s) (h : stepDrivesNothing s) : stepDrivesNothing t := by
  obtain ⟨hidle, hstepping⟩ := h
  refine ⟨fun he => Nat.le_zero.mp (hidle (hengine ▸ he) ▸ hn), fun he => ?_⟩
  obtain ⟨hone, hoff, hnone⟩ := hstepping (hengine ▸ he)
  exact ⟨hn.trans hone, htable ▸ hoff, hnone ∘ harrivals⟩

/-- R18: outside STEPPING, with no step under way, there is nothing more to keep. -/
theorem stepDrivesNothing_outside (he : s.engine.state ≠ .stepping) (hn : stepsUnderWay s = 0) : stepDrivesNothing s :=
  ⟨fun _ => hn, fun h => absurd h he⟩

/-- A change of the permit table that keeps the engine state it holds. -/
theorem onTable_kept {f : PermitTable → PermitTable} (hf : (f s.table).engine = s.table.engine) : Kept s (s.onTable f) :=
  ⟨id, id, id, id, id, stepDrivesNothing_mono rfl hf id (le_refl (stepsUnderWay s))⟩

/-- An event at the permit table that keeps the engine state it holds. -/
theorem commitWork_kept (count : PassCount) {w : TableWork} (hw : w.table.engine = s.table.engine) :
    Kept s (commitWork count w s) :=
  (onTable_kept (f := fun _ => w.table) hw).trans (.elsewhere rfl)

/-- Arrivals that leave the way to the permit table. -/
theorem toPermit_kept {l : List PermitArrival} (hl : ∀ a ∈ l, a ∈ s.flight.toPermit) :
    Kept s (s.onFlight fun f => { f with toPermit := l }) :=
  ⟨id, id, id, id, id, stepDrivesNothing_mono rfl rfl (hl _) (le_refl (stepsUnderWay s))⟩

end Updates

/-! Events and requests. -/

section Requests

variable {s₀ s : State}

theorem kept_portFree : PortFree (Kept s₀) := fun s port x h => h.trans (ports_kept s (s.ports.set port x))

theorem event_kept {f : State → State} (hf : ∀ s, Kept s (f s)) : Kept s (s.unlessReset f) :=
  unlessReset_keeps (P := Kept s) (fun t _ h => h.trans (hf t)) (.refl s)

theorem request_kept {port : Port} {c : Instr} {echo : Byte} {n : Nat} {body : Bool → Body}
    (hb : ∀ live, BodyKeeps (Kept s) (body live)) : Kept s (serveWith port c echo n body s) :=
  serveWith_keeps kept_portFree hb (.refl s)

theorem serve_kept {port : Port} {c : Instr} {echo : Byte} {n : Nat} {body : Body} (hb : BodyKeeps (Kept s) body) :
    Kept s (serve port c echo n body s) := request_kept fun _ => hb

theorem body_kept {body : Body} (hb : ∀ s, Kept s (body s).1) : BodyKeeps (Kept s₀) body := fun s h => h.trans (hb s)

theorem halted_kept {body : Body} (hb : ∀ s, s.engine.state = .halted → Kept s (body s).1) :
    BodyKeeps (Kept s₀) (needHalted body) := needHalted_keeps fun s he h => h.trans (hb s he)

theorem takePart_kept (port : Port) (kind : Byte) (part : TransactionPart) (s : State) : Kept s (takePart port kind part s) := by
  obtain ⟨x, e⟩ := takePart_port port kind part s
  rw [e]; exact ports_kept ..

/-- A check of an operand before the rest of a request. -/
theorem refusedUnless_kept {c : Prop} [Decidable c] {reason : Reason} {body : Body} (hb : BodyKeeps (Kept s₀) body) :
    BodyKeeps (Kept s₀) fun s => if c then body s else refused s reason := by
  intro s h; simp only; split
  · exact hb s h
  · exact h

end Requests

/-! The clock (R93, R94). -/

/-- R94: a counter below its divider stays below it at a base tick. -/
theorem advance_fits {g : TickGen} {src : SourceId} (h : g.counters[src] < g.dividers[src]) :
    g.advance.counters[src] < g.dividers[src] := by
  simp only [TickGen.advance, get_ofFn, TickGen.reaches, decide_eq_true_eq]
  split <;> omega

theorem baseTick_kept (s : State) : Kept s (baseTick s) := by
  refine ⟨id, id, id, fun ⟨_, hcounters, hdividers⟩ => ?_, fun hnone hbusy => ?_, id⟩
  · exact ⟨Nat.zero_lt_succ 799, fun src => advance_fits (hcounters src), hdividers⟩
  · have hdeaf : s.scan.hearsTicks = false := by
      simp only [ScanUnit.hearsTicks, show s.scan.state ≠ .idle from hbusy, decide_false, Bool.and_false]
    obtain ⟨hbase, hsources⟩ := hnone hbusy
    exact ⟨by simpa only [baseTick, hdeaf, Bool.false_eq_true, if_false] using hbase, hsources⟩

theorem referencePeriod_kept (s : State) : Kept s (referencePeriod s) := by
  unfold referencePeriod; split
  · next hlt => exact ⟨id, id, id, fun ⟨_, hrest⟩ => ⟨hlt, hrest⟩, id, id⟩
  · exact baseTick_kept s

theorem takeSourceTick_kept (src : SourceId) (s : State) : Kept s (takeSourceTick src s) := by
  unfold takeSourceTick; split
  · refine ⟨id, id, id, id, fun hnone hbusy => ?_, id⟩
    have hdeaf : s.scan.hearsTicks = false := by
      simp only [ScanUnit.hearsTicks, show s.scan.state ≠ .idle from hbusy, decide_false, Bool.and_false]
    obtain ⟨hbase, hsources⟩ := hnone hbusy
    exact ⟨hbase, by simpa only [flight_onFlight, InFlight.deliverTick, hdeaf, Bool.false_eq_true, if_false] using hsources⟩
  · exact .refl s

/-- R94: the counters of a restarted tick generator. -/
theorem restart_fits {dividers ticks : Vector Nat 4} (hdividers : ∀ src : SourceId, 0 < dividers[src])
    (hticks : ∀ src : SourceId, 0 < ticks[src]) : (TickGen.restart dividers).baseDivider < 800 ∧
      (∀ src : SourceId, (TickGen.restart dividers).counters[src] < (TickGen.restart dividers).dividers[src]) ∧
      ∀ src : SourceId, 0 < ticks[src] :=
  ⟨Nat.zero_lt_succ 799, fun src => (get_replicate 0 src).symm ▸ hdividers src, hticks⟩

/-! The scan unit (R10, R11, R33). -/

/-- The steps among the reports of passes on their way. -/
def stepReports (l : List PassReport) : Nat := l.countP fun r => decide (r.kind = .step)

theorem stepsUnderWay_idle {s : State} (h : s.scan.state = .idle) : stepsUnderWay s = stepReports s.flight.passReports := by
  simp only [stepsUnderWay, h, Nat.zero_add]; rfl

theorem stepsUnderWay_scanning {s : State} {sc : Scan} (h : s.scan.state = .inProgress sc) :
    stepsUnderWay s = (if sc.kind = .step then 1 else 0) + stepReports s.flight.passReports := by
  simp only [stepsUnderWay, h]; rfl

theorem stepReports_append (l : List PassReport) (r : PassReport) :
    stepReports (l ++ [r]) = (if r.kind = .step then 1 else 0) + stepReports l := by
  simp only [stepReports, List.countP_append, List.countP_singleton, decide_eq_true_eq, Nat.add_comm]

theorem stepReports_cons (r : PassReport) (l : List PassReport) :
    stepReports (r :: l) = stepReports l + if r.kind = .step then 1 else 0 := by
  simp only [stepReports, List.countP_cons, decide_eq_true_eq]

theorem beginScan_noTick (kind : ScanKind) (s : State) : noTickInScan (beginScan kind s) := fun _ =>
  ⟨rfl, fun src => get_replicate 0 src⟩

/-- R9: a RUN scan that begins in an idle scan unit is no step. -/
theorem beginRunScan_kept {s : State} (hidle : s.scan.state = .idle) : Kept s (beginScan .run s) := by
  refine ⟨id, id, id, id, fun _ => beginScan_noTick .run s, stepDrivesNothing_mono rfl rfl id ?_⟩
  rw [stepsUnderWay_idle hidle, stepsUnderWay_scanning (s := beginScan .run s) rfl]
  exact (Nat.zero_add _).le

theorem dropTriggerTick_kept (tick : TriggerTick) (s : State) : Kept s (s.onFlight fun f => f.dropTriggerTick tick) := by
  cases tick with
  | base =>
    refine ⟨id, id, id, id, fun hnone hbusy => ?_, id⟩
    obtain ⟨hbase, hsources⟩ := hnone hbusy
    exact ⟨by simp only [flight_onFlight, InFlight.dropTriggerTick, hbase], hsources⟩
  | source src =>
    refine ⟨id, id, id, id, fun hnone hbusy => ?_, id⟩
    obtain ⟨hbase, hsources⟩ := hnone hbusy
    refine ⟨hbase, fun x => ?_⟩
    simp only [flight_onFlight, InFlight.dropTriggerTick, get_set, hsources, ite_self]

theorem takeTrigger_kept (tick : TriggerTick) (s : State) : Kept s (takeTrigger tick s) := by
  unfold takeTrigger; split
  · exact .refl s
  · have hdropped := dropTriggerTick_kept tick s
    simp only; split
    · next hstarts =>
      obtain ⟨_, _, hidle, _⟩ := (startsRunScan_iff tick s).mp hstarts
      exact hdropped.trans (beginRunScan_kept hidle)
    · exact hdropped

theorem convert_kind (e : ChannelEntry) (c : ChannelId) (rest : List ChannelId) (ain : Vector Int 12) (sc : Scan) :
    (sc.convert e c rest ain).kind = sc.kind := by
  unfold Scan.convert; simp only; split <;> rfl

theorem takeConversion_kept (ain : Vector Int 12) (s : State) : Kept s (takeConversion ain s) := by
  cases hs : s.scan.state with
  | idle => simp only [takeConversion, hs]; exact .refl s
  | inProgress sc =>
    cases ht : sc.todo with
    | nil => simp only [takeConversion, hs, ht]; exact .refl s
    | cons c rest =>
      rw [takeConversion_converting hs ht]
      refine ⟨id, id, id, id, fun hnone _ => hnone (by rw [hs]; nofun), stepDrivesNothing_mono rfl rfl id ?_⟩
      rw [stepsUnderWay_scanning rfl, stepsUnderWay_scanning hs, convert_kind]

/-- R33: a scan that ends gives way to the report of its pass, which is of the same kind. -/
theorem stepsUnderWay_endScan {s t : State} {sc : Scan} {r : PassReport} (hs : s.scan.state = .inProgress sc)
    (hidle : t.scan.state = .idle) (hreports : t.flight.passReports = s.flight.passReports ++ [r]) (hr : r.kind = sc.kind) :
    stepsUnderWay t = stepsUnderWay s := by
  rw [stepsUnderWay_idle hidle, stepsUnderWay_scanning hs, hreports, stepReports_append, hr]

theorem deliverPass_kept {s : State} {sc : Scan} (hs : s.scan.state = .inProgress sc) (din pfb : Word16)
    (pend : Vector TermPending 24) : Kept s (deliverPass sc din pfb pend s) := by
  refine ⟨id, id, id, id, fun _ hbusy => absurd rfl hbusy,
    stepDrivesNothing_mono rfl rfl (fun hmem => ?_) (stepsUnderWay_endScan hs rfl rfl rfl).le⟩
  simpa only [deliverPass, InFlight.deliverPass, List.mem_append, List.mem_singleton, reduceCtorEq, or_false] using hmem

theorem discardPass_kept {s : State} {sc : Scan} (hs : s.scan.state = .inProgress sc) (hit0 hit1 : Bool)
    (pend : Vector TermPending 24) : Kept s (discardPass sc.kind hit0 hit1 pend s) :=
  ⟨id, id, id, id, fun _ hbusy => absurd rfl hbusy,
    stepDrivesNothing_mono rfl rfl id (stepsUnderWay_endScan hs rfl rfl rfl).le⟩

theorem takePass_kept (din pfb : Word16) (s : State) : Kept s (takePass din pfb s) := by
  unfold takePass; split
  · exact .refl s
  · next sc hs =>
    split
    · unfold runPass; simp only; split
      · exact discardPass_kept hs ..
      · exact deliverPass_kept hs ..
    · exact .refl s

theorem takeScanChange_kept (s : State) : Kept s (takeScanChange s) := by
  unfold takeScanChange; split
  · exact .refl s
  · exact .elsewhere rfl

/-! The permit table (R18). -/

theorem takeOldestResult_kept (s : State) : Kept s (takeOldestResult s) := by
  unfold takeOldestResult; split
  · next r rest hfirst =>
    exact (toPermit_kept fun a ha => hfirst ▸ List.mem_cons_of_mem _ ha).trans (commitWork_kept _ (tablePassResult_engine ..))
  · exact .refl s

/-- R58, R133: no change that reaches the permit table in STEPPING is one to RUNNING. -/
theorem takeTableChange_kept (s : State) : Kept s (takeTableChange s) := by
  unfold takeTableChange; split
  · exact .refl s
  · next e rest hfirst =>
    obtain ⟨before, after, hsplit, hrest, _⟩ := (firstEngineChange_iff ..).mp hfirst
    refine ⟨id, id, id, id, id, fun ⟨hidle, hstepping⟩ => ⟨hidle, fun he => ?_⟩⟩
    obtain ⟨hone, _, harrivals⟩ := hstepping he
    obtain ⟨htable, hleft, _⟩ := takeEngineChange_spec e (s.onFlight fun f => { f with toPermit := rest })
    rw [hsplit] at harrivals
    refine ⟨hone, ?_, fun hmem => harrivals ?_⟩
    · rw [htable]
      rintro rfl
      exact harrivals (List.mem_append_right _ List.mem_cons_self)
    · rw [hleft, flight_onFlight, hrest] at hmem
      exact (List.mem_append.mp hmem).elim (List.mem_append_left _) fun h => List.mem_append_right _ (List.mem_cons_of_mem _ h)

theorem applyPermitTick_kept (src : SourceId) (s : State) : Kept s (applyPermitTick src s) :=
  commitWork_kept _ (tableTick_engine ..)

theorem takePermitTickIf_kept (happens : Bool) (src : SourceId) (s : State) : Kept s (takePermitTickIf happens src s) := by
  unfold takePermitTickIf; split
  · exact (applyPermitTick_kept src _).after (.elsewhere rfl)
  · exact .refl s

theorem tripDeliveries_kept (l : List TripDelivery) (s : State) : Kept s (s.onFlight fun f => { f with tripDeliveries := l }) :=
  .elsewhere rfl

theorem takeTripEntry_kept (s : State) : Kept s (takeTripEntry s) := by
  unfold takeTripEntry; split
  · obtain ⟨_, hengine, _⟩ := tableTripEntry_spec s.config s.table
    exact (onTable_kept hengine).trans (tripDeliveries_kept ..)
  · exact .refl s

theorem takeTripClearing_kept (s : State) : Kept s (takeTripClearing s) := by
  unfold takeTripClearing; split
  · exact (onTable_kept rfl).trans (tripDeliveries_kept ..)
  · exact .refl s

theorem claimBody_kept (port : Port) (permit priority wait : Byte) (epoch : Word16) (s : State) :
    Kept s (claimBody port permit priority wait epoch s).1 := by
  unfold claimBody; split
  · split
    · exact .refl s
    · unfold admitClaim; simp only; split
      · exact onTable_kept rfl
      · split
        · exact .refl s
        · exact commitWork_kept _ (grantExamination_engine ..)
  · exact .refl s

theorem changeRecord_engine (c : ConfigStore) (p : PermitId) (r : PermitRecord) (t : PermitTable) :
    (changeRecord c p r t).engine = t.engine := by
  obtain ⟨_, hengine, _⟩ := changeRecord_records c p r t
  exact hengine

theorem releaseBody_kept (port : Port) (p : PermitId) (s : State) : Kept s (releaseBody port p s).1 := by
  unfold releaseBody; simp only; split
  · exact commitWork_kept _ ((grantExamination_engine ..).trans (changeRecord_engine ..))
  · split
    · exact onTable_kept rfl
    · exact .refl s

theorem refreshBody_kept (port : Port) (p : PermitId) (s : State) : Kept s (refreshBody port p s).1 := by
  unfold refreshBody; simp only; split
  · exact .refl s
  · exact onTable_kept rfl

theorem refreshAllBody_kept (port : Port) (s : State) : Kept s (refreshAllBody port s).1 :=
  onTable_kept (f := fun t => { t with records := t.records.map (PermitRecord.refresh port) }) rfl

theorem revokeBody_kept (p : PermitId) (s : State) : Kept s (revokeBody p s).1 :=
  commitWork_kept _ ((grantExamination_engine ..).trans (changeRecord_engine ..))

theorem unlockBody_kept (p : PermitId) (s : State) : Kept s (unlockBody p s).1 := by
  unfold unlockBody; simp only; split
  · exact commitWork_kept _ (grantExamination_engine ..)
  · exact .refl s

end Sys2Proof.Proofs
end

section
/-! SUPPORT. The trip unit and the engine controller keep the six properties (R38, R109 to R119, R126 to R133): a cause enters TRIPPED, and
a step under way ends with the report of its pass. -/

namespace Sys2Proof.Proofs

open Sys2Proof Sys2Proof.Machine Sys2Proof.Laws

/-! The trip unit (R109). -/

theorem enterTrip_kept (causes : CauseSet) (first : TripCause) (count : PassCount) (s : State) :
    Kept s (enterTrip causes first count s) :=
  ⟨fun _ h => (nomatch h), id, id, id, id, id⟩

theorem addCauses_kept {s : State} (h : s.trip.state = .tripped) (causes : CauseSet) : Kept s (s.onTrip (TripUnit.add causes)) :=
  onTrip_kept fun _ hnormal => nomatch h.symm.trans hnormal

theorem causeArrives_kept (cause : TripCause) (s : State) : Kept s (causeArrives cause s) := by
  unfold causeArrives; split
  · exact enterTrip_kept ..
  · next htripped => exact addCauses_kept htripped _

theorem firstFaulted_eq_none {faulted : BitVec 12} (h : firstFaulted faulted = none) : faulted = 0#12 := by
  refine BitVec.eq_of_getLsbD_eq fun i hi => ?_
  simpa using List.find?_eq_none.mp h ⟨i, hi⟩ (mem_allChannels _)

/-- R112: in NORMAL a report that names no channel newly faulted names none, as the present set is empty. -/
theorem setFaults_kept {faulted : BitVec 12} {s : State}
    (h : s.trip.state = .normal → faulted &&& ~~~s.trip.present.channelFault = 0#12) :
    Kept s (s.onTrip (TripUnit.setFaults faulted)) := by
  refine onTrip_kept fun hpresent hnormal => ?_
  have hempty : s.trip.present = .empty := hpresent hnormal
  have hnone := h hnormal
  rw [hempty] at hnone
  have hfaulted : faulted = 0#12 := (BitVec.and_allOnes).symm.trans hnone
  simp only [TripUnit.setFaults, hempty, hfaulted, CauseSet.empty]

theorem applyFaultReport_kept (r : FaultReport) (s : State) : Kept s (applyFaultReport r s) := by
  unfold applyFaultReport; simp only; split
  · next htripped =>
    have hfaults : Kept s (s.onTrip (TripUnit.setFaults r.faulted)) :=
      setFaults_kept fun hnormal => nomatch htripped.symm.trans hnormal
    exact hfaults.trans (addCauses_kept (s := s.onTrip (TripUnit.setFaults r.faulted)) htripped _)
  · split
    · next hnone => exact setFaults_kept fun _ => hnone
    · split
      · next hnone => exact setFaults_kept fun _ => by rw [firstFaulted_eq_none hnone, BitVec.zero_and]
      · exact ⟨fun _ h => (nomatch h), id, id, id, id, id⟩

theorem takeFaultReport_kept (s : State) : Kept s (takeFaultReport s) := by
  unfold takeFaultReport; split
  · exact .refl s
  · exact (applyFaultReport_kept ..).after (.elsewhere rfl)

theorem takeDeadlineRestart_kept (s : State) : Kept s (takeDeadlineRestart s) := by
  unfold takeDeadlineRestart; split
  · exact .refl s
  · exact .elsewhere rfl

theorem applyTripTick_kept (s : State) : Kept s (applyTripTick s) := by
  have hcounted : Kept s (s.onTrip fun u => { u with deadline := u.deadline - 1 }) := .elsewhere rfl
  unfold applyTripTick; split
  · simp only; split
    · exact hcounted.trans (causeArrives_kept ..)
    · exact hcounted
  · exact .refl s

theorem takeTripTick_kept (s : State) : Kept s (takeTripTick s) := by
  unfold takeTripTick; split
  · exact .refl s
  · exact (applyTripTick_kept _).after (.elsewhere rfl)

theorem takeTripCause_kept (s : State) : Kept s (takeTripCause s) := by
  unfold takeTripCause; split
  · exact .refl s
  · exact (causeArrives_kept ..).after (.elsewhere rfl)

theorem tripInInactive_kept (s : State) :
    Kept s (s.onTrip fun u => { u with present := { u.present with tripIn := false } }) :=
  onTrip_kept fun hpresent hnormal => by rw [hpresent hnormal]; rfl

theorem clearTripBody_kept (s : State) : Kept s (clearTripBody s).1 := by
  unfold clearTripBody; split
  · exact .refl s
  · split
    · exact .refl s
    · exact ⟨fun _ _ => rfl, id, id, id, id, id⟩

/-! The engine controller (R126 to R133). -/

/-- R133 step 4: the answer at the end of a step changes the ports alone. -/
theorem endStep_ports (count : PassCount) (s : State) : ∃ v : Vector PortUnit 4, endStep count s =
    { (s.onEngine fun u => { u with state := .halted, stepPort := none }).onFlight (InFlight.tellBoth .halted) with ports := v } := by
  unfold endStep; simp only; split
  · exact ⟨_, rfl⟩
  · next port _ => exact (answerIn_port port 0x32#8 true _ _).imp' _ fun _ => id

/-- The blocks that the report of a pass leaves as they stand, the step's scan and reports among them. -/
theorem applyReport_scan (r : PassReport) (s : State) : (applyReport r s).scan = s.scan ∧
    (applyReport r s).flight.passReports = s.flight.passReports ∧ (applyReport r s).flight.scanBaseTicks = s.flight.scanBaseTicks ∧
    (applyReport r s).flight.scanTicks = s.flight.scanTicks := by
  unfold applyReport; split
  · next count _ =>
    unfold deliveredReport; split
    · exact ⟨rfl, rfl, rfl, rfl⟩
    · exact ⟨rfl, rfl, rfl, rfl⟩
    · split <;> exact ⟨rfl, rfl, rfl, rfl⟩
    · split
      · obtain ⟨v, e⟩ := endStep_ports count s
        rw [e]; exact ⟨rfl, rfl, rfl, rfl⟩
      · exact ⟨rfl, rfl, rfl, rfl⟩
  · unfold discardedReport; simp only; split <;> exact ⟨rfl, rfl, rfl, rfl⟩

/-- R38: at the report of a pass the engine stays in its state, with the changes on their way, or enters HALTED, from STEPPING only at the
report of a step. -/
theorem applyReport_engine (r : PassReport) (s : State) :
    ((applyReport r s).engine.state = s.engine.state ∧ (applyReport r s).flight.toPermit = s.flight.toPermit) ∨
      ((applyReport r s).engine.state = .halted ∧ (s.engine.state = .stepping → r.kind = .step)) := by
  unfold applyReport; split
  · next count _ =>
    unfold deliveredReport; split
    · exact .inl ⟨rfl, rfl⟩
    · exact .inl ⟨rfl, rfl⟩
    · next he =>
      split
      · exact .inl ⟨rfl, rfl⟩
      · exact .inr ⟨rfl, fun h => nomatch he.symm.trans h⟩
    · split
      · next hstep =>
        obtain ⟨v, e⟩ := endStep_ports count s
        rw [e]; exact .inr ⟨rfl, fun _ => hstep⟩
      · exact .inl ⟨rfl, rfl⟩
  · unfold discardedReport; simp only; split
    · next he => exact .inr ⟨rfl, fun h => nomatch he.symm.trans h⟩
    · next he => exact .inr ⟨rfl, fun h => nomatch he.symm.trans h⟩
    · exact .inl ⟨rfl, rfl⟩
    · exact .inl ⟨rfl, rfl⟩

/-- R38, R133: the report that ends STEPPING is that of the step under way. -/
theorem takeReport_kept (s : State) : Kept s (takeReport s) := by
  unfold takeReport; split
  · exact .refl s
  · next r rest hfirst =>
    obtain ⟨hconfig, htable, htrip, hticks, _, hnotices⟩ := applyReport_rest r (s.onFlight fun f => { f with passReports := rest })
    obtain ⟨hscan, hreports, hbase, hsources⟩ := applyReport_scan r (s.onFlight fun f => { f with passReports := rest })
    have hengine := applyReport_engine r (s.onFlight fun f => { f with passReports := rest })
    generalize applyReport r (s.onFlight fun f => { f with passReports := rest }) = t at *
    have hsteps : stepsUnderWay s = stepsUnderWay t + if r.kind = .step then 1 else 0 := by
      have hlast := stepReports_cons r rest
      unfold stepReports at hlast
      unfold stepsUnderWay
      rw [hscan, hreports, hfirst, hlast, Nat.add_assoc]; rfl
    refine .of_rest htrip hnotices hconfig hticks (fun hnone hbusy => ?_) fun hs => ?_
    · rw [hscan] at hbusy
      rw [hbase, hsources]; exact hnone hbusy
    · rcases hengine with ⟨hkept, harrivals⟩ | ⟨hhalted, hlast⟩
      · exact stepDrivesNothing_mono (s := s) hkept (htable ▸ rfl) (harrivals ▸ id) (by omega) hs
      · refine stepDrivesNothing_outside (by rw [hhalted]; nofun) ?_
        by_cases he : s.engine.state = .stepping
        · have hone := (hs.2 he).1
          rw [if_pos (hlast he)] at hsteps
          omega
        · have hzero := hs.1 he
          omega

/-- R38: a report that finds HALTED, and the reports behind it, leave the engine there. -/
theorem drainReports_halted {s : State} (he : s.engine.state = .halted) : (drainReports s).engine.state = .halted ∧
    (drainReports s).scan = s.scan ∧ (drainReports s).flight.passReports = [] := by
  unfold drainReports
  refine fold_keeps (P := fun t => t.engine.state = .halted ∧ t.scan = s.scan ∧ t.flight.passReports = [])
    (fun t r ⟨hhalted, hscan, hreports⟩ => ?_) _ ⟨he, rfl, rfl⟩
  obtain ⟨hscan', hreports', _⟩ := applyReport_scan r t
  refine ⟨?_, hscan'.trans hscan, hreports'.trans hreports⟩
  rcases applyReport_engine r t with ⟨hkept, _⟩ | ⟨hhalted', _⟩
  · exact hkept.trans hhalted
  · exact hhalted'

theorem stepReports_markOld (l : List PassReport) : stepReports (l.map PassReport.markOld) = stepReports l := List.countP_map ..

theorem haltBody_kept (port : Port) (s : State) : Kept s (haltBody port s).1 := by
  unfold haltBody; split
  · next he =>
    have hnone : s.engine.state ≠ .stepping := by rw [he]; nofun
    split
    · exact ⟨id, id, id, id, id, fun h => stepDrivesNothing_outside nofun (h.1 hnone)⟩
    · refine ⟨id, id, id, id, id, fun h => stepDrivesNothing_outside nofun (.trans ?_ (h.1 hnone))⟩
      exact congrArg (Nat.add _) (stepReports_markOld s.flight.passReports)
  · exact .refl s

theorem withdrawHalt_kept {s : State} (he : s.engine.state = .halting) : Kept s (withdrawHalt s) :=
  ⟨id, id, id, id, id, fun h => stepDrivesNothing_outside nofun (h.1 (by rw [he]; nofun))⟩

theorem drainPermit_reports (s : State) : (drainPermit s).flight.passReports = s.flight.passReports := by
  unfold drainPermit
  refine fold_keeps (P := fun t => t.flight.passReports = s.flight.passReports) (fun t a h => ?_) _ rfl
  cases a <;> exact h

/-- R131: what was handed on before an accepted RESUME is taken, and leaves these blocks as they stand. -/
theorem resume_drained {s : State} (he : s.engine.state = .halted) : ∃ u, u = drainPermit (drainReports s) ∧
    u.config = s.config ∧ u.trip = s.trip ∧ u.ticks = s.ticks ∧ u.notices = s.notices ∧ u.scan = s.scan ∧
    u.flight.passReports = [] := by
  obtain ⟨hconfig, _, htrip, hticks, _, hnotices⟩ := drainReports_rest s
  obtain ⟨_, hscan, hreports⟩ := drainReports_halted he
  have hkept := drainPermit_reports (drainReports s)
  obtain ⟨t, f, e⟩ := drainPermit_rest (drainReports s)
  rw [e] at hkept ⊢
  exact ⟨_, rfl, hconfig, htrip, hticks, hnotices, hscan, hkept.trans hreports⟩

/-- R131, block by block. -/
theorem resumeState_blocks (commits : Bool) (s : State) :
    let u := drainPermit (drainReports s)
    let t := resumeState commits s
    t.trip = { u.trip with deadline := t.trip.deadline } ∧ t.notices = u.notices ∧
    t.config = (if commits then u.config.commit else u.config) ∧
    t.ticks = (if commits then .restart u.config.ticks else u.ticks) ∧
    t.engine.state = .running ∧ t.scan.state = u.scan.state ∧ t.flight.passReports = u.flight.passReports ∧
    t.flight.scanBaseTicks = 0 ∧ t.flight.scanTicks = Vector.replicate 4 0 := by
  cases commits <;> exact ⟨rfl, rfl, rfl, rfl, rfl, rfl, rfl, rfl, rfl⟩

/-- R153, R159: a commit puts the profiles in use that the table carries. -/
theorem commit_configureHeld {c : ConfigStore} (h : configureHeld c) : configureHeld c.commit := ⟨h.1, h.1⟩

theorem resumeState_kept (commits : Bool) {s : State} (he : s.engine.state = .halted) : Kept s (resumeState commits s) := by
  obtain ⟨u, hu, hconfig, htrip, hticks, hnotices, hscan, hreports⟩ := resume_drained he
  have hblocks := resumeState_blocks commits s
  simp only [← hu] at hblocks
  generalize resumeState commits s = t at *
  obtain ⟨ttrip, tnotices, tconfig, tticks, tengine, tscan, treports, tbase, tsources⟩ := hblocks
  refine ⟨fun h => ?_, fun h p => ?_, fun h => ?_, fun h => ?_, fun _ _ => ?_, fun h => ?_⟩
  · rw [ttrip, htrip]; exact h
  · rw [tnotices, hnotices]; exact h p
  · rw [tconfig, hconfig]; split
    · exact commit_configureHeld h
    · exact h
  · obtain ⟨hbase, hcounters, hdividers⟩ := h
    unfold countersFit
    rw [tconfig, tticks, hconfig, hticks]; split
    · exact restart_fits hdividers hdividers
    · exact ⟨hbase, hcounters, hdividers⟩
  · rw [tbase, tsources]; exact ⟨rfl, fun src => get_replicate 0 src⟩
  · refine stepDrivesNothing_outside (by rw [tengine]; nofun) (Nat.le_zero.mp ?_)
    have hzero := h.1 (by rw [he]; nofun)
    unfold stepsUnderWay at hzero ⊢
    rw [tscan, treports, hscan, hreports]
    exact (Nat.add_eq_zero_iff.mp hzero).1.le

theorem resumeBody_kept (s : State) : Kept s (resumeBody s).1 := by
  unfold resumeBody; split
  · exact .refl s
  · next he => exact withdrawHalt_kept he
  · exact .refl s
  · next he =>
    split
    · split
      · exact .refl s
      · exact resumeState_kept true he
    · exact resumeState_kept false he

/-- R133: the step that begins is the only one under way, and the permit table has left RUNNING. -/
theorem beginStep_kept (answers : Option Port) {s : State} (he : s.engine.state = .halted) : Kept s (beginStep answers s) := by
  obtain ⟨htable, harrivals, hreports⟩ := beginStep_table answers s
  obtain ⟨htrip, hnotices, hconfig, hticks⟩ : (beginStep answers s).trip = s.trip ∧ (beginStep answers s).notices = s.notices ∧
      (beginStep answers s).config = s.config ∧ (beginStep answers s).ticks = s.ticks :=
    beginStep_keeps (P := fun t => t.trip = s.trip ∧ t.notices = s.notices ∧ t.config = s.config ∧ t.ticks = s.ticks)
      (fun _ _ => id) (fun _ _ => id) (fun _ _ => id) (fun _ _ => id) answers ⟨rfl, rfl, rfl, rfl⟩
  refine .of_rest htrip hnotices hconfig hticks (fun _ => beginScan_noTick _ _) fun h => ?_
  have hzero := h.1 (by rw [he]; nofun)
  have hone : stepsUnderWay (beginStep answers s) = 1 := by
    have hnone : stepReports s.flight.passReports = 0 := (Nat.add_eq_zero_iff.mp hzero).2
    rw [stepsUnderWay_scanning rfl, hreports, hnone]; rfl
  have hstepping : (beginStep answers s).engine.state = .stepping := by
    obtain ⟨t, f, e⟩ := takeEngineChanges_rest
      ((s.onEngine fun u => { u with state := .stepping, stepPort := answers }).onFlight (InFlight.tellTable .stepping))
    exact congrArg (fun t => t.engine.state) e
  exact ⟨fun hne => absurd hstepping hne, fun _ => ⟨hone.le, by rw [htable]; nofun, harrivals _⟩⟩

theorem stepBody_kept (port : Port) (live : Bool) (s : State) : Kept s (stepBody port live s).1 := by
  unfold stepBody; split
  · exact .refl s
  · exact .refl s
  · exact .refl s
  · next he =>
    split
    · exact .refl s
    · exact beginStep_kept _ he

theorem injectChannelBody_kept (c : ChannelId) (v : Int) (s : State) : Kept s (injectChannelBody c v s).1 := by
  unfold injectChannelBody; simp only; split
  · exact .refl s
  · exact .elsewhere rfl

theorem clearInjectBody_kept (port : Port) (selection number : Byte) {s₀ : State} :
    BodyKeeps (Kept s₀) (clearInjectBody port selection number) := by
  unfold clearInjectBody; split
  · exact needRight_keeps (halted_kept fun _ _ => .elsewhere rfl)
  · exact needNumber_keeps fun _ => needRight_keeps (halted_kept fun _ _ => .elsewhere rfl)
  · exact needNumber_keeps fun _ => needRight_keeps (halted_kept fun _ _ => .elsewhere rfl)
  · exact body_kept .refl

end Sys2Proof.Proofs
end

section
/-! SUPPORT. Notices, writes and resets keep the six properties (R94, R141 to R144, R150, R153, R178), and so does every command. -/

namespace Sys2Proof.Proofs

open Sys2Proof Sys2Proof.Machine Sys2Proof.Laws

/-! Notices (R178). -/

theorem takeNotice_kept (maker : NoticeMaker) (port : Port) (s : State) : Kept s (takeNotice maker port s) := by
  unfold takeNotice; split
  · exact .refl s
  · refine ⟨id, fun h p => ?_, id, id, id, id⟩
    simp only [notices_onNotices, notices_onFlight, get_set]
    split
    · exact arrive_fits _ _ (h port)
    · exact h p

theorem readNoticeBody_kept (port : Port) (s : State) : Kept s (readNoticeBody port s).1 := by
  have hset : ∀ q : NoticeQueue, q.queue.length ≤ s.notices[port].queue.length → queuesFit s →
      queuesFit { s with notices := s.notices.set port q } := by
    intro q hq h p
    simp only [get_set]
    split
    · exact hq.trans (h port)
    · exact h p
  unfold readNoticeBody; simp only; split
  · exact ⟨id, hset _ (Nat.zero_le _), id, id, id, id⟩
  · next hqueue => exact ⟨id, hset _ (by rw [hqueue]; exact Nat.le_succ _), id, id, id, id⟩

theorem arriveEverywhere_kept (b : NoticeBody) (count : PassCount) (s : State) : Kept s (arriveEverywhere b count s) :=
  ⟨id, fun h p => (get_map _ s.notices p).symm ▸ arrive_fits _ _ (h p), id, id, id, id⟩

/-! Writes (R94, R150, R153). -/

section Writes

variable {s : State}

theorem acceptWrite_kept (table index : Byte) {f : State → State} (hf : Kept s (f s)) : Kept s (acceptWrite table index f s).1 := by
  have hflag : Kept (f s) ((f s).onConfig fun c => { c with modified := true }) := onConfig_kept id id
  exact hf.trans hflag

theorem write_kept {α : Type} {n : Nat} {port : Port} {index : Byte} {entry : Except FieldNo α} {body : Fin n → α → Body}
    (hb : ∀ i e, entry = .ok e → ∀ s, Kept s (body i e s).1) :
    BodyKeeps (Kept s) (checkFields n index entry fun i e => needConfigure port (body i e)) :=
  checkFields_keeps fun i e hok => needRight_keeps (halted_kept fun s _ => hb i e hok s)

theorem writePermitBody_kept (index : Byte) (p : PermitId) (e : PermitEntry) (s : State) :
    Kept s (writePermitBody index p e s).1 := by
  unfold writePermitBody; split
  · exact .refl s
  · exact acceptWrite_kept _ _ (.elsewhere rfl)

theorem writeGroupBody_kept (index : Byte) (g : GroupId) (e : GroupEntry) (s : State) :
    Kept s (writeGroupBody index g e s).1 := by
  unfold writeGroupBody; split
  · exact .refl s
  · exact acceptWrite_kept _ _ (.elsewhere rfl)

theorem someConfigure_iff (v : Vector Profile 4) : someConfigure v = true ↔ ∃ p : Port, v[p].configure = true := by
  simp only [someConfigure, List.any_eq_true, mem_allPorts, true_and]

/-- R153: check 6 keeps a profile with CONFIGURE in the table; the profiles in use change at the commit alone. -/
theorem writeProfileBody_kept (index : Byte) (i : Port) (e : Profile) (s : State) :
    Kept s (writeProfileBody index i e s).1 := by
  unfold writeProfileBody; split
  · next hsome =>
    exact acceptWrite_kept _ _ (onConfig_kept (fun h => ⟨(someConfigure_iff _).mp hsome, h.2⟩) id)
  · exact .refl s

/-- R94: a divider as written is not 0. -/
theorem writeTick_kept {divider : Word16} {d : Nat} (hd : readTick divider = .ok d) (index : Byte) (i : SourceId) (s : State) :
    Kept s (acceptWrite 6#8 index (fun t => t.onConfig fun c => { c with ticks := c.ticks.set i d }) s).1 := by
  obtain ⟨hne, rfl⟩ := readTick_eq_ok.mp hd
  refine acceptWrite_kept _ _ (onConfig_kept id fun h src => ?_)
  simp only [get_set]
  split
  · exact Nat.pos_of_ne_zero fun hzero => hne (BitVec.eq_of_toNat_eq hzero)
  · exact h src

end Writes

/-! Resets (R141 to R144). -/

theorem initial_countersFit : countersFit State.initial := ⟨Nat.zero_lt_succ 799, by decide, by decide⟩

theorem initialValues_kept (s u : State) : Kept s (initialValues u) where
  present _ _ := rfl
  queues _ p := by
    have hinitial : (initialValues u).notices[p] = NoticeQueue.initial := get_replicate _ p
    rw [hinitial]; exact Nat.zero_le 8
  rights _ := ⟨⟨0, rfl⟩, 0, rfl⟩
  counters _ := initial_countersFit
  scanTicks _ := absurd rfl
  steps _ := stepDrivesNothing_outside nofun rfl

theorem resetEntersTrip_kept (s : State) : Kept s (resetEntersTrip s) :=
  (arriveEverywhere_kept ..).after ⟨fun _ h => (nomatch h), id, id, id, id, id⟩

theorem endReset_kept (s : State) : Kept s (endReset s) := by
  have hhalted := arriveEverywhere_kept (.halted .reset) 0#32 s
  unfold endReset; simp only; split
  · exact hhalted.trans (resetEntersTrip_kept _)
  · exact hhalted

theorem powerOn_kept (s : State) : Kept s (if s.resetActive then initialValues s else endReset (initialValues s)) := by
  split
  · exact initialValues_kept s s
  · exact (initialValues_kept s s).trans (endReset_kept _)

theorem resetEnd_kept (s : State) : Kept s (if s.resetActive then endReset { s with resetActive := false } else s) := by
  split
  · exact (endReset_kept _).after (.elsewhere rfl)
  · exact .refl s

/-- R142: what was set out before a soft reset is taken, and changes the permit table, the trip unit and what is on its way alone. -/
theorem finishPasses_rest (s : State) : ∃ (t : PermitTable) (u : TripUnit) (f : InFlight),
    finishPasses s = { s with table := t, trip := u, flight := f } ∧ (normalHasNoCause s.trip → normalHasNoCause u) := by
  obtain ⟨t, f, e⟩ := drainPermit_rest s
  unfold finishPasses drainFaultReports
  refine fold_keeps (P := fun x => ∃ (t : PermitTable) (u : TripUnit) (f : InFlight),
    x = { s with table := t, trip := u, flight := f } ∧ (normalHasNoCause s.trip → normalHasNoCause u)) (fun x r h => ?_) _
    ⟨t, s.trip, _, by rw [e]; rfl, id⟩
  obtain ⟨t, u, f, rfl, hu⟩ := h
  obtain ⟨u', f', e'⟩ := applyFaultReport_rest r { s with table := t, trip := u, flight := f }
  have hkept := (applyFaultReport_kept r { s with table := t, trip := u, flight := f }).present
  rw [e'] at hkept
  exact ⟨t, u', f', e', hkept ∘ hu⟩

theorem softResetBody_kept (port : Port) (s : State) : Kept s (softResetBody port s).1 := by
  obtain ⟨t, u, f, e, hu⟩ := finishPasses_rest s
  refine (arriveEverywhere_kept ..).after (t := softResetState port (finishPasses s)) ?_
  rw [e]
  refine ⟨fun h hnormal => ?_, fun _ p => ?_, id, fun ⟨_, hcounters, hdividers⟩ => ?_, fun _ => absurd rfl,
    fun _ => stepDrivesNothing_outside nofun rfl⟩
  · have hempty := hu h hnormal
    simp only [softResetState, hempty]; rfl
  · exact (get_replicate NoticeQueue.initial p).symm ▸ Nat.zero_le 8
  · exact restart_fits (fun src => Nat.zero_lt_of_lt (hcounters src)) hdividers

/-! Every command. -/

theorem exec_kept (c : Instr) (s : State) : ∃ t, exec c s = .next t ∧ Kept s t := by
  cases c with
  | powerOn => exact ⟨_, rfl, powerOn_kept s⟩
  | resetNActive => exact ⟨_, rfl, (initialValues_kept s s).trans (.elsewhere rfl)⟩
  | resetEnd => exact ⟨_, rfl, resetEnd_kept s⟩
  | tripInActive =>
    exact ⟨_, rfl, .trans (t := { s with tripInActive := true }) (.elsewhere rfl) (event_kept (causeArrives_kept _))⟩
  | tripInInactive =>
    exact ⟨_, rfl, .trans (t := { s with tripInActive := false }) (.elsewhere rfl) (event_kept tripInInactive_kept)⟩
  | baseTick => exact ⟨_, rfl, event_kept baseTick_kept⟩
  | sourceTick src => exact ⟨_, rfl, event_kept (takeSourceTick_kept src)⟩
  | tickAtPermitTable _ | settleEnd _ | late _ _ | leaseExpiryRelease _ _ | leaseExpiryLock _ _ | leaseExpiryTrip _ _
  | waitExpired _ _ => exact ⟨_, rfl, event_kept fun _ => takePermitTickIf_kept ..⟩
  | tickAtTripUnit => exact ⟨_, rfl, event_kept takeTripTick_kept⟩
  | passDeadline =>
    refine ⟨_, rfl, event_kept fun t => ?_⟩
    split
    · exact takeTripTick_kept t
    · exact .refl t
  | runScanStart tick => exact ⟨_, rfl, event_kept (takeTrigger_kept tick)⟩
  | conversion ain => exact ⟨_, rfl, event_kept (takeConversion_kept ain)⟩
  | pass din pfb => exact ⟨_, rfl, event_kept (takePass_kept din pfb)⟩
  | passResult => exact ⟨_, rfl, event_kept takeOldestResult_kept⟩
  | faultReport => exact ⟨_, rfl, event_kept takeFaultReport_kept⟩
  | deadlineRestart => exact ⟨_, rfl, event_kept takeDeadlineRestart_kept⟩
  | passEndReport => exact ⟨_, rfl, event_kept takeReport_kept⟩
  | engineStateChange consumer =>
    cases consumer with
    | permitTable => exact ⟨_, rfl, event_kept takeTableChange_kept⟩
    | scanUnit => exact ⟨_, rfl, event_kept takeScanChange_kept⟩
  | tripCauseArrival => exact ⟨_, rfl, event_kept takeTripCause_kept⟩
  | permitTripEntry => exact ⟨_, rfl, event_kept takeTripEntry_kept⟩
  | permitTripClearing => exact ⟨_, rfl, event_kept takeTripClearing_kept⟩
  | noticeArrival maker port => exact ⟨_, rfl, event_kept (takeNotice_kept maker port)⟩
  | status _ _ _ | fetch _ _ | frameError _ _ | frameDiscarded _ _ => exact ⟨_, rfl, takePart_kept ..⟩
  | readStatus _ | readLines _ | readTerms _ | readTrip _ | readHaltRecord _ => exact ⟨_, rfl, serve_kept (read_keeps _)⟩
  | readChannel _ _ | readPermit _ _ => exact ⟨_, rfl, serve_kept (needNumber_keeps fun _ => read_keeps _)⟩
  | readNotice port => exact ⟨_, rfl, serve_kept (body_kept (readNoticeBody_kept port))⟩
  | readEntry port table index =>
    refine ⟨_, rfl, serve_kept (body_kept fun t => ?_)⟩
    unfold readEntryBody; split <;> exact .refl t
  | claim port permit priority wait epoch =>
    exact ⟨_, rfl, serve_kept (body_kept (claimBody_kept port permit priority wait epoch))⟩
  | release port permit => exact ⟨_, rfl, serve_kept (needNumber_keeps fun p => body_kept (releaseBody_kept port p))⟩
  | refresh port permit => exact ⟨_, rfl, serve_kept (needNumber_keeps fun p => body_kept (refreshBody_kept port p))⟩
  | refreshAll port => exact ⟨_, rfl, serve_kept (body_kept (refreshAllBody_kept port))⟩
  | revoke port permit =>
    exact ⟨_, rfl, serve_kept (needNumber_keeps fun p => needRight_keeps (body_kept (revokeBody_kept p)))⟩
  | unlock port permit =>
    exact ⟨_, rfl, serve_kept (needNumber_keeps fun p => needRight_keeps (body_kept (unlockBody_kept p)))⟩
  | trip port => exact ⟨_, rfl, serve_kept (body_kept (causeArrives_kept _))⟩
  | clearTrip port => exact ⟨_, rfl, serve_kept (needRight_keeps (body_kept clearTripBody_kept))⟩
  | halt port => exact ⟨_, rfl, serve_kept (needRight_keeps (body_kept (haltBody_kept port)))⟩
  | resume port => exact ⟨_, rfl, serve_kept (needRight_keeps (body_kept resumeBody_kept))⟩
  | step port => exact ⟨_, rfl, request_kept fun live => needRight_keeps (body_kept (stepBody_kept port live))⟩
  | injectChannel port channel reading =>
    exact ⟨_, rfl, serve_kept (needNumber_keeps fun c => refusedUnless_kept (needRight_keeps
      (halted_kept fun t _ => injectChannelBody_kept c _ t)))⟩
  | injectLine port line level =>
    exact ⟨_, rfl, serve_kept (needNumber_keeps fun _ => refusedUnless_kept (needRight_keeps
      (halted_kept fun _ _ => .elsewhere rfl)))⟩
  | clearInject port selection number => exact ⟨_, rfl, serve_kept (clearInjectBody_kept port selection number)⟩
  | clearHaltRecord port => exact ⟨_, rfl, serve_kept (needRight_keeps (halted_kept fun _ _ => .elsewhere rfl))⟩
  | softReset port => exact ⟨_, rfl, serve_kept (needRight_keeps (body_kept (softResetBody_kept port)))⟩
  | hardReset port =>
    exact ⟨_, rfl, serve_kept (needRight_keeps (body_kept fun t => (initialValues_kept t t).trans (endReset_kept _)))⟩
  | writeChannelEntry _ _ _ _ _ _ _ _ _ | writeLineEntry _ _ _ _ | writeTermEntry _ _ _ _ _ _ _ _ _
  | writeEngineEntry _ _ _ _ _ =>
    exact ⟨_, rfl, serve_kept (write_kept fun _ _ _ _ => acceptWrite_kept _ _ (onConfig_kept id id))⟩
  | writePermitEntry => exact ⟨_, rfl, serve_kept (write_kept fun p e _ => writePermitBody_kept _ p e)⟩
  | writeGroupEntry => exact ⟨_, rfl, serve_kept (write_kept fun g e _ => writeGroupBody_kept _ g e)⟩
  | writeProfileEntry => exact ⟨_, rfl, serve_kept (write_kept fun i e _ => writeProfileBody_kept _ i e)⟩
  | writeTickEntry => exact ⟨_, rfl, serve_kept (write_kept fun i _ hd => writeTick_kept hd _ i)⟩
  | writeWatchEntry =>
    exact ⟨_, rfl, serve_kept (checkFields_keeps fun _ _ _ => needRight_keeps (body_kept fun _ => .elsewhere rfl))⟩

/-- Settles O59: the front command, or the reference period of an empty queue, keeps each of the six properties. -/
theorem stepsKeepCausesQueuesRightsAndCounters : Obligations.StepsKeepCausesQueuesRightsAndCounters := by
  unfold Obligations.StepsKeepCausesQueuesRightsAndCounters
  intro s t hstep
  obtain ⟨t', ht', hkept⟩ : ∃ t', step s = .next t' ∧ Kept s t' := by
    unfold step; split
    · exact ⟨_, rfl, event_kept referencePeriod_kept⟩
    · next c rest _ =>
      obtain ⟨t', ht', hkept⟩ := exec_kept c { s with pending := rest }
      exact ⟨t', ht', hkept.after (.elsewhere rfl)⟩
  cases hstep.symm.trans ht'
  exact ⟨hkept.present, hkept.queues, hkept.rights, hkept.counters, hkept.scanTicks, hkept.steps⟩

end Sys2Proof.Proofs
end

section
/-! SUPPORT. The clock in the terms of its statements (R93 to R95; log 4, log 5, log 30): a reference period on an empty queue, a base tick
with the ticks it makes, and the arrival of a source's tick at the scan unit. -/

namespace Sys2Proof.Proofs

open Sys2Proof Sys2Proof.Machine Sys2Proof.Laws

section Clock

variable {s : State}

theorem exec_baseTick (hr : s.resetActive = false) : exec .baseTick s = .next (baseTick s) :=
  congrArg _ (unlessReset_inactive hr _)

theorem exec_sourceTick (hr : s.resetActive = false) {src : SourceId} (h : 0 < s.flight.sourceTicks[src]) :
    exec (.sourceTick src) s = .next (s.onFlight (InFlight.deliverTick s.scan.hearsTicks src)) :=
  congrArg _ ((unlessReset_inactive hr _).trans (if_pos h))

/-- R10, R11: the scan unit hears a tick when it is idle in RUNNING. -/
theorem hearsTicks_iff (u : ScanUnit) : u.hearsTicks = true ↔ u.engine = .running ∧ u.state = .idle := by
  simp only [ScanUnit.hearsTicks, Bool.and_eq_true, decide_eq_true_eq]

theorem advance_counters (g : TickGen) (src : SourceId) :
    g.advance.counters[src] = if g.dividers[src] ≤ g.counters[src] + 1 then 0 else g.counters[src] + 1 := by
  simp only [TickGen.advance, get_ofFn, TickGen.reaches, decide_eq_true_eq]

/-- A step on an empty queue. -/
theorem step_empty (h : s.pending = []) : step s = .next (s.unlessReset referencePeriod) := by
  unfold step; rw [h]

theorem referencePeriod_counts (h : s.ticks.baseDivider + 1 < 800) :
    referencePeriod s = { s with ticks := { s.ticks with baseDivider := s.ticks.baseDivider + 1 } } := if_pos h

theorem referencePeriod_ticks (h : 800 ≤ s.ticks.baseDivider + 1) : referencePeriod s = baseTick s :=
  if_neg (Nat.not_lt.mpr h)

end Clock

/-- Settles O2: the split is that of `referencePeriod`, by whether the base divider has counted 800. -/
theorem emptyQueueLetsAReferencePeriodPass : Obligations.EmptyQueueLetsAReferencePeriodPass := by
  unfold Obligations.EmptyQueueLetsAReferencePeriodPass
  intro s hempty
  rw [step_empty hempty]
  refine ⟨fun hr => ?_, fun hr hlt => ?_, fun hr hle => ?_⟩
  · simp only [State.unlessReset, hr, if_true]
  · rw [unlessReset_inactive hr, referencePeriod_counts hlt]
  · rw [unlessReset_inactive hr, referencePeriod_ticks hle, exec_baseTick hr]

/-- Settles O17: the base tick is `baseTick`, whose counters and ticks are told source by source. -/
theorem baseTicksAdvanceTheSourceCounters : Obligations.BaseTicksAdvanceTheSourceCounters := by
  unfold Obligations.BaseTicksAdvanceTheSourceCounters
  intro s hr
  refine ⟨baseTick s, exec_baseTick hr, ?_, rfl, rfl, fun src => ?_⟩
  · simp only [← hearsTicks_iff]
    have hreaches : (s.ticks.reaches 0 = true) = (s.ticks.dividers[0] ≤ s.ticks.counters[0] + 1) := decide_eq_true_eq
    simp only [baseTick, hreaches]
  · have hcounter : (baseTick s).ticks.counters[src] = _ := advance_counters s.ticks src
    have hsource : (baseTick s).flight.sourceTicks[src] = _ := produce_get s.ticks s.flight.sourceTicks src
    have hpermit : (baseTick s).flight.permitTicks[src] = _ := produce_get s.ticks s.flight.permitTicks src
    rw [hcounter, hsource, hpermit]
    refine ⟨fun hlt => ?_, fun hle => ?_⟩
    · have hnot := Nat.not_le.mpr hlt
      exact ⟨if_neg hnot, if_neg hnot, if_neg hnot⟩
    · exact ⟨if_pos hle, if_pos hle, if_pos hle⟩

/-- Settles O18: the tick is delivered with `hearsTicks` as the mark whether it is kept. -/
theorem sourceTicksReachTheirConsumers : Obligations.SourceTicksReachTheirConsumers := by
  unfold Obligations.SourceTicksReachTheirConsumers
  intro src s hr h
  rw [exec_sourceTick hr h]
  simp only [← hearsTicks_iff]
  rfl

end Sys2Proof.Proofs
end

section
/-! SUPPORT. REFRESH and REFRESH ALL at the permit table (R99, R100). -/

namespace Sys2Proof.Proofs

open Sys2Proof Sys2Proof.Machine Sys2Proof.Laws

section Refresh

variable {port : Port} {p : PermitId} {s : State}

/-- R99: without a holding there is nothing to refresh. -/
theorem refreshBody_notHolder (h : ∀ x ∈ s.table.records[p].holders, x.port ≠ port) :
    refreshBody port p s = (s, some ⟨.refused, [0x0B#8]⟩) := by
  have hnone : s.table.records[p].holders.find? (fun x => decide (x.port = port)) = none :=
    List.find?_eq_none.mpr fun x hx => by simpa only [decide_eq_true_eq] using h x hx
  simp only [refreshBody, hnone]; rfl

/-- R99: the port's first holding is the one refreshed. -/
theorem find?_holder {before after : List Holder} {h : Holder} (hport : h.port = port) (hbefore : ∀ x ∈ before, x.port ≠ port) :
    (before ++ h :: after).find? (fun x => decide (x.port = port)) = some h :=
  List.find?_eq_some_iff_append.mpr ⟨decide_eq_true hport, before, after, rfl, fun x hx => by
    simp only [hbefore x hx, decide_false, Bool.not_false]⟩

theorem refreshBody_holder {before after : List Holder} {h : Holder} (hsplit : s.table.records[p].holders = before ++ h :: after)
    (hport : h.port = port) (hbefore : ∀ x ∈ before, x.port ≠ port) : refreshBody port p s =
      (s.onTable fun t => t.setRecord p (s.table.records[p].refresh port), some ⟨.ok, [h.stage.code]⟩) := by
  have hfind := find?_holder (after := after) hport hbefore
  rw [← hsplit] at hfind
  simp only [refreshBody, hfind, okReply]

/-- R175: the stage before, as the answer carries it. -/
theorem stageCode_eq (x : LeaseStage) : x.code = if x = .fresh then 0#8 else if x = .armed then 1#8 else 2#8 := by
  cases x <;> rfl

end Refresh

/-- Settles O38: REFRESH finds the port's holding, and REFRESH ALL takes every record. -/
theorem refreshesMakeHoldingsFresh : Obligations.RefreshesMakeHoldingsFresh := by
  unfold Obligations.RefreshesMakeHoldingsFresh
  intro port s u live fresh
  constructor
  · intro permit h answers
    refine ⟨fun hp => exec_of_answer rfl h (needNumber_beyond hp _ u), fun p hp => ⟨fun hno => ?_, ?_⟩⟩
    · exact exec_of_answer rfl h ((needNumber_of hp _ u).trans (refreshBody_notHolder hno))
    · intro before x after hsplit hport hbefore
      rw [← stageCode_eq]
      exact exec_of_answer rfl h ((needNumber_of hp _ u).trans (refreshBody_holder hsplit hport hbefore))
  · exact fun h => exec_of_answer (body := refreshAllBody port) rfl h rfl

end Sys2Proof.Proofs
end

section
/-! SUPPORT. A tick at the permit table field by field (R96 to R98, R101 to R104, R80, R81): the holders, the claims, the notices and the
causes that its lease and wait steps leave of one permit, and the work of the whole tick. -/

namespace Sys2Proof.Proofs

open Sys2Proof Sys2Proof.Machine Sys2Proof.Laws

/-! One holder, one claim. -/

theorem age_eq : Holder.age = fun h => { h with stage := if h.stage = .fresh then LeaseStage.armed else .late } := by
  funext ⟨port, stage⟩; cases stage <;> rfl

/-- R80, R81: of the finite waits those at 1 end and the others go down by one. -/
theorem filterMap_afterTick (l : List Claim) : l.filterMap Claim.afterTick =
    (l.filter fun x => !x.wait.any fun n => decide (n ≤ 1)).map fun x => { x with wait := x.wait.map (· - 1) } := by
  rw [← List.filterMap_eq_map, List.filterMap_filter]
  congr 1
  funext ⟨port, priority, wait⟩
  cases wait with
  | none => rfl
  | some n => by_cases hn : n ≤ 1 <;> simp [Claim.afterTick, hn]

theorem expires_eq : expires = fun x => x.wait.any fun n => decide (n ≤ 1) := by
  funext ⟨port, priority, wait⟩
  cases wait with
  | none => rfl
  | some n => by_cases hn : n ≤ 1 <;> simp [expires, Claim.afterTick, hn]

/-- R98: the LATE notice of a holder that was ARMED. -/
def lateNotice (p : PermitId) (h : Holder) : List Made := if h.stage = .armed then [(h.port, .late p)] else []

theorem lateNotices_eq (p : PermitId) (l : List Holder) : lateNotices p l = l.flatMap (lateNotice p) := by
  induction l with
  | nil => rfl
  | cons h l ih =>
    rw [List.flatMap_cons, ← ih]
    by_cases hs : h.stage = .armed <;> simp [lateNotices, lateNotice, hs]

/-- R98, R101: under RELEASE a LATE holder is told of its end, and any other as under the other actions. -/
theorem releaseNotice_eq (p : PermitId) : releaseNotice p = fun h =>
    if h.stage = .late then [(h.port, .revoked p .lease)] else lateNotice p h := by
  funext h
  unfold releaseNotice lateNotice
  cases h.stage <;> rfl

/-- R102: of the holders that a lock removes the first LATE one is told LEASE, every other LOCK. -/
theorem lockNotices_eq (p : PermitId) (l : List Holder) : lockNotices p l = l.mapIdx fun i h =>
    (h.port, .revoked p (if i = l.findIdx (fun h => decide (h.stage = .late)) then .lease else .lock)) := by
  induction l with
  | nil => rfl
  | cons h l ih =>
    rw [List.mapIdx_cons, List.findIdx_cons]
    by_cases hs : h.stage = .late
    · have hrest : l.map (fun h => ((h.port, .revoked p .lock) : Made)) = l.mapIdx fun _ h => (h.port, .revoked p .lock) :=
        List.ext_getElem (by simp) (by simp)
      simpa [lockNotices, hs, revokeNotices] using hrest
    · simp [lockNotices, hs, ih]

/-! One permit. -/

section Permit

variable {c : ConfigStore} {src : SourceId} {p : PermitId} {x : PermitRecord}

/-- R102: a tick of the source locks the permit. -/
def locksNow (c : ConfigStore) (src : SourceId) (p : PermitId) (x : PermitRecord) : Bool :=
  leased c src p && decide (c.permits[p].expiry = .lock) && anyLate x.holders

/-- R97, R101 to R103: the holders that a tick leaves. -/
def holdersAfterTick (c : ConfigStore) (src : SourceId) (p : PermitId) (x : PermitRecord) : List Holder :=
  if leased c src p = false then x.holders
  else if locksNow c src p x then []
  else if c.permits[p].expiry = .release then (x.holders.filter fun h => !decide (h.stage = .late)).map Holder.age
  else x.holders.map Holder.age

/-- R102: the claims that wait on after the lease step of a tick. -/
def waitingAfterLease (c : ConfigStore) (src : SourceId) (p : PermitId) (x : PermitRecord) : List Claim :=
  if locksNow c src p x then [] else x.queue

theorem recordAfterLease_eq (c : ConfigStore) (src : SourceId) (p : PermitId) (x : PermitRecord) :
    recordAfterLease c src p x = { x with
      lock := x.lock || locksNow c src p x
      holders := holdersAfterTick c src p x
      queue := waitingAfterLease c src p x } := by
  unfold recordAfterLease waitingAfterLease holdersAfterTick locksNow
  cases leased c src p with
  | false => simp
  | true =>
    cases c.permits[p].expiry with
    | release => simp [PermitRecord.afterTick]
    | lock => cases hlate : anyLate x.holders <;> simp [PermitRecord.afterTick, hlate]
    | trip => simp [PermitRecord.afterTick]

theorem recordAfterTick_eq (c : ConfigStore) (src : SourceId) (p : PermitId) (x : PermitRecord) :
    recordAfterTick c src p x = { x with
      lock := x.lock || locksNow c src p x
      holders := holdersAfterTick c src p x
      queue := if c.permits[p].source = src then
          ((waitingAfterLease c src p x).filter fun x => !x.wait.any fun n => decide (n ≤ 1)).map
            fun x => { x with wait := x.wait.map (· - 1) }
        else waitingAfterLease c src p x } := by
  unfold recordAfterTick
  rw [recordAfterLease_eq]
  simp only [filterMap_afterTick]
  split <;> rfl

/-- R97, R98, R101 to R103: the notices that the lease step of a tick makes for the permit. -/
theorem leaseMade_eq (c : ConfigStore) (src : SourceId) (p : PermitId) (x : PermitRecord) :
    (if leased c src p then leaseNotices c.permits[p].expiry p x else []) =
      if leased c src p = false then []
      else if locksNow c src p x then
        (x.holders.takeWhile fun h => !decide (h.stage = .late)).flatMap (lateNotice p) ++
          (x.holders.mapIdx fun i h => (h.port,
            .revoked p (if i = x.holders.findIdx (fun h => decide (h.stage = .late)) then .lease else .lock))) ++
          x.queue.map fun y => (y.port, .waitEnded p .lock)
      else x.holders.flatMap fun h =>
        if decide (h.stage = .late) && decide (c.permits[p].expiry = .release) then [(h.port, .revoked p .lease)]
        else lateNotice p h := by
  unfold locksNow
  cases leased c src p with
  | false => rfl
  | true =>
    cases c.permits[p].expiry with
    | release => simp [leaseNotices, releaseNotice_eq]
    | lock =>
      cases hlate : anyLate x.holders <;>
        simp [leaseNotices, hlate, lateNotices_eq, lockNotices_eq, waitEndNotices, beforeLate]
    | trip => simp [leaseNotices, lateNotices_eq]

theorem leaseCausesMade_eq (c : ConfigStore) (src : SourceId) (p : PermitId) (x : PermitRecord) :
    (if leased c src p then leaseCauses c.permits[p].expiry p x else []) =
      if leased c src p && decide (c.permits[p].expiry = .trip) then
        (x.holders.filter fun h => decide (h.stage = .late)).map fun _ => TripCause.lease p
      else [] := by
  cases leased c src p with
  | false => rfl
  | true => cases c.permits[p].expiry <;> rfl

/-- R96 step 5: the lease step removes a holder when it leaves fewer. -/
theorem leaseRemoves_iff (t : PermitTable) : leaseRemoves c src t p = true ↔
    (holdersAfterTick c src p t.records[p]).length < t.records[p].holders.length := by
  have hholders : (recordAfterLease c src p t.records[p]).holders = holdersAfterTick c src p t.records[p] :=
    congrArg PermitRecord.holders (recordAfterLease_eq ..)
  unfold recordAfterLease at hholders
  rw [← hholders, leaseRemoves]
  cases leased c src p <;> simp

end Permit

/-! The whole tick. -/

/-- An event that changes nothing and makes nothing. -/
theorem commitWork_start (count : PassCount) (s : State) : commitWork count (.start s.table) s = s := by
  have hnone : flyAll .permitTable count [] s.flight.notices = s.flight.notices := rfl
  rw [commitWork_eq, TableWork.start, List.append_nil, hnone]

/-- R96 step 5: whether grant examination follows. -/
theorem examines_iff (c : ConfigStore) (src : SourceId) (t : PermitTable) :
    (allGroups.any (settleEnds c src t) || allPermits.any (leaseRemoves c src t)) = true ↔
      (∃ g : GroupId, c.groups[g].source = src ∧ t.settle[g] = 1) ∨
        ∃ p : PermitId, (holdersAfterTick c src p t.records[p]).length < t.records[p].holders.length := by
  simp only [Bool.or_eq_true, List.any_eq_true, mem_allGroups, mem_allPermits, true_and, settleEnds, Bool.and_eq_true,
    decide_eq_true_eq, leaseRemoves_iff]

/-- Settles O32: the work is that of `tableTick_full`, its records, notices and causes told permit by permit. -/
theorem ticksCountLeasesWaitsAndSettling : Obligations.TicksCountLeasesWaitsAndSettling := by
  unfold Obligations.TicksCountLeasesWaitsAndSettling
  intro src s hr htick u entry before leased' isLate locks aged stay ends waiting late leaseMade waitMade
  have htaken : exec (.tickAtPermitTable src) s = .next (commitWork s.eval.passCount (tableTick s.config src s.table) u) :=
    exec_tickAtPermitTable hr htick
  rw [htaken]
  constructor
  · intro hengine hfreeze
    have hidle : counting s.config s.table = false := by
      simp only [counting, hengine, hfreeze, reduceCtorEq, decide_false, Bool.or_self]
    rw [tableTick, if_neg (Bool.eq_false_iff.mp hidle)]
    exact congrArg _ (commitWork_start s.eval.passCount u)
  · intro hcounts
    obtain ⟨w, hw, hengine, htrip, hrecords, hsettle, hmade, hcauses⟩ :=
      tableTick_full s.config src s.table (counting_iff.mpr hcounts)
    have hstay : ∀ p : PermitId, holdersAfterTick s.config src p s.table.records[p] = stay p := by
      intro p; unfold holdersAfterTick; rw [age_eq]; rfl
    simp only [recordAfterTick_eq, recordAfterLease_eq, hstay] at hrecords hsettle
    refine ⟨w, table_eq_of rfl hengine htrip, hrecords, hsettle, ?_, ?_, fun hexamined => ?_, fun hends hremoves => ?_⟩
    · simp only [hmade, leaseMade_eq, recordAfterLease_eq, expires_eq]; rfl
    · simp only [hcauses, leaseCausesMade_eq]; rfl
    · rw [hw, if_pos ((examines_iff ..).mpr (by simpa only [hstay] using hexamined))]
    · rw [hw, if_neg]
      rw [examines_iff]
      rintro (⟨g, hsrc, hone⟩ | ⟨p, hlt⟩)
      · exact hends g hsrc hone
      · rw [hstay] at hlt
        exact absurd (hremoves p) (Nat.ne_of_lt hlt)

end Sys2Proof.Proofs
end

section
/-! SUPPORT. The ticks at which a holding becomes LATE and expires (R98, R101 to R103; log 3): when the next tick has that outcome, and what
it leaves of the holding, of the permit and of the causes on their way to the trip unit. -/

namespace Sys2Proof.Proofs

open Sys2Proof Sys2Proof.Machine Sys2Proof.Laws

/-! Outcome commands. -/

section Outcomes

variable {s : State} (hr : s.resetActive = false) (p : PermitId) (port : Port)
include hr

theorem exec_late : exec (.late p port) s =
    .next (takePermitTickIf (tickMakes s.config.permits[p].source (port, .late p) s) s.config.permits[p].source s) :=
  congrArg _ (unlessReset_inactive hr _)

theorem exec_leaseExpiryRelease : exec (.leaseExpiryRelease p port) s =
    .next (takePermitTickIf (decide (s.config.permits[p].expiry = .release) &&
      tickMakes s.config.permits[p].source (port, .revoked p .lease) s) s.config.permits[p].source s) :=
  congrArg _ (unlessReset_inactive hr _)

theorem exec_leaseExpiryLock : exec (.leaseExpiryLock p port) s =
    .next (takePermitTickIf (decide (s.config.permits[p].expiry = .lock) &&
      tickMakes s.config.permits[p].source (port, .revoked p .lease) s) s.config.permits[p].source s) :=
  congrArg _ (unlessReset_inactive hr _)

theorem exec_leaseExpiryTrip : exec (.leaseExpiryTrip p port) s =
    .next (takePermitTickIf ((tickWork s.config.permits[p].source s).causes.contains (.lease p) &&
      s.table.records[p].holders.contains ⟨port, .late⟩) s.config.permits[p].source s) :=
  congrArg _ (unlessReset_inactive hr _)

end Outcomes

/-! The outcomes of a tick. -/

section Tick

variable {c : ConfigStore} {src : SourceId} {t : PermitTable} {p : PermitId} {port : Port} {r : PermitRecord} {x : ExpiryAction}

theorem leased_iff : leased c src p = true ↔ c.permits[p].lease = true ∧ c.permits[p].source = src := by
  simp only [leased, Bool.and_eq_true, decide_eq_true_eq]

/-- R98: an ARMED holding, under LOCK one that no LATE one stands before, is told LATE. -/
theorem lateNotice_mem (h : HoldsAt x port .armed r) : (port, .late p) ∈ leaseNotices x p r := by
  obtain ⟨before, after, hsplit, hahead⟩ := h
  have hmem : ⟨port, .armed⟩ ∈ r.holders := hsplit ▸ List.mem_append_right _ List.mem_cons_self
  have hlate : ∀ {l : List Holder}, ⟨port, .armed⟩ ∈ l → (port, NoticeBody.late p) ∈ lateNotices p l := fun hl =>
    List.mem_map.mpr ⟨_, List.mem_filter.mpr ⟨hl, rfl⟩, rfl⟩
  cases x with
  | release => exact List.mem_flatMap.mpr ⟨_, hmem, List.mem_singleton.mpr rfl⟩
  | trip => exact hlate hmem
  | lock =>
    have hbefore : ⟨port, .armed⟩ ∈ beforeLate r.holders := by
      have hahead' : ∀ y ∈ before, decide (y.stage ≠ .late) = true := fun y hy => decide_eq_true (hahead rfl y hy)
      rw [beforeLate, hsplit, List.takeWhile_append_of_pos hahead']
      exact List.mem_append_right _ (by simp)
    simp only [leaseNotices]
    split
    · exact List.mem_append_left _ (List.mem_append_left _ (hlate hbefore))
    · exact hlate hmem

/-- R102: the first LATE holder of a lock is told LEASE. -/
theorem lockNotices_lease {before after : List Holder} (h : ∀ y ∈ before, y.stage ≠ .late) :
    (port, .revoked p .lease) ∈ lockNotices p (before ++ ⟨port, .late⟩ :: after) := by
  induction before with
  | nil => exact List.mem_cons_self
  | cons y before ih =>
    rw [List.cons_append, lockNotices, if_neg (h y List.mem_cons_self)]
    exact List.mem_cons_of_mem _ (ih fun z hz => h z (List.mem_cons_of_mem _ hz))

/-- R101, R102: a LATE holding, under LOCK the first, is told its end. -/
theorem expiryNotice_mem (hx : x ≠ .trip) (h : HoldsAt x port .late r) : (port, .revoked p .lease) ∈ leaseNotices x p r := by
  obtain ⟨before, after, hsplit, hahead⟩ := h
  have hmem : ⟨port, .late⟩ ∈ r.holders := hsplit ▸ List.mem_append_right _ List.mem_cons_self
  cases x with
  | release => exact List.mem_flatMap.mpr ⟨_, hmem, List.mem_singleton.mpr rfl⟩
  | trip => exact absurd rfl hx
  | lock =>
    have hany : anyLate r.holders = true := List.any_eq_true.mpr ⟨_, hmem, rfl⟩
    simp only [leaseNotices, hany, if_true]
    rw [hsplit]
    exact List.mem_append_left _ (List.mem_append_right _ (lockNotices_lease (hahead rfl)))

/-- The notices of the lease step for a permit are among those of its tick. -/
theorem leaseNotices_mem_tableTick (hc : counting c t = true) (hl : leased c src p = true) {m : Made}
    (hm : m ∈ leaseNotices c.permits[p].expiry p t.records[p]) : m ∈ (tableTick c src t).made := by
  obtain ⟨w, hw, _, _, _, _, hmade, _⟩ := tableTick_full c src t hc
  obtain ⟨_, more, hmore, _⟩ := (grants_of_examined hw).2
  rw [hmore, hmade]
  exact List.mem_append_left _ (List.mem_append_left _ (List.mem_flatMap.mpr ⟨p, mem_allPermits p, by rwa [if_pos hl]⟩))

/-- R103: the causes of a tick. -/
theorem tableTick_causes (hc : counting c t = true) : (tableTick c src t).causes = allPermits.flatMap fun p =>
    if leased c src p && decide (c.permits[p].expiry = .trip) then
      (t.records[p].holders.filter fun h => decide (h.stage = .late)).map fun _ => TripCause.lease p
    else [] := by
  obtain ⟨w, hw, _, _, _, _, _, hcauses⟩ := tableTick_full c src t hc
  obtain ⟨hkept, _⟩ := (grants_of_examined hw).2
  simp only [hkept, hcauses, leaseCausesMade_eq]

/-- R103: the tick hands LEASE of a permit to the trip unit when the permit expires with TRIP and has a LATE holder. -/
theorem leaseCause_mem : .lease p ∈ (tableTick c src t).causes ↔ counting c t = true ∧ leased c src p = true ∧
    c.permits[p].expiry = .trip ∧ ∃ h ∈ t.records[p].holders, h.stage = .late := by
  by_cases hc : counting c t = true
  · rw [tableTick_causes hc]
    simp only [List.mem_flatMap, mem_allPermits, true_and, hc]
    constructor
    · rintro ⟨q, hq⟩
      split at hq
      · next hq' =>
        obtain ⟨hleased, hexpiry⟩ := (Bool.and_eq_true ..).mp hq'
        obtain ⟨h, hh, he⟩ := List.mem_map.mp hq
        cases he
        obtain ⟨hholds, hlate⟩ := List.mem_filter.mp hh
        exact ⟨hleased, of_decide_eq_true hexpiry, h, hholds, of_decide_eq_true hlate⟩
      · cases hq
    · rintro ⟨hleased, hexpiry, h, hholds, hlate⟩
      refine ⟨p, ?_⟩
      rw [if_pos (by rw [hleased, hexpiry]; rfl)]
      exact List.mem_map.mpr ⟨h, List.mem_filter.mpr ⟨hholds, decide_eq_true hlate⟩, rfl⟩
  · simp only [hc, false_and, tableTick, Bool.false_eq_true, if_false, TableWork.start, List.not_mem_nil]

/-! What the tick leaves of the permit. -/

theorem locksNow_iff : locksNow c src p r = true ↔ leased c src p = true ∧ c.permits[p].expiry = .lock ∧
    ∃ h ∈ r.holders, h.stage = .late := by
  simp only [locksNow, anyLate, Bool.and_eq_true, decide_eq_true_eq, List.any_eq_true, and_assoc]

theorem locksNow_of_ne_lock (hx : c.permits[p].expiry ≠ .lock) : locksNow c src p r = false := by
  simp only [locksNow, hx, decide_false, Bool.and_false, Bool.false_and]

/-- R102: a lock leaves no holder. -/
theorem holdersAfterTick_locks (hl : leased c src p = true) (hlocks : locksNow c src p r = true) :
    holdersAfterTick c src p r = [] := by
  simp only [holdersAfterTick, hl, hlocks, Bool.true_eq_false, if_false, if_true]

theorem holdersAfterTick_release (hl : leased c src p = true) (hx : c.permits[p].expiry = .release) :
    holdersAfterTick c src p r = (r.holders.filter fun h => !decide (h.stage = .late)).map Holder.age := by
  have hopen : locksNow c src p r = false := locksNow_of_ne_lock (by rw [hx]; nofun)
  simp only [holdersAfterTick, hl, hopen, hx, Bool.true_eq_false, Bool.false_eq_true, if_false, if_true]

/-- R97: under the other actions every holder ages, unless the permit locks. -/
theorem holdersAfterTick_ages (hl : leased c src p = true) (hlocks : locksNow c src p r = false)
    (hx : c.permits[p].expiry ≠ .release) : holdersAfterTick c src p r = r.holders.map Holder.age := by
  simp only [holdersAfterTick, hl, hlocks, hx, Bool.true_eq_false, Bool.false_eq_true, if_false]

/-- R97, R98: an ARMED holding is LATE after the tick, unless the permit locks. -/
theorem armed_mem_holdersAfterTick (hl : leased c src p = true) (hlocks : locksNow c src p r = false)
    (h : ⟨port, .armed⟩ ∈ r.holders) : ⟨port, .late⟩ ∈ holdersAfterTick c src p r := by
  by_cases hx : c.permits[p].expiry = .release
  · rw [holdersAfterTick_release hl hx]
    exact List.mem_map.mpr ⟨_, List.mem_filter.mpr ⟨h, rfl⟩, rfl⟩
  · rw [holdersAfterTick_ages hl hlocks hx]
    exact List.mem_map.mpr ⟨_, h, rfl⟩

/-- R103: a LATE holding stays LATE under TRIP. -/
theorem late_mem_holdersAfterTick (hl : leased c src p = true) (hx : c.permits[p].expiry = .trip)
    (h : ⟨port, .late⟩ ∈ r.holders) : ⟨port, .late⟩ ∈ holdersAfterTick c src p r := by
  rw [holdersAfterTick_ages hl (locksNow_of_ne_lock (by rw [hx]; nofun)) (by rw [hx]; nofun)]
  exact List.mem_map.mpr ⟨_, h, rfl⟩

/-- R101: under RELEASE the tick leaves of the holders those that were not LATE. -/
theorem mem_holdersAfterTick_release (hl : leased c src p = true) (hx : c.permits[p].expiry = .release) {h : Holder}
    (hmem : h ∈ holdersAfterTick c src p r) : ∃ y ∈ r.holders, y.stage ≠ .late ∧ h.port = y.port := by
  rw [holdersAfterTick_release hl hx] at hmem
  obtain ⟨y, hy, rfl⟩ := List.mem_map.mp hmem
  obtain ⟨hholds, hstays⟩ := List.mem_filter.mp hy
  exact ⟨y, hholds, by simpa using hstays, rfl⟩

/-- A claim that waits on after the tick waited before it. -/
theorem mem_queue_recordAfterTick {z : Claim} (h : z ∈ (recordAfterTick c src p r).queue) : ∃ y ∈ r.queue, y.port = z.port := by
  have hwaits : ∀ y ∈ waitingAfterLease c src p r, y ∈ r.queue := by
    intro y hy
    unfold waitingAfterLease at hy
    split at hy
    · cases hy
    · exact hy
  rw [recordAfterTick_eq] at h
  simp only at h
  split at h
  · obtain ⟨y, hy, rfl⟩ := List.mem_map.mp h
    exact ⟨y, hwaits y (List.mem_filter.mp hy).1, rfl⟩
  · exact ⟨z, hwaits z h, rfl⟩

/-- The holders of a record after a tick: those of the lease step, and behind them the claims granted. -/
theorem tableTick_holders (hc : counting c t = true) : ∃ k, (tableTick c src t).table.records[p].holders =
    holdersAfterTick c src p t.records[p] ++
      ((recordAfterTick c src p t.records[p]).queue.take k).map fun x => ⟨x.port, .fresh⟩ := by
  obtain ⟨k, hk⟩ := tableTick_record (src := src) hc p
  refine ⟨k, ?_⟩
  rw [hk, recordAfterTick_eq]; rfl

theorem mem_tableTick_holders (hc : counting c t = true) {h : Holder} (hmem : h ∈ holdersAfterTick c src p t.records[p]) :
    h ∈ (tableTick c src t).table.records[p].holders := by
  obtain ⟨k, hk⟩ := tableTick_holders (src := src) (p := p) hc
  rw [hk]; exact List.mem_append_left _ hmem

theorem tableTick_lock (hc : counting c t = true) :
    (tableTick c src t).table.records[p].lock = (t.records[p].lock || locksNow c src p t.records[p]) := by
  obtain ⟨k, hk⟩ := tableTick_record (src := src) hc p
  rw [hk, recordAfterTick_eq]; rfl

/-- R101: a port whose LATE holding ends, and which stands once in the record, holds no more after the tick. -/
theorem tableTick_ends_holding (hc : counting c t = true) (hl : leased c src p = true) (hx : c.permits[p].expiry = .release)
    (hmem : ⟨port, .late⟩ ∈ t.records[p].holders) (hnodup : (portsOf t.records[p]).Nodup) :
    ∀ h ∈ (tableTick c src t).table.records[p].holders, h.port ≠ port := by
  obtain ⟨hholders, _, hdisjoint⟩ := List.nodup_append.mp hnodup
  obtain ⟨k, hk⟩ := tableTick_holders (src := src) (p := p) hc
  rw [hk]
  intro h hh hport
  rcases List.mem_append.mp hh with hh | hh
  · obtain ⟨y, hy, hstage, hyport⟩ := mem_holdersAfterTick_release hl hx hh
    have hsame : y = ⟨port, .late⟩ := List.inj_on_of_nodup_map hholders hy hmem (hyport.symm.trans hport)
    exact hstage (hsame ▸ rfl)
  · obtain ⟨z, hz, rfl⟩ := List.mem_map.mp hh
    obtain ⟨y, hy, hyport⟩ := mem_queue_recordAfterTick (List.mem_of_mem_take hz)
    exact hdisjoint _ (List.mem_map_of_mem hmem) _ (List.mem_map_of_mem hy) (hport.symm.trans hyport.symm)

/-- R102: a permit that locks at the tick is left empty. -/
theorem tableTick_locks (hc : counting c t = true) (hlocks : locksNow c src p t.records[p] = true) :
    (tableTick c src t).table.records[p] = { t.records[p] with lock := true, holders := [], queue := [] } := by
  obtain ⟨hl, _⟩ := locksNow_iff.mp hlocks
  obtain ⟨k, hk⟩ := tableTick_record (src := src) hc p
  have hwaiting : waitingAfterLease c src p t.records[p] = [] := if_pos hlocks
  rw [hk, recordAfterTick_eq, hlocks, holdersAfterTick_locks hl hlocks, hwaiting, Bool.or_true]
  simp only [List.filter_nil, List.map_nil, ite_self, grantedHeads, List.take_nil, List.append_nil, List.drop_nil]

end Tick

/-! When the next tick has the outcome. -/

section Next

variable {s : State} {p : PermitId} {port : Port}

theorem leased_self (c : ConfigStore) (p : PermitId) : leased c c.permits[p].source p = c.permits[p].lease := by
  simp only [leased, decide_true, Bool.and_true]

/-- A notice LATE or REVOKED(LEASE) of a tick comes of its lease step. -/
theorem tickMakes_leaseNotice {src : SourceId} {b : NoticeBody} (hb : b = .late p ∨ b = .revoked p .lease)
    (h : tickMakes src (port, b) s = true) : counting s.config s.table = true ∧
      ∃ q : PermitId, leased s.config src q = true ∧ (port, b) ∈ leaseNotices s.config.permits[q].expiry q s.table.records[q] := by
  obtain ⟨hc, hlease | ⟨q, _, hm⟩ | ⟨q, hm⟩⟩ := tickMakes_mem h
  · exact ⟨hc, hlease⟩
  · obtain ⟨y, _, hy⟩ := waitEndNotices_mem hm
    rcases hb with rfl | rfl <;> cases hy
  · rcases hb with rfl | rfl <;> cases hm

/-- R98: the tick makes a holding LATE that is ARMED, under LOCK before any LATE one. -/
theorem tickMakes_late_iff : tickMakes s.config.permits[p].source (port, .late p) s = true ↔
    counting s.config s.table = true ∧ s.config.permits[p].lease = true ∧
      HoldsAt s.config.permits[p].expiry port .armed s.table.records[p] := by
  constructor
  · intro h
    obtain ⟨hc, q, hl, hm⟩ := tickMakes_leaseNotice (.inl rfl) h
    obtain ⟨hlate, _⟩ := leaseNotices_mem (p := p) hm
    obtain ⟨rfl, hholds⟩ := hlate rfl
    exact ⟨hc, (leased_iff.mp hl).1, hholds⟩
  · rintro ⟨hc, hl, hholds⟩
    exact List.contains_iff_mem.mpr (leaseNotices_mem_tableTick hc ((leased_self ..).trans hl) (lateNotice_mem hholds))

/-- R101, R102: the tick ends a LATE holding, under LOCK the first. -/
theorem tickMakes_expiry_iff (hx : s.config.permits[p].expiry ≠ .trip) :
    tickMakes s.config.permits[p].source (port, .revoked p .lease) s = true ↔
      counting s.config s.table = true ∧ s.config.permits[p].lease = true ∧
        HoldsAt s.config.permits[p].expiry port .late s.table.records[p] := by
  constructor
  · intro h
    obtain ⟨hc, q, hl, hm⟩ := tickMakes_leaseNotice (.inr rfl) h
    obtain ⟨_, hended, _⟩ := leaseNotices_mem (p := p) hm
    obtain ⟨rfl, hholds⟩ := hended rfl
    exact ⟨hc, (leased_iff.mp hl).1, hholds⟩
  · rintro ⟨hc, hl, hholds⟩
    exact List.contains_iff_mem.mpr (leaseNotices_mem_tableTick hc ((leased_self ..).trans hl) (expiryNotice_mem hx hholds))

/-- R103: the tick hands on the cause of a LATE holding under TRIP. -/
theorem tickTrips_iff : ((tickWork s.config.permits[p].source s).causes.contains (.lease p) &&
    s.table.records[p].holders.contains ⟨port, .late⟩) = true ↔
      counting s.config s.table = true ∧ s.config.permits[p].lease = true ∧ s.config.permits[p].expiry = .trip ∧
        ⟨port, .late⟩ ∈ s.table.records[p].holders := by
  simp only [Bool.and_eq_true, List.contains_iff_mem, tickWork, leaseCause_mem, leased_self]
  constructor
  · rintro ⟨⟨hc, hl, hx, _⟩, hmem⟩
    exact ⟨hc, hl, hx, hmem⟩
  · rintro ⟨hc, hl, hx, hmem⟩
    exact ⟨⟨hc, hl, hx, _, hmem, rfl⟩, hmem⟩

/-- A notice of the tick stands behind those already on their way to its port. -/
theorem afterPermitTick_tells {src : SourceId} {b : NoticeBody} (h : tickMakes src (port, b) s = true) :
    ∃ more rest, (afterPermitTick src s).flight.notices[port] =
      s.flight.notices[port] ++ more ++ ⟨.permitTable, ⟨b, s.eval.passCount⟩⟩ :: rest :=
  commitWork_tells (List.contains_iff_mem.mp h) _ _

end Next

/-- Settles O34: each command is the tick when `tickMakes` or the causes of the tick say that it has the outcome. -/
theorem silentHoldersBecomeLateAndExpire : Obligations.SilentHoldersBecomeLateAndExpire := by
  unfold Obligations.SilentHoldersBecomeLateAndExpire
  constructor
  · intro p port s hr e comes holds noneLate nothing
    refine ⟨fun hnot => ?_, fun hnot => ?_, fun hnot => ?_, fun hnot => ?_⟩
    · refine (exec_late hr p port).trans (congrArg _ (takePermitTickIf_neg fun ⟨htick, hmakes⟩ => ?_))
      obtain ⟨hc, hl, hholds⟩ := tickMakes_late_iff.mp hmakes
      exact hnot ⟨⟨counting_iff.mp hc, htick, hl⟩, hholds⟩
    · refine (exec_leaseExpiryRelease hr p port).trans (congrArg _ (takePermitTickIf_neg fun ⟨htick, hmakes⟩ => ?_))
      obtain ⟨hx, hmakes⟩ := (Bool.and_eq_true ..).mp hmakes
      have hx : e.expiry = .release := of_decide_eq_true hx
      obtain ⟨hc, hl, before, after, hsplit, _⟩ := (tickMakes_expiry_iff (by rw [hx]; nofun)).mp hmakes
      exact hnot ⟨⟨counting_iff.mp hc, htick, hl⟩, hx, before, after, hsplit, trivial⟩
    · refine (exec_leaseExpiryLock hr p port).trans (congrArg _ (takePermitTickIf_neg fun ⟨htick, hmakes⟩ => ?_))
      obtain ⟨hx, hmakes⟩ := (Bool.and_eq_true ..).mp hmakes
      have hx : e.expiry = .lock := of_decide_eq_true hx
      obtain ⟨hc, hl, before, after, hsplit, hahead⟩ := (tickMakes_expiry_iff (by rw [hx]; nofun)).mp hmakes
      exact hnot ⟨⟨counting_iff.mp hc, htick, hl⟩, hx, before, after, hsplit, hahead hx⟩
    · refine (exec_leaseExpiryTrip hr p port).trans (congrArg _ (takePermitTickIf_neg fun ⟨htick, hmakes⟩ => ?_))
      obtain ⟨hc, hl, hx, hmem⟩ := tickTrips_iff.mp hmakes
      obtain ⟨before, after, hsplit⟩ := List.append_of_mem hmem
      exact hnot ⟨⟨counting_iff.mp hc, htick, hl⟩, hx, before, after, hsplit, trivial⟩
  · intro p port before after stage s hr hcounts htick hl hsplit ticks tells locking
    have hc := counting_iff.mpr hcounts
    have hleased := (leased_self s.config p).trans hl
    have hmem : ⟨port, stage⟩ ∈ s.table.records[p].holders := hsplit ▸ List.mem_append_right _ List.mem_cons_self
    have hticks : ∀ {b : Bool} {x : Instr}, exec x s = .next (takePermitTickIf b s.config.permits[p].source s) → b = true →
        ticks x (afterPermitTick s.config.permits[p].source s) := fun hx hb =>
      ⟨hx.trans (congrArg _ (takePermitTickIf_pos ⟨htick, hb⟩)), exec_tickAtPermitTable hr htick⟩
    refine ⟨fun hstage hahead => ?_, fun hstage hx => ?_, fun hstage hx hahead => ?_, fun hstage hx => ?_⟩ <;> subst hstage
    · have hmakes := tickMakes_late_iff.mpr ⟨hc, hl, before, after, hsplit, fun hx y hy hlate =>
        hahead ⟨hx, y, hsplit ▸ List.mem_append_left _ hy, hlate⟩ y hy hlate⟩
      refine ⟨_, hticks (exec_late hr p port) hmakes, afterPermitTick_tells hmakes, fun hnot => ?_⟩
      refine mem_tableTick_holders hc (armed_mem_holdersAfterTick hleased (Bool.eq_false_iff.mpr fun hlocks => hnot ?_) hmem)
      obtain ⟨_, hlocking⟩ := locksNow_iff.mp hlocks
      exact hlocking
    · have hmakes := (tickMakes_expiry_iff (by rw [hx]; nofun)).mpr
        ⟨hc, hl, before, after, hsplit, fun hlock => nomatch hx.symm.trans hlock⟩
      refine ⟨_, hticks (exec_leaseExpiryRelease hr p port) (by rw [hmakes, hx]; rfl), afterPermitTick_tells hmakes, ?_,
        tableTick_ends_holding hc hleased hx hmem⟩
      have hopen : locksNow s.config s.config.permits[p].source p s.table.records[p] = false :=
        locksNow_of_ne_lock (by rw [hx]; nofun)
      exact (tableTick_lock hc).trans (by rw [hopen, Bool.or_false])
    · have hmakes := (tickMakes_expiry_iff (by rw [hx]; nofun)).mpr ⟨hc, hl, before, after, hsplit, fun _ => hahead⟩
      exact ⟨_, hticks (exec_leaseExpiryLock hr p port) (by rw [hmakes, hx]; rfl), afterPermitTick_tells hmakes,
        tableTick_locks hc (locksNow_iff.mpr ⟨hleased, hx, _, hmem, rfl⟩)⟩
    · have htrips := tickTrips_iff.mpr ⟨hc, hl, hx, hmem⟩
      obtain ⟨more, rest, hcauses⟩ := List.append_of_mem
        (leaseCause_mem.mpr ⟨hc, hleased, hx, _, hmem, rfl⟩)
      refine ⟨_, more, rest, hticks (exec_leaseExpiryTrip hr p port) htrips, ?_,
        mem_tableTick_holders hc (late_mem_holdersAfterTick hleased hx hmem)⟩
      exact (congrArg (s.flight.tripCauses ++ ·) hcauses).trans (List.append_assoc ..).symm

end Sys2Proof.Proofs
end

section
/-! SUPPORT. What only a few commands may do (R39, R119, R154, R158): end a trip, change an entry of a table other than WATCH, the
epoch or the pass count. What each command may do is its allowance, and every command stays within its own. -/

namespace Sys2Proof.Proofs

open Sys2Proof Sys2Proof.Machine Sys2Proof.Laws

/-! Allowances. -/

/-- What a command may do to the trip, the entries, the epoch and the pass count. -/
structure Allowance where
  endsTrip : Prop
  changesEntry : Prop
  changesEpoch : Prop
  movesCount : Prop

/-- R143, R144: the commands that begin a hard or power-on reset. -/
def beginsReset (c : Instr) : Prop := c = .powerOn ∨ c = .resetNActive ∨ ∃ p, c = .hardReset p

/-- R39, R119, R154, R158: the allowance of a command that meets the part as s. -/
def allowance (c : Instr) (s : State) : Allowance where
  endsTrip := (∃ p, c = .clearTrip p) ∨ beginsReset c
  changesEntry := (s.engine.state = .halted ∧ ∃ w, writeShape c = some w) ∨ beginsReset c
  changesEpoch := (∃ p, c = .resume p) ∨ beginsReset c
  movesCount := ((∃ din pfb, c = .pass din pfb) ∨ ∃ p, c = .softReset p) ∨ beginsReset c

/-- What an allowance speaks of. -/
def guardedFields (s : State) := (s.trip.state, entriesOf s.config, s.config.epoch, s.eval.passCount)

/-- From s to t nothing is done beyond the allowance. -/
structure Guarded (a : Allowance) (s t : State) : Prop where
  trip : s.trip.state = .tripped → t.trip.state = .normal → a.endsTrip
  entries : entriesOf t.config ≠ entriesOf s.config → a.changesEntry
  epoch : t.config.epoch ≠ s.config.epoch → a.changesEpoch
  count : t.eval.passCount ≠ s.eval.passCount → a.movesCount

namespace Guarded

variable {a : Allowance} {s t u : State}

theorem trans (h : Guarded a s t) (h' : Guarded a t u) : Guarded a s u where
  trip hs hu := by
    cases ht : t.trip.state with
    | normal => exact h.trip hs ht
    | tripped => exact h'.trip ht hu
  entries hne := (hne.ne_or_ne (entriesOf t.config)).elim h'.entries fun hst => h.entries hst.symm
  epoch hne := (hne.ne_or_ne t.config.epoch).elim h'.epoch fun hst => h.epoch hst.symm
  count hne := (hne.ne_or_ne t.eval.passCount).elim h'.count fun hst => h.count hst.symm

/-- `trans` with the later change first, whose states say what the earlier change is. -/
theorem after (h' : Guarded a t u) (h : Guarded a s t) : Guarded a s u := h.trans h'

/-- A change of the trip unit that does not end a trip is within every allowance. -/
theorem of_trip (hconfig : t.config = s.config) (heval : t.eval = s.eval)
    (htrip : s.trip.state = .tripped → t.trip.state = .tripped) : Guarded a s t where
  trip hs ht := nomatch (htrip hs).symm.trans ht
  entries hne := absurd (congrArg entriesOf hconfig) hne
  epoch hne := absurd (congrArg ConfigStore.epoch hconfig) hne
  count hne := absurd (congrArg Evaluator.passCount heval) hne

/-- A change elsewhere is within every allowance. -/
theorem elsewhere (h : guardedFields t = guardedFields s) : Guarded a s t := by
  simp only [guardedFields, Prod.mk.injEq] at h
  obtain ⟨htrip, hentries, hepoch, hcount⟩ := h
  exact ⟨fun hs ht => (nomatch hs.symm.trans (htrip.symm.trans ht)), absurd hentries, absurd hepoch, absurd hcount⟩

theorem refl (s : State) : Guarded a s s := .elsewhere rfl

/-- A reset may do all four. -/
theorem of_reset {c : Instr} (h : beginsReset c) : Guarded (allowance c u) s t :=
  ⟨fun _ _ => .inr h, fun _ => .inr h, fun _ => .inr h, fun _ => .inr h⟩

end Guarded

section Commands

variable {a : Allowance} {s₀ s : State}

/-! Events and requests. -/

theorem guarded_portFree : PortFree (Guarded a s₀) := fun _ _ _ h => h.trans (.elsewhere rfl)

theorem event_guarded {f : State → State} (hf : ∀ s, Guarded a s (f s)) : Guarded a s (s.unlessReset f) :=
  unlessReset_keeps (P := Guarded a s) (fun t _ h => h.trans (hf t)) (.refl s)

theorem request_guarded {port : Port} {c : Instr} {echo : Byte} {n : Nat} {body : Bool → Body}
    (hb : ∀ live, BodyKeeps (Guarded a s) (body live)) : Guarded a s (serveWith port c echo n body s) :=
  serveWith_keeps guarded_portFree hb (.refl s)

theorem serve_guarded {port : Port} {c : Instr} {echo : Byte} {n : Nat} {body : Body} (hb : BodyKeeps (Guarded a s) body) :
    Guarded a s (serve port c echo n body s) := request_guarded fun _ => hb

theorem body_guarded {body : Body} (hb : ∀ s, Guarded a s (body s).1) : BodyKeeps (Guarded a s₀) body :=
  fun s h => h.trans (hb s)

/-- The requests that are taken in HALTED alone. -/
theorem halted_guarded {body : Body} (hb : ∀ s, Guarded a s (body s).1) : BodyKeeps (Guarded a s₀) (needHalted body) :=
  needHalted_keeps fun s _ h => h.trans (hb s)

theorem takePart_guarded (port : Port) (kind : Byte) (part : TransactionPart) (s : State) :
    Guarded a s (takePart port kind part s) := by
  obtain ⟨x, e⟩ := takePart_port port kind part s
  rw [e]; exact .elsewhere rfl

/-- A check of an operand before the rest of a request. -/
theorem refusedUnless_guarded {c : Prop} [Decidable c] {reason : Reason} {body : Body} (hb : BodyKeeps (Guarded a s₀) body) :
    BodyKeeps (Guarded a s₀) fun s => if c then body s else refused s reason := by
  intro s h; simp only; split
  · exact hb s h
  · exact h

/-! The clock and the scan unit. -/

theorem referencePeriod_guarded (s : State) : Guarded a s (referencePeriod s) := by
  unfold referencePeriod; split <;> exact .elsewhere rfl

theorem takeSourceTick_guarded (src : SourceId) (s : State) : Guarded a s (takeSourceTick src s) := by
  unfold takeSourceTick; split <;> exact .elsewhere rfl

theorem takeTrigger_guarded (tick : TriggerTick) (s : State) : Guarded a s (takeTrigger tick s) := by
  unfold takeTrigger; split
  · exact .refl s
  · simp only; split <;> exact .elsewhere rfl

theorem takeConversion_guarded (ain : Vector Int 12) (s : State) : Guarded a s (takeConversion ain s) := by
  unfold takeConversion; split
  · exact .refl s
  · split <;> exact .elsewhere rfl

/-- R39: a pass moves the pass count, and nothing else of the four. -/
theorem takePass_guarded (ha : a.movesCount) (din pfb : Word16) (s : State) : Guarded a s (takePass din pfb s) := by
  have hdelivered : ∀ sc pend, Guarded a s (deliverPass sc din pfb pend s) := fun _ _ =>
    ⟨fun hs ht => (nomatch hs.symm.trans ht), absurd rfl, absurd rfl, fun _ => ha⟩
  unfold takePass; split
  · exact .refl s
  · split
    · unfold runPass; simp only; split
      · exact .elsewhere rfl
      · exact hdelivered _ _
    · exact .refl s

theorem takeScanChange_guarded (s : State) : Guarded a s (takeScanChange s) := by
  unfold takeScanChange; split <;> exact .elsewhere rfl

/-! The permit table. -/

theorem onTable_guarded (f : PermitTable → PermitTable) (s : State) : Guarded a s (s.onTable f) := .elsewhere rfl

theorem onFlight_guarded (f : InFlight → InFlight) (s : State) : Guarded a s (s.onFlight f) := .elsewhere rfl

theorem takeOldestResult_guarded (s : State) : Guarded a s (takeOldestResult s) := by
  unfold takeOldestResult; split <;> exact .elsewhere rfl

theorem takeTableChange_guarded (s : State) : Guarded a s (takeTableChange s) := by
  unfold takeTableChange; split <;> exact .elsewhere rfl

theorem takePermitTickIf_guarded (happens : Bool) (src : SourceId) (s : State) :
    Guarded a s (takePermitTickIf happens src s) := by
  unfold takePermitTickIf; split <;> exact .elsewhere rfl

theorem takeTripEntry_guarded (s : State) : Guarded a s (takeTripEntry s) := by
  unfold takeTripEntry; split
  · exact (onTable_guarded _ s).trans (onFlight_guarded _ _)
  · exact .refl s

theorem takeTripClearing_guarded (s : State) : Guarded a s (takeTripClearing s) := by
  unfold takeTripClearing; split
  · exact (onTable_guarded _ s).trans (onFlight_guarded _ _)
  · exact .refl s

theorem claimBody_guarded (port : Port) (permit priority wait : Byte) (epoch : Word16) (s : State) :
    Guarded a s (claimBody port permit priority wait epoch s).1 := by
  unfold claimBody; split
  · split
    · exact .refl s
    · unfold admitClaim; simp only; split
      · exact .elsewhere rfl
      · split <;> exact .elsewhere rfl
  · exact .refl s

theorem releaseBody_guarded (port : Port) (p : PermitId) (s : State) : Guarded a s (releaseBody port p s).1 := by
  unfold releaseBody; simp only; split
  · exact .elsewhere rfl
  · split <;> exact .elsewhere rfl

theorem refreshBody_guarded (port : Port) (p : PermitId) (s : State) : Guarded a s (refreshBody port p s).1 := by
  unfold refreshBody; simp only; split <;> exact .elsewhere rfl

theorem unlockBody_guarded (p : PermitId) (s : State) : Guarded a s (unlockBody p s).1 := by
  unfold unlockBody; simp only; split <;> exact .elsewhere rfl

/-! The trip unit: a cause enters a trip or joins it (R110), and ends none. -/

theorem causeArrives_guarded (cause : TripCause) (s : State) : Guarded a s (causeArrives cause s) := by
  unfold causeArrives; split
  · exact .of_trip rfl rfl fun _ => rfl
  · exact .of_trip rfl rfl id

theorem takeTripCause_guarded (s : State) : Guarded a s (takeTripCause s) := by
  unfold takeTripCause; split
  · exact .refl s
  · exact (causeArrives_guarded ..).after (.elsewhere rfl)

theorem applyFaultReport_guarded (r : FaultReport) (s : State) : Guarded a s (applyFaultReport r s) := by
  unfold applyFaultReport; simp only; split
  · exact .of_trip rfl rfl id
  · split
    · exact .of_trip rfl rfl id
    · split
      · exact .of_trip rfl rfl id
      · exact .of_trip rfl rfl fun _ => rfl

theorem takeFaultReport_guarded (s : State) : Guarded a s (takeFaultReport s) := by
  unfold takeFaultReport; split
  · exact .refl s
  · exact (applyFaultReport_guarded ..).after (.elsewhere rfl)

theorem takeDeadlineRestart_guarded (s : State) : Guarded a s (takeDeadlineRestart s) := by
  unfold takeDeadlineRestart; split <;> exact .elsewhere rfl

theorem applyTripTick_guarded (s : State) : Guarded a s (applyTripTick s) := by
  unfold applyTripTick; split
  · simp only; split
    · exact (causeArrives_guarded ..).after (.elsewhere rfl)
    · exact .elsewhere rfl
  · exact .refl s

theorem takeTripTick_guarded (s : State) : Guarded a s (takeTripTick s) := by
  unfold takeTripTick; split
  · exact .refl s
  · exact (applyTripTick_guarded _).after (.elsewhere rfl)

/-- R119: CLEAR_TRIP ends a trip, and does nothing else of the four. -/
theorem clearTripBody_guarded (ha : a.endsTrip) (s : State) : Guarded a s (clearTripBody s).1 := by
  unfold clearTripBody; split
  · exact .refl s
  · split
    · exact .refl s
    · exact ⟨fun _ _ => ha, absurd rfl, absurd rfl, absurd rfl⟩

/-! The engine controller. -/

theorem takeReport_guarded (s : State) : Guarded a s (takeReport s) := by
  unfold takeReport; split
  · exact .refl s
  · next r rest _ =>
    obtain ⟨hconfig, _, htrip, _, heval, _⟩ := applyReport_rest r (s.onFlight fun f => { f with passReports := rest })
    exact .of_trip hconfig heval fun h => htrip.symm ▸ h

theorem haltBody_guarded (port : Port) (s : State) : Guarded a s (haltBody port s).1 := by
  unfold haltBody; split
  · split <;> exact .elsewhere rfl
  · exact .refl s

/-- R158: an accepted RESUME from HALTED moves the epoch at a commit, and nothing else of the four; a commit leaves the
entries as written. -/
theorem resumeState_guarded (ha : a.changesEpoch) (commits : Bool) (s : State) : Guarded a s (resumeState commits s) := by
  obtain ⟨hconfig, _, htrip, _, heval, _⟩ := drainReports_rest s
  obtain ⟨t, f, hdrained⟩ := drainPermit_rest (drainReports s)
  have hsame : guardedFields (drainPermit (drainReports s)) = guardedFields s := by
    simp only [hdrained, guardedFields, hconfig, htrip, heval]
  refine .trans (t := drainPermit (drainReports s)) (.elsewhere hsame) ?_
  cases commits
  · exact .elsewhere rfl
  · exact ⟨fun hs ht => (nomatch hs.symm.trans ht), absurd rfl, fun _ => ha, absurd rfl⟩

theorem resumeBody_guarded (ha : a.changesEpoch) (s : State) : Guarded a s (resumeBody s).1 := by
  unfold resumeBody; split
  · exact .refl s
  · exact .elsewhere rfl
  · exact .refl s
  · split
    · split
      · exact .refl s
      · exact resumeState_guarded ha true s
    · exact resumeState_guarded ha false s

theorem stepBody_guarded (port : Port) (live : Bool) (s : State) : Guarded a s (stepBody port live s).1 := by
  unfold stepBody; split
  · exact .refl s
  · exact .refl s
  · exact .refl s
  · split
    · exact .refl s
    · exact beginStep_keeps (P := Guarded a s) (fun _ _ h => h.trans (.elsewhere rfl)) (fun _ _ h => h.trans (.elsewhere rfl))
        (fun _ _ h => h.trans (.elsewhere rfl)) (fun _ _ h => h.trans (.elsewhere rfl)) _ (.refl s)

theorem injectChannelBody_guarded (c : ChannelId) (v : Int) (s : State) : Guarded a s (injectChannelBody c v s).1 := by
  unfold injectChannelBody; simp only; split <;> exact .elsewhere rfl

theorem clearInjectBody_guarded (port : Port) (selection number : Byte) :
    BodyKeeps (Guarded a s₀) (clearInjectBody port selection number) := by
  unfold clearInjectBody; split
  · exact needRight_keeps (halted_guarded fun _ => .elsewhere rfl)
  · exact needNumber_keeps fun _ => needRight_keeps (halted_guarded fun _ => .elsewhere rfl)
  · exact needNumber_keeps fun _ => needRight_keeps (halted_guarded fun _ => .elsewhere rfl)
  · exact body_guarded .refl

/-! Notices and reads. -/

theorem takeNotice_guarded (maker : NoticeMaker) (port : Port) (s : State) : Guarded a s (takeNotice maker port s) := by
  unfold takeNotice; split <;> exact .elsewhere rfl

theorem readNoticeBody_guarded (port : Port) (s : State) : Guarded a s (readNoticeBody port s).1 := by
  unfold readNoticeBody; simp only; split <;> exact .elsewhere rfl

theorem readEntryBody_guarded (table index : Byte) (s : State) : Guarded a s (readEntryBody table index s).1 := by
  unfold readEntryBody; split <;> exact .refl s

/-! Writes (R150, R154). -/

/-- The blocks beside the entries that tell whether a write is within its allowance. -/
def besideEntries (s : State) := (s.engine, s.trip, s.eval, s.config.epoch)

theorem writePermitBody_beside (index : Byte) (p : PermitId) (e : PermitEntry) (s : State) :
    besideEntries (writePermitBody index p e s).1 = besideEntries s := by
  unfold writePermitBody; split <;> rfl

theorem writeGroupBody_beside (index : Byte) (g : GroupId) (e : GroupEntry) (s : State) :
    besideEntries (writeGroupBody index g e s).1 = besideEntries s := by
  unfold writeGroupBody; split <;> rfl

theorem writeProfileBody_beside (index : Byte) (i : Port) (e : Profile) (s : State) :
    besideEntries (writeProfileBody index i e s).1 = besideEntries s := by
  unfold writeProfileBody; split <;> rfl

/-- R150, R154: a write to a table other than WATCH is accepted in HALTED alone. -/
theorem write_guarded {α : Type} {n size : Nat} {port : Port} {c : Instr} {echo index : Byte} {entry : Except FieldNo α}
    {body : Fin size → α → Body} (ha : s.engine.state = .halted → a.changesEntry)
    (hb : ∀ i e t, besideEntries (body i e t).1 = besideEntries t) :
    Guarded a s (serve port c echo n (checkFields size index entry fun i e => needConfigure port (body i e)) s) := by
  have hkept : BodyKeeps (fun t => t.engine = s.engine ∧ Guarded a s t)
      (checkFields size index entry fun i e => needConfigure port (body i e)) := by
    refine checkFields_keeps fun i e _ => needConfigure_keeps fun t hhalted ⟨hengine, h⟩ => ?_
    have hbeside := hb i e t
    simp only [besideEntries, Prod.mk.injEq] at hbeside
    obtain ⟨hengine', htrip, heval, hepoch⟩ := hbeside
    refine ⟨hengine'.trans hengine, h.trans ⟨fun hs ht => ?_, fun _ => ha (hengine ▸ hhalted), absurd hepoch,
      absurd (congrArg Evaluator.passCount heval)⟩⟩
    exact nomatch hs.symm.trans ((congrArg TripUnit.state htrip).symm.trans ht)
  exact (serve_keeps (P := fun t => t.engine = s.engine ∧ Guarded a s t)
    (fun _ _ _ ⟨hengine, h⟩ => ⟨hengine, h.trans (.elsewhere rfl)⟩) hkept ⟨rfl, .refl s⟩).2

/-! Resets (R122, R124, R141, R144). -/

theorem endReset_guarded (s : State) : Guarded a s (endReset s) := by
  unfold endReset; simp only; split
  · exact .of_trip rfl rfl fun _ => rfl
  · exact .elsewhere rfl

theorem resetEnd_guarded (s : State) : Guarded a s (if s.resetActive then endReset { s with resetActive := false } else s) := by
  split
  · exact (endReset_guarded _).after (.elsewhere rfl)
  · exact .refl s

/-- R142: what a pass set out is taken, a fault report among it that may enter a trip. -/
theorem finishPasses_guarded (s : State) : Guarded a s (finishPasses s) := by
  obtain ⟨t, f, hdrained⟩ := drainPermit_rest s
  refine fold_keeps (P := Guarded a s) (fun u r h => h.trans (applyFaultReport_guarded r u)) _ ?_
  rw [hdrained]; exact .elsewhere rfl

/-- R39, R122: a soft reset sets the pass count to 0, and keeps the trip, the entries and the epoch. -/
theorem softResetBody_guarded (ha : a.movesCount) (port : Port) (s : State) : Guarded a s (softResetBody port s).1 :=
  (finishPasses_guarded s).trans ⟨fun hs ht => (nomatch hs.symm.trans ht), absurd rfl, absurd rfl, fun _ => ha⟩

end Commands

/-! Every command. -/

theorem exec_guarded (c : Instr) (s : State) : ∃ t, exec c s = .next t ∧ Guarded (allowance c s) s t := by
  cases c with
  | powerOn => exact ⟨_, rfl, .of_reset (.inl rfl)⟩
  | resetNActive => exact ⟨_, rfl, .of_reset (.inr (.inl rfl))⟩
  | hardReset port => exact ⟨_, rfl, .of_reset (.inr (.inr ⟨port, rfl⟩))⟩
  | resetEnd => exact ⟨_, rfl, resetEnd_guarded s⟩
  | tripInActive =>
    exact ⟨_, rfl, .trans (t := { s with tripInActive := true }) (.elsewhere rfl) (event_guarded (causeArrives_guarded _))⟩
  | tripInInactive =>
    exact ⟨_, rfl, .trans (t := { s with tripInActive := false }) (.elsewhere rfl) (event_guarded fun _ => .elsewhere rfl)⟩
  | baseTick => exact ⟨_, rfl, event_guarded fun _ => .elsewhere rfl⟩
  | sourceTick src => exact ⟨_, rfl, event_guarded (takeSourceTick_guarded src)⟩
  | tickAtPermitTable _ | settleEnd _ | late _ _ | leaseExpiryRelease _ _ | leaseExpiryLock _ _ | leaseExpiryTrip _ _
  | waitExpired _ _ => exact ⟨_, rfl, event_guarded fun _ => takePermitTickIf_guarded ..⟩
  | tickAtTripUnit => exact ⟨_, rfl, event_guarded takeTripTick_guarded⟩
  | passDeadline =>
    refine ⟨_, rfl, event_guarded fun t => ?_⟩
    split
    · exact takeTripTick_guarded t
    · exact .refl t
  | runScanStart tick => exact ⟨_, rfl, event_guarded (takeTrigger_guarded tick)⟩
  | conversion ain => exact ⟨_, rfl, event_guarded (takeConversion_guarded ain)⟩
  | pass din pfb => exact ⟨_, rfl, event_guarded (takePass_guarded (Or.inl (.inl ⟨din, pfb, rfl⟩)) din pfb)⟩
  | passResult => exact ⟨_, rfl, event_guarded takeOldestResult_guarded⟩
  | faultReport => exact ⟨_, rfl, event_guarded takeFaultReport_guarded⟩
  | deadlineRestart => exact ⟨_, rfl, event_guarded takeDeadlineRestart_guarded⟩
  | passEndReport => exact ⟨_, rfl, event_guarded takeReport_guarded⟩
  | engineStateChange consumer =>
    cases consumer with
    | permitTable => exact ⟨_, rfl, event_guarded takeTableChange_guarded⟩
    | scanUnit => exact ⟨_, rfl, event_guarded takeScanChange_guarded⟩
  | tripCauseArrival => exact ⟨_, rfl, event_guarded takeTripCause_guarded⟩
  | permitTripEntry => exact ⟨_, rfl, event_guarded takeTripEntry_guarded⟩
  | permitTripClearing => exact ⟨_, rfl, event_guarded takeTripClearing_guarded⟩
  | noticeArrival maker port => exact ⟨_, rfl, event_guarded (takeNotice_guarded maker port)⟩
  | status _ _ _ | fetch _ _ | frameError _ _ | frameDiscarded _ _ => exact ⟨_, rfl, takePart_guarded ..⟩
  | readStatus _ | readLines _ | readTerms _ | readTrip _ | readHaltRecord _ =>
    exact ⟨_, rfl, serve_guarded (read_keeps _)⟩
  | readChannel _ _ | readPermit _ _ => exact ⟨_, rfl, serve_guarded (needNumber_keeps fun _ => read_keeps _)⟩
  | readNotice port => exact ⟨_, rfl, serve_guarded (body_guarded (readNoticeBody_guarded port))⟩
  | readEntry port table index => exact ⟨_, rfl, serve_guarded (body_guarded (readEntryBody_guarded table index))⟩
  | claim port permit priority wait epoch =>
    exact ⟨_, rfl, serve_guarded (body_guarded (claimBody_guarded port permit priority wait epoch))⟩
  | release port permit =>
    exact ⟨_, rfl, serve_guarded (needNumber_keeps fun p => body_guarded (releaseBody_guarded port p))⟩
  | refresh port permit =>
    exact ⟨_, rfl, serve_guarded (needNumber_keeps fun p => body_guarded (refreshBody_guarded port p))⟩
  | refreshAll port => exact ⟨_, rfl, serve_guarded (body_guarded fun _ => .elsewhere rfl)⟩
  | revoke port permit =>
    exact ⟨_, rfl, serve_guarded (needNumber_keeps fun _ => needRight_keeps (body_guarded fun _ => .elsewhere rfl))⟩
  | unlock port permit =>
    exact ⟨_, rfl, serve_guarded (needNumber_keeps fun p => needRight_keeps (body_guarded (unlockBody_guarded p)))⟩
  | trip port => exact ⟨_, rfl, serve_guarded (body_guarded (causeArrives_guarded _))⟩
  | clearTrip port =>
    exact ⟨_, rfl, serve_guarded (needRight_keeps (body_guarded (clearTripBody_guarded (Or.inl ⟨port, rfl⟩))))⟩
  | halt port => exact ⟨_, rfl, serve_guarded (needRight_keeps (body_guarded (haltBody_guarded port)))⟩
  | resume port =>
    exact ⟨_, rfl, serve_guarded (needRight_keeps (body_guarded (resumeBody_guarded (Or.inl ⟨port, rfl⟩))))⟩
  | step port =>
    exact ⟨_, rfl, request_guarded fun live => needRight_keeps (body_guarded (stepBody_guarded port live))⟩
  | injectChannel port channel reading =>
    exact ⟨_, rfl, serve_guarded (needNumber_keeps fun c => refusedUnless_guarded (needRight_keeps
      (halted_guarded (injectChannelBody_guarded c _))))⟩
  | injectLine port line level =>
    exact ⟨_, rfl, serve_guarded (needNumber_keeps fun _ => refusedUnless_guarded (needRight_keeps
      (halted_guarded fun _ => .elsewhere rfl)))⟩
  | clearInject port selection number => exact ⟨_, rfl, serve_guarded (clearInjectBody_guarded port selection number)⟩
  | clearHaltRecord port =>
    exact ⟨_, rfl, serve_guarded (needRight_keeps (halted_guarded fun _ => .elsewhere rfl))⟩
  | softReset port =>
    exact ⟨_, rfl, serve_guarded (needRight_keeps (body_guarded (softResetBody_guarded (Or.inl (.inr ⟨port, rfl⟩)) port)))⟩
  | writeChannelEntry _ _ _ _ _ _ _ _ _ | writeLineEntry _ _ _ _ | writeTermEntry _ _ _ _ _ _ _ _ _ | writeTickEntry _ _ _
  | writeEngineEntry _ _ _ _ _ =>
    exact ⟨_, rfl, write_guarded (fun he => .inl ⟨he, _, rfl⟩) fun _ _ _ => rfl⟩
  | writePermitEntry =>
    exact ⟨_, rfl, write_guarded (fun he => .inl ⟨he, _, rfl⟩) fun p e _ => writePermitBody_beside _ p e _⟩
  | writeGroupEntry =>
    exact ⟨_, rfl, write_guarded (fun he => .inl ⟨he, _, rfl⟩) fun g e _ => writeGroupBody_beside _ g e _⟩
  | writeProfileEntry =>
    exact ⟨_, rfl, write_guarded (fun he => .inl ⟨he, _, rfl⟩) fun i e _ => writeProfileBody_beside _ i e _⟩
  | writeWatchEntry =>
    exact ⟨_, rfl, serve_guarded (checkFields_keeps fun _ _ _ => needRight_keeps (body_guarded fun _ => .elsewhere rfl))⟩

/-- Settles O60: the front command, or the reference period of an empty queue, stays within its allowance. -/
theorem onlyTheirCommandsEndTripsAndChangeEntries : Obligations.OnlyTheirCommandsEndTripsAndChangeEntries := by
  unfold Obligations.OnlyTheirCommandsEndTripsAndChangeEntries
  intro s t hstep front
  obtain ⟨a, hguarded, htrip, hentries, hepoch, hcount⟩ : ∃ a : Allowance, Guarded a s t ∧
      (a.endsTrip → front fun c => ∃ p, c = .clearTrip p) ∧
      (a.changesEntry → front fun c => s.engine.state = .halted ∧ ∃ w, writeShape c = some w) ∧
      (a.changesEpoch → front fun c => ∃ p, c = .resume p) ∧
      (a.movesCount → front fun c => (∃ din pfb, c = .pass din pfb) ∨ ∃ p, c = .softReset p) := by
    cases hpending : s.pending with
    | nil =>
      cases (step_empty hpending).symm.trans hstep
      exact ⟨⟨False, False, False, False⟩, event_guarded referencePeriod_guarded, False.elim, False.elim, False.elim,
        False.elim⟩
    | cons c rest =>
      obtain ⟨t', ht', hguarded⟩ := exec_guarded c { s with pending := rest }
      have hexec : exec c { s with pending := rest } = .next t := by simpa only [step, hpending] using hstep
      cases hexec.symm.trans ht'
      exact ⟨_, hguarded.after (.elsewhere rfl), fun h => ⟨c, rest, hpending, h⟩, fun h => ⟨c, rest, hpending, h⟩,
        fun h => ⟨c, rest, hpending, h⟩, fun h => ⟨c, rest, hpending, h⟩⟩
  exact ⟨fun hs ht => htrip (hguarded.trip hs ht), hentries ∘ hguarded.entries, hepoch ∘ hguarded.epoch,
    hcount ∘ hguarded.count⟩

end Sys2Proof.Proofs
end

section
/-! SUPPORT. The trip unit in the terms of its statements (R109 to R119): the sets that causes join, a cause and a fault report that arrive,
a tick of the pass deadline, and the requests TRIP and CLEAR_TRIP. -/

namespace Sys2Proof.Proofs

open Sys2Proof Sys2Proof.Machine Sys2Proof.Laws

/-! Sets of causes (R109). -/

section Causes

variable (a : CauseSet)

theorem union_tripIn : a.union (.single .tripIn) = { a with tripIn := true } := by
  simp only [CauseSet.union, CauseSet.single, CauseSet.empty, Bool.or_true, Bool.or_false, BitVec.or_zero]

theorem union_passDeadline : a.union (.single .passDeadline) = { a with passDeadline := true } := by
  simp only [CauseSet.union, CauseSet.single, CauseSet.empty, Bool.or_true, Bool.or_false, BitVec.or_zero]

theorem union_faultCauses (faulted : BitVec 12) :
    a.union (faultCauses faulted) = { a with channelFault := a.channelFault ||| faulted } := by
  simp only [CauseSet.union, faultCauses, CauseSet.empty, Bool.or_false, BitVec.or_zero]

end Causes

/-! A cause that arrives (R110, R114, R116). -/

section Arrival

variable {cause : TripCause} {s : State}

theorem causeArrives_normal (h : s.trip.state = .normal) : causeArrives cause s = { s with
    trip := { s.trip with
      state := .tripped, present := s.trip.present.union (.single cause)
      record := ⟨some cause, s.eval.passCount, .single cause⟩ }
    flight := { s.flight with
      tripDeliveries := s.flight.tripDeliveries ++ [.entry]
      notices := flyAll .tripUnit s.eval.passCount (allPorts.map fun p => (p, .tripped cause)) s.flight.notices } } := by
  rw [causeArrives, h]; rfl

theorem causeArrives_tripped (h : s.trip.state = .tripped) : causeArrives cause s = { s with
    trip := { s.trip with
      present := s.trip.present.union (.single cause)
      record := { s.trip.record with causes := s.trip.record.causes.union (.single cause) } } } := by
  rw [causeArrives, h]; rfl

theorem causeArrives_state (cause : TripCause) (s : State) : (causeArrives cause s).trip.state = .tripped := by
  cases h : s.trip.state with
  | normal => rw [causeArrives_normal h]
  | tripped => rw [causeArrives_tripped h]; exact h

theorem exec_tripCauseArrival {rest : List TripCause} (hr : s.resetActive = false) (h : s.flight.tripCauses = cause :: rest) :
    exec .tripCauseArrival s =
      .next (causeArrives cause { s with flight := { s.flight with tripCauses := rest } }) := by
  refine congrArg _ ((unlessReset_inactive hr _).trans ?_)
  rw [takeTripCause, h]; rfl

end Arrival

/-! The trip input pin (R111) and the trip output (R117). -/

theorem tripOutActive_iff (s : State) : tripOutActive s = true ↔ s.trip.state = .tripped := decide_eq_true_iff

theorem exec_tripInActive {s : State} (hr : s.resetActive = false) :
    exec .tripInActive s = .next (causeArrives .tripIn { s with tripInActive := true }) :=
  congrArg _ (unlessReset_inactive (s := { s with tripInActive := true }) hr _)

theorem exec_tripInInactive {s : State} (hr : s.resetActive = false) : exec .tripInInactive s = .next { s with
    tripInActive := false, trip := { s.trip with present := { s.trip.present with tripIn := false } } } :=
  congrArg _ (unlessReset_inactive (s := { s with tripInActive := false }) hr _)

/-- Settles O40: the pin becoming active is the arrival of the cause TRIP_IN. -/
theorem tripInputRaisesAndEndsItsCause : Obligations.TripInputRaisesAndEndsItsCause := by
  unfold Obligations.TripInputRaisesAndEndsItsCause
  refine ⟨tripOutActive_iff, ?_⟩
  intro s hr present
  refine ⟨fun hnormal => ?_, fun htripped => ?_, exec_tripInInactive hr⟩
  · rw [exec_tripInActive hr, causeArrives_normal (s := { s with tripInActive := true }) hnormal, union_tripIn]
    rfl
  · rw [exec_tripInActive hr, causeArrives_tripped (s := { s with tripInActive := true }) htripped, union_tripIn, union_tripIn]

/-! TRIP (R118). -/

/-- R118: TRIP leaves TRIPPED, entered or joined, and so answers that state. -/
theorem exec_trip {port : Port} {s u : State} {live : Bool} (h : takeRequest port (.trip port) 0 s = some (u, live)) :
    exec (.trip port) s = .next (answerIn port 0x20#8 live
      ⟨.ok, [1#8, if u.trip.state = .normal then 1#8 else 0#8] ++
        firstCauseBytes (causeArrives (.request port) u).trip.record.first⟩ (causeArrives (.request port) u)) := by
  refine exec_of_answer rfl h ?_
  simp only [tripBody, causeArrives_state, TripState.code, boolByte, decide_eq_true_eq, okReply]

/-- Settles O41: a cause that joins a set is the union with its own member alone, and TRIP is such an arrival. -/
theorem causesEnterOrJoinTheTrip : Obligations.CausesEnterOrJoinTheTrip := by
  unfold Obligations.CausesEnterOrJoinTheTrip
  intro joins arrives number code
  have harrives : ∀ (cause : TripCause) (s : State), arrives cause s (causeArrives cause s) := by
    intro cause s
    have halone : joins cause .empty (.single cause) := empty_union (.single cause) ▸ union_single .empty cause
    refine ⟨s.trip.present.union (.single cause), ?_⟩
    cases h : s.trip.state with
    | normal =>
      exact ⟨_, union_single _ cause, fun _ => ⟨halone, causeArrives_normal h⟩, nofun⟩
    | tripped =>
      exact ⟨_, union_single _ cause, nofun, fun _ => ⟨union_single _ cause, causeArrives_tripped h⟩⟩
  have hcode : ∀ first, firstCauseBytes first = code first := by
    rintro (_ | _ | _ | _ | _ | _ | _) <;> rfl
  refine ⟨fun cause rest s hr h => ⟨_, exec_tripCauseArrival hr h, harrives ..⟩, fun port s u live h => ?_⟩
  refine ⟨_, harrives (.request port) u, ?_⟩
  rw [exec_trip h, hcode]

/-! Fault reports (R112). -/

/-- R112: the channels newly reported. -/
theorem newlyFaulted_iff (faulted present : BitVec 12) : faulted &&& ~~~present ≠ 0#12 ↔
    ∃ c : ChannelId, faulted.getLsbD c = true ∧ present.getLsbD c = false := by
  constructor
  · intro hne
    by_contra hnone
    refine hne (BitVec.eq_of_getLsbD_eq fun i hi => ?_)
    have hold : ¬ (faulted.getLsbD i = true ∧ present.getLsbD i = false) := fun h => hnone ⟨⟨i, hi⟩, h⟩
    simpa [hi] using hold
  · rintro ⟨c, hfaulted, hpresent⟩ hzero
    have hbit : (faulted &&& ~~~present).getLsbD c = false := by rw [hzero, BitVec.getLsbD_zero]
    simp only [BitVec.getLsbD_and, BitVec.getLsbD_not, hfaulted, hpresent, c.isLt, decide_true, Bool.not_false,
      Bool.and_self] at hbit
    exact nomatch hbit

/-- R110: the first cause of a report is the lowest channel that it names. -/
theorem firstFaulted_lowest {faulted : BitVec 12} {c : ChannelId} (h : firstFaulted faulted = some c) :
    faulted.getLsbD c = true ∧ ∀ b : ChannelId, b < c → faulted.getLsbD b = false := by
  obtain ⟨hfaulted, before, after, hsplit, hbefore⟩ := List.find?_eq_some_iff_append.mp h
  refine ⟨hfaulted, fun b hlt => ?_⟩
  have hsorted : (before ++ c :: after).Pairwise (· < ·) := hsplit ▸ (by decide : allChannels.Pairwise (· < ·))
  rcases List.mem_append.mp (hsplit ▸ mem_allChannels b) with hmem | hmem
  · simpa using hbefore b hmem
  · rcases List.mem_cons.mp hmem with rfl | hmem
    · exact absurd hlt (lt_irrefl b)
    · have habove := List.rel_of_pairwise_cons (List.pairwise_append.mp hsorted).2.1 hmem
      exact absurd hlt (lt_asymm habove)

section Report

variable {r : FaultReport} {s : State}

theorem applyFaultReport_tripped (h : s.trip.state = .tripped) : applyFaultReport r s = { s with
    trip := { s.trip with
      present := { s.trip.present with channelFault := r.faulted }
      record := { s.trip.record with causes := { s.trip.record.causes with
        channelFault := s.trip.record.causes.channelFault ||| r.faulted } } } } := by
  simp only [applyFaultReport, h, TripUnit.setFaults, TripUnit.add, State.onTrip, union_faultCauses, BitVec.or_self]

theorem applyFaultReport_known (h : s.trip.state = .normal) (hnone : r.faulted &&& ~~~s.trip.present.channelFault = 0#12) :
    applyFaultReport r s = { s with trip := { s.trip with present := { s.trip.present with channelFault := r.faulted } } } := by
  unfold applyFaultReport; simp only; split
  · next htripped => exact nomatch h.symm.trans htripped
  · exact if_pos hnone

theorem applyFaultReport_enters {c : ChannelId} (h : s.trip.state = .normal)
    (hnew : r.faulted &&& ~~~s.trip.present.channelFault ≠ 0#12) (hfirst : firstFaulted r.faulted = some c) :
    applyFaultReport r s = { s with
      trip := { s.trip with
        state := .tripped, present := { s.trip.present with channelFault := r.faulted }
        record := ⟨some (.channelFault c), r.count, faultCauses r.faulted⟩ }
      flight := { s.flight with
        tripDeliveries := s.flight.tripDeliveries ++ [.entry]
        notices := flyAll .tripUnit r.count (allPorts.map fun p => (p, .tripped (.channelFault c))) s.flight.notices } } := by
  simp only [applyFaultReport, h, hnew, if_false, hfirst, enterTrip, TripUnit.enter, TripUnit.setFaults, State.onTrip,
    union_faultCauses, BitVec.or_self]
  rfl

theorem exec_faultReport {rest : List FaultReport} (hr : s.resetActive = false) (h : s.flight.faultReports = r :: rest) :
    exec .faultReport s = .next (applyFaultReport r { s with flight := { s.flight with faultReports := rest } }) := by
  refine congrArg _ ((unlessReset_inactive hr _).trans ?_)
  rw [takeFaultReport, h]; rfl

end Report

/-- Settles O42: the report's set replaces the present one, and a channel newly reported enters the trip. -/
theorem faultReportsSetTheChannelFaults : Obligations.FaultReportsSetTheChannelFaults := by
  unfold Obligations.FaultReportsSetTheChannelFaults
  intro r rest s hr h present newly
  rw [exec_faultReport hr h]
  have hnewly : r.faulted &&& ~~~s.trip.present.channelFault ≠ 0#12 ↔ newly := newlyFaulted_iff ..
  refine ⟨fun htripped => congrArg _ (applyFaultReport_tripped htripped),
    fun hnormal hknown => congrArg _ (applyFaultReport_known hnormal (not_not.mp (mt hnewly.mp hknown))), fun hnormal hnew => ?_⟩
  cases hfirst : firstFaulted r.faulted with
  | none =>
    obtain ⟨c, hfaulted, _⟩ := hnew
    rw [firstFaulted_eq_none hfirst, BitVec.getLsbD_zero] at hfaulted
    exact nomatch hfaulted
  | some c =>
    obtain ⟨hfaulted, hlowest⟩ := firstFaulted_lowest hfirst
    exact ⟨c, hfaulted, hlowest, congrArg _ (applyFaultReport_enters hnormal (hnewly.mpr hnew) hfirst)⟩

/-! The pass deadline (R113). -/

section Deadline

variable {s : State}

theorem deadlineCounts_iff : deadlineCounts s = true ↔ s.engine.state = .running ∧ 0 < s.trip.deadline := by
  simp only [deadlineCounts, Bool.and_eq_true, decide_eq_true_eq]

theorem applyTripTick_idle (h : ¬ (s.engine.state = .running ∧ 0 < s.trip.deadline)) : applyTripTick s = s :=
  if_neg (mt deadlineCounts_iff.mp h)

theorem applyTripTick_lowers (h : s.engine.state = .running ∧ 0 < s.trip.deadline) (hmore : s.trip.deadline ≠ 1) :
    applyTripTick s = { s with trip := { s.trip with deadline := s.trip.deadline - 1 } } :=
  (if_pos (deadlineCounts_iff.mpr h)).trans (if_neg hmore)

theorem applyTripTick_ends (hrunning : s.engine.state = .running) (hlast : s.trip.deadline = 1) :
    applyTripTick s = causeArrives .passDeadline { s with trip := { s.trip with deadline := 0 } } := by
  have hcounts : deadlineCounts s = true := deadlineCounts_iff.mpr ⟨hrunning, hlast ▸ Nat.one_pos⟩
  simp only [applyTripTick, hcounts, if_true, hlast, State.onTrip, Nat.sub_self]

theorem applyTripTick_enters (hrunning : s.engine.state = .running) (hlast : s.trip.deadline = 1)
    (hnormal : s.trip.state = .normal) : applyTripTick s = { s with
      trip := ⟨.tripped, { s.trip.present with passDeadline := true },
        ⟨some .passDeadline, s.eval.passCount, .single .passDeadline⟩, 0⟩
      flight := { s.flight with
        tripDeliveries := s.flight.tripDeliveries ++ [.entry]
        notices := flyAll .tripUnit s.eval.passCount (allPorts.map fun p => (p, .tripped .passDeadline)) s.flight.notices } } := by
  rw [applyTripTick_ends hrunning hlast, causeArrives_normal (s := { s with trip := { s.trip with deadline := 0 } }) hnormal,
    union_passDeadline]

theorem applyTripTick_joins (hrunning : s.engine.state = .running) (hlast : s.trip.deadline = 1)
    (htripped : s.trip.state = .tripped) : applyTripTick s = { s with trip := { s.trip with
      present := { s.trip.present with passDeadline := true }
      record := { s.trip.record with causes := { s.trip.record.causes with passDeadline := true } }
      deadline := 0 } } := by
  rw [applyTripTick_ends hrunning hlast, causeArrives_tripped (s := { s with trip := { s.trip with deadline := 0 } }) htripped,
    union_passDeadline, union_passDeadline]

theorem exec_deadlineRestart {n : Nat} (hr : s.resetActive = false) (h : s.flight.deadlineRestarts = n + 1) :
    exec .deadlineRestart s = .next { s with
      trip := { s.trip with deadline := s.config.engine.deadline }, flight := { s.flight with deadlineRestarts := n } } := by
  refine congrArg _ ((unlessReset_inactive hr _).trans ?_)
  rw [takeDeadlineRestart, h]; rfl

theorem takeTripTick_none (h : s.flight.tripTicks = 0) : takeTripTick s = s := by
  rw [takeTripTick, h]

theorem takeTripTick_some {n : Nat} (h : s.flight.tripTicks = n + 1) :
    takeTripTick s = applyTripTick { s with flight := { s.flight with tripTicks := n } } := by
  rw [takeTripTick, h]; rfl

theorem exec_tickAtTripUnit (hr : s.resetActive = false) : exec .tickAtTripUnit s = .next (takeTripTick s) :=
  congrArg _ (unlessReset_inactive hr _)

/-- Log 3: PASS_DEADLINE is the tick that takes the counter to 0. -/
theorem exec_passDeadline (hr : s.resetActive = false) : exec .passDeadline s =
    .next (if s.engine.state = .running ∧ s.trip.deadline = 1 then takeTripTick s else s) := by
  refine congrArg _ ((unlessReset_inactive hr _).trans (if_congr ?_ rfl rfl))
  rw [Bool.and_eq_true, deadlineCounts_iff, decide_eq_true_eq]
  exact ⟨fun ⟨⟨hrunning, _⟩, hlast⟩ => ⟨hrunning, hlast⟩, fun ⟨hrunning, hlast⟩ => ⟨⟨hrunning, hlast ▸ Nat.one_pos⟩, hlast⟩⟩

end Deadline

/-- Settles O43: a tick in RUNNING lowers the counter, and at 0 it is the arrival of PASS_DEADLINE. -/
theorem theDeadlineCountsInRunning : Obligations.TheDeadlineCountsInRunning := by
  unfold Obligations.TheDeadlineCountsInRunning
  refine fun s hr => ⟨fun n h => exec_deadlineRestart hr h, fun hnot => ?_, fun n h => ?_⟩
  · rw [exec_passDeadline hr]
    split
    · next hends =>
      exact congrArg _ (takeTripTick_none (Nat.eq_zero_of_not_pos fun hcome => hnot ⟨hcome, hends⟩))
    · rfl
  · intro u counts
    have htick : exec .tickAtTripUnit s = .next (applyTripTick u) :=
      (exec_tickAtTripUnit hr).trans (congrArg _ (takeTripTick_some h))
    refine ⟨fun hnot => htick.trans (congrArg _ (applyTripTick_idle hnot)),
      fun hcounts hmore => htick.trans (congrArg _ (applyTripTick_lowers hcounts hmore)), fun ⟨hrunning, _⟩ hlast => ?_⟩
    refine ⟨_, htick, ?_, fun hnormal => applyTripTick_enters hrunning hlast hnormal,
      fun htripped => applyTripTick_joins hrunning hlast htripped⟩
    rw [exec_passDeadline hr, if_pos ⟨hrunning, hlast⟩, takeTripTick_some h]

/-! CLEAR_TRIP (R119). -/

theorem hasLevel_iff (a : CauseSet) : a.hasLevel = true ↔ a.tripIn = true ∨ a.channelFault ≠ 0#12 := by
  simp only [CauseSet.hasLevel, Bool.or_eq_true, decide_eq_true_eq]

/-- R173: the level causes as a set of 16 bits: the channels', then TRIP_IN. -/
def levelSet (a : CauseSet) : Word16 := 0#3 ++ BitVec.ofBool a.tripIn ++ a.channelFault

theorem levelNumber_eq (a : CauseSet) : a.levelNumber = (levelSet a).toNat := by
  simp only [levelSet, toNat_append_eq, BitVec.toNat_ofBool, BitVec.toNat_ofNat, Nat.zero_mod, Nat.zero_shiftLeft, Nat.add_zero,
    CauseSet.levelNumber]

theorem levelSet_getLsbD (a : CauseSet) (i : Nat) : (levelSet a).getLsbD i =
    if i < 12 then a.channelFault.getLsbD i else decide (i = 12) && a.tripIn := by
  refine BitVec.getLsbD_append.trans ?_
  split
  · rfl
  · next hbeyond =>
    obtain ⟨k, rfl⟩ := Nat.exists_eq_add_of_le (Nat.le_of_not_lt hbeyond)
    rw [Nat.add_sub_cancel_left, BitVec.getLsbD_append]
    cases k <;> simp

theorem levelSet_channel (a : CauseSet) (c : ChannelId) : (levelSet a).getLsbD c = a.channelFault.getLsbD c := by
  rw [levelSet_getLsbD, if_pos c.isLt]

theorem levelSet_tripIn (a : CauseSet) : (levelSet a).getLsbD 12 = a.tripIn := levelSet_getLsbD a 12

theorem levelSet_rest (a : CauseSet) : (levelSet a).extractLsb' 13 3 = 0#3 := by
  refine BitVec.eq_of_getLsbD_eq fun i _ => ?_
  have hrest : (levelSet a).getLsbD (13 + i) = false := by
    rw [levelSet_getLsbD, if_neg (by omega), decide_eq_false (by omega), Bool.false_and]
  rw [BitVec.getLsbD_extractLsb', hrest, Bool.and_false, BitVec.getLsbD_zero]

section Clearing

variable {s : State}

theorem clearTripBody_normal (h : s.trip.state = .normal) : clearTripBody s = (s, some ⟨.ok, [0#8]⟩) := by
  rw [clearTripBody, h]; rfl

theorem clearTripBody_present (h : s.trip.state = .tripped)
    (hlevel : s.trip.present.tripIn = true ∨ s.trip.present.channelFault ≠ 0#12) : clearTripBody s = (s, some ⟨.refused,
      [0x10#8, (levelSet s.trip.present).extractLsb' 8 8, (levelSet s.trip.present).extractLsb' 0 8]⟩) := by
  simp only [clearTripBody, h, (hasLevel_iff _).mpr hlevel, if_true, levelNumber_eq, bytesOf_two]
  rfl

theorem clearTripBody_clears (h : s.trip.state = .tripped)
    (hlevel : ¬ (s.trip.present.tripIn = true ∨ s.trip.present.channelFault ≠ 0#12)) : clearTripBody s = ({ s with
      trip := { s.trip with state := .normal, present := .empty }
      flight := { s.flight with
        tripDeliveries := s.flight.tripDeliveries ++ [.clearing]
        notices := flyAll .tripUnit s.eval.passCount (allPorts.map fun p => (p, .tripCleared)) s.flight.notices } },
      some ⟨.ok, [1#8]⟩) := by
  simp only [clearTripBody, h, mt (hasLevel_iff _).mp hlevel]
  rfl

end Clearing

/-- Settles O44: the right, the trip state and the level causes are checked in this order. -/
theorem clearTripIsJudgedInOrder : Obligations.ClearTripIsJudgedInOrder := by
  unfold Obligations.ClearTripIsJudgedInOrder
  intro port s u live h answers level
  refine ⟨fun hc => exec_of_answer rfl h (needRight_lacking hc _),
    fun hc hnormal => exec_of_answer rfl h ((needRight_held hc _).trans (clearTripBody_normal hnormal)),
    fun hc htripped hlevel => ?_,
    fun hc htripped hlevel => exec_of_answer rfl h ((needRight_held hc _).trans (clearTripBody_clears htripped hlevel))⟩
  exact ⟨levelSet u.trip.present, exec_of_answer rfl h ((needRight_held hc _).trans (clearTripBody_present htripped hlevel)),
    levelSet_channel _, levelSet_tripIn _, levelSet_rest _⟩

end Sys2Proof.Proofs
end

section
/-! SUPPORT. HALT, RESUME but an accepted one from HALTED (R127 to R130), and the injections and the halt record (R138 to R140), check
by check. -/

namespace Sys2Proof.Proofs

open Sys2Proof Sys2Proof.Machine Sys2Proof.Laws

/-! HALT (R127). -/

section Halt

variable {s : State} (port : Port)

theorem haltBody_scanning (h : s.engine.state = .running) (hscan : s.scan.state ≠ .idle) :
    haltBody port s = (beginHalting port s, some ⟨.ok, [1#8]⟩) := by
  simp only [haltBody, h, hscan, if_false, EngineState.code, okReply]

theorem haltBody_idle (h : s.engine.state = .running) (hscan : s.scan.state = .idle) :
    haltBody port s = (haltAtOnce port s, some ⟨.ok, [2#8]⟩) := by
  simp only [haltBody, h, hscan, if_true, EngineState.code, okReply]

theorem haltBody_elsewhere (h : s.engine.state ≠ .running) :
    haltBody port s = (s, some ⟨.ok, [s.engine.state.code]⟩) := by
  unfold haltBody; split
  · next hrunning => exact absurd hrunning h
  · rfl

end Halt

/-- Settles O45: HALT is judged by the engine state, and in RUNNING by the scan. -/
theorem haltsStopTheEngine : Obligations.HaltsStopTheEngine := by
  unfold Obligations.HaltsStopTheEngine
  intro port s u live h answers
  refine ⟨fun hm => exec_of_answer rfl h (needRight_lacking hm _), fun hm => ?_⟩
  have answered {r : Reply} {t : State} (hb : haltBody port u = (t, some r)) : answers r t :=
    exec_of_answer rfl h ((needRight_held hm _).trans hb)
  have elsewhere {e : EngineState} (he : u.engine.state = e) (hne : e ≠ .running) : answers ⟨.ok, [e.code]⟩ u :=
    answered (he ▸ haltBody_elsewhere port (he ▸ hne))
  exact ⟨fun he hscan => answered (haltBody_scanning port he hscan), fun he hscan => answered (haltBody_idle port he hscan),
    fun he => elsewhere he nofun, fun he => elsewhere he nofun, fun he => elsewhere he nofun⟩

/-! RESUME (R129, R130). -/

theorem resumeReply_eq (epoch : Word16) (committed : Bool) : resumeReply epoch committed =
    some ⟨.ok, [0#8, epoch.extractLsb' 8 8, epoch.extractLsb' 0 8, if committed then 1#8 else 0#8]⟩ := by
  rw [resumeReply, bytesOf_two]; rfl

section Resume

variable {s : State}

theorem resumeBody_running (h : s.engine.state = .running) : resumeBody s = (s, resumeReply s.config.epoch false) := by
  rw [resumeBody, h]

theorem resumeBody_halting (h : s.engine.state = .halting) :
    resumeBody s = (withdrawHalt s, resumeReply s.config.epoch false) := by
  rw [resumeBody, h]

theorem resumeBody_stepping (h : s.engine.state = .stepping) : resumeBody s = (s, some ⟨.refused, [0x0E#8]⟩) := by
  rw [resumeBody, h]; rfl

theorem resumeBody_invalid {f : ValidationFailure} (h : s.engine.state = .halted) (hmodified : s.config.modified = true)
    (hf : validate s.config = some f) : resumeBody s = (s, some ⟨.refused, [0x0F#8, f.table, f.index, f.check]⟩) := by
  simp only [resumeBody, h, hmodified, hf, if_true]; rfl

end Resume

/-- Settles O46: RESUME is judged by the engine state, and in HALTED by validation. -/
theorem resumeIsJudgedByTheEngineState : Obligations.ResumeIsJudgedByTheEngineState := by
  unfold Obligations.ResumeIsJudgedByTheEngineState
  intro port s u live h answers running
  refine ⟨fun hm => exec_of_answer rfl h (needRight_lacking hm _), fun hm => ?_⟩
  have answered {r : Reply} {t : State} (hb : resumeBody u = (t, some r)) : answers r t :=
    exec_of_answer rfl h ((needRight_held hm _).trans hb)
  have hreply : resumeReply u.config.epoch false = some running := resumeReply_eq ..
  exact ⟨fun he => answered (hreply ▸ resumeBody_running he), fun he => answered (hreply ▸ resumeBody_halting he),
    fun he => answered (resumeBody_stepping he), fun f he hmodified hf => answered (resumeBody_invalid he hmodified hf)⟩

/-! The checks of injections and of CLEAR_HALT_RECORD: the operands, MAINTAIN, HALTED (R138 to R140, R149). -/

section Judged

variable {port : Port} {c : Instr} {echo : Byte} {n : Nat} {s u t : State} {live : Bool} {body inner : Body} {r : Reply}

/-- After its operands such a request needs MAINTAIN, then HALTED. -/
theorem exec_judged (hx : exec c s = .next (serve port c echo n body s)) (h : takeRequest port c n s = some (u, live))
    (hb : body u = needRight Profile.maintain port (needHalted inner) u) :
    (u.config.profilesInUse[port].maintain = false → exec c s = .next (answerIn port echo live ⟨.refused, [0x02#8]⟩ u)) ∧
    (u.config.profilesInUse[port].maintain = true → u.engine.state = .running ∨ u.engine.state = .halting →
      exec c s = .next (answerIn port echo live ⟨.refused, [0x0D#8]⟩ u)) ∧
    (u.config.profilesInUse[port].maintain = true → u.engine.state = .stepping →
      exec c s = .next (answerIn port echo live ⟨.refused, [0x0E#8]⟩ u)) := by
  refine ⟨fun hm => ?_, fun hm he => ?_, fun hm he => ?_⟩
  · exact exec_of_answer hx h (hb.trans (needRight_lacking hm _))
  · exact exec_of_answer hx h (hb.trans ((needRight_held hm _).trans (needHalted_running he _)))
  · exact exec_of_answer hx h (hb.trans ((needRight_held hm _).trans (needHalted_stepping he _)))

theorem exec_admitted (hx : exec c s = .next (serve port c echo n body s)) (h : takeRequest port c n s = some (u, live))
    (hb : body u = needRight Profile.maintain port (needHalted inner) u)
    (ha : u.config.profilesInUse[port].maintain = true ∧ u.engine.state = .halted) (hi : inner u = (t, some r)) :
    exec c s = .next (answerIn port echo live r t) :=
  exec_of_answer hx h (hb.trans ((needRight_held ha.1 _).trans ((needHalted_halted ha.2 _).trans hi)))

end Judged

/-! INJECT_CHANNEL (R139, R176). -/

theorem injectable_iff (v : Int) : injectable v = true ↔ -2048 ≤ v ∧ v ≤ 4095 := by
  rw [injectable, Bool.and_eq_true, decide_eq_true_eq, decide_eq_true_eq]

/-- R139 check 4: what is left of the channel's range once check 1 has passed. -/
theorem outOfRange_iff (e : ChannelEntry) {v : Int} (hlow : -2048 ≤ v) (hhigh : v ≤ 4095) :
    (v < e.low ∨ e.high < v) ↔ ¬ if e.negative = none then 0 ≤ v else v ≤ 2047 := by
  rw [low_eq, high_eq]
  split <;> omega

theorem injectionBytes_eq (o : Option Int) : injectionBytes o = o.elim [0#8, 0xFF#8, 0xFF#8] fun v =>
    [1#8, (BitVec.ofInt 16 v).extractLsb' 8 8, (BitVec.ofInt 16 v).extractLsb' 0 8] := by
  cases o with
  | none => rfl
  | some v => rw [injectionBytes, signedBytes_eq]; rfl

section InjectChannel

variable {v : Int} {s : State} {ch : ChannelId}

theorem injectChannelBody_outside (h : v < s.config.channels[ch].low ∨ s.config.channels[ch].high < v) :
    injectChannelBody ch v s = (s, some ⟨.refused, [0x01#8]⟩) := if_pos h

theorem injectChannelBody_inside (h : ¬ (v < s.config.channels[ch].low ∨ s.config.channels[ch].high < v)) :
    injectChannelBody ch v s = ({ s with
      engine := { s.engine with injectedReading := s.engine.injectedReading.set ch (some v) } },
      some ⟨.ok, injectionBytes s.engine.injectedReading[ch]⟩) := if_neg h

end InjectChannel

/-! INJECT_LINE and CLEAR_INJECT (R140, R172, R176). -/

theorem levelByte_eq (o : Option Bool) : levelByte o = o.elim 0xFF#8 fun v => if v then 1#8 else 0#8 := by
  cases o <;> rfl

theorem isLevel_iff (b : Byte) : (b = 0#8 ∨ b = 1#8) ↔ b.toNat < 2 := by
  constructor
  · rintro (rfl | rfl) <;> decide
  · intro h; bv_omega

section ClearInject

variable (port : Port) {a : Byte}

theorem clearInjectBody_channel (b : Byte) : clearInjectBody port 1#8 b =
    needNumber 12 b fun c => needRight Profile.maintain port (needHalted (clearChannelBody c)) := rfl

theorem clearInjectBody_line (b : Byte) : clearInjectBody port 2#8 b =
    needNumber 16 b fun n => needRight Profile.maintain port (needHalted (clearLineBody n)) := rfl

/-- Log 18: a selection other than ALL, CHANNEL and LINE. -/
theorem clearInjectBody_unknown (h : 3 ≤ a.toNat) (b : Byte) :
    clearInjectBody port a b = fun s => (s, some ⟨.refused, [0x01#8]⟩) := by
  unfold clearInjectBody; split
  · next ha => omega
  · next ha => omega
  · next ha => omega
  · rfl

end ClearInject

section Injections

variable {port : Port} {s u : State} {live : Bool}

/-- R139 check 1: the number of the channel, and a reading that some channel could have. -/
theorem exec_injectChannel_badOperand {a : Byte} {w : Word16} (h : takeRequest port (.injectChannel port a w) 3 s = some (u, live))
    (hbad : 12 ≤ a.toNat ∨ w.toInt < -2048 ∨ 4095 < w.toInt) :
    exec (.injectChannel port a w) s = .next (answerIn port 0x33#8 live ⟨.refused, [0x01#8]⟩ u) := by
  refine exec_of_answer rfl h ?_
  rcases Nat.lt_or_ge a.toNat 12 with ha | ha
  · rw [needNumber_of (i := ⟨a.toNat, ha⟩) rfl, if_neg (by rw [injectable_iff]; omega)]; rfl
  · exact needNumber_beyond ha _ u

theorem injectChannel_checked {a : Byte} {ch : ChannelId} (ha : a.toNat = ch.val) {v : Int} (hlow : -2048 ≤ v)
    (hhigh : v ≤ 4095) :
    needNumber 12 a (fun c s => if injectable v then needRight Profile.maintain port (needHalted (injectChannelBody c v)) s
      else refused s .badArgument) u = needRight Profile.maintain port (needHalted (injectChannelBody ch v)) u := by
  rw [needNumber_of ha, if_pos ((injectable_iff v).mpr ⟨hlow, hhigh⟩)]

theorem exec_injectLine_badOperand {a b : Byte} (h : takeRequest port (.injectLine port a b) 2 s = some (u, live))
    (hbad : 16 ≤ a.toNat ∨ 2 ≤ b.toNat) :
    exec (.injectLine port a b) s = .next (answerIn port 0x34#8 live ⟨.refused, [0x01#8]⟩ u) := by
  refine exec_of_answer rfl h ?_
  rcases Nat.lt_or_ge a.toNat 16 with ha | ha
  · rw [needNumber_of (i := ⟨a.toNat, ha⟩) rfl, if_neg (by rw [isLevel_iff]; omega)]; rfl
  · exact needNumber_beyond ha _ u

theorem injectLine_checked {a b : Byte} {line : LineId} (ha : a.toNat = line.val) (hb : b.toNat < 2) (level : Bool) :
    needNumber 16 a (fun n s => if b = 0#8 ∨ b = 1#8 then
        needRight Profile.maintain port (needHalted (injectLineBody n level)) s
      else refused s .badArgument) u = needRight Profile.maintain port (needHalted (injectLineBody line level)) u := by
  rw [needNumber_of ha, if_pos ((isLevel_iff b).mpr hb)]

theorem exec_clearInject_badOperand {a b : Byte} (h : takeRequest port (.clearInject port a b) 2 s = some (u, live))
    (hbad : 3 ≤ a.toNat ∨ (a = 1#8 ∧ 12 ≤ b.toNat) ∨ (a = 2#8 ∧ 16 ≤ b.toNat)) :
    exec (.clearInject port a b) s = .next (answerIn port 0x35#8 live ⟨.refused, [0x01#8]⟩ u) := by
  refine exec_of_answer rfl h ?_
  rcases hbad with ha | ⟨rfl, hb⟩ | ⟨rfl, hb⟩
  · exact congrFun (clearInjectBody_unknown port ha b) u
  · rw [clearInjectBody_channel, needNumber_beyond hb]
  · rw [clearInjectBody_line, needNumber_beyond hb]

end Injections

/-- Settles O51: each request's operands leave its body behind MAINTAIN and HALTED. -/
theorem injectionsAreHeldAndCleared : Obligations.InjectionsAreHeldAndCleared := by
  unfold Obligations.InjectionsAreHeldAndCleared
  intro port s u live answers maintain judged admitted readings levels
  refine ⟨fun a w h => ⟨exec_injectChannel_badOperand h, fun ch ha hlow hhigh => ?_⟩,
    fun a b h => ⟨exec_injectLine_badOperand h, fun line ha hb => ?_⟩,
    fun a b h => ⟨exec_clearInject_badOperand h, fun ha => ?_, fun ch ha hb => ?_, fun line ha hb => ?_⟩,
    fun h => ⟨exec_judged rfl h rfl, fun hadmitted => exec_admitted rfl h rfl hadmitted rfl⟩⟩
  · have hchecked := injectChannel_checked (port := port) (u := u) ha hlow hhigh
    have houtside := outOfRange_iff u.config.channels[ch] hlow hhigh
    refine ⟨exec_judged rfl h hchecked, fun hadmitted hfits => ?_, fun hadmitted hfits => ?_⟩
    · exact exec_admitted rfl h hchecked hadmitted (injectChannelBody_outside (houtside.mpr hfits))
    · have hbody := injectChannelBody_inside (mt houtside.mp (not_not.mpr hfits))
      rw [injectionBytes_eq] at hbody
      exact exec_admitted rfl h hchecked hadmitted hbody
  · have hchecked := injectLine_checked (port := port) (u := u) ha hb (decide (b = 1#8))
    have hbody : injectLineBody line (decide (b = 1#8)) u = (_, some ⟨.ok, [_]⟩) :=
      congrArg (fun x => (_, some (Reply.mk .ok [x]))) (levelByte_eq _)
    exact ⟨exec_judged rfl h hchecked, fun hadmitted => exec_admitted rfl h hchecked hadmitted hbody⟩
  · subst ha
    exact ⟨exec_judged rfl h rfl, fun hadmitted => exec_admitted rfl h rfl hadmitted rfl⟩
  · subst ha
    have hchecked := needNumber_of hb (fun c => needRight Profile.maintain port (needHalted (clearChannelBody c))) u
    exact ⟨exec_judged rfl h hchecked, fun hadmitted => exec_admitted rfl h hchecked hadmitted rfl⟩
  · subst ha
    have hchecked := needNumber_of hb (fun n => needRight Profile.maintain port (needHalted (clearLineBody n))) u
    exact ⟨exec_judged rfl h hchecked, fun hadmitted => exec_admitted rfl h hchecked hadmitted rfl⟩

end Sys2Proof.Proofs
end

section
/-! SUPPORT. The state after reset (R144): its blocks one by one, and the properties that every step keeps. -/

namespace Sys2Proof.Proofs

open Sys2Proof Sys2Proof.Machine Sys2Proof.Laws

theorem initial_empty (p : PermitId) : PermitTable.initial.records[p] = PermitRecord.initial := get_replicate _ p

/-- R144: the state after reset has every property that the steps keep. -/
theorem reset_sound : Sound State.reset := by
  obtain ⟨hgroups, hrecords, htripped⟩ : TableSound State.reset.config State.reset.table :=
    tableSound_of_empty (t := .initial) (fun p => (initial_empty p).symm ▸ ⟨rfl, rfl⟩) _
  exact {
    groups := hgroups
    records := hrecords
    tripped := htripped
    inReset := nofun
    present := fun _ => rfl
    notices := fun p => (get_replicate _ p : State.reset.notices[p] = _).symm ▸ Nat.le_of_ble_eq_true rfl
    rights := ⟨⟨0, rfl⟩, 0, rfl⟩
    counters := initial_countersFit
    scanTicks := absurd rfl
    steps := stepDrivesNothing_outside nofun rfl }

theorem initial_disabled (p : PermitId) : permitState ConfigStore.initial PermitTable.initial p = .disabled :=
  permitState_disabled (congrArg PermitEntry.enabled (get_replicate PermitEntry.default p))

/-- Settles O57: each block after reset holds its defaults at every index. -/
theorem theStateAfterResetIsSound : Obligations.TheStateAfterResetIsSound := by
  unfold Obligations.TheStateAfterResetIsSound
  refine ⟨reset_sound, rfl, rfl, rfl, rfl, get_replicate _, get_replicate _, get_replicate _, get_replicate _, get_replicate _,
    rfl, fun p => ⟨initial_disabled p, initial_empty p, commanded_outside_running (t := .initial) (by decide) p⟩,
    get_replicate _, rfl, rfl, rfl, rfl, get_replicate _, get_replicate _, get_replicate _, rfl, rfl, rfl, rfl, rfl, rfl, rfl, rfl, rfl, get_replicate _,
    get_replicate _, get_replicate _, fun p => ?_⟩
  have hnotices : State.reset.notices[p] = ⟨[⟨.halted .reset, 0#32⟩], false⟩ := get_replicate _ p
  exact ⟨hnotices, by rw [attention, hnotices]; rfl, get_replicate _ p⟩

end Sys2Proof.Proofs
end

section
/-! SUPPORT. An accepted RESUME from HALTED (R131): the arrivals taken first, one by one (log 9, log 12), and the blocks after
it. -/

namespace Sys2Proof.Proofs

open Sys2Proof Sys2Proof.Machine Sys2Proof.Laws

/-! The arrivals taken first, oldest first. -/

section Drains

variable {s : State}

theorem onFlight_same {f : InFlight → InFlight} (h : f s.flight = s.flight) : s.onFlight f = s := by
  unfold State.onFlight; rw [h]

theorem drainReports_none (h : s.flight.passReports = []) : drainReports s = s := by
  unfold drainReports
  rw [h]
  exact onFlight_same (congrArg (fun l => { s.flight with passReports := l }) h.symm)

theorem drainReports_next {r : PassReport} {rest : List PassReport} (h : s.flight.passReports = r :: rest) :
    drainReports s = drainReports (applyReport r (s.onFlight fun f => { f with passReports := rest })) := by
  obtain ⟨hrest, hbehind⟩ := applyReport_behind r rest s
  simp only [drainReports, h, hrest, hbehind, List.foldl_cons]

theorem drainPermit_none (h : s.flight.toPermit = []) : drainPermit s = s := by
  unfold drainPermit
  rw [h]
  exact onFlight_same (congrArg (fun l => { s.flight with toPermit := l }) h.symm)

theorem drainPermit_next {a : PermitArrival} {rest : List PermitArrival} (h : s.flight.toPermit = a :: rest) :
    drainPermit s = drainPermit (takeArrival (s.onFlight fun f => { f with toPermit := rest }) a) := by
  obtain ⟨hrest, hbehind⟩ := takeArrival_behind a rest s
  simp only [drainPermit, h, hrest, hbehind, List.foldl_cons]

end Drains

/-- What was handed to the engine controller and the permit table is taken as by the command of each report and each arrival. -/
theorem drains_one_by_one (s : State) (hr : s.resetActive = false) :
    (s.flight.passReports = [] → drainReports s = s) ∧
    (s.flight.passReports ≠ [] → ∃ t, exec .passEndReport s = .next t ∧ drainReports s = drainReports t) ∧
    (s.flight.toPermit = [] → drainPermit s = s) ∧
    (∀ a rest, s.flight.toPermit = a :: rest → ∃ t, drainPermit s = drainPermit t ∧
      (∀ r, a = .passResult r → exec .passResult s = .next t) ∧
      ∀ e, a = .engineChange e → exec (.engineStateChange .permitTable) s = .next t) := by
  refine ⟨drainReports_none, fun hsome => ?_, drainPermit_none, fun a rest h => ⟨_, drainPermit_next h, ?_, ?_⟩⟩
  · obtain ⟨r, rest, h⟩ := List.exists_cons_of_ne_nil hsome
    exact ⟨_, exec_passEndReport hr h, drainReports_next h⟩
  · rintro r rfl
    exact exec_passResult hr h
  · rintro e rfl
    exact exec_tableChange hr (by rw [h]; rfl)

/-! The permit table (R59, R85). -/

/-- R85: the port keeps its holdings and claims at p: without a commit no mask changes. -/
def admitsAfter (c : ConfigStore) (commits : Bool) (q : Port) (p : PermitId) : Bool :=
  !commits || c.profiles[q].mask.getLsbD p

/-- R159: the configuration after an accepted RESUME. -/
def configAfter (c : ConfigStore) (commits : Bool) : ConfigStore := if commits then c.commit else c

/-- R85: the RIGHT_WITHDRAWN notices of one permit. -/
def withdrawnNotices (c : ConfigStore) (commits : Bool) (p : PermitId) (r : PermitRecord) : List Made :=
  ((r.holders.filter fun h => !admitsAfter c commits h.port p).map fun h => (h.port, .revoked p .rightWithdrawn)) ++
    (r.queue.filter fun x => !admitsAfter c commits x.port p).map fun x => (x.port, .waitEnded p .rightWithdrawn)

section Withdrawal

variable (c : ConfigStore) (commits : Bool)

theorem configAfter_permits : (configAfter c commits).permits = c.permits := by cases commits <;> rfl

theorem configAfter_groups : (configAfter c commits).groups = c.groups := by cases commits <;> rfl

theorem recordAfterWithdrawal_eq (p : PermitId) (r : PermitRecord) :
    (if commits then recordAfterWithdrawal (configAfter c commits) p r else r) = { r with
      holders := r.holders.filter fun h => admitsAfter c commits h.port p
      queue := r.queue.filter fun x => admitsAfter c commits x.port p } := by
  cases commits with
  | true => rfl
  | false =>
    have hall {α : Type} (l : List α) (port : α → Port) : l.filter (fun x => admitsAfter c false (port x) p) = l :=
      List.filter_eq_self.mpr fun _ _ => rfl
    rw [hall, hall]; rfl

theorem withdrawnNotices_kept (p : PermitId) (r : PermitRecord) : withdrawnNotices c false p r = [] := by
  have hnone {α : Type} (l : List α) (port : α → Port) : l.filter (fun x => !admitsAfter c false (port x) p) = [] :=
    List.filter_eq_nil_iff.mpr fun _ _ => nofun
  rw [withdrawnNotices, hnone, hnone]; rfl

theorem withdrawalNotices_eq (t : PermitTable) :
    (if commits then allPermits.flatMap fun p => withdrawalNotices (configAfter c commits) p t.records[p] else []) =
      allPermits.flatMap fun p => withdrawnNotices c commits p t.records[p] := by
  cases commits with
  | true => rfl
  | false => simp only [withdrawnNotices_kept, flatMap_nothing]; rfl

/-- R59: the permit table after an accepted RESUME, in the terms of the written profiles. -/
theorem tableResume_admits (t : PermitTable) : ∃ w, tableResume (configAfter c commits) commits t = w ∧
    w.table = { t with records := w.table.records, settle := w.table.settle, engine := .running } ∧
    (∀ p : PermitId, w.table.records[p] = { t.records[p] with
      condition := .unknown, mismatch := 0
      holders := t.records[p].holders.filter fun h => admitsAfter c commits h.port p
      queue := t.records[p].queue.filter fun x => admitsAfter c commits x.port p }) ∧
    (∀ g : GroupId,
      ((∃ p : PermitId, c.permits[p].group = some g ∧ t.records[p].holders ≠ [] ∧ w.table.records[p].holders = []) →
        w.table.settle[g] = c.groups[g].settle) ∧
      ((∀ p : PermitId, c.permits[p].group = some g → t.records[p].holders ≠ [] → w.table.records[p].holders ≠ []) →
        w.table.settle[g] = t.settle[g])) ∧
    w.made = (allPermits.flatMap fun p => withdrawnNotices c commits p t.records[p]) ∧ w.causes = [] := by
  obtain ⟨w, hw, hengine, htrip, hrecords, hsettle, hmade, hcauses⟩ := tableResume_full (configAfter c commits) commits t
  rw [configAfter_permits, configAfter_groups] at hsettle
  refine ⟨w, hw, table_eq_of rfl hengine htrip, fun p => ?_, hsettle, hmade.trans (withdrawalNotices_eq ..), hcauses⟩
  rw [hrecords, recordAfterWithdrawal_eq]

end Withdrawal

/-! The blocks after an accepted RESUME (R131). -/

theorem resumeState_eq {commits : Bool} {s v : State} {w : TableWork} (hv : drainPermit (drainReports s) = v)
    (hw : tableResume (configAfter v.config commits) commits v.table = w) : resumeState commits s = { v with
      config := configAfter v.config commits
      ticks := if commits then ⟨0, v.config.ticks, Vector.replicate 4 0⟩ else v.ticks
      scan := v.scan.resume
      lines := v.lines.resume
      eval := v.eval.forget
      trip := { v.trip with deadline := v.config.engine.deadline }
      engine := v.engine.resume
      table := w.table
      flight := { v.flight with
        toScan := []
        notices := flyAll .engineController v.eval.passCount
          (allPorts.map fun p => (p, .resumed (configAfter v.config commits).epoch))
          (flyAll .permitTable v.eval.passCount w.made v.flight.notices)
        tripCauses := v.flight.tripCauses ++ w.causes
        scanBaseTicks := 0, scanTicks := Vector.replicate 4 0
        sourceTicks := if commits then Vector.replicate 4 0 else v.flight.sourceTicks
        permitTicks := if commits then Vector.replicate 4 0 else v.flight.permitTicks
        tripTicks := if commits then 0 else v.flight.tripTicks } } := by
  subst hv hw
  cases commits <;> rfl

/-- R129, R131, R159: an accepted RESUME commits a modified configuration that validates. -/
theorem resumeBody_accepted {s : State} (h : s.engine.state = .halted)
    (hvalid : s.config.modified = true → validate s.config = none) :
    let epoch := if s.config.modified then s.config.epoch + 1 else s.config.epoch
    resumeBody s = (resumeState s.config.modified s, some ⟨.ok,
      [0#8, epoch.extractLsb' 8 8, epoch.extractLsb' 0 8, if s.config.modified then 1#8 else 0#8]⟩) := by
  simp only [resumeBody, h, resumeReply_eq]
  cases hm : s.config.modified with
  | true => rw [if_pos rfl, hvalid hm]; rfl
  | false => rfl

/-- R159: the commit of a modified configuration. -/
theorem configAfter_modified (c : ConfigStore) : configAfter c c.modified = { c with
    epoch := if c.modified then c.epoch + 1 else c.epoch, modified := false
    profilesInUse := if c.modified then c.profiles else c.profilesInUse } := by
  obtain ⟨_, _, _, _, _, _, _, _, _, _, modified, _⟩ := c
  cases modified <;> rfl

/-- Settles O47: the arrivals are taken one by one, and the permit table's part is rights withdrawal by the written masks. -/
theorem resumeFromHaltedRestartsTheEngine : Obligations.ResumeFromHaltedRestartsTheEngine := by
  unfold Obligations.ResumeFromHaltedRestartsTheEngine
  refine ⟨drains_one_by_one, fun port s u live h hm he hvalid => ?_⟩
  intro commits v admits epoch
  have hconfig : v.config = u.config := by
    obtain ⟨_, rfl, hconfig, _⟩ := resume_drained he
    exact hconfig
  obtain ⟨w, hw, htable, hrecords, hsettle, hmade, hcauses⟩ := tableResume_admits u.config commits v.table
  have hstate := resumeState_eq (s := u) (v := v) rfl (hconfig ▸ hw)
  rw [hconfig, htable, hcauses, List.append_nil, hmade, configAfter_modified] at hstate
  refine ⟨_, exec_of_answer rfl h ((needRight_held hm _).trans (resumeBody_accepted he hvalid)), ?_⟩
  rw [hstate]
  exact ⟨rfl, hrecords, hsettle, rfl⟩

end Sys2Proof.Proofs
end

section
/-! SUPPORT. STEP (R132, R133): its checks, and the state it begins with the engine changes that the permit table takes (log 34). -/

namespace Sys2Proof.Proofs

open Sys2Proof Sys2Proof.Machine Sys2Proof.Laws

/-- R14: a STEP scan converts the enabled channels without an injected reading. -/
theorem scanChannels_step (s : State) : scanChannels .step s = allChannels.filter fun c =>
    s.config.channels[c].enabled && s.engine.injectedReading[c].isNone := by
  simp only [scanChannels, decide_true, Bool.true_and, Option.not_isSome]

/-- R58: a change to a state other than RUNNING is that state alone. -/
theorem takeEngineChange_outside_running {e : EngineState} (h : e ≠ .running) (s : State) :
    takeEngineChange e s = { s with table := { s.table with engine := e } } :=
  (takeEngineChange_eq e s).trans (if_neg h)

/-- R133: a step that begins, in the terms of the part once the changes on their way to the permit table are taken. -/
theorem beginStep_eq (answers : Option Port) (s : State) : beginStep answers s =
    let v := takeEngineChanges s
    { v with
      table := { v.table with engine := .stepping }
      scan := { s.scan with
        engine := .stepping
        state := .inProgress ⟨.step, allChannels.filter fun c =>
          s.config.channels[c].enabled && s.engine.injectedReading[c].isNone, 0, 0, false, Vector.replicate 12 none⟩ }
      engine := { s.engine with state := .stepping, stepPort := answers }
      flight := { v.flight with toScan := [], scanBaseTicks := 0, scanTicks := Vector.replicate 4 0 } } := by
  obtain ⟨t, f, hv⟩ := takeEngineChanges_rest s
  have hstepping := takeEngineChange_outside_running (e := .stepping) nofun
  simp only [beginStep, takeEngineChanges_tell, takeEngineChanges_onEngine, hstepping, beginScan, scanChannels_step, hv]
  rfl

section Step

variable {port : Port} {live : Bool} {s u : State}

theorem stepBody_running (h : s.engine.state = .running ∨ s.engine.state = .halting) :
    stepBody port live s = (s, some ⟨.refused, [0x0D#8]⟩) := by
  rcases h with h | h <;> rw [stepBody, h] <;> rfl

theorem stepBody_stepping (h : s.engine.state = .stepping) : stepBody port live s = (s, some ⟨.refused, [0x0E#8]⟩) := by
  rw [stepBody, h]; rfl

theorem stepBody_invalid {f : ValidationFailure} (h : s.engine.state = .halted) (hf : validate s.config = some f) :
    stepBody port live s = (s, some ⟨.refused, [0x0F#8, f.table, f.index, f.check]⟩) := by
  simp only [stepBody, h, hf]; rfl

theorem stepBody_accepted (h : s.engine.state = .halted) (hvalid : validate s.config = none) :
    stepBody port live s = (beginStep (if live then some port else none) s, none) := by
  simp only [stepBody, h, hvalid]

theorem exec_step (h : takeRequest port (.step port) 0 s = some (u, live)) : exec (.step port) s =
    .next (perform port 0x32#8 live (needRight Profile.maintain port (stepBody port live)) u) :=
  congrArg _ (serveWith_taken h 0x32#8 fun live => needRight Profile.maintain port (stepBody port live))

end Step

/-- Settles O49: after its checks STEP begins a step on the part once the engine changes on their way are taken. -/
theorem stepsBeginAStepScan : Obligations.StepsBeginAStepScan := by
  unfold Obligations.StepsBeginAStepScan
  intro port s u live h refuses
  have hexec := exec_step h
  refine ⟨fun hm => hexec.trans (congrArg _ (perform_answers (needRight_lacking hm _) ..)), fun hm => ?_⟩
  have refused {reason : List Byte} (hb : stepBody port live u = (u, some ⟨.refused, reason⟩)) : refuses reason :=
    hexec.trans (congrArg _ (perform_answers ((needRight_held hm _).trans hb) ..))
  refine ⟨fun he => refused (stepBody_running he), fun he => refused (stepBody_stepping he),
    fun f he hf => refused (stepBody_invalid he hf), fun he hvalid => ?_⟩
  intro changes results takes v
  have hv : takeEngineChanges u = v := by
    have hchanges : engineChanges u.flight.toPermit = changes := engineChanges_eq_filterMap _
    have hresults : passResults u.flight.toPermit = results := passResults_eq_filter _
    have htakes : (fun t e => takeEngineChange e t) = takes := funext fun w => funext fun e => takeEngineChange_eq e w
    simp only [takeEngineChanges, State.onFlight, hchanges, hresults, htakes]
    rfl
  refine ⟨commanded_outside_running nofun, hexec.trans (congrArg _ ?_)⟩
  rw [perform_silent ((needRight_held hm _).trans (stepBody_accepted he hvalid)), beginStep_eq, hv]

end Sys2Proof.Proofs
end

section
/-! SUPPORT. SOFT_RESET (R141, R142): the fault reports taken first, one by one (log 9), and the blocks after it. -/

namespace Sys2Proof.Proofs

open Sys2Proof Sys2Proof.Machine Sys2Proof.Laws

/-- R141, R144: a notice put into queues that are alike leaves them alike. -/
theorem arriveEverywhere_eq {s : State} {q : NoticeQueue} (h : s.notices = Vector.replicate 4 q) (b : NoticeBody)
    (count : PassCount) : arriveEverywhere b count s = { s with notices := Vector.replicate 4 (q.arrive ⟨b, count⟩) } := by
  rw [arriveEverywhere, h, Vector.map_replicate]

section FaultReports

variable {s : State}

theorem drainFaultReports_none (h : s.flight.faultReports = []) : drainFaultReports s = s := by
  unfold drainFaultReports
  rw [h]
  exact onFlight_same (congrArg (fun l => { s.flight with faultReports := l }) h.symm)

theorem drainFaultReports_next {r : FaultReport} {rest : List FaultReport} (h : s.flight.faultReports = r :: rest) :
    drainFaultReports s = drainFaultReports (applyFaultReport r (s.onFlight fun f => { f with faultReports := rest })) := by
  obtain ⟨hrest, hbehind⟩ := applyFaultReport_behind r rest s
  simp only [drainFaultReports, h, hrest, hbehind, List.foldl_cons]

end FaultReports

/-- R141, R142: an accepted SOFT_RESET, block by block, on the part whose passes are finished. -/
theorem softResetBody_eq (port : Port) (s : State) : softResetBody port s =
    let v := finishPasses s
    ({ v with
      scan := ⟨.idle, Vector.replicate 12 ⟨0, .unknown⟩, .halted, false⟩
      lines := ⟨Vector.replicate 16 ⟨false, false, false, 0⟩, 0#16⟩
      eval := ⟨Vector.replicate 24 ⟨false, false, 0, false⟩, 0#32⟩
      table := { v.table with
        records := v.table.records.map fun r => { r with holders := [], queue := [], condition := .unknown, mismatch := 0 }
        settle := Vector.replicate 4 0
        engine := .halted }
      ticks := ⟨0, v.ticks.dividers, Vector.replicate 4 0⟩
      trip := { v.trip with present := { v.trip.present with channelFault := 0#12 }, deadline := 0 }
      engine := ⟨.halted, none, none, none, ⟨.softReset, none, false, false, 0#32, none⟩,
        Vector.replicate 12 none, Vector.replicate 16 none⟩
      ports := Vector.ofFn fun q : Fin 4 => if q = port then v.ports[q] else v.ports[q].softReset
      notices := Vector.replicate 4 ⟨[⟨.halted .softReset, 0#32⟩], false⟩
      flight := { InFlight.initial with
        tripDeliveries := v.flight.tripDeliveries, tripCauses := v.flight.tripCauses } }, some ⟨.ok, []⟩) := by
  rw [softResetBody, arriveEverywhere_eq (q := .initial) rfl]; rfl

/-- Settles O52: the fault reports are taken one by one, and the reset acts on each block of the part then. -/
theorem softResetKeepsTablesTripAndLocks : Obligations.SoftResetKeepsTablesTripAndLocks := by
  unfold Obligations.SoftResetKeepsTablesTripAndLocks
  refine ⟨fun s hr => ⟨rfl, drainFaultReports_none, fun hsome => ?_⟩,
    fun port s u live h => ⟨fun hm => ?_, fun hm => ?_⟩⟩
  · obtain ⟨r, rest, h⟩ := List.exists_cons_of_ne_nil hsome
    exact ⟨_, exec_faultReport hr h, drainFaultReports_next h⟩
  · exact exec_of_answer rfl h (needRight_lacking hm _)
  · exact exec_of_answer rfl h ((needRight_held hm _).trans (softResetBody_eq port u))

end Sys2Proof.Proofs
end

section
/-! SUPPORT. Power-on, HARD_RESET and RESET_N (R143, R144, R123, R124): the state they leave, the transactions they cut (R170), and the
part while RESET_N is active. -/

namespace Sys2Proof.Proofs

open Sys2Proof Sys2Proof.Machine Sys2Proof.Laws

/-! The state after the reset. -/

/-- R143, R170: a state with the ports, the pins and the model's queues that a reset leaves of another. -/
def keptThroughReset (s t : State) : State := { t with
  ports := s.ports.map fun u => ⟨.idle, [], [], if u.transfer = .none then .none else .cut⟩
  tripInActive := s.tripInActive, freeCount := s.freeCount, pending := s.pending }

/-- R124: the state after a reset that finds TRIP_IN_N active. -/
def trippedByReset : State := { State.reset with
  trip := ⟨.tripped, ⟨true, 0#12, 0#4, false, 0#16, 0#16⟩,
    ⟨some .tripIn, 0#32, ⟨true, 0#12, 0#4, false, 0#16, 0#16⟩⟩, 0⟩
  table := { State.reset.table with trip := .tripped }
  notices := Vector.replicate 4 ⟨[⟨.halted .reset, 0#32⟩, ⟨.tripped .tripIn, 0#32⟩], false⟩ }

theorem hardReset_eq (x : Transfer) : x.hardReset = if x = .none then .none else .cut := by
  cases x <;> rfl

/-- R143: while a reset lasts the part stands at its values after reset, with no notice yet. -/
theorem initialValues_eq {s : State} {active : Bool} (h : s.resetActive = active) : initialValues s =
    { keptThroughReset s State.reset with notices := Vector.replicate 4 ⟨[], false⟩, resetActive := active } := by
  subst h
  simp only [initialValues, hardReset_eq]
  rfl

theorem resetEntersTrip_eq {s : State} {q : NoticeQueue} (htrip : s.trip = .initial) (hnotices : s.notices = Vector.replicate 4 q) :
    resetEntersTrip s = { s with
      trip := trippedByReset.trip
      table := { s.table with trip := .tripped }
      notices := Vector.replicate 4 (q.arrive ⟨.tripped .tripIn, 0#32⟩) } := by
  have henter : s.trip.enter (.single .tripIn) .tripIn 0#32 = trippedByReset.trip := by rw [htrip]; rfl
  rw [← henter]
  exact arriveEverywhere_eq (s := (s.onTrip _).onTable _) hnotices ..

/-- R144, R183, R124: the end of the reset. -/
theorem endReset_eq (s : State) : endReset { keptThroughReset s State.reset with notices := Vector.replicate 4 ⟨[], false⟩ } =
    keptThroughReset s (if s.tripInActive then trippedByReset else State.reset) := by
  unfold endReset
  rw [arriveEverywhere_eq rfl]
  cases hpin : s.tripInActive with
  | false => exact if_neg (ne_true_of_eq_false hpin)
  | true =>
    refine (if_pos hpin).trans ?_
    rw [resetEntersTrip_eq (q := ⟨[⟨.halted .reset, 0#32⟩], false⟩) rfl rfl]; rfl

theorem endReset_initialValues {s : State} (h : s.resetActive = false) :
    endReset (initialValues s) = keptThroughReset s (if s.tripInActive then trippedByReset else State.reset) := by
  rw [initialValues_eq h]; exact endReset_eq s

/-! Transactions (R170). -/

section Cut

variable {c : Instr} {port : Port} {s : State}

/-- R143, R170: in a transaction that a reset has cut only the closing does anything. -/
theorem takePart_cut (hr : s.resetActive = false) (hcut : s.ports[port].transfer = .cut) (kind : Byte) {part : TransactionPart}
    (hpart : part ≠ .closing) : takePart port kind part s = s := by
  cases part with
  | opening => rw [takePart_opening port kind hr, PortUnit.beginTransaction, hcut, withPort_self]
  | kindByte => rw [takePart_kindByte port kind hr, PortUnit.takeKind, hcut, withPort_self]
  | bytes bytes => rw [takePart_bytes port kind hr, takeBytes_cut port bytes _ hcut, withPort_self]
  | whole bytes =>
    have hbusy : ¬ s.ports[port].atRest = true := by rw [PortUnit.atRest, hcut]; nofun
    exact (if_neg (ne_true_of_eq_false hr)).trans (if_neg hbusy)
  | closing => exact absurd rfl hpart

theorem exec_cut (hr : s.resetActive = false) (hcut : s.ports[port].transfer = .cut) {part : TransactionPart}
    (h : partOf c = some (port, part)) (hpart : part ≠ .closing) : exec c s = .next s := by
  obtain ⟨kind, hexec⟩ := exec_part h s
  rw [hexec, takePart_cut hr hcut kind hpart]

theorem exec_cut_closing (hr : s.resetActive = false) (hcut : s.ports[port].transfer = .cut)
    (h : partOf c = some (port, .closing)) :
    exec c s = .next (s.withPort port { s.ports[port] with transfer := .none }) := by
  obtain ⟨kind, hexec⟩ := exec_part h s
  rw [hexec, takePart_closing port kind hr, PortUnit.endTransaction, hcut]

/-- R143: while RESET_N is active a port follows its chip select alone. -/
theorem exec_part_inReset (hr : s.resetActive = true) {part : TransactionPart} (h : partOf c = some (port, part)) :
    exec c s = .next (s.withPort port (s.ports[port].selectInReset part)) := by
  obtain ⟨kind, hexec⟩ := exec_part h s
  exact hexec.trans (congrArg _ (if_pos hr))

theorem selectInReset_unselected {part : TransactionPart} (hopening : part ≠ .opening) (hclosing : part ≠ .closing)
    (u : PortUnit) : u.selectInReset part = u := by
  cases part with
  | opening => exact absurd rfl hopening
  | closing => exact absurd rfl hclosing
  | whole _ | kindByte | bytes _ => rfl

end Cut

/-! The part while RESET_N is active (R143). -/

section InReset

variable {s : State}

theorem unlessReset_active (h : s.resetActive = true) (f : State → State) : s.unlessReset f = s := if_pos h

theorem takeRequest_inReset (h : s.resetActive = true) (port : Port) (c : Instr) (n : Nat) : takeRequest port c n s = none :=
  if_pos h

theorem notTaken_inReset (h : s.resetActive = true) (port : Port) (n : Nat) : notTaken port n s = s := by
  rw [notTaken, h]; rfl

theorem serveWith_inReset (h : s.resetActive = true) (port : Port) (c : Instr) (echo : Byte) (n : Nat) (body : Bool → Body) :
    serveWith port c echo n body s = s := by
  rw [serveWith_untaken (takeRequest_inReset h port c n), notTaken_inReset h]

/-- A request is a command of its port's, served by its owning block. -/
theorem exec_request {c : Instr} {port : Port} {n : Nat} (h : requestOf c = some (port, n)) (s : State) :
    ∃ echo body, exec c s = .next (serveWith port c echo n body s) := by
  unfold requestOf at h
  split at h <;> cases h <;> exact ⟨_, _, rfl⟩

/-- Every command but the resets, the trip input's, the transactions' and the requests is an arrival that a reset holds off. -/
theorem exec_arrival {c : Instr} (hrequest : requestOf c = none) (hpart : partOf c = none) (hpowerOn : c ≠ .powerOn)
    (hbegin : c ≠ .resetNActive) (hend : c ≠ .resetEnd) (hactive : c ≠ .tripInActive) (hinactive : c ≠ .tripInInactive)
    (s : State) : ∃ f, exec c s = .next (s.unlessReset f) := by
  cases c with
  | powerOn => exact absurd rfl hpowerOn
  | resetNActive => exact absurd rfl hbegin
  | resetEnd => exact absurd rfl hend
  | tripInActive => exact absurd rfl hactive
  | tripInInactive => exact absurd rfl hinactive
  | status _ _ _ | fetch _ _ | frameError _ _ | frameDiscarded _ _ => exact nomatch hpart
  | baseTick | sourceTick _ | tickAtPermitTable _ | settleEnd _ | late _ _ | leaseExpiryRelease _ _ | leaseExpiryLock _ _
  | leaseExpiryTrip _ _ | waitExpired _ _ | tickAtTripUnit | passDeadline | runScanStart _ | conversion _ | pass _ _ | passResult
  | faultReport | deadlineRestart | passEndReport | engineStateChange _ | tripCauseArrival | permitTripEntry | permitTripClearing
  | noticeArrival _ _ => exact ⟨_, rfl⟩
  | _ => exact nomatch hrequest

theorem exec_inReset {c : Instr} (hr : s.resetActive = true) (hpart : partOf c = none) (hpowerOn : c ≠ .powerOn)
    (hbegin : c ≠ .resetNActive) (hend : c ≠ .resetEnd) (hactive : c ≠ .tripInActive) (hinactive : c ≠ .tripInInactive) :
    exec c s = .next s := by
  cases hrequest : requestOf c with
  | some request =>
    obtain ⟨echo, body, hexec⟩ := exec_request hrequest s
    rw [hexec, serveWith_inReset hr]
  | none =>
    obtain ⟨f, hexec⟩ := exec_arrival hrequest hpart hpowerOn hbegin hend hactive hinactive s
    rw [hexec, unlessReset_active hr]

end InReset

/-- R143, R144: power-on, and RESET_N in its two changes. -/
theorem resets_exec (s : State) :
    let after := keptThroughReset s (if s.tripInActive then trippedByReset else State.reset)
    let during := { keptThroughReset s State.reset with notices := Vector.replicate 4 ⟨[], false⟩, resetActive := true }
    (s.resetActive = false → exec .powerOn s = .next after) ∧ (s.resetActive = true → exec .powerOn s = .next during) ∧
      exec .resetNActive s = .next during ∧ exec .resetEnd during = .next after ∧
      (s.resetActive = false → exec .resetEnd s = .next s) := by
  refine ⟨fun hr => ?_, fun hr => ?_, ?_, ?_, fun hr => ?_⟩
  · exact congrArg _ ((if_neg (ne_true_of_eq_false hr)).trans (endReset_initialValues hr))
  · exact congrArg _ ((if_pos hr).trans (initialValues_eq hr))
  · exact congrArg (fun t : State => Host.Outcome.next { t with resetActive := true }) (initialValues_eq (s := s) rfl)
  · exact congrArg _ (endReset_eq s)
  · exact congrArg _ (if_neg (ne_true_of_eq_false hr))

/-- R143: HARD_RESET needs MAINTAIN, and is never answered. -/
theorem exec_hardReset {port : Port} {s u : State} {live : Bool} (h : takeRequest port (.hardReset port) 0 s = some (u, live)) :
    (u.config.profilesInUse[port].maintain = false →
      exec (.hardReset port) s = .next (answerIn port 0x38#8 live ⟨.refused, [0x02#8]⟩ u)) ∧
    (u.config.profilesInUse[port].maintain = true → exec (.hardReset port) s =
      .next (keptThroughReset u (if u.tripInActive then trippedByReset else State.reset))) := by
  obtain ⟨hr, x, hu⟩ := takeRequest_some h
  have hawake : u.resetActive = false := by rw [hu]; exact hr
  refine ⟨fun hm => exec_of_answer rfl h (needRight_lacking hm _), fun hm => ?_⟩
  have hsilent : needRight Profile.maintain port hardResetBody u = (endReset (initialValues u), none) := needRight_held hm _
  rw [← endReset_initialValues hawake]
  exact congrArg _ ((serve_taken h ..).trans (perform_silent hsilent ..))

/-- Settles O53: a reset leaves the values after reset, cuts the transactions, and holds off every arrival while it lasts. -/
theorem hardResetsLeaveTheInitialState : Obligations.HardResetsLeaveTheInitialState := by
  unfold Obligations.HardResetsLeaveTheInitialState
  refine ⟨resets_exec, fun port s u live h => exec_hardReset h,
    fun c port bytes s hr hcut => ⟨exec_cut_closing hr hcut, fun hpart => ?_⟩,
    fun c s hr => ⟨?_, ?_, fun port part hpart => ⟨?_, ?_, fun hopening hclosing => ?_⟩, exec_inReset hr⟩⟩
  · rcases hpart with hpart | hpart | hpart | hpart <;> exact exec_cut hr hcut hpart nofun
  · exact congrArg _ (unlessReset_active (s := { s with tripInActive := true }) hr _)
  · exact congrArg _ (unlessReset_active (s := { s with tripInActive := false }) hr _)
  · rintro rfl
    exact exec_part_inReset hr hpart
  · rintro rfl
    exact exec_part_inReset hr hpart
  · rw [exec_part_inReset hr hpart, selectInReset_unselected hopening hclosing, withPort_self]

end Sys2Proof.Proofs
end

section
/-! SUPPORT. Validation (R160 to R162): when an entry fails its check, and which failure a search in ascending index finds. -/

namespace Sys2Proof.Proofs

open Sys2Proof Sys2Proof.Machine Sys2Proof.Laws

/-! Searches in ascending index (R160). -/

theorem allTerms_eq : allTerms = List.finRange 24 := by decide
theorem allPermits_eq : allPermits = List.finRange 16 := by decide
theorem allGroups_eq : allGroups = List.finRange 4 := by decide

section Search

variable {n : Nat} {l : List (Fin n)} {f : Fin n → Bool}

theorem find?_ascending_eq_none (hl : l = List.finRange n) : l.find? f = none ↔ ∀ i, ¬ f i = true := by
  simp [hl, List.find?_eq_none]

theorem find?_ascending_first (hl : l = List.finRange n) {i : Fin n} (hi : f i = true)
    (hbefore : ∀ j, j < i → ¬ f j = true) : l.find? f = some i := by
  rw [hl, ← Fin.find?_eq_find?_finRange, Fin.find?_eq_some_iff]
  exact ⟨hi, fun j hj => Bool.eq_false_iff.mpr (hbefore j hj)⟩

end Search

section Validate

variable {c : ConfigStore}

/-! Check 1: the sources of the enabled terms (R161). -/

/-- R161: what a source refers to is enabled. -/
def RefersToEnabled (c : ConfigStore) (x : Source) : Prop :=
  (∀ k, x = .term k → c.terms[k].enabled = true) ∧ (∀ n, x = .line n → c.lines[n].enabled = true) ∧
  (∀ mask level, x = .lineSet mask level → ∀ n : LineId, mask.getLsbD n = true → c.lines[n].enabled = true) ∧
  (∀ ch b i a, x = .channel ch b i a → c.channels[ch].enabled = true) ∧
  (∀ p, x = .held p → c.permits[p].enabled = true)

theorem sourceInUse_lineSet (mask : Word16) (level : Bool) : sourceInUse c (.lineSet mask level) = true ↔
    ∀ n : LineId, mask.getLsbD n = true → c.lines[n].enabled = true := by
  simp only [sourceInUse, List.all_eq_true, mem_allLines, true_imp_iff, Bool.or_eq_true, Bool.not_eq_true',
    or_iff_not_imp_left, Bool.not_eq_false]

theorem sourceInUse_iff (x : Source) : sourceInUse c x = true ↔ RefersToEnabled c x := by
  cases x with
  | zero => simp [sourceInUse, RefersToEnabled]
  | term k => simp [sourceInUse, RefersToEnabled]
  | line n => simp [sourceInUse, RefersToEnabled]
  | lineSet mask level => simp [sourceInUse_lineSet, RefersToEnabled]
  | channel ch b i a =>
    refine ⟨fun h => ⟨nofun, nofun, nofun, ?_, nofun⟩, fun ⟨_, _, _, hchannel, _⟩ => hchannel ch b i a rfl⟩
    rintro _ _ _ _ ⟨⟩; exact h
  | held p => simp [sourceInUse, RefersToEnabled]

theorem termFails_iff (i : TermId) : termFails c i = true ↔ c.terms[i].enabled = true ∧
    ¬ (RefersToEnabled c c.terms[i].sourceA ∧ RefersToEnabled c c.terms[i].sourceB ∧
      RefersToEnabled c c.terms[i].sourceC) := by
  simp only [termFails, ← sourceInUse_iff, Bool.and_eq_true, Bool.not_eq_true', ← Bool.not_eq_true, and_assoc]

/-! Checks 2 and 4 (R162). -/

theorem permitFails_iff (p : PermitId) : permitFails c p = true ↔
    c.permits[p].enabled = true ∧ c.terms[c.permits[p].term].enabled = false := by
  rw [permitFails, Bool.and_eq_true, Bool.not_eq_true']

theorem someMember_iff (g : GroupId) (m : PermitMode) :
    (allPermits.any fun p => isMember c g p && decide (c.permits[p].mode = m)) = true ↔
      ∃ p : PermitId, c.permits[p].group = some g ∧ c.permits[p].mode = m := by
  simp only [isMember, List.any_eq_true, mem_allPermits, true_and, Bool.and_eq_true, decide_eq_true_eq]

theorem groupFails_iff (g : GroupId) : groupFails c g = true ↔ ∃ p q : PermitId, c.permits[p].group = some g ∧
    c.permits[q].group = some g ∧ c.permits[p].mode = .exclusive ∧ c.permits[q].mode = .shared := by
  rw [groupFails, Bool.and_eq_true, someMember_iff, someMember_iff]
  constructor
  · rintro ⟨⟨p, hp, hexclusive⟩, q, hq, hshared⟩
    exact ⟨p, q, hp, hq, hexclusive, hshared⟩
  · rintro ⟨p, q, hp, hq, hexclusive, hshared⟩
    exact ⟨⟨p, hp, hexclusive⟩, q, hq, hshared⟩

/-! The checks in their order (R160). -/

theorem validate_term {i : TermId} (hi : termFails c i = true) (hbefore : ∀ j, j < i → ¬ termFails c j = true) :
    validate c = some ⟨2#8, numByte i, 1#8⟩ := by
  rw [validate, find?_ascending_first allTerms_eq hi hbefore]

theorem validate_permit (hterms : ∀ i, ¬ termFails c i = true) {p : PermitId} (hp : permitFails c p = true)
    (hbefore : ∀ q, q < p → ¬ permitFails c q = true) : validate c = some ⟨3#8, numByte p, 2#8⟩ := by
  rw [validate, (find?_ascending_eq_none allTerms_eq).mpr hterms, find?_ascending_first allPermits_eq hp hbefore]

theorem validate_group (hterms : ∀ i, ¬ termFails c i = true) (hpermits : ∀ p, ¬ permitFails c p = true) {g : GroupId}
    (hg : groupFails c g = true) (hbefore : ∀ h, h < g → ¬ groupFails c h = true) :
    validate c = some ⟨4#8, numByte g, 4#8⟩ := by
  rw [validate, (find?_ascending_eq_none allTerms_eq).mpr hterms, (find?_ascending_eq_none allPermits_eq).mpr hpermits,
    find?_ascending_first allGroups_eq hg hbefore]

theorem validate_eq_none : validate c = none ↔
    (∀ i, ¬ termFails c i = true) ∧ (∀ p, ¬ permitFails c p = true) ∧ ∀ g, ¬ groupFails c g = true := by
  rw [← find?_ascending_eq_none allTerms_eq, ← find?_ascending_eq_none allPermits_eq, ← find?_ascending_eq_none allGroups_eq]
  unfold validate
  cases allTerms.find? (termFails c) with
  | some => simp
  | none => cases allPermits.find? (permitFails c) with
    | some => simp
    | none => cases allGroups.find? (groupFails c) <;> simp

end Validate

/-- Settles O48: each check is a search in ascending index, taken when the checks before it find nothing. -/
theorem validationFindsTheFirstFailure : Obligations.ValidationFindsTheFirstFailure := by
  unfold Obligations.ValidationFindsTheFirstFailure
  intro c inUse badTerm badPermit badGroup
  have hterm (i : TermId) : termFails c i = true ↔ badTerm i := termFails_iff i
  have hpermit (p : PermitId) : permitFails c p = true ↔ badPermit p := permitFails_iff p
  have hgroup (g : GroupId) : groupFails c g = true ↔ badGroup g := groupFails_iff g
  simp only [← hterm, ← hpermit, ← hgroup]
  exact ⟨validate_eq_none, fun _ => validate_term, fun _ hterms => validate_permit hterms,
    fun _ hterms hpermits => validate_group hterms hpermits⟩

end Sys2Proof.Proofs
end

section
/-! SUPPORT. The writes of entries (R150 to R154): their checks in order, the one form that the nine writes share, and what an accepted
write leaves. -/

namespace Sys2Proof.Proofs

open Sys2Proof Sys2Proof.Machine Sys2Proof.Laws

/-! Check 1: the index and the fields (R150). -/

theorem failingField_eq_none {α : Type} {entry : Except FieldNo α} :
    failingField entry = none ↔ ∃ e, entry = .ok e := by
  cases entry <;> simp [failingField]

theorem failingField_eq_some {α : Type} {entry : Except FieldNo α} {f : FieldNo} :
    failingField entry = some f ↔ entry = .error f := by
  cases entry <;> simp [failingField]

section Fields

variable {α : Type} {n : Nat} {index : Byte} {entry : Except FieldNo α}

theorem checkFields_beyond (h : n ≤ index.toNat) (body : Fin n → α → Body) (s : State) :
    checkFields n index entry body s = (s, some ⟨.refused, [0x01#8, 0xFF#8]⟩) := by
  simp only [checkFields, byteFin_none h]; rfl

theorem checkFields_failing (h : index.toNat < n) {f : FieldNo} (hf : entry = .error f) (body : Fin n → α → Body) (s : State) :
    checkFields n index entry body s = (s, some ⟨.refused, [0x01#8, f]⟩) := by
  simp only [checkFields, byteFin_of (i := ⟨_, h⟩) rfl, hf]; rfl

theorem checkFields_passed {i : Fin n} {e : α} (hi : index.toNat = i.val) (he : entry = .ok e) (body : Fin n → α → Body)
    (s : State) : checkFields n index entry body s = body i e s := by
  simp only [checkFields, byteFin_of hi, he]

end Fields

/-! Checks 3 and 4: CONFIGURE, then HALTED (R150). -/

section Configure

variable {port : Port} {s : State}

theorem needConfigure_lacking (hc : s.config.profilesInUse[port].configure = false) (body : Body) :
    needConfigure port body s = (s, some ⟨.refused, [0x02#8]⟩) := needRight_lacking hc _

theorem needConfigure_running (hc : s.config.profilesInUse[port].configure = true)
    (he : s.engine.state = .running ∨ s.engine.state = .halting) (body : Body) :
    needConfigure port body s = (s, some ⟨.refused, [0x0D#8]⟩) := (needRight_held hc _).trans (needHalted_running he _)

theorem needConfigure_stepping (hc : s.config.profilesInUse[port].configure = true) (he : s.engine.state = .stepping)
    (body : Body) : needConfigure port body s = (s, some ⟨.refused, [0x0E#8]⟩) :=
  (needRight_held hc _).trans (needHalted_stepping he _)

theorem needConfigure_admitted (ha : s.config.profilesInUse[port].configure = true ∧ s.engine.state = .halted) (body : Body) :
    needConfigure port body s = body s := (needRight_held ha.1 _).trans (needHalted_halted ha.2 _)

end Configure

/-! The form of every write. -/

/-- R150: what stands between check 1 and a write's own checks: MAINTAIN for WATCH, CONFIGURE and HALTED for every other table. -/
def rightOfWrite (w : WriteShape) (body : Body) : Body :=
  if w.table = 8 then needRight Profile.maintain w.port body else needConfigure w.port body

theorem rightOfWrite_watch {w : WriteShape} (h : w.table = 8) (body : Body) :
    rightOfWrite w body = needRight Profile.maintain w.port body := if_pos h

theorem rightOfWrite_other {w : WriteShape} (h : w.table ≠ 8) (body : Body) :
    rightOfWrite w body = needConfigure w.port body := if_neg h

/-- A write checks its index and its fields, then the right, and goes on with a body of its own. -/
theorem exec_write {c : Instr} {w : WriteShape} (h : writeShape c = some w) :
    ∃ (α : Type) (entry : Except FieldNo α) (own : Fin w.entries → α → Body), w.failing = failingField entry ∧
      ∀ s, exec c s = .next (serve w.port c 0x40#8 w.length
        (checkFields w.entries w.index entry fun i e => rightOfWrite w (own i e)) s) := by
  cases c with
  | writeChannelEntry | writeLineEntry | writeTermEntry | writePermitEntry | writeGroupEntry | writeProfileEntry
  | writeTickEntry | writeEngineEntry | writeWatchEntry => cases h; exact ⟨_, _, _, rfl, fun _ => rfl⟩
  | _ => cases h

theorem writeShape_permit {c : Instr} {w : WriteShape} (h : writeShape c = some w) (htable : w.table = 3) :
    ∃ port i f t m l g src x y, c = .writePermitEntry port i f t m l g src x y := by
  cases c with
  | writePermitEntry => exact ⟨_, _, _, _, _, _, _, _, _, _, rfl⟩
  | _ => cases h <;> cases htable

theorem writeShape_group {c : Instr} {w : WriteShape} (h : writeShape c = some w) (htable : w.table = 4) :
    ∃ port i v src, c = .writeGroupEntry port i v src := by
  cases c with
  | writeGroupEntry => exact ⟨_, _, _, _, rfl⟩
  | _ => cases h <;> cases htable

section Admitted

variable {α : Type} {n length : Nat} {port : Port} {c : Instr} {index : Byte} {entry : Except FieldNo α} {own : Fin n → α → Body}
  {s u t : State} {live : Bool} {r : Reply} {i : Fin n} {e : α}

/-- A write that passes checks 1, 3 and 4 answers as its own body does. -/
theorem exec_of_admitted (hx : exec c s = .next (serve port c 0x40#8 length
      (checkFields n index entry fun i e => needConfigure port (own i e)) s))
    (h : takeRequest port c length s = some (u, live))
    (ha : u.config.profilesInUse[port].configure = true ∧ u.engine.state = .halted) (hi : index.toNat = i.val)
    (he : entry = .ok e) (hb : own i e u = (t, some r)) : exec c s = .next (answerIn port 0x40#8 live r t) :=
  exec_of_answer hx h ((checkFields_passed hi he _ _).trans ((needConfigure_admitted ha _).trans hb))

end Admitted

/-! Checks 5 and 6: permits in use, and CONFIGURE in some profile (R152, R153). -/

theorem inUse_iff (t : PermitTable) (p : PermitId) :
    inUse t p = true ↔ t.records[p].holders ≠ [] ∨ t.records[p].queue ≠ [] := by
  rw [inUse, Bool.or_eq_true, Bool.not_eq_true', Bool.not_eq_true', List.isEmpty_eq_false_iff, List.isEmpty_eq_false_iff]

theorem groupInUse_iff (c : ConfigStore) (t : PermitTable) (g : GroupId) : groupInUse c t g = true ↔
    ∃ p : PermitId, c.permits[p].group = some g ∧ (t.records[p].holders ≠ [] ∨ t.records[p].queue ≠ []) := by
  simp only [groupInUse, List.any_eq_true, mem_allPermits, true_and, Bool.and_eq_true, isMember, decide_eq_true_eq, inUse_iff]

section Bodies

variable {index : Byte} {s : State}

theorem writePermitBody_inUse {p : PermitId} (h : s.table.records[p].holders ≠ [] ∨ s.table.records[p].queue ≠ [])
    (e : PermitEntry) : writePermitBody index p e s = (s, some ⟨.refused, [0x0C#8]⟩) := if_pos ((inUse_iff _ _).mpr h)

theorem writePermitBody_free {p : PermitId} (hholders : s.table.records[p].holders = []) (hqueue : s.table.records[p].queue = [])
    (e : PermitEntry) : writePermitBody index p e s = acceptWrite 3#8 index (setPermitEntry p e) s :=
  if_neg fun h => ((inUse_iff _ _).mp h).elim (absurd hholders) (absurd hqueue)

theorem writeGroupBody_inUse {g : GroupId} {p : PermitId} (hmember : s.config.permits[p].group = some g)
    (h : s.table.records[p].holders ≠ [] ∨ s.table.records[p].queue ≠ []) (e : GroupEntry) :
    writeGroupBody index g e s = (s, some ⟨.refused, [0x0C#8]⟩) := if_pos ((groupInUse_iff _ _ _).mpr ⟨p, hmember, h⟩)

theorem writeGroupBody_free {g : GroupId} (h : ∀ p : PermitId, s.config.permits[p].group = some g →
    s.table.records[p].holders = [] ∧ s.table.records[p].queue = []) (e : GroupEntry) :
    writeGroupBody index g e s = acceptWrite 4#8 index (setGroupEntry g e) s := by
  refine if_neg fun hu => ?_
  obtain ⟨p, hmember, huse⟩ := (groupInUse_iff _ _ _).mp hu
  obtain ⟨hholders, hqueue⟩ := h p hmember
  exact huse.elim (absurd hholders) (absurd hqueue)

theorem writeProfileBody_lacking {q : Port} {e : Profile}
    (h : ∀ k : Port, (s.config.profiles.set q e)[k].configure = false) :
    writeProfileBody index q e s = (s, some ⟨.refused, [0x01#8, 0#8]⟩) := by
  refine if_neg fun hsome => ?_
  obtain ⟨k, hk⟩ := (someConfigure_iff _).mp hsome
  exact nomatch (h k).symm.trans hk

theorem writeProfileBody_held {q : Port} {e : Profile} (h : ∃ k : Port, (s.config.profiles.set q e)[k].configure = true) :
    writeProfileBody index q e s =
      acceptWrite 5#8 index (fun t => t.onConfig fun c => { c with profiles := c.profiles.set q e }) s :=
  if_pos ((someConfigure_iff _).mpr h)

end Bodies

/-- Settles O55: each check of the form that every write has, then checks 5 and 6 of the three tables that have them. -/
theorem writesAreCheckedInOrder : Obligations.WritesAreCheckedInOrder := by
  unfold Obligations.WritesAreCheckedInOrder
  intro c w s u live hw h refuses profile
  obtain ⟨α, entry, own, hfailing, hx⟩ := exec_write hw
  refine ⟨fun hi => exec_of_answer (hx s) h (checkFields_beyond hi _ _), fun f hi hf =>
    exec_of_answer (hx s) h (checkFields_failing hi (failingField_eq_some.mp (hfailing ▸ hf)) _ _), fun hi hf => ?_⟩
  obtain ⟨e, he⟩ := failingField_eq_none.mp (hfailing ▸ hf)
  have judged {reason : List Byte} (hb : rightOfWrite w (own ⟨_, hi⟩ e) u = (u, some ⟨.refused, reason⟩)) : refuses reason :=
    exec_of_answer (hx s) h ((checkFields_passed (i := ⟨_, hi⟩) rfl he _ _).trans hb)
  have configured {reason : List Byte} (htable : w.table ≠ 8)
      (hb : needConfigure w.port (own ⟨_, hi⟩ e) u = (u, some ⟨.refused, reason⟩)) : refuses reason :=
    judged ((congrFun (rightOfWrite_other htable _) u).trans hb)
  refine ⟨fun htable hm => judged ((congrFun (rightOfWrite_watch htable _) u).trans (needRight_lacking hm _)),
    fun htable hc => configured htable (needConfigure_lacking hc _),
    fun htable hc => ⟨fun hengine => configured htable (needConfigure_running hc hengine _),
      fun hengine => configured htable (needConfigure_stepping hc hengine _), fun hengine => ⟨?_, ?_, ?_⟩⟩⟩
  · intro p htable hp huse
    obtain ⟨port, i, f, t, m, l, g, src, x, y, rfl⟩ := writeShape_permit hw htable
    cases hw
    obtain ⟨e, he⟩ := failingField_eq_none.mp hf
    exact exec_of_admitted rfl h ⟨hc, hengine⟩ hp he (writePermitBody_inUse huse e)
  · intro g p htable hg hmember huse
    obtain ⟨port, i, v, src, rfl⟩ := writeShape_group hw htable
    cases hw
    obtain ⟨e, he⟩ := failingField_eq_none.mp hf
    exact exec_of_admitted rfl h ⟨hc, hengine⟩ hg he (writeGroupBody_inUse hmember huse e)
  · rintro port i r x m q e rfl hq he hlacking
    cases hw
    exact exec_of_admitted rfl h ⟨hc, hengine⟩ hq he (writeProfileBody_lacking hlacking)

/-- Settles O56: past its checks a write's own body changes its entry and what goes with it. -/
theorem acceptedWritesReplaceTheirEntry : Obligations.AcceptedWritesReplaceTheirEntry := by
  unfold Obligations.AcceptedWritesReplaceTheirEntry
  intro c w s u live hw h accepts with'
  refine ⟨?_, fun hc hengine => ⟨?_, ?_, ?_, ?_, ?_, ?_, ?_, ?_⟩⟩
  · rintro port i f k t x slot e rfl hi he hm
    cases hw
    exact exec_of_answer rfl h ((checkFields_passed hi he _ _).trans (needRight_held hm _))
  · rintro port i f p n a l h' y ch e rfl hi he
    cases hw
    exact exec_of_admitted rfl h ⟨hc, hengine⟩ hi he rfl
  · rintro port i f q line e rfl hi he
    cases hw
    exact exec_of_admitted rfl h ⟨hc, hengine⟩ hi he rfl
  · rintro port i f st q tt x y z k e rfl hi he
    cases hw
    exact exec_of_admitted rfl h ⟨hc, hengine⟩ hi he rfl
  · rintro port i f t m l g src x y p e rfl hi he hholders hqueue
    cases hw
    exact exec_of_admitted rfl h ⟨hc, hengine⟩ hi he (writePermitBody_free hholders hqueue e)
  · rintro port i v src g e rfl hi he hfree
    cases hw
    exact exec_of_admitted rfl h ⟨hc, hengine⟩ hi he (writeGroupBody_free hfree e)
  · rintro port i r m x q e rfl hi he hheld
    cases hw
    exact exec_of_admitted rfl h ⟨hc, hengine⟩ hi he (writeProfileBody_held hheld)
  · rintro port i d src n rfl hi he
    cases hw
    exact exec_of_admitted rfl h ⟨hc, hengine⟩ hi he rfl
  · rintro port t d o e rfl he
    cases hw
    exact exec_of_admitted (i := 0) rfl h ⟨hc, hengine⟩ rfl he rfl

end Sys2Proof.Proofs
end

section
/-! SUPPORT. The frames of a port (R166, R171, R172): the check byte, the lengths of the codes and of the tables, the five checks in their
order, and the requests of the payloads (R174, R175). -/

namespace Sys2Proof.Proofs

open Sys2Proof Sys2Proof.Machine Sys2Proof.Laws

/-! The check byte (R171). -/

theorem crcShift_eq (r : Byte) : crcShift r = if r.getLsbD 7 then (r <<< 1) ^^^ 0x07#8 else r <<< 1 := by
  rw [crcShift, BitVec.msb_eq_getLsbD_last]

/-! The lengths of the payloads (R172). -/

/-- R172: the request codes with a fixed payload length. -/
def payloadLengths : List (Byte × Nat) := [(0x01#8, 0), (0x02#8, 0), (0x03#8, 2), (0x04#8, 1), (0x05#8, 0), (0x06#8, 0),
  (0x07#8, 1), (0x08#8, 0), (0x09#8, 0), (0x10#8, 5), (0x11#8, 1), (0x12#8, 1), (0x13#8, 0), (0x14#8, 1), (0x15#8, 1),
  (0x20#8, 0), (0x21#8, 0), (0x30#8, 0), (0x31#8, 0), (0x32#8, 0), (0x33#8, 3), (0x34#8, 2), (0x35#8, 2), (0x36#8, 0),
  (0x37#8, 0), (0x38#8, 0)]

/-- R172: the table codes with the lengths of their entries. -/
def entryLengths : List (Byte × Nat) :=
  [(0#8, 9), (1#8, 2), (2#8, 16), (3#8, 8), (4#8, 2), (5#8, 4), (6#8, 2), (7#8, 3), (8#8, 4)]

theorem fixedLength_of_mem : ∀ x ∈ payloadLengths, fixedLength x.1 = some (some x.2) := by decide

theorem mem_of_fixedLength {code : Byte} {n : Nat} (h : fixedLength code = some (some n)) : (code, n) ∈ payloadLengths := by
  unfold fixedLength at h
  split at h <;> cases h <;> simp [payloadLengths, ← BitVec.toNat_inj, *]

/-- R172: WRITE_ENTRY alone has a length that depends on its table. -/
theorem eq_writeEntry_of_fixedLength {code : Byte} (h : fixedLength code = some none) : code = 0x40#8 := by
  unfold fixedLength at h
  split at h
  case h_27 hcode => exact BitVec.eq_of_toNat_eq hcode
  all_goals cases h

theorem fixedLength_unknown {code : Byte} (hlisted : ∀ n, (code, n) ∉ payloadLengths) (hwrite : code ≠ 0x40#8) :
    fixedLength code = none := by
  cases hfixed : fixedLength code with
  | none => rfl
  | some fixed =>
    cases fixed with
    | none => exact absurd (eq_writeEntry_of_fixedLength hfixed) hwrite
    | some n => exact absurd (mem_of_fixedLength hfixed) (hlisted n)

theorem entryLength_of_mem : ∀ x ∈ entryLengths, entryLength x.1 = some x.2 := by decide

theorem mem_of_entryLength {table : Byte} {n : Nat} (h : entryLength table = some n) : (table, n) ∈ entryLengths := by
  unfold entryLength at h
  split at h <;> cases h <;> simp [entryLengths, ← BitVec.toNat_inj, *]

theorem entryLength_unknown {table : Byte} (h : ∀ n, (table, n) ∉ entryLengths) : entryLength table = none :=
  Option.eq_none_iff_forall_ne_some.mpr fun n hn => h n (mem_of_entryLength hn)

theorem lengthFits_fixed (n : Nat) (payload : List Byte) : lengthFits (some n) payload = true ↔ payload.length = n :=
  beq_iff_eq

theorem lengthFits_entry {table : Byte} {n : Nat} (h : entryLength table = some n) (rest : List Byte) :
    lengthFits none (table :: rest) = true ↔ (table :: rest).length = 2 + n := by
  simp only [lengthFits, h, beq_iff_eq]

theorem lengthFits_untabled {table : Byte} (h : entryLength table = none) (rest : List Byte) :
    lengthFits none (table :: rest) = true ↔ 2 ≤ (table :: rest).length := by
  simp only [lengthFits, h, decide_eq_true_eq]

/-! The five checks (R166). -/

theorem judgeFrame_long {code len : Byte} (h : 32 < len.toNat) (rest : List Byte) :
    judgeFrame (code :: len :: rest) = .failed .length code := if_pos h

theorem judgeFrame_truncated {code len : Byte} {rest : List Byte} (hlen : len.toNat ≤ 32) (hrest : rest.length ≤ len.toNat) :
    judgeFrame (code :: len :: rest) = .failed .truncated code := by
  simp only [judgeFrame, Config.maxPayload, if_neg (Nat.not_lt.mpr hlen), List.drop_eq_nil_of_le hrest]

section Checked

variable {code len check : Byte} {payload more : List Byte} (hlen : len.toNat ≤ 32) (hpayload : payload.length = len.toNat)
include hlen hpayload

theorem judgeFrame_badCheck (h : check ≠ checkByte (code :: len :: payload)) :
    judgeFrame (code :: len :: (payload ++ check :: more)) = .failed .check code := by
  simp only [judgeFrame, Config.maxPayload, if_neg (Nat.not_lt.mpr hlen), List.take_left' hpayload, List.drop_left' hpayload,
    if_pos h]

variable (hcheck : check = checkByte (code :: len :: payload))
include hcheck

theorem judgeFrame_unknownCode (h : fixedLength code = none) :
    judgeFrame (code :: len :: (payload ++ check :: more)) = .failed .unknownCode code := by
  simp only [judgeFrame, Config.maxPayload, if_neg (Nat.not_lt.mpr hlen), List.take_left' hpayload, List.drop_left' hpayload,
    if_neg (not_not.mpr hcheck), h]

theorem judgeFrame_known {fixed : Option Nat} (h : fixedLength code = some fixed) :
    judgeFrame (code :: len :: (payload ++ check :: more)) =
      if lengthFits fixed payload then .wellFormed code payload else .failed .length code := by
  simp only [judgeFrame, Config.maxPayload, if_neg (Nat.not_lt.mpr hlen), List.take_left' hpayload, List.drop_left' hpayload,
    if_neg (not_not.mpr hcheck), h]

/-- R166 check 5: the payload's length decides between a well-formed frame and LENGTH. -/
theorem judgeFrame_byLength {fixed : Option Nat} (h : fixedLength code = some fixed) {fits : Prop}
    (hfits : lengthFits fixed payload = true ↔ fits) :
    (fits → judgeFrame (code :: len :: (payload ++ check :: more)) = .wellFormed code payload) ∧
    (¬ fits → judgeFrame (code :: len :: (payload ++ check :: more)) = .failed .length code) := by
  rw [judgeFrame_known hlen hpayload hcheck h, ← hfits]
  exact ⟨fun hf => if_pos hf, fun hf => if_neg hf⟩

end Checked

/-- Settles O8: the check byte shift by shift, and each outcome of the checks by its own lemma. -/
theorem framesAreJudgedInTheOrderOfTheChecks : Obligations.FramesAreJudgedInTheOrderOfTheChecks := by
  unfold Obligations.FramesAreJudgedInTheOrderOfTheChecks
  intro lengths entries shift
  have hshift : shift = crcShift := funext fun r => (crcShift_eq r).symm
  refine ⟨rfl, fun bytes b => by rw [hshift]; exact checkByte_append bytes b, checkByte_self, rfl, fun code => rfl,
    fun code len rest hlen => judgeFrame_long hlen rest, fun code len rest => judgeFrame_truncated,
    fun code len check payload more hlen hpayload => ⟨judgeFrame_badCheck hlen hpayload, fun hcheck => ⟨?_, ?_, ?_⟩⟩⟩
  · intro hlisted hwrite
    exact judgeFrame_unknownCode hlen hpayload hcheck (fixedLength_unknown hlisted hwrite)
  · intro n hn
    exact judgeFrame_byLength hlen hpayload hcheck (fixedLength_of_mem _ hn) (lengthFits_fixed n payload)
  · rintro rfl
    have judged {fits : Prop} := judgeFrame_byLength (more := more) (fits := fits) hlen hpayload hcheck (fixed := none) rfl
    refine ⟨?_, ?_⟩
    · rintro rfl
      exact (judged (fits := False) (by simp [lengthFits])).2 not_false
    · rintro table rest rfl
      exact ⟨fun n hn => judged (lengthFits_entry (entryLength_of_mem _ hn) rest),
        fun hn => judged (lengthFits_untabled (entryLength_unknown hn) rest)⟩

/-! The requests of the payloads (R172, R174, R175). -/

theorem decodeRequest_write (port : Port) (table index : Byte) (entry : List Byte) :
    decodeRequest port 0x40#8 (table :: index :: entry) = decodeWrite port table index entry := rfl

theorem decodeWrite_beyond (port : Port) {table : Byte} (h : 9 ≤ table.toNat) (index : Byte) (entry : List Byte) :
    decodeWrite port table index entry = none := by
  unfold decodeWrite
  split
  case h_10 => rfl
  all_goals omega

/-- Settles O11: each payload by evaluation, and the table codes above 8 by `decodeWrite_beyond`. -/
theorem payloadsCarryTheirRequests : Obligations.PayloadsCarryTheirRequests := by
  unfold Obligations.PayloadsCarryTheirRequests
  intro port a b c d e f g h i j k x y z rest
  exact ⟨rfl, rfl, rfl, rfl, rfl, rfl, rfl, rfl, rfl, rfl, rfl, rfl, rfl, rfl, rfl, rfl, rfl, rfl, rfl, rfl, rfl, rfl, rfl, rfl,
    rfl, rfl, rfl, rfl, rfl, rfl, rfl, rfl, rfl, rfl, rfl,
    fun hk => (decodeRequest_write port k a rest).trans (decodeWrite_beyond port hk a rest)⟩

end Sys2Proof.Proofs
end

section
/-! SUPPORT. The taking of requests and the placing of their answers (R165, R167): each case of the port's unit once. -/

namespace Sys2Proof.Proofs

open Sys2Proof Sys2Proof.Machine Sys2Proof.Laws

theorem shiftOut_eq (port : Port) (bytes : List Byte) (s : State) :
    shiftOut port bytes s = s.withPort port { s.ports[port] with serialOut := statusByte s port :: bytes } := rfl

theorem atRest_iff (u : PortUnit) : u.atRest = true ↔ u.transfer = .none := decide_eq_true_iff

section Taking

variable {s : State} {port : Port} (c : Instr) (n : Nat) (hr : s.resetActive = false)
include hr

section Transaction

variable (hhand : s.ports[port].inHand = [])
include hhand

/-- R167: with no request in hand and no transaction in progress, IDLE and ANSWERED take the request. -/
theorem takeRequest_free (hrest : s.ports[port].transfer = .none) (hcontext : s.ports[port].context.isExecuting = false) :
    takeRequest port c n s = some (s.withPort port ⟨s.ports[port].context.take, [],
      statusByte s port :: List.replicate (n + 3) 0#8, .none⟩, true) := by
  have hunit : { s.ports[port] with
      context := s.ports[port].context.take, serialOut := statusByte s port :: zeros (n + 3) } =
      (⟨s.ports[port].context.take, [], statusByte s port :: List.replicate (n + 3) 0#8, .none⟩ : PortUnit) := by
    simp only [hhand, hrest, zeros]
  rw [← hunit]
  simp [-Fin.getElem_fin, takeRequest, hr, hhand, hcontext, (atRest_iff _).mpr hrest, shiftOut_eq, onPort_eq]

/-- R167: in EXECUTING, or while a transaction is in progress, no request is taken. -/
theorem takeRequest_held (h : s.ports[port].context.isExecuting = true ∨ s.ports[port].transfer ≠ .none) :
    takeRequest port c n s = none := by
  have hheld : (s.ports[port].context.isExecuting || !s.ports[port].atRest) = true := by
    rw [Bool.or_eq_true, Bool.not_eq_true', ← Bool.not_eq_true, atRest_iff]; exact h
  simp only [takeRequest, hr, hhand, hheld, if_true, Bool.false_eq_true, if_false]

end Transaction

/-- R165, R170: a request in hand is taken by its own command alone. -/
theorem takeRequest_inHand {h : InHand} {rest : List InHand} (hhand : s.ports[port].inHand = h :: rest) :
    takeRequest port c n s =
      if h.request = c then some (s.withPort port { s.ports[port] with inHand := rest }, h.live) else none := by
  simp only [takeRequest, hr, hhand, Bool.false_eq_true, if_false]; rfl

end Taking

/-- Settles O3: each case of the port's unit by its own lemma. -/
theorem requestsAreTakenInIdleOrAnswered : Obligations.RequestsAreTakenInIdleOrAnswered := by
  unfold Obligations.RequestsAreTakenInIdleOrAnswered
  intro port c n s
  refine ⟨fun hr => takeRequest_inReset hr port c n, fun hr hhand => ⟨fun hrest => ⟨?_, ?_, ?_⟩, ?_⟩,
    fun h rest hr hhand => takeRequest_inHand c n hr hhand⟩
  · intro hidle
    have htaken := takeRequest_free c n hr hhand hrest (by rw [hidle]; rfl)
    rwa [hidle] at htaken
  · intro a hanswered
    have htaken := takeRequest_free c n hr hhand hrest (by rw [hanswered]; rfl)
    rwa [hanswered] at htaken
  · intro lost hexecuting
    exact takeRequest_held c n hr hhand (.inl (by rw [hexecuting]; rfl))
  · intro hbusy
    exact takeRequest_held c n hr hhand (.inr hbusy)

theorem answerIn_executing {port : Port} {u : State} {lost : Bool} (h : u.ports[port].context = .executing lost) (echo : Byte)
    (r : Reply) : answerIn port echo true r u =
      u.withPort port { u.ports[port] with context := .answered ⟨r.code, echo, lost, r.payload⟩ } := by
  simp only [answerIn, if_true, placeAnswer, h]; rfl

theorem answerIn_discarded {port : Port} {u : State} (h : u.ports[port].context.isExecuting = false) (echo : Byte) (r : Reply) :
    answerIn port echo true r u = u := by
  unfold answerIn placeAnswer
  cases hcontext : u.ports[port].context with
  | executing lost => rw [hcontext] at h; cases h
  | idle | answered _ => rfl

/-- Settles O4: in EXECUTING, in IDLE and ANSWERED, and without a place. -/
theorem answersAreHeldInTheSlot : Obligations.AnswersAreHeldInTheSlot := by
  unfold Obligations.AnswersAreHeldInTheSlot
  intro port echo code payload u
  exact ⟨fun lost h => answerIn_executing h echo _, fun h => answerIn_discarded h echo _, rfl⟩

theorem exec_untaken {c : Instr} {port : Port} {n : Nat} {s : State} (hrequest : requestOf c = some (port, n))
    (h : takeRequest port c n s = none) : exec c s = .next (notTaken port n s) := by
  obtain ⟨echo, body, hexec⟩ := exec_request hrequest s
  rw [hexec, serveWith_untaken h]

theorem notTaken_transaction {port : Port} {s : State} (hr : s.resetActive = false) (hhand : s.ports[port].inHand = [])
    (hrest : s.ports[port].transfer = .none) (n : Nat) : notTaken port n s = shiftOut port (zeros (n + 3)) s := by
  simp [-Fin.getElem_fin, notTaken, hr, hhand, (atRest_iff _).mpr hrest]

theorem notTaken_none {port : Port} {s : State}
    (h : s.resetActive = true ∨ s.ports[port].inHand ≠ [] ∨ s.ports[port].transfer ≠ .none) (n : Nat) : notTaken port n s = s := by
  have hnone : (s.resetActive || !s.ports[port].inHand.isEmpty || !s.ports[port].atRest) = true := by
    simpa [-Fin.getElem_fin, PortUnit.atRest, or_assoc] using h
  exact if_pos hnone

/-- Settles O5: a request that is not taken is at most a transaction that shifts out the status byte and 00H. -/
theorem untakenRequestsReachNoBlock : Obligations.UntakenRequestsReachNoBlock := by
  unfold Obligations.UntakenRequestsReachNoBlock
  intro c port n s hrequest h
  refine ⟨fun hr hhand hrest => ?_, fun hnone => ?_⟩
  · rw [exec_untaken hrequest h, notTaken_transaction hr hhand hrest]; rfl
  · rw [exec_untaken hrequest h, notTaken_none hnone]

end Sys2Proof.Proofs
end

section
/-! SUPPORT. The transactions of a port, whole and in parts (R163, R164, R166 to R168; log 19): what the bytes of a frame make of the
port's unit, and the parts in a row as the whole transaction. -/

namespace Sys2Proof.Proofs

open Sys2Proof Sys2Proof.Machine Sys2Proof.Laws

/-! The context. -/

theorem isAnswered_iff (x : PortContext) : x.isAnswered = true ↔ ∃ a, x = .answered a := by
  cases x <;> simp [PortContext.isAnswered]

theorem isExecuting_iff (x : PortContext) : x.isExecuting = true ↔ ∃ lost, x = .executing lost := by
  cases x <;> simp [PortContext.isExecuting]

/-- R167: outside EXECUTING an answer stands in the slot unless the context is IDLE. -/
theorem isAnswered_eq {x : PortContext} (h : x.isExecuting = false) : x.isAnswered = decide (x ≠ .idle) := by
  cases x with
  | executing lost => cases h
  | idle | answered _ => simp [PortContext.isAnswered]

theorem take_eq {x : PortContext} (h : x.isExecuting = false) : x.take = .executing x.isAnswered := by
  cases x with
  | executing lost => cases h
  | idle | answered _ => rfl

/-! The bytes of a REQUEST transaction (R166, R167). -/

section Receive

variable (port : Port) {bytes : List Byte} {u : PortUnit}

/-- What the bytes make of a port unit depends on its context alone, and leaves what it shifts out and its transfer. -/
theorem receive_shifted (bytes : List Byte) (u : PortUnit) (out : List Byte) (x : Transfer) :
    ({ u with serialOut := out, transfer := x } : PortUnit).receive port bytes =
      { u.receive port bytes with serialOut := out, transfer := x } := by
  unfold PortUnit.receive; simp only; split
  · rfl
  · split
    · rfl
    · unfold PortUnit.takeFrame; split <;> rfl

theorem receive_serialOut (bytes : List Byte) (u : PortUnit) : (u.receive port bytes).serialOut = u.serialOut := by
  have hshifted := congrArg PortUnit.serialOut (receive_shifted port bytes u u.serialOut u.transfer)
  exact hshifted

theorem receive_executing (h : u.context.isExecuting = true) : u.receive port bytes = u := if_pos h

variable (h : u.context.isExecuting = false)
include h

theorem receive_failed {reason : FrameFault} {echo : Byte} (hv : judgeFrame bytes = .failed reason echo) :
    u.receive port bytes =
      { u with context := .answered ⟨.frameError, echo, u.context.isAnswered, [reason.code]⟩ } := by
  simp only [PortUnit.receive, h, Bool.false_eq_true, if_false, hv, PortUnit.answerNow]

variable {code : Byte} {payload : List Byte} (hv : judgeFrame bytes = .wellFormed code payload)
include hv

theorem receive_taken {c : Instr} (hc : decodeRequest port code payload = some c) :
    u.receive port bytes =
      { u with context := .executing u.context.isAnswered, inHand := u.inHand ++ [⟨c, true⟩] } := by
  simp only [PortUnit.receive, h, Bool.false_eq_true, if_false, hv, PortUnit.takeFrame, hc, take_eq h]

/-- R150: a WRITE_ENTRY that names no table. -/
theorem receive_untabled (hc : decodeRequest port code payload = none) :
    u.receive port bytes =
      { u with context := .answered ⟨.refused, code, u.context.isAnswered, [0x01#8, 0xFF#8]⟩ } := by
  simp only [PortUnit.receive, h, Bool.false_eq_true, if_false, hv, PortUnit.takeFrame, hc, PortUnit.answerNow]; rfl

end Receive

/-! The frame of a FETCH (R168, R173). -/

theorem fetchFrame_answered {x : PortContext} {a : Answer} (h : x = .answered a) : fetchFrame x = a.frame := by rw [h]; rfl

theorem fetchFrame_unanswered {x : PortContext} (h : ∀ a, x ≠ .answered a) : fetchFrame x = noResponseFrame := by
  cases x with
  | answered a => exact absurd rfl (h a)
  | idle | executing _ => rfl

theorem isAnswered_of_unanswered {x : PortContext} (h : ∀ a, x ≠ .answered a) : x.isAnswered = false := by
  rw [← Bool.not_eq_true, isAnswered_iff]; exact fun ⟨a, ha⟩ => h a ha

theorem fetchFrame_ne_nil (x : PortContext) : fetchFrame x ≠ [] := by
  cases x <;> exact List.cons_ne_nil _ _

/-- R168: the slot is emptied when its frame has left whole. -/
theorem fetched_eq (n : Nat) (u : PortUnit) : u.fetched n = { u with
    context := if u.context.isAnswered = true ∧ (fetchFrame u.context).length ≤ n then .idle else u.context } := by
  unfold PortUnit.fetched
  cases hcontext : u.context with
  | idle | executing _ => simp [PortContext.isAnswered, ← hcontext]
  | answered a =>
    simp only [PortContext.isAnswered, fetchFrame, true_and]
    split
    · rfl
    · rw [← hcontext]

/-! The whole transactions. -/

section Whole

variable (port : Port) (bytes : List Byte) (s : State)

theorem requestTransaction_eq : requestTransaction port bytes s = s.withPort port { s.ports[port].receive port bytes with
    serialOut := statusByte s port :: List.replicate bytes.length 0#8, transfer := s.ports[port].transfer } := by
  unfold requestTransaction
  rw [shiftOut_eq, onPort_eq, ports_withPort, withPort_withPort]
  exact congrArg _ (receive_shifted port bytes s.ports[port] _ s.ports[port].transfer)

theorem fetchTransaction_eq (n : Nat) : fetchTransaction port n s =
    let u := s.ports[port]
    let frame := fetchFrame u.context
    s.withPort port { u with
      context := if u.context.isAnswered = true ∧ frame.length ≤ n then .idle else u.context
      serialOut := statusByte s port :: (frame.take n ++ List.replicate (n - frame.length) 0#8) } := by
  simp only [fetchTransaction, shiftOut_eq, onPort_eq, ports_withPort, withPort_withPort, fetched_eq, zeros]

theorem transaction_status {kind : Byte} (hrequest : kind ≠ 0x02#8) (hfetch : kind ≠ 0x03#8) :
    transaction port kind bytes s = s.withPort port { s.ports[port] with
      serialOut := statusByte s port :: List.replicate bytes.length 0#8 } := by
  rw [transaction, if_neg hrequest, if_neg hfetch]; rfl

end Whole

/-! The parts. -/

section Parts

variable (port : Port) {u : PortUnit}

theorem beginTransaction_rest (h : u.transfer = .none) (b : Byte) :
    u.beginTransaction b = { u with transfer := .first b, serialOut := [] } := by
  rw [PortUnit.beginTransaction, h]

theorem takeKind_first {b : Byte} (h : u.transfer = .first b) (kind : Byte) :
    u.takeKind kind = { u with transfer := .ofKind kind u.context, serialOut := [b] } := by
  rw [PortUnit.takeKind, h]

theorem ofKind_status {kind : Byte} (hrequest : kind ≠ 0x02#8) (hfetch : kind ≠ 0x03#8) (x : PortContext) :
    Transfer.ofKind kind x = .ignored := by
  rw [Transfer.ofKind, if_neg hrequest, if_neg hfetch]

theorem takeByte_request {received : List Byte} (h : u.transfer = .request received) (b : Byte) :
    u.takeByte port b =
      if frameEnds (received ++ [b]) then
        { u.receive port (received ++ [b]) with serialOut := u.serialOut ++ [0#8], transfer := .ignored }
      else { u with serialOut := u.serialOut ++ [0#8], transfer := .request (received ++ [b]) } := by
  simp only [PortUnit.takeByte, h, PortUnit.shift, receive_serialOut]

theorem endTransaction_request {received : List Byte} (h : u.transfer = .request received) :
    u.endTransaction port = { u.receive port received with transfer := .none } := by
  rw [PortUnit.endTransaction, h]

theorem endTransaction_other {x : Transfer} (h : u.transfer = x) (hx : ∀ received, x ≠ .request received) :
    u.endTransaction port = { u with transfer := .none } := by
  unfold PortUnit.endTransaction
  split
  · next received hreceived => exact absurd (h.symm.trans hreceived) (hx received)
  · rfl

end Parts

/-! The parts in a row (log 19). -/

section Row

variable {port : Port} {s : State} (hrest : s.ports[port].transfer = .none)
include hrest

theorem takePart_row_request (bytes : List Byte) : PortUnit.endTransaction port (bytes.foldl (PortUnit.takeByte port)
      { s.ports[port] with transfer := .request [], serialOut := [statusByte s port] }) =
    { s.ports[port].receive port bytes with
      serialOut := statusByte s port :: List.replicate bytes.length 0#8, transfer := s.ports[port].transfer } := by
  rw [requestRow port bytes _ rfl, receive_shifted port bytes _ [statusByte s port] (.request []), hrest]; rfl

variable (hr : s.resetActive = false)
include hr

/-- The parts of a transaction, one after the other, are the whole transaction. -/
theorem takePart_row_whole (kind : Byte) (bytes : List Byte) :
    takePart port kind .closing (takePart port kind (.bytes bytes)
      (takePart port kind .kindByte (takePart port kind .opening s))) = takePart port kind (.whole bytes) s := by
  rw [takePart_row port kind hr hrest, takePart_whole port kind hr hrest]
  by_cases hrequest : kind = 0x02#8
  · subst hrequest
    exact (congrArg _ (takePart_row_request hrest bytes)).trans (requestTransaction_eq port bytes s).symm
  by_cases hfetch : kind = 0x03#8
  · subst hfetch
    refine Eq.trans (congrArg _ ?_) (fetchTransaction_eq port s bytes.length).symm
    rw [takeBytes_fetch port bytes (fetchFrame s.ports[port].context) s.ports[port].context.isAnswered _ rfl,
      endTransaction_other port (x := .fetch _ _) rfl nofun, ← hrest]
    simp only [ne_eq, fetchFrame_ne_nil, not_false_eq_true, true_and]; rfl
  · rw [ofKind_status hrequest hfetch, takeBytes_ignored port bytes _ rfl, endTransaction_other port (x := .ignored) rfl nofun,
      transaction_status port bytes s hrequest hfetch, ← hrest]; rfl

/-- The same of a command of the port's transactions. -/
theorem exec_row_whole {command : TransactionPart → Instr} {kind : Byte}
    (hexec : ∀ part t, exec (command part) t = .next (takePart port kind part t)) (bytes : List Byte) :
    ∃ t1 t2 t3, exec (command .opening) s = .next t1 ∧ exec (command .kindByte) t1 = .next t2 ∧
      exec (command (.bytes bytes)) t2 = .next t3 ∧
      exec (command .closing) t3 = exec (command (.whole bytes)) s := by
  refine ⟨_, _, _, hexec .opening s, hexec .kindByte _, hexec (.bytes bytes) _, ?_⟩
  rw [hexec, hexec, takePart_row_whole hrest hr]

end Row

end Sys2Proof.Proofs
end

section
/-! SUPPORT. The statements about transactions: STATUS (R164), FETCH (R168), and request frames that fail (R166), are discarded or are
taken (R167). -/

namespace Sys2Proof.Proofs

open Sys2Proof Sys2Proof.Machine Sys2Proof.Laws

/-! STATUS (R163, R164). -/

theorem wellFormed_status {port : Port} {kind : Byte} {part : TransactionPart}
    (h : WellFormed (.status port kind part) = true) : kind ≠ 0x02#8 ∧ kind ≠ 0x03#8 := by
  simpa [WellFormed] using h

theorem attention_iff (s : State) (port : Port) :
    attention s port = true ↔ s.notices[port].queue ≠ [] ∨ s.notices[port].overflow = true := by
  rw [attention, Bool.or_eq_true, Bool.not_eq_true', List.isEmpty_eq_false_iff]

/-- R164: the status byte, bit by bit. -/
theorem statusByte_bits (s : State) (port : Port) :
    ((statusByte s port).getLsbD 7 = true ↔ ∃ a, s.ports[port].context = .answered a) ∧
    ((statusByte s port).getLsbD 6 = true ↔ ∃ lost, s.ports[port].context = .executing lost) ∧
    ((statusByte s port).getLsbD 5 = true ↔ s.notices[port].queue ≠ [] ∨ s.notices[port].overflow = true) ∧
    ((statusByte s port).getLsbD 4 = true ↔ s.trip.state = .tripped) ∧
    ((statusByte s port).getLsbD 3 = true ↔ s.engine.state ≠ .running) ∧
    (statusByte s port).extractLsb' 0 3 = 0b010#3 := by
  have hbits : statusByte s port = BitVec.ofBool s.ports[port].context.isAnswered ++
      BitVec.ofBool s.ports[port].context.isExecuting ++ BitVec.ofBool (attention s port) ++
      BitVec.ofBool (decide (s.trip.state = .tripped)) ++ BitVec.ofBool (decide (s.engine.state ≠ .running)) ++ 0b010#3 := by
    unfold statusByte
    cases s.ports[port].context <;> rfl
  have hpacked : ∀ b7 b6 b5 b4 b3 : Bool,
      let b : Byte := BitVec.ofBool b7 ++ BitVec.ofBool b6 ++ BitVec.ofBool b5 ++ BitVec.ofBool b4 ++ BitVec.ofBool b3 ++ 0b010#3
      b.getLsbD 7 = b7 ∧ b.getLsbD 6 = b6 ∧ b.getLsbD 5 = b5 ∧ b.getLsbD 4 = b4 ∧ b.getLsbD 3 = b3 ∧
        b.extractLsb' 0 3 = 0b010#3 := by decide
  obtain ⟨h7, h6, h5, h4, h3, h0⟩ := hpacked _ _ _ _ _
  rw [hbits, h7, h6, h5, h4, h3, ← isAnswered_iff, ← isExecuting_iff, ← attention_iff, decide_eq_true_iff, decide_eq_true_iff]
  exact ⟨.rfl, .rfl, .rfl, .rfl, .rfl, h0⟩

/-- Settles O6: the bits of the status byte, then each part by its own lemma. -/
theorem statusTransactionsShowTheStatusByte : Obligations.StatusTransactionsShowTheStatusByte := by
  unfold Obligations.StatusTransactionsShowTheStatusByte
  intro port kind bytes s hwf hr u part
  obtain ⟨hrequest, hfetch⟩ := wellFormed_status hwf
  have hpart (x : TransactionPart) (t : State) : part x t = .next (takePart port kind x t) := rfl
  refine ⟨⟨statusByte s port, fun hrest => ⟨?_, ?_⟩, statusByte_bits s port⟩, fun b hfirst => ⟨?_, ?_⟩,
    fun hignored => ⟨?_, ?_⟩, fun hrest => exec_row_whole hrest hr hpart bytes⟩
  · rw [hpart, takePart_whole port kind hr hrest, transaction_status port bytes s hrequest hfetch]
  · rw [hpart, takePart_opening port kind hr, beginTransaction_rest hrest]
  · rw [hpart, takePart_kindByte port kind hr, takeKind_first hfirst, ofKind_status hrequest hfetch]
  · rw [hpart, takePart_closing port kind hr, endTransaction_other port hfirst nofun]
  · rw [hpart, takePart_bytes port kind hr, takeBytes_ignored port bytes _ hignored]
  · rw [hpart, takePart_closing port kind hr, endTransaction_other port hignored nofun]

/-! FETCH (R168, R173). -/

/-- Settles O7: the frame chosen by the context, its bytes by `takeBytes_fetch`, and the parts in a row. -/
theorem fetchesSendTheAnswerOrNoResponse : Obligations.FetchesSendTheAnswerOrNoResponse := by
  unfold Obligations.FetchesSendTheAnswerOrNoResponse
  intro port bytes s hr u n part code body noResponse sends
  have hpart (x : TransactionPart) (t : State) : part x t = .next (takePart port 0x03#8 x t) := rfl
  have hframe (a : Answer) : body a ++ [checkByte (body a)] = a.frame := by
    have hcode : code a.code = a.code.byte := by cases a.code <;> rfl
    simp only [body, hcode]; rfl
  have hnoResponse : noResponse = noResponseFrame := rfl
  have hlength (a : Answer) : (body a).length + 1 = a.frame.length :=
    (List.length_append (as := body a)).symm.trans (congrArg List.length (hframe a))
  have hwhole (hrest : u.transfer = .none) : part (.whole bytes) s = .next (sends (fetchFrame u.context)
      (if u.context.isAnswered = true ∧ (fetchFrame u.context).length ≤ n then .idle else u.context)) := by
    rw [hpart, takePart_whole port 0x03#8 hr hrest]
    exact congrArg _ (fetchTransaction_eq port s n)
  have hkind {b : Byte} (hfirst : u.transfer = .first b) : part .kindByte s = .next (s.withPort port
      { u with transfer := .fetch (fetchFrame u.context) u.context.isAnswered, serialOut := [b] }) := by
    rw [hpart, takePart_kindByte port 0x03#8 hr, takeKind_first hfirst]; rfl
  refine ⟨fun hrest => ⟨fun a ha => ?_, fun hunanswered => ?_, exec_row_whole hrest hr hpart bytes⟩,
    fun b hfirst => ⟨fun a ha => ?_, fun hunanswered => ?_⟩, fun rest answer hfetch => ⟨?_, ?_⟩⟩
  · rw [hwhole hrest, fetchFrame_answered ha, hframe, hlength]
    simp only [ha, PortContext.isAnswered, true_and]
  · rw [hwhole hrest, fetchFrame_unanswered hunanswered, isAnswered_of_unanswered hunanswered, hnoResponse]
    simp only [Bool.false_eq_true, false_and, if_false]
  · rw [hkind hfirst, fetchFrame_answered ha, hframe, (isAnswered_iff _).mpr ⟨a, ha⟩]
  · rw [hkind hfirst, fetchFrame_unanswered hunanswered, isAnswered_of_unanswered hunanswered, hnoResponse]
  · rw [hpart, takePart_bytes port 0x03#8 hr, takeBytes_fetch port bytes rest answer _ hfetch]
  · rw [hpart, takePart_closing port 0x03#8 hr, endTransaction_other port hfetch nofun]

/-! Request frames (R166, R167). -/

section Frame

variable {port : Port} {s : State} (hr : s.resetActive = false)
include hr

/-- R163: a whole REQUEST transaction. -/
theorem takePart_request_whole (hrest : s.ports[port].transfer = .none) (bytes : List Byte) :
    takePart port 0x02#8 (.whole bytes) s = s.withPort port { s.ports[port].receive port bytes with
      serialOut := statusByte s port :: List.replicate bytes.length 0#8, transfer := .none } := by
  rw [takePart_whole port 0x02#8 hr hrest, ← hrest]
  exact requestTransaction_eq port bytes s

variable {received : List Byte} (hrequest : s.ports[port].transfer = .request received)
include hrequest

/-- R166: the byte that ends a frame, whose verdict falls at once. -/
theorem takePart_lastByte {b : Byte} (hends : frameEnds (received ++ [b]) = true) (kind : Byte) :
    takePart port kind (.bytes [b]) s = s.withPort port { s.ports[port].receive port (received ++ [b]) with
      serialOut := s.ports[port].serialOut ++ [0#8], transfer := .ignored } := by
  rw [takePart_bytes port kind hr, List.foldl_cons, List.foldl_nil, takeByte_request port hrequest, if_pos hends]

/-- R166: a byte of a frame that goes on. -/
theorem takePart_nextByte {b : Byte} (hends : frameEnds (received ++ [b]) = false) (kind : Byte) :
    takePart port kind (.bytes [b]) s = s.withPort port { s.ports[port] with
      serialOut := s.ports[port].serialOut ++ [0#8], transfer := .request (received ++ [b]) } := by
  rw [takePart_bytes port kind hr, List.foldl_cons, List.foldl_nil, takeByte_request port hrequest,
    if_neg (ne_true_of_eq_false hends)]

theorem takePart_request_closing (kind : Byte) : takePart port kind .closing s =
    s.withPort port { s.ports[port].receive port received with transfer := .none } := by
  rw [takePart_closing port kind hr, endTransaction_request port hrequest]

end Frame

/-- Settles O9: each moment at which a frame's verdict falls, with `receive_failed`. -/
theorem failingFramesAreAnsweredFrameError : Obligations.FailingFramesAreAnsweredFrameError := by
  unfold Obligations.FailingFramesAreAnsweredFrameError
  intro port s hr u part answered
  have hpart (x : TransactionPart) (t : State) : part x t = .next (takePart port 0x02#8 x t) := rfl
  have hanswer (reason : FrameFault) (echo : Byte) (lost : Bool) :
      answered reason echo lost = .answered ⟨.frameError, echo, lost, [reason.code]⟩ := by cases reason <;> rfl
  refine ⟨fun hcontext => ⟨u.context.isAnswered, isAnswered_iff _, fun bytes reason echo hrest hv => ?_,
    fun received hrequest => ⟨fun b reason echo hends hv => ?_, fun hends => ?_⟩⟩, fun b hfirst => ?_,
    fun received b hrequest hends => ?_, frameEnds_iff⟩
  · rw [hpart, takePart_request_whole hr hrest, receive_failed port hcontext hv, hanswer, ← hrest]
  · rw [hpart, takePart_lastByte hr hrequest hends, receive_failed port hcontext hv, hanswer]
  · rw [hpart, takePart_request_closing hr hrequest, receive_failed port hcontext (judgeFrame_short hends)]; rfl
  · rw [hpart, takePart_kindByte port 0x02#8 hr, takeKind_first hfirst]; rfl
  · rw [hpart, takePart_nextByte hr hrequest hends]

/-- Settles O10: what the bytes make of the port's unit, at the end of a whole transaction and at the check byte alike. -/
theorem framesInExecutingAreDiscarded : Obligations.FramesInExecutingAreDiscarded := by
  unfold Obligations.FramesInExecutingAreDiscarded
  intro port s hr u part lost takes
  have hpart (x : TransactionPart) (t : State) : part x t = .next (takePart port 0x02#8 x t) := rfl
  have htakes (bytes out : List Byte) (x : Transfer) : takes (judgeFrame bytes) out x
      (.next (s.withPort port { u.receive port bytes with serialOut := out, transfer := x })) := by
    refine ⟨fun hexecuting => ?_, fun code payload c hcontext hv hc => ?_, fun code payload hcontext hv hc => ?_⟩
    · rw [receive_executing port hexecuting]
    · rw [receive_taken port hcontext hv hc, isAnswered_eq hcontext]
    · rw [receive_untabled port hcontext hv hc, isAnswered_eq hcontext]
  refine ⟨fun bytes hrest => ⟨?_, exec_row_whole hrest hr hpart bytes⟩, fun received b hrequest hends => ?_,
    fun received hrequest hexecuting => ?_, fun before after => ⟨_, hpart _ _, ?_⟩⟩
  · rw [hpart, takePart_request_whole hr hrest]
    exact htakes ..
  · rw [hpart, takePart_lastByte hr hrequest hends]
    exact htakes ..
  · rw [hpart, takePart_request_closing hr hrequest, receive_executing port hexecuting]
  · rw [hpart, hpart, takePart_bytes port 0x02#8 hr, takePart_bytes port 0x02#8 hr,
      takePart_bytes port 0x02#8 (by rw [resetActive_withPort, hr]), ports_withPort, withPort_withPort, List.foldl_append]

end Sys2Proof.Proofs
end

section
/-! SUPPORT. Notices and READ_STATUS: the arrival of a notice at its queue (R178, R131; log 13), the bytes of a notice and its removal by
READ_NOTICE (R174, R180), the notices of one event (R178), and the answer of READ_STATUS (R182). -/

namespace Sys2Proof.Proofs

open Sys2Proof Sys2Proof.Machine Sys2Proof.Laws

/-! The notice that arrives (R178, R131). -/

/-- R131: the notice may pass `m`, another maker's, on the way to the queue: RESUMED passes no rights withdrawal notice (log 13). -/
def MayPass (n : Notice) (m : FlyingNotice) : Prop :=
  ∀ epoch, n.body = .resumed epoch → ∀ p : PermitId,
    m.notice.body ≠ .revoked p .rightWithdrawn ∧ m.notice.body ≠ .waitEnded p .rightWithdrawn

theorem mustFollow_eq_false {maker : NoticeMaker} {n : Notice} {m : FlyingNotice} (h : m.maker ≠ maker) :
    mustFollow m ⟨maker, n⟩ = false ↔ MayPass n m := by
  unfold mustFollow MayPass
  split
  · next epoch p hlater hearlier => exact ⟨nofun, fun hp => absurd hearlier (hp epoch hlater p).1⟩
  · next epoch p hlater hearlier => exact ⟨nofun, fun hp => absurd hearlier (hp epoch hlater p).2⟩
  · next hrevoked hwaitEnded =>
    simp only [h, decide_false, true_iff]
    exact fun epoch he p => ⟨hrevoked epoch p he, hwaitEnded epoch p he⟩

section Way

variable {maker : NoticeMaker} {m : FlyingNotice}

theorem firstOf_own (h : m.maker = maker) (flying : List FlyingNotice) :
    firstOf maker (m :: flying) = some (m.notice, flying) := if_pos h

theorem firstOf_other (h : m.maker ≠ maker) {flying rest : List FlyingNotice} {n : Notice} :
    firstOf maker (m :: flying) = some (n, rest) ↔
      ∃ rest', firstOf maker flying = some (n, rest') ∧ MayPass n m ∧ rest = m :: rest' := by
  rw [firstOf, if_neg h]
  cases hfirst : firstOf maker flying with
  | none => simp
  | some found =>
    obtain ⟨n', rest'⟩ := found
    by_cases hpass : MayPass n' m
    · simp only [(mustFollow_eq_false h).mpr hpass, Bool.false_eq_true, if_false, Option.some.injEq, Prod.mk.injEq]
      constructor
      · rintro ⟨rfl, rfl⟩
        exact ⟨rest', ⟨rfl, rfl⟩, hpass, rfl⟩
      · rintro ⟨_, ⟨rfl, rfl⟩, _, rfl⟩
        exact ⟨rfl, rfl⟩
    · have hfollow : mustFollow m ⟨maker, n'⟩ = true := by rwa [← mustFollow_eq_false h, Bool.not_eq_false] at hpass
      simp only [hfollow, if_true, reduceCtorEq, false_iff]
      rintro ⟨_, ⟨⟩, hp, _⟩
      exact hpass hp

end Way

/-- R178: the notice taken is its maker's oldest, and may pass every notice before it. -/
theorem firstOf_eq_some {maker : NoticeMaker} {flying rest : List FlyingNotice} {n : Notice} :
    firstOf maker flying = some (n, rest) ↔ ∃ before after, flying = before ++ ⟨maker, n⟩ :: after ∧ rest = before ++ after ∧
      ∀ m ∈ before, m.maker ≠ maker ∧ MayPass n m := by
  induction flying generalizing rest with
  | nil => simp [firstOf]
  | cons m flying ih =>
    by_cases hm : m.maker = maker
    · rw [firstOf_own hm]
      constructor
      · rintro ⟨⟩
        exact ⟨[], flying, by rw [← hm]; rfl, rfl, nofun⟩
      · rintro ⟨_ | ⟨b, before⟩, after, hflying, rfl, hbefore⟩
        · cases hflying; rfl
        · cases hflying
          exact absurd hm (hbefore m List.mem_cons_self).1
    · rw [firstOf_other hm]
      constructor
      · rintro ⟨rest', hfirst, hpass, rfl⟩
        obtain ⟨before, after, rfl, rfl, hbefore⟩ := ih.mp hfirst
        exact ⟨m :: before, after, rfl, rfl, List.forall_mem_cons.mpr ⟨⟨hm, hpass⟩, hbefore⟩⟩
      · rintro ⟨_ | ⟨b, before⟩, after, hflying, rfl, hbefore⟩
        · cases hflying
          exact absurd rfl hm
        · cases hflying
          obtain ⟨⟨_, hpass⟩, hrest⟩ := List.forall_mem_cons.mp hbefore
          exact ⟨before ++ after, ih.mpr ⟨before, after, rfl, rfl, hrest⟩, hpass, rfl⟩

theorem exec_noticeArrival {s : State} (h : s.resetActive = false) (maker : NoticeMaker) (port : Port) :
    exec (.noticeArrival maker port) s = .next (takeNotice maker port s) := congrArg _ (unlessReset_inactive h _)

theorem arrive_eq (n : Notice) (q : NoticeQueue) :
    q.arrive n = if q.queue.length < 8 then ⟨q.queue ++ [n], q.overflow⟩ else ⟨q.queue, true⟩ := rfl

section Arrival

variable {maker : NoticeMaker} {port : Port} {s : State}

theorem takeNotice_some {n : Notice} {rest : List FlyingNotice} (h : firstOf maker s.flight.notices[port] = some (n, rest)) :
    takeNotice maker port s = { s with
      flight := { s.flight with notices := s.flight.notices.set port rest }
      notices := s.notices.set port (s.notices[port].arrive n) } := by
  rw [takeNotice, h]; rfl

theorem takeNotice_none (h : firstOf maker s.flight.notices[port] = none) : takeNotice maker port s = s := by
  rw [takeNotice, h]

end Arrival

/-- Settles O12: the notice taken by `firstOf_eq_some`, its queue by `arrive_eq`. -/
theorem noticesArriveAtTheirQueue : Obligations.NoticesArriveAtTheirQueue := by
  unfold Obligations.NoticesArriveAtTheirQueue
  refine ⟨fun maker flying n rest => ?_, fun maker port s hr => ⟨fun n rest hfirst => ?_, fun hnone => ?_⟩⟩
  · have hbefore (before : List FlyingNotice) : (∀ m ∈ before, m.maker ≠ maker ∧ MayPass n m) ↔
        (∀ m ∈ before, m.maker ≠ maker) ∧ ∀ epoch, n.body = .resumed epoch → ∀ m ∈ before, ∀ p : PermitId,
          m.notice.body ≠ .revoked p .rightWithdrawn ∧ m.notice.body ≠ .waitEnded p .rightWithdrawn :=
      forall₂_and.trans (and_congr_right' ⟨fun h epoch he m hm => h m hm epoch he, fun h m hm epoch he => h epoch he m hm⟩)
    simp only [firstOf_eq_some, hbefore]
  · rw [exec_noticeArrival hr, takeNotice_some hfirst, arrive_eq]
  · rw [exec_noticeArrival hr, takeNotice_none hnone]

/-! READ_NOTICE (R174, R180). -/

theorem resumed_bytes (e : Word16) : (NoticeBody.resumed e).bytes =
    [0x08#8, 0xFF#8, 0x00#8, 0xFF#8, e.extractLsb' 8 8, e.extractLsb' 0 8] := by
  rw [NoticeBody.bytes, bytesOf_two]; rfl

theorem notice_bytes (n : Notice) : n.bytes = n.body.bytes ++
    [n.count.extractLsb' 24 8, n.count.extractLsb' 16 8, n.count.extractLsb' 8 8, n.count.extractLsb' 0 8] := by
  rw [Notice.bytes, bytesOf_four]

section Queue

variable {port : Port} {u : State}

theorem readNoticeBody_oldest {n : Notice} {rest : List Notice} (h : u.notices[port].queue = n :: rest) :
    readNoticeBody port u = ({ u with notices := u.notices.set port ⟨rest, false⟩ },
      some ⟨.ok, n.bytes ++ [boolByte u.notices[port].overflow, numByte rest.length]⟩) := by
  simp only [readNoticeBody, h, okReply]

/-- The notice NONE, whose pass count is free (log 14). -/
theorem readNoticeBody_none (h : u.notices[port].queue = []) :
    readNoticeBody port u = ({ u with notices := u.notices.set port ⟨[], false⟩, freeCount := u.freeCount + 4 },
      some ⟨.ok, noneNotice u.freeCount ++ [boolByte u.notices[port].overflow, 0#8]⟩) := by
  simp only [readNoticeBody, h, okReply]

/-- R179: with the overflow flag clear, the port asks for attention while notices remain. -/
theorem attention_of_queue {rest : List Notice} (h : u.notices[port] = ⟨rest, false⟩) :
    attention u port = true ↔ rest ≠ [] := by
  rw [attention_iff, h]
  simp only [Bool.false_eq_true, or_false]

end Queue

/-- Settles O13: the queue's two cases, with the bytes of a notice by its kind. -/
theorem readNoticeTakesTheOldestNotice : Obligations.ReadNoticeTakesTheOldestNotice := by
  unfold Obligations.ReadNoticeTakesTheOldestNotice
  intro port s u live h number cause halt ended body bytes overflow
  have hbody (b : NoticeBody) : b.bytes = body b := by
    cases b with
    | granted | late | tripCleared => rfl
    | revoked _ c | waitEnded _ c | tripped c | halted c => cases c <;> rfl
    | resumed e => exact resumed_bytes e
  have hbytes (n : Notice) : n.bytes = bytes n := by rw [notice_bytes, hbody]
  have hqueue (q : NoticeQueue) : (u.notices.set port q)[port] = q := by rw [get_set, if_pos rfl]
  refine ⟨fun n rest hq => ?_, fun hq => ?_⟩
  · have hexec := exec_of_answer rfl h (readNoticeBody_oldest hq)
    rw [hbytes] at hexec
    exact ⟨_, hexec, rfl, attention_of_queue (hqueue _)⟩
  · exact ⟨_, _, _, _, _, exec_of_answer rfl h (readNoticeBody_none hq), rfl,
      Bool.eq_false_of_not_eq_true ((attention_of_queue (hqueue _)).not.mpr (not_not_intro rfl))⟩

/-! READ_STATUS (R182). -/

theorem rights_eq (p : Profile) :
    p.rights = BitVec.ofNat 8 (p.configure.toNat + 2 * p.maintain.toNat + 4 * p.clear.toNat) := by
  simp only [Profile.rights, flagByte, packBits]
  congr 1
  omega

theorem statusPayload_eq (u : State) (port : Port) : statusPayload u port =
    [u.engine.state.code, u.trip.state.code, u.config.epoch.extractLsb' 8 8, u.config.epoch.extractLsb' 0 8,
      boolByte u.config.modified, u.eval.passCount.extractLsb' 24 8, u.eval.passCount.extractLsb' 16 8,
      u.eval.passCount.extractLsb' 8 8, u.eval.passCount.extractLsb' 0 8, u.config.profilesInUse[port].rights,
      numByte u.notices[port].queue.length, boolByte u.notices[port].overflow] := by
  rw [statusPayload, bytesOf_two, bytesOf_four]; rfl

/-- Settles O14: the payload field by field, and no field changed by `exec_of_read`. -/
theorem readStatusReportsEightFields : Obligations.ReadStatusReportsEightFields := by
  unfold Obligations.ReadStatusReportsEightFields
  intro port s u live h engine trip p rights
  have hengine : u.engine.state.code = engine := by
    simp only [engine]; cases u.engine.state <;> rfl
  have htrip : u.trip.state.code = trip := by
    simp only [trip]; cases u.trip.state <;> rfl
  have hrights : u.config.profilesInUse[port].rights = rights := rights_eq p
  have hexec : exec (.readStatus port) s = .next (answerIn port 0x01#8 live ⟨.ok, statusPayload u port⟩ u) :=
    exec_of_read rfl h rfl
  rw [hexec, statusPayload_eq, hengine, htrip, hrights]
  rfl

/-! The notices of one event (R178, R50, R96). -/

/-- Settles O26, by `flyAll_get` (an induction on the notices made) and the equation of `commitWork`. -/
theorem eventsHandOnTheirNoticesInOrder : Obligations.EventsHandOnTheirNoticesInOrder := by
  unfold Obligations.EventsHandOnTheirNoticesInOrder
  exact ⟨flyAll_get, commitWork_eq⟩

end Sys2Proof.Proofs
end

section
/-! SUPPORT. A step on a queue that holds a command (00_scope.md, functional overview; log 21), beside `step_empty` of an empty one. -/

namespace Sys2Proof.Proofs

open Sys2Proof Sys2Proof.Machine

/-- A step on a queue with a command at its front. -/
theorem step_front {s : State} {c : Instr} {rest : List Instr} (h : s.pending = c :: rest) :
    step s = exec c { s with pending := rest } := by
  unfold step; rw [h]

/-- Settles O1: the queue's case of `step` with a command at its front. -/
theorem stepTakesTheFrontCommand : Obligations.StepTakesTheFrontCommand := by
  unfold Obligations.StepTakesTheFrontCommand
  intro c rest s hpending
  exact step_front hpending

end Sys2Proof.Proofs
end
